-- ==== Sys2Proof/Word.lean ====
section
/-! DEFINITION. The words of the LN2416: a byte, and a table with a value for every number, most of them at a reset value. -/

namespace Sys2Proof

/-- A byte of a timeslot or of a message (00 Conventions). -/
abbrev Byte := BitVec 8

/-- A table indexed by numbers: the entries that differ from the table's reset value, numbers rising
(the canonical form is `Tbl.wf`, Machine/Tables.lean; log 32). -/
abbrev Tbl (α : Type) := List (Nat × α)

/-- What the inbound lanes carried in one frame: for each lane the bytes of its timeslots, from timeslot 0 (02 R23). -/
abbrev FrameIn := List (List Byte)

end Sys2Proof
end

