-- ==== Sys2Proof/Syntax.lean ====
section
/-! DEFINITION. The commands of the LN2416: one constructor for each row of spec/opcode_table.json. -/

namespace Sys2Proof

/-- The blocks that raise attention (09 R172, table). -/
inductive RaiseBlock where
  | switch | supervisor | watcherUnit | manager
deriving DecidableEq, Repr

/-- The blocks that acknowledge a soft reset (10 R199). -/
inductive ResetBlock where
  | manager | watcherUnit | attention
deriving DecidableEq, Repr

/-- The commands. A port transaction has as operand the bytes the host clocks after the code byte (10 R185).
A request row is the owner's taking of the request at the head of its routing queue (10 R193): its content is the slot's
request area, so it has no operand. A row for an internal message is the taking of that message by its block. -/
inductive Instr where
  /-- READ_STATUS (10 R186) -/
  | readStatus (mosi : List Byte)
  /-- WRITE_SLOT n (10 R187): the offset byte, then the data -/
  | writeSlot (n : Fin 4) (mosi : List Byte)
  /-- READ_SLOT n (10 R188): the offset byte, then one byte for each byte read -/
  | readSlot (n : Fin 4) (mosi : List Byte)
  /-- SUBMIT n (10 R189) -/
  | submit (n : Fin 4) (mosi : List Byte)
  /-- CLEAR_SLOT n (10 R190) -/
  | clearSlot (n : Fin 4) (mosi : List Byte)
  /-- CLEAR_PORT_FAULTS (10 R190) -/
  | clearPortFaults (mosi : List Byte)
  /-- a transaction whose code byte names none (10 R185) -/
  | unknownTransactionCode (code : Byte) (mosi : List Byte)
  /-- OPEN (03 R49) -/
  | openCircuit
  /-- OPEN_PAIR (03 R52) -/
  | openPair
  /-- ADD_LEG (03 R60) -/
  | addLeg
  /-- DROP_LEG (03 R61) -/
  | dropLeg
  /-- MOVE_SOURCE (03 R63) -/
  | moveSource
  /-- HOLD (03 R66) -/
  | hold
  /-- RESUME (03 R67) -/
  | resume
  /-- RELEASE (05 R91) -/
  | release
  /-- TOUCH (05 R105) -/
  | touch
  /-- QUERY (01 R19) -/
  | query
  /-- FIND_OUT (01 R20) -/
  | findOut
  /-- FIND_IN (01 R21) -/
  | findIn
  /-- ACCESS_END (08 R167) -/
  | accessEnd
  /-- GEN_SET (02 R40) -/
  | genSet
  /-- LANE_SET (06 R114) -/
  | laneSet
  /-- LANE_QUERY (06 R115) -/
  | laneQuery
  /-- WATCH_SET (07 R140) -/
  | watchSet
  /-- WATCH_ARM (07 R142) -/
  | watchArm
  /-- WATCH_DISARM (07 R143) -/
  | watchDisarm
  /-- WATCH_QUERY (07 R144) -/
  | watchQuery
  /-- COLLECT (09 R176) -/
  | collect
  /-- MASK_SET (09 R179) -/
  | maskSet
  /-- CONFIG (10 R197) -/
  | config
  /-- IDENT (10 R198) -/
  | ident
  /-- SOFT_RESET (10 R199) -/
  | softReset
  /-- HELD_CLAIM_TAKEN (03 R69) -/
  | heldClaimTaken
  /-- HARD_RESET: RST_N falls (10 R203) -/
  | hardReset
  /-- TINIT_END (10 R203) -/
  | tinitEnd
  /-- OE_N_CHANGE (10 R205): the new level of the pin -/
  | oeNChange (high : Bool)
  /-- FSYNC_IN_LOCKED (02 R25): an FSYNC at master-clock instant t -/
  | fsyncInLocked (t : Nat)
  /-- FSYNC_MISSED (02 R25) -/
  | fsyncMissed
  /-- FSYNC_IN_FREERUN (02 R26): an FSYNC at instant t; rx is what the lanes carry in the frame in progress, of which the part
  before t is received if this FSYNC locks -/
  | fsyncInFreerun (t : Nat) (rx : FrameIn)
  /-- CANDIDATE_POSITION_PASSED (02 R26) -/
  | candidatePositionPassed
  /-- FRAME_BOUNDARY (02 R34): rx is what the lanes carried in the frame that ends here -/
  | frameBoundary (rx : FrameIn)
  /-- CLEAR_DOWN_RUN_OUT (05 R97) -/
  | clearDownRunOut
  /-- CLEARANCE_ORDER (02 R36) -/
  | clearanceOrder
  /-- BOUNDARY_REPORT (03 R59) -/
  | boundaryReport
  /-- TOKEN_NOTICE (04 R79), taken by unit u: before the frame that starts at its boundary starts, or later -/
  | tokenNotice (u : Fin 4) (atBoundary : Bool)
  /-- CLEAR_DOWN_END (05 R98) -/
  | clearDownEnd
  /-- LANE_FRAME_JUDGEMENT of one lane (06 R109) -/
  | laneFrameJudgement (l : Fin 16)
  /-- LANE_CHANGE_CLAIM of one lane (06 R116) -/
  | laneChangeClaim (l : Fin 16)
  /-- WATCHER_LANE_CHANGE_REPORT of one lane (06 R119) -/
  | watcherLaneChangeReport (l : Fin 16)
  /-- VERIFIER_LANE_CHANGE_REPORT of one lane (06 R120) -/
  | verifierLaneChangeReport (l : Fin 16)
  /-- LEASE_EVENT (05 R103) -/
  | leaseEvent
  /-- EXPIRY_CLAIM (05 R104) -/
  | expiryClaim
  /-- TOKEN_FRAME_END of one unit (04 R80) -/
  | tokenFrameEnd (u : Fin 4)
  /-- VERIFY_TIMEOUT of one unit (04 R81) -/
  | verifyTimeout (u : Fin 4)
  /-- DETECTED_OUTCOME (04 R84) -/
  | detectedOutcome
  /-- VERIFY_FAILURE_OUTCOME (04 R85) -/
  | verifyFailureOutcome
  /-- WATCHER_SAMPLE of one chain member (07 R125) -/
  | watcherSample (w : Fin 64)
  /-- INTERVAL_END of the chain of head w (07 R129) -/
  | intervalEnd (w : Fin 64)
  /-- RELEASE_LINKED_CLAIM (07 R137) -/
  | releaseLinkedClaim
  /-- HOLD_LINKED_CLAIM (07 R138) -/
  | holdLinkedClaim
  /-- SUPPRESSION_CLAIM (08 R150) -/
  | suppressionClaim
  /-- ACCESS_CLAIM (08 R151) -/
  | accessClaim
  /-- END_OF_ACCESS_CLAIM (08 R166) -/
  | endOfAccessClaim
  /-- ARMING_ORDER (08 R157) -/
  | armingOrder
  /-- DISARMING_ORDER (08 R165) -/
  | disarmingOrder
  /-- RETURN_ORDER (08 R165) -/
  | returnOrder
  /-- SOFT_RESET_CLAIM (01 R22) -/
  | softResetClaim
  /-- WATCHER_SOFT_RESET_ORDER (07 R147) -/
  | watcherSoftResetOrder
  /-- ATTENTION_SOFT_RESET_ORDER (09 R182) -/
  | attentionSoftResetOrder
  /-- SOFT_RESET_ACKNOWLEDGEMENT of one block (10 R201) -/
  | softResetAcknowledgement (b : ResetBlock)
  /-- CLEARANCE_DONE_REPORT (10 R201) -/
  | clearanceDoneReport
  /-- ATTENTION_RAISE of one block (09 R172) -/
  | attentionRaise (b : RaiseBlock)
  /-- RST_N_RELEASE (10 R203) -/
  | rstNRelease
deriving DecidableEq, Repr

end Sys2Proof
end

