-- ==== Sys2Proof/Decode.lean ====
section
/-! DEFINITION. Reading commands from bits: the bits of bytes, the transaction that the bits received on the port make, and the host's word decoder.
(The messages that a request slot holds are read by Machine/Operands.lean.) -/

namespace Sys2Proof

/-- The bits of a byte, most significant first, on the lanes (02 R23) and on the port (10 R185). -/
def bitsOf (b : Byte) : List Bool := (List.range 8).map fun j => b.getLsbD (7 - j)

/-- The byte of eight bits, the first most significant: on the port (10 R185) and in a generator's sequence (02 R38, R39). -/
def byteOfBits (l : List Bool) : Byte := l.foldl (fun b x => b <<< 1 ||| (if x then 1 else 0)) 0

/-- The whole bytes that received bits make, most significant bit first; a byte left incomplete is discarded (10 R185). -/
def bytesOfBits : List Bool → List Byte
  | b7 :: b6 :: b5 :: b4 :: b3 :: b2 :: b1 :: b0 :: rest => byteOfBits [b7, b6, b5, b4, b3, b2, b1, b0] :: bytesOfBits rest
  | _ => []

/-- The transaction that a code byte names, with the bytes received after it: READ_STATUS 5Ah, CLEAR_PORT_FAULTS 6Ch, and for slot n
WRITE_SLOT 10h + n, SUBMIT 20h + n, READ_SLOT 30h + n, CLEAR_SLOT 40h + n; any other code names none (10 R185, 10.8 Transaction codes). -/
def portCommand (code : Byte) (mosi : List Byte) : Instr :=
  if code = 0x5A then .readStatus mosi
  else if code = 0x6C then .clearPortFaults mosi
  else if h : code.toNat % 16 < 4 then
    match code.toNat / 16 with
    | 1 => .writeSlot ⟨code.toNat % 16, h⟩ mosi
    | 2 => .submit ⟨code.toNat % 16, h⟩ mosi
    | 3 => .readSlot ⟨code.toNat % 16, h⟩ mosi
    | 4 => .clearSlot ⟨code.toNat % 16, h⟩ mosi
    | _ => .unknownTransactionCode code mosi
  else .unknownTransactionCode code mosi

/-- The command of a transaction, given the whole bytes received between the fall and the rise of CS_N; without a whole code byte the
transaction does nothing (10 R185). -/
def portTransaction : List Byte → Option Instr
  | [] => none
  | code :: mosi => some (portCommand code mosi)

/-- The command of a transaction, given the bits received on MOSI, one at each rising edge of SCLK while CS_N is low (10 R185). -/
def portSelection (mosi : List Bool) : Option Instr := portTransaction (bytesOfBits mosi)

/-- The code bytes that name a transaction (10 R185). -/
def knownCode (code : Byte) : Bool :=
  match portCommand code [] with
  | .unknownTransactionCode _ _ => false
  | _ => true

/-- The command that a word spells by the table's bits: none, since no row of spec/opcode_table.json has bits. -/
def decodeTableWord (_nbits _w : Nat) : Option Instr := none

end Sys2Proof
end

