-- ==== Sys2Proof/Config.lean ====
section
/-! DEFINITION. The fixed numbers of the LN2416 (00 Organisation). The manual leaves no value free, so nothing here is opaque. -/

namespace Sys2Proof.Config

/-- Circuit records 0-511 (01 R1). -/
def records : Nat := 512
/-- First record of the test pool; records below it are the control pool (01 R1). -/
def testPool : Nat := 480
/-- Timeslots per lane per frame (02 R23). -/
def timeslots : Nat := 48
/-- Lanes in each direction (02 R23). -/
def lanes : Nat := 16
/-- Legs per circuit (01 R2). -/
def maxLegs : Nat := 4
/-- Circuits per inbound slot as source (01 R18). -/
def fanoutLimit : Nat := 8
/-- Entries of the pending-change list (02 R31). -/
def listRoom : Nat := 96
/-- The offer limit (03 R58). -/
def offerLimit : Nat := 8
/-- Entries of the verify wait list (04 R77). -/
def waitRoom : Nat := 8
/-- Verify units (04 4.1). -/
def units : Nat := 4
/-- Pattern watchers (07 7.1). -/
def watchers : Nat := 64
/-- Generators (02 2.8). -/
def generators : Nat := 6
/-- Request slots (10). -/
def slots : Nat := 4
/-- Attention entities (09 9.1). -/
def entities : Nat := 593
/-- Frames of a watcher interval (07 R125). -/
def interval : Nat := 800
/-- Master-clock periods of a frame (02 2.2). -/
def framePeriods : Nat := 3072
/-- Master-clock periods of a lane bit: BCLK is MCLK / 8 (10 R205). -/
def bitPeriods : Nat := 8
/-- Master-clock periods of a second (05 R102). -/
def secondPeriods : Nat := 24576000
/-- Frames of a unit of 10 ms (05 R97). -/
def unitFrames : Nat := 80
/-- Consecutive misses that unlock the frame timing (02 R25). -/
def missLimit : Nat := 8
/-- FSYNCs of a run that lock the frame timing (02 R26). -/
def runLimit : Nat := 4

end Sys2Proof.Config
end

