-- ==== Sys2Proof/Machine/State.lean ====
section
/-! DEFINITION. The state of the LN2416: what each block owns, the messages on their way between blocks, and the queue of commands.
INVENTORY.md lists every piece with its rule and reset value. -/

namespace Sys2Proof.Machine

/-! ### Slots, handles, sources -/

/-- A timeslot of a lane (02 R23). Inbound and outbound slots are written alike; the pair of a slot is the same lane and timeslot (R24). -/
structure Slot where
  lane : Fin 16
  ts : Fin 48
deriving DecidableEq, Repr

/-- A circuit handle: record number and generation (01 1.3). -/
structure Handle where
  num : Nat
  gen : BitVec 16
deriving DecidableEq, Repr

/-- What a circuit takes its traffic from (01 R5). -/
inductive Source where
  | inbound (s : Slot)
  | gen (n : Fin 6)
deriving DecidableEq, Repr

/-! ### Circuit records (01) -/

/-- The eight circuit states (01 1.2). -/
inductive CircState where
  | free | making | verifyWait | verifying | active | held | releasing | breaking
deriving DecidableEq, Repr

/-- The four leg states (01 R2). -/
inductive LegState where
  | making | live | breaking | displaced
deriving DecidableEq, Repr

/-- The three classes (01 R1). -/
inductive CircClass where
  | normal | priority | test
deriving DecidableEq, Repr

/-- The drive target (03 R65). -/
inductive Target where
  | source | hold
deriving DecidableEq, Repr

/-- A leg of a circuit (01 R2). -/
structure Leg where
  slot : Slot
  st : LegState
  /-- the leg is BREAKING and its slot was given to another record in the same claim, so it no longer holds the slot (03 R55, 08 R162; log 13) -/
  yielded : Bool
  /-- on a DISPLACED leg, the number of the displacing TEST record (01 R7) -/
  link : Option Nat
deriving DecidableEq, Repr

/-- The verify field of a record (01 R6): return slot, and tVFY in units of 10 ms. -/
structure VerifyField where
  ret : Slot
  tvfy : Nat
deriving DecidableEq, Repr

/-- The opening answer (03 R44): the request slot and submission to answer, with the handles to report, X first. -/
structure OpenAnswer where
  slot : Fin 4
  sub : Nat
  handles : List Handle
deriving DecidableEq, Repr

/-- The release answer (05 R96, 08 R167): the request slot and submission to answer and what to report. `loop` is given for an ACCESS_END. -/
structure ReleaseAnswer where
  slot : Fin 4
  sub : Nat
  handle : Handle
  loop : Option Slot
  other : Option Handle
deriving DecidableEq, Repr

/-- A circuit record (01 table 1.1). Its number is its place in the table, and its origin follows from the number (R1). -/
structure Rec where
  gen : BitVec 16
  st : CircState
  cls : CircClass
  preemptable : Bool
  source : Option Source
  legs : List Leg
  partner : Option Nat
  cond : Byte
  holdB : Byte
  rel : Byte
  clearDown : Nat
  lease : Option Nat
  reload : Option Nat
  verify : Option VerifyField
  fault : Bool
  /-- on a TEST record: the displaced owner and the loop slot (01 R7) -/
  displ : Option (Nat × Slot)
  watcher : Option Nat
  tag : BitVec 16
  target : Option Target
  /-- clear-down of this release, in units of 10 ms (05 R93) -/
  clearOf : Option Nat
  roundTrip : Option Nat
  openAns : Option OpenAnswer
  relAns : Option ReleaseAnswer
  /-- on a TEST record from its end claim until FREE: the owner it displaced then, and the loop slot (08 R164; log 14) -/
  restoring : Option (Handle × Slot)
  /-- on a TEST record: the down watcher of its access, as the access claim named it (08 R157, R164; log 44) -/
  down : Option Nat
deriving DecidableEq, Repr

/-- A FREE record of a generation: every other field at its free value (01 table 1.1). -/
def Rec.free (gen : BitVec 16) : Rec where
  gen := gen
  st := .free
  cls := .normal
  preemptable := false
  source := none
  legs := []
  partner := none
  cond := 0
  holdB := 0
  rel := 0
  clearDown := 0
  lease := none
  reload := none
  verify := none
  fault := false
  displ := none
  watcher := none
  tag := 0
  target := none
  clearOf := none
  roundTrip := none
  openAns := none
  relAns := none
  restoring := none
  down := none

/-! ### Slot map and pending-change list (02) -/

/-- The drive modes (02 R28). -/
inductive Drive where
  | idle | source | hold | release | token
deriving DecidableEq, Repr

/-- A slot map entry (02 R28). The leg of the owner is named by the slot the entry is for. -/
structure Content where
  owner : Option Handle
  drive : Drive
  source : Option Source
  cond : Byte
  holdB : Byte
  rel : Byte
  unit : Option (Fin 4)
deriving DecidableEq, Repr

/-- The hard-reset content of an entry: no owner, IDLE (02 R36). -/
def Content.idle : Content where
  owner := none
  drive := .idle
  source := none
  cond := 0
  holdB := 0
  rel := 0
  unit := none

/-- What an outcome tells its circuit (02 R31). -/
inductive OutcomeKind where
  | made | broken | changed
deriving DecidableEq, Repr

/-- An outcome of a pending-change entry (02 R31). -/
structure LegOutcome where
  h : Handle
  kind : OutcomeKind
deriving DecidableEq, Repr

/-- A pending-change entry (02 R31). -/
structure Entry where
  slot : Slot
  content : Content
  outcomes : List LegOutcome
deriving DecidableEq, Repr

/-- A boundary report: for every entry applied, its slot and outcomes (02 R35). -/
abbrev Report := List (Slot × List LegOutcome)

/-- A clear-down order or count (05 R97): the handle it names, its length in frames, whether the boundary that starts it has come, and
the frames counted. -/
structure ClearCount where
  h : Handle
  n : Nat
  started : Bool
  done : Nat
deriving DecidableEq, Repr

/-- A token notice to a unit (04 R79). `fresh`: no boundary has come since the one that sent it. -/
structure Notice where
  unit : Fin 4
  slot : Slot
  h : Handle
  fresh : Bool
deriving DecidableEq, Repr

/-- Which clearance order of a SOFT_RESET: the engine's, or the one given in the manager's soft reset claim (10 R199). -/
inductive ClearanceName where
  | engine (id : Nat)
  | manager (id : Nat)
deriving DecidableEq, Repr

/-- An offer the switch declined and keeps (03 R69), with its clear-down order (05 R97). `room`: a boundary has made room since. -/
structure Kept where
  offer : List Entry
  order : Option ClearCount
  room : Bool
deriving DecidableEq, Repr

/-- The switch (02): slot map, pending-change list, frame timing, stored inbound bytes, clear-down counts, and the messages it has sent. -/
structure Switch where
  map : Tbl Content
  list : List Entry
  kept : Option Kept
  locked : Bool
  missed : Nat
  cand : Option Nat
  run : Nat
  /-- instant of the last internal frame boundary, in master-clock periods from the end of tINIT (log 8) -/
  boundaryAt : Nat
  /-- instant at which an FSYNC in LOCKED has placed the coming boundary (02 R25) -/
  align : Option Nat
  /-- a whole frame is in progress -/
  inFrame : Bool
  /-- the byte stored of each inbound slot: 16 lanes of 48 (02 R23) -/
  stored : FrameIn
  /-- the idle byte in force in the frame in progress (02 R29 Note 1) -/
  idle : Byte
  counts : List ClearCount
  /-- the clearance orders the marked clearance answers; none when no clearance is marked (02 R36, 10 R201) -/
  clearance : List ClearanceName
  reports : List Report
  ends : List Handle
  notices : List Notice
  cleared : List (List ClearanceName)
  /-- FSO pulses given (10 R205; log 29) -/
  fso : Nat
deriving DecidableEq, Repr

/-! ### Generators (02 2.8) -/

/-- The generator kinds. -/
inductive GenKind where
  | off | fixed | prbs | code
deriving DecidableEq, Repr

/-- A generator. `out` is its byte in the frame in progress (02 R37). -/
structure Generator where
  kind : GenKind
  fixed : Byte
  seed : BitVec 16
  /-- stage i is bit i - 1 (02 R38) -/
  reg : BitVec 15
  len : Nat
  value : Byte
  phase : Nat
  flag : Bool
  out : Byte
deriving DecidableEq, Repr

/-- The hard-reset values (02 R42). -/
def Generator.initial : Generator where
  kind := .off
  fixed := 0
  seed := 0x7FFF
  reg := 0x7FFF
  len := 8
  value := 0
  phase := 0
  flag := false
  out := 0xFF

/-! ### Lanes (06) -/

/-- The lane states (06 6.2). -/
inductive LaneState where
  | lost | restoring | up
deriving DecidableEq, Repr

/-- An inbound lane at the lane supervisor (06 6.2). -/
structure Lane where
  st : LaneState
  tlos : Nat
  trsq : Nat
  absent : Nat
  presence : Nat
  /-- the last bit received (06 R109) -/
  lastBit : Bool
  /-- the frame that ended was present, and its judgement has not been taken (06 R109; log 5) -/
  ended : Option Bool
deriving DecidableEq, Repr

/-- The hard-reset values (06 R121). -/
def Lane.initial : Lane where
  st := .lost
  tlos := 32
  trsq := 10
  absent := 0
  presence := 0
  lastBit := false
  ended := none

/-- A lane-change report on its way (06 R112). -/
structure LaneReport where
  lane : Fin 16
  st : LaneState
deriving DecidableEq, Repr

/-- The lane supervisor: its lanes, and its reports on their way to the three blocks (06 R112). -/
structure Supervisor where
  lanes : Tbl Lane
  toManager : List LaneReport
  toWatchers : List LaneReport
  toVerifier : List LaneReport
deriving DecidableEq, Repr

/-! ### Path verifier (04) -/

/-- The unit states (04 R72). -/
inductive UnitState where
  | idle | sending | done
deriving DecidableEq, Repr

/-- The outcomes of a unit (04 4.1). -/
inductive VerifyOutcome where
  | detected (roundTrip : Nat)
  | timedOut
  | returnLost
deriving DecidableEq, Repr

/-- A verify unit (04 4.1). -/
structure VerifyUnit where
  st : UnitState
  circuit : Option Handle
  ret : Option Slot
  limit : Nat
  started : Bool
  /-- number of the current token frame; 0 before token frame 1 -/
  count : Nat
  /-- the token frame that has ended and whose frame-end event has not been taken (log 5, log 19) -/
  due : Option Nat
  rx : List Byte
  outcome : Option VerifyOutcome
  /-- position of the token byte of the frame in progress (04 R72) -/
  pos : Option Nat
  /-- the token byte presented in the frame in progress; none: the idle byte (04 R72; log 20) -/
  shown : Option Byte
deriving DecidableEq, Repr

/-- An IDLE unit (04 R90). -/
def VerifyUnit.idle : VerifyUnit where
  st := .idle
  circuit := none
  ret := none
  limit := 0
  started := false
  count := 0
  due := none
  rx := []
  outcome := none
  pos := none
  shown := none

/-- An outcome claim (04 R83). -/
structure OutcomeClaim where
  unit : Fin 4
  h : Handle
  outcome : VerifyOutcome
deriving DecidableEq, Repr

/-- The path verifier: its units, its view of the lanes (06 R113) and the outcomes it has handed (04 R83). -/
structure Verifier where
  units : Tbl VerifyUnit
  view : Tbl LaneState
  outcomes : List OutcomeClaim
deriving DecidableEq, Repr

/-! ### Watchers (07, 08) -/

/-- A REPEAT code (07 7.1). -/
structure RepeatCode where
  len : Nat
  value : Byte
deriving DecidableEq, Repr

/-- A SIGNATURE's settings (07 7.1); bit i of the mask selects window frame i. -/
structure Signature where
  window : Nat
  mask : BitVec 32
  crc : BitVec 16
deriving DecidableEq, Repr

/-- The actions (07 7.1). -/
inductive Action where
  | none | accessUp | accessDown | releaseLinked | holdLinked
deriving DecidableEq, Repr

/-- The fields of an ACCESS_UP watcher (07 7.1). -/
structure AccessFields where
  partner : Nat
  lease : Nat
  loop : Slot
deriving DecidableEq, Repr

/-- A watcher's configuration (07 7.1). A field that the kind or action does not use is absent (R123). -/
structure WatchConfig where
  configured : Bool
  target : Slot
  signature : Bool
  code : Option RepeatCode
  sig : Option Signature
  tolerance : Nat
  persistence : Nat
  dropout : Nat
  auto : Bool
  action : Action
  chain : Bool
  up : Option AccessFields
  linked : Option Handle
deriving DecidableEq, Repr

/-- The watcher states (07 7.4). -/
inductive WatchState where
  | disarmed | armed | candidate | confirmed | clearing | linked
deriving DecidableEq, Repr

/-- A watcher's run state (07 7.1, 08 R148). -/
structure WatchRun where
  st : WatchState
  frozen : Bool
  pos : Nat
  misses : Nat
  phase : Option Nat
  wpos : Nat
  crc : BitVec 16
  present : Nat
  absent : Nat
  confirmations : Nat
  link : Option Handle
  served : Option Handle
  /-- the frame in progress belongs to the chain's interval (07 R125) -/
  inFrame : Bool
  /-- the frame that ended belongs to the interval and has not been sampled (log 5) -/
  due : Bool
deriving DecidableEq, Repr

/-- A watcher of the table. -/
structure Watcher where
  cfg : WatchConfig
  run : WatchRun
deriving DecidableEq, Repr

/-- The configuration after hard reset (07 R146). -/
def WatchConfig.initial : WatchConfig where
  configured := false
  target := ⟨0, 0⟩
  signature := false
  code := none
  sig := none
  tolerance := 0
  persistence := 1
  dropout := 1
  auto := false
  action := .none
  chain := false
  up := none
  linked := none

/-- The starting values of the run state (07 R123, R146). -/
def WatchRun.initial : WatchRun where
  st := .disarmed
  frozen := false
  pos := 0
  misses := 0
  phase := none
  wpos := 0
  crc := 0xFFFF
  present := 0
  absent := 0
  confirmations := 0
  link := none
  served := none
  inFrame := false
  due := false

/-- A watcher after hard reset (07 R146). -/
def Watcher.initial : Watcher := ⟨WatchConfig.initial, WatchRun.initial⟩

/-- An access claim's content (08 R149), and the number of soft reset orders the watcher unit had taken (08 R169). -/
structure AccessRequest where
  watcher : Nat
  target : Slot
  loop : Slot
  partner : Nat
  lease : Nat
  resets : Nat
deriving DecidableEq, Repr

/-- The claims the watcher unit hands the circuit manager (07 R136, 08 R149). -/
inductive ActionClaim where
  | releaseLinked (w : Nat) (h : Handle)
  | holdLinked (w : Nat) (h : Handle) (confirmation : Bool)
  | suppression (w : Nat)
  | access (a : AccessRequest)
  | endOfAccess (w : Nat) (h : Option Handle)
deriving DecidableEq, Repr

/-- The circuit manager's orders to the watcher unit (08 R148). `resets`, of a return order: the number of soft reset claims that the manager had
taken when it gave the order (08 R169; log 45). -/
inductive WatchOrder where
  | arm (d : Nat) (w : Nat) (h : Handle)
  | disarm (d : Nat) (h : Handle)
  | giveBack (w : Nat) (h : Handle) (resets : Nat)
deriving DecidableEq, Repr

/-- The watcher unit: its table and view, the action claims it has handed, the manager's orders it has not taken, and the number of
soft reset orders it has taken (08 R169). -/
structure WatcherUnit where
  table : Tbl Watcher
  view : Tbl LaneState
  claims : List ActionClaim
  orders : List WatchOrder
  resets : Nat
deriving DecidableEq, Repr

/-! ### Attention (09) -/

/-- The causes (09 9.1). -/
inductive Cause where
  | frameUnlocked | frameLocked | lost | up | confirmed | cleared | refused | suppressed | created | preempted | displaced
  | restored | expired | sourceFault | sourceOk | partnerReleased | accessEnded
deriving DecidableEq, Repr

/-- A raise: the causes, each with its entity (09 R172). -/
abbrev Raise := List (Nat × Cause)

/-- The attention unit. An entity's flags are held as the cause field that COLLECT returns (10.8). `enables` are the seventeen in the
order of table 9.2. -/
structure Attention where
  flags : Tbl (BitVec 16)
  enables : List Bool
  cursor : Nat
  raises : List (RaiseBlock × Raise)
deriving DecidableEq, Repr

/-! ### Control port and request engine (10) -/

/-- The request slot states (10.3). -/
inductive SlotState where
  | empty | loaded | queued | working | done
deriving DecidableEq, Repr

/-- The owners of requests (10.7). -/
inductive Owner where
  | manager | generators | supervisor | watchers | attention | engine
deriving DecidableEq, Repr

/-- A request slot: its state, its two areas of 32 bytes, and the number of submissions made in it (log 11). -/
structure PortSlot where
  st : SlotState
  request : List Byte
  response : List Byte
  sub : Nat
deriving DecidableEq, Repr

/-- An EMPTY slot (10 R204). -/
def PortSlot.initial : PortSlot where
  st := .empty
  request := List.replicate 32 0
  response := List.replicate 32 0
  sub := 0

/-- The device defaults (10 R197). -/
structure Defaults where
  idle : Byte
  cond : Byte
  holdB : Byte
  rel : Byte
  clearDown : Nat
deriving DecidableEq, Repr

/-- The defaults after hard reset (10 R197). -/
def Defaults.initial : Defaults := ⟨0xFF, 0xFF, 0xD5, 0x00, 0⟩

/-- The port fault flags (10 R191). -/
structure PortFaults where
  writeRefused : Bool
  submitRefused : Bool
  clearRefused : Bool
  badTransaction : Bool
deriving DecidableEq, Repr

/-- A soft reset in progress (10 R199, R201): its number, its slot and submission, and what has been recorded for it. -/
structure SoftReset where
  id : Nat
  slot : Fin 4
  sub : Nat
  acks : List ResetBlock
  cleared : List ClearanceName
deriving DecidableEq, Repr

/-- The control port and request engine: slots, fault flags, routing queues (in submission order, each entry with its owner), defaults,
the soft reset in progress, its orders and acknowledgements on their way, and the bytes sent on MISO in the last transaction. -/
structure Port where
  slots : Tbl PortSlot
  faults : PortFaults
  queue : List (Owner × Fin 4)
  defaults : Defaults
  soft : Option SoftReset
  /-- number of SOFT_RESETs taken, which names the last one (log 11) -/
  softId : Nat
  toSwitch : List Nat
  toManager : List Nat
  toWatchers : List Nat
  toAttention : List Nat
  acks : List (ResetBlock × Nat)
  miso : List Byte
deriving DecidableEq, Repr

/-! ### Circuit manager (01, 03) -/

/-- A request as its owner takes it: the slot, its submission, and the message. -/
structure Request where
  slot : Fin 4
  sub : Nat
  msg : List Byte
deriving DecidableEq, Repr

/-- The claims of the circuit manager (01 R17), the soft reset claim apart. -/
inductive Claim where
  | request (r : Request)
  | report (r : Report)
  | clearDownEnd (h : Handle)
  | expiry (h : Handle)
  | outcome (o : OutcomeClaim)
  | action (a : ActionClaim)
  | lane (r : LaneReport)
deriving DecidableEq, Repr

/-- A claim held for room, with the defaults in force when its offer was first made (03 R69). -/
structure Held where
  claim : Claim
  defaults : Defaults
deriving DecidableEq, Repr

/-- The circuit manager: records, fan-out index, wait list, view of the lanes, held claim, number of soft reset claims taken (08 R169). -/
structure Manager where
  recs : Tbl Rec
  fan : Tbl (List Nat)
  wait : List Handle
  view : Tbl LaneState
  held : Option Held
  resets : Nat
deriving DecidableEq, Repr

/-- The lease clock (05): instant of its next event (R102; 0 until tINIT ends, log 41), and the expiry claims on their way (R103). -/
structure LeaseClock where
  nextAt : Nat
  expiries : List Handle
deriving DecidableEq, Repr

/-! ### The part -/

/-- Whether RST_N is low, tINIT runs, or the part runs (10 R203). -/
inductive Phase where
  | reset | init | run
deriving DecidableEq, Repr

/-- The whole part, and the queue of commands waiting. -/
structure State where
  pending : List Instr
  phase : Phase
  oeHigh : Bool
  mgr : Manager
  sw : Switch
  gens : Tbl Generator
  ver : Verifier
  lease : LeaseClock
  sup : Supervisor
  wat : WatcherUnit
  att : Attention
  port : Port
deriving DecidableEq, Repr

/-- No event stops the part: what the manual calls faults are answers, flags and causes. -/
inductive Fault where
deriving DecidableEq, Repr

/-- What the model does not answer. -/
inductive Refusal where
  /-- raised by an arm of exec whose command has no meaning yet; safe. No arm raises it. -/
  | notModelled (mnemonic : String)
deriving DecidableEq, Repr

def Manager.initial : Manager := ⟨[], [], [], [], none, 0⟩

def Switch.initial : Switch where
  map := []
  list := []
  kept := none
  locked := false
  missed := 0
  cand := none
  run := 0
  boundaryAt := 0
  align := none
  inFrame := false
  stored := List.replicate 16 (List.replicate 48 0)
  idle := 0xFF
  counts := []
  clearance := []
  reports := []
  ends := []
  notices := []
  cleared := []
  fso := 0

def Port.initial : Port where
  slots := []
  faults := ⟨false, false, false, false⟩
  queue := []
  defaults := Defaults.initial
  soft := none
  softId := 0
  toSwitch := []
  toManager := []
  toWatchers := []
  toAttention := []
  acks := []
  miso := []

/-- The part under hard reset: RST_N is low and every block holds its hard-reset values (01 R22, 02 R27, R36, R42, 04 R90, 05 R108,
06 R121, 07 R146, 08 R170, 09 R181, 10 R203, R204; log 7, log 8, log 9, log 10, log 41). -/
def State.reset : State where
  pending := []
  phase := .reset
  oeHigh := false
  mgr := Manager.initial
  sw := Switch.initial
  gens := []
  ver := ⟨[], [], []⟩
  lease := ⟨0, []⟩
  sup := ⟨[], [], [], []⟩
  wat := ⟨[], [], [], [], 0⟩
  att := ⟨[], List.replicate 17 false, 0, []⟩
  port := Port.initial

end Sys2Proof.Machine
end

