-- ==== Sys2Proof/Machine/Tables.lean ====
section
/-! DEFINITION. Reading and writing the tables (log 32), and the small list operations the blocks share. -/

namespace Sys2Proof.Machine

/-- The value of number k; d is the table's reset value. -/
def Tbl.get {α : Type} (d : α) : Tbl α → Nat → α
  | [], _ => d
  | (k', v) :: t, k => if k = k' then v else Tbl.get d t k

/-- Remove the entry of number k. -/
def Tbl.erase {α : Type} (t : Tbl α) (k : Nat) : Tbl α :=
  t.filter fun e => e.1 != k

/-- Put an entry in its place. -/
def Tbl.insert {α : Type} : Tbl α → Nat → α → Tbl α
  | [], k, v => [(k, v)]
  | (k', v') :: t, k, v =>
    if k < k' then (k, v) :: (k', v') :: t
    else if k = k' then (k, v) :: t
    else (k', v') :: Tbl.insert t k v

/-- Write number k. Writing the reset value removes the entry. -/
def Tbl.set {α : Type} [DecidableEq α] (d : α) (t : Tbl α) (k : Nat) (v : α) : Tbl α :=
  if v = d then Tbl.erase t k else Tbl.insert t k v

/-- Change number k by f. -/
def Tbl.upd {α : Type} [DecidableEq α] (d : α) (t : Tbl α) (k : Nat) (f : α → α) : Tbl α :=
  Tbl.set d t k (f (Tbl.get d t k))

/-- Change the numbers below n by f. -/
def Tbl.updAll {α : Type} [DecidableEq α] (d : α) (n : Nat) (f : Nat → α → α) (t : Tbl α) : Tbl α :=
  (List.range n).foldl (fun acc k => Tbl.upd d acc k (f k)) t

/-- Change the entries of a table by an f that keeps the reset value. -/
def Tbl.mapAll {α : Type} [DecidableEq α] (d : α) (f : Nat → α → α) (t : Tbl α) : Tbl α :=
  t.filterMap fun e => if f e.1 e.2 = d then none else some (e.1, f e.1 e.2)

/-- The canonical form: numbers rising, no entry at the reset value. -/
def Tbl.wf {α : Type} [DecidableEq α] (d : α) : Tbl α → Bool
  | [] => true
  | (k, v) :: t => decide (v ≠ d) && t.all (fun e => decide (k < e.1)) && Tbl.wf d t

/-- The first element that satisfies p, and the list without it. -/
def takeFirst {α : Type} (p : α → Bool) : List α → Option (α × List α)
  | [] => none
  | x :: xs =>
    if p x then some (x, xs)
    else match takeFirst p xs with
      | some (y, ys) => some (y, x :: ys)
      | none => none

/-- The values of a list of options, if none is absent. -/
def allSome {α : Type} : List (Option α) → Option (List α)
  | [] => some []
  | none :: _ => none
  | some x :: xs => (allSome xs).map (x :: ·)

/-- A list without its later repeats, first occurrences in order. -/
def firstOf {α : Type} [DecidableEq α] : List α → List α
  | [] => []
  | x :: xs => x :: (firstOf xs).filter (· ≠ x)

end Sys2Proof.Machine
end

