-- ==== Sys2Proof/Machine/Ops.lean ====
section
/-! DEFINITION. Named operations over the tables, the request slots and the messages between blocks. -/

namespace Sys2Proof.Machine

/-! ### Slots and entities -/

/-- The place of a timeslot in a table of 768. -/
def Slot.key (k : Slot) : Nat := k.lane.val * 48 + k.ts.val

/-- The attention entity of the device (09 9.1). -/
def deviceEntity : Nat := 0
/-- The attention entity of inbound lane l. -/
def laneEntity (l : Nat) : Nat := 1 + l
/-- The attention entity of watcher w. -/
def watcherEntity (w : Nat) : Nat := 17 + w
/-- The attention entity of circuit record c. -/
def circuitEntity (c : Nat) : Nat := 81 + c

/-! ### Bytes and codes of messages (10.8) -/

/-- Two bytes, most significant first. -/
def bytes16 (n : Nat) : List Byte := [BitVec.ofNat 8 (n / 256), BitVec.ofNat 8 n]

/-- A slot reference: lane, then timeslot. -/
def slotBytes (k : Slot) : List Byte := [BitVec.ofNat 8 k.lane.val, BitVec.ofNat 8 k.ts.val]

/-- A slot reference, FFFFh for none. -/
def optSlotBytes : Option Slot → List Byte
  | some k => slotBytes k
  | none => [0xFF, 0xFF]

/-- A source as a slot reference: generator n is lane 80h + n, timeslot 00h; FFFFh for none. -/
def sourceBytes : Option Source → List Byte
  | some (.inbound k) => slotBytes k
  | some (.gen n) => [BitVec.ofNat 8 (0x80 + n.val), 0]
  | none => [0xFF, 0xFF]

/-- A handle: record number, then generation. -/
def handleBytes (h : Handle) : List Byte := bytes16 h.num ++ bytes16 h.gen.toNat

/-- A handle, FFFFFFFFh for none. -/
def optHandleBytes : Option Handle → List Byte
  | some h => handleBytes h
  | none => [0xFF, 0xFF, 0xFF, 0xFF]

/-- A flag as a byte, 00h or 01h. -/
def flagByte (b : Bool) : Byte := if b then 1 else 0

/-- Circuit state codes. -/
def CircState.toByte : CircState → Byte
  | .free => 0 | .making => 1 | .verifyWait => 2 | .verifying => 3 | .active => 4 | .held => 5 | .releasing => 6 | .breaking => 7

/-- Leg state codes. -/
def LegState.toByte : LegState → Byte
  | .making => 0 | .live => 1 | .breaking => 2 | .displaced => 3

/-- Class codes. -/
def CircClass.toByte : CircClass → Byte
  | .normal => 0 | .priority => 1 | .test => 2

/-- Drive target codes. -/
def Target.toByte : Target → Byte
  | .source => 0 | .hold => 1

/-- Lane state codes. -/
def LaneState.toByte : LaneState → Byte
  | .lost => 0 | .restoring => 1 | .up => 2

/-- Watcher state codes. -/
def WatchState.toByte : WatchState → Byte
  | .disarmed => 0 | .armed => 1 | .candidate => 2 | .confirmed => 3 | .clearing => 4 | .linked => 5

/-- Generator kind codes. -/
def GenKind.toByte : GenKind → Byte
  | .off => 0 | .fixed => 1 | .prbs => 2 | .code => 3

/-- Watcher action codes. -/
def Action.toByte : Action → Byte
  | .none => 0 | .accessUp => 1 | .accessDown => 2 | .releaseLinked => 3 | .holdLinked => 4

/-- Slot state codes of the port status. -/
def SlotState.toCode : SlotState → Nat
  | .empty => 0 | .loaded => 1 | .queued => 2 | .working => 3 | .done => 4

/-- The response statuses (10.7). -/
inductive Status where
  | ok | badRequest | badField | staleHandle | noRecord | slotBusy | fanoutLimit | legLimit | stateConflict | notPermitted
  | verifyFailed | returnLost | verifyAborted | makeAborted | noVerifyRoom | expired | resetAborted
deriving DecidableEq, Repr

/-- Status codes (10.7). -/
def Status.toByte : Status → Byte
  | .ok => 0x00 | .badRequest => 0x01 | .badField => 0x02 | .staleHandle => 0x03 | .noRecord => 0x04 | .slotBusy => 0x05
  | .fanoutLimit => 0x06 | .legLimit => 0x07 | .stateConflict => 0x08 | .notPermitted => 0x09 | .verifyFailed => 0x0A
  | .returnLost => 0x0B | .verifyAborted => 0x0C | .makeAborted => 0x0D | .noVerifyRoom => 0x0E | .expired => 0x0F
  | .resetAborted => 0x10

/-- An area's first 32 bytes, filled with 00h (10 R195). -/
def area32 (l : List Byte) : List Byte := (l ++ List.replicate 32 0).take 32

/-- Byte i of an area. -/
def byteAt (m : List Byte) (i : Nat) : Byte := m.getD i 0

/-- The two bytes from i as a number. -/
def wordAt (m : List Byte) (i : Nat) : Nat := (byteAt m i).toNat * 256 + (byteAt m (i + 1)).toNat

/-- The tag of a message (10 R194). -/
def tagOf (m : List Byte) : BitVec 16 := BitVec.ofNat 16 (wordAt m 2)

/-- A whole response: header of kind echo, status and tag, then the results (10 R195). -/
def responseOf (msg : List Byte) (st : Status) (results : List Byte) : List Byte :=
  area32 ([byteAt msg 0, st.toByte, byteAt msg 2, byteAt msg 3] ++ results)

/-- The parameter length of a message: bits 4-0 of its flags byte (10 R194). -/
def paramLength (m : List Byte) : Nat := (byteAt m 1).toNat % 32

/-- What an owner reads of a request area: bytes beyond the parameter length are not read, and stand as 00h (10 R194; log 16). -/
def readable (m : List Byte) : List Byte := area32 (m.take (4 + paramLength m))

/-- The message as a whole: bits 7-5 of the flags byte are 0 and the parameter length is the catalogue's (10 R194). -/
def messageOk (len : Nat) (m : List Byte) : Bool := byteAt m 1 == BitVec.ofNat 8 len

/-! ### Request slots and routing queues (10) -/

/-- What a command answers. -/
abbrev Result := Host.Outcome State Fault Refusal

/-- Request slot n. -/
def Port.slot (p : Port) (n : Fin 4) : PortSlot := Tbl.get PortSlot.initial p.slots n.val

/-- Write request slot n. -/
def Port.setSlot (p : Port) (n : Fin 4) (v : PortSlot) : Port :=
  { p with slots := Tbl.set PortSlot.initial p.slots n.val v }

/-- An owner's response to a submission of slot n: written whole, and the slot becomes DONE. A response for a submission that has
been answered is discarded (10 R192, R193, R200; log 11). -/
def Port.answer (p : Port) (n : Fin 4) (sub : Nat) (st : Status) (results : List Byte) : Port :=
  let e := p.slot n
  if e.st = .working ∧ e.sub = sub then
    p.setSlot n { e with st := .done, response := responseOf e.request st results }
  else p

/-- An owner's taking of the request at the head of its routing queue, if its kind is the one named: the slot becomes WORKING
(10 R193). -/
def Port.takeRequest (p : Port) (o : Owner) (kind : Byte) : Option (Request × Port) :=
  match takeFirst (fun q => decide (q.1 = o)) p.queue with
  | none => none
  | some ((_, n), queue) =>
    let e := p.slot n
    if byteAt e.request 0 = kind then
      some (⟨n, e.sub, readable e.request⟩, { p with queue := queue }.setSlot n { e with st := .working })
    else none

/-- The answer of an owner to a request it has taken. -/
def Port.answerRequest (p : Port) (r : Request) (st : Status) (results : List Byte) : Port :=
  p.answer r.slot r.sub st results

/-! ### Blocks' tables -/

/-- Lane l at the supervisor. -/
def Supervisor.lane (u : Supervisor) (l : Nat) : Lane := Tbl.get Lane.initial u.lanes l

/-- Write lane l. -/
def Supervisor.setLane (u : Supervisor) (l : Nat) (v : Lane) : Supervisor :=
  { u with lanes := Tbl.set Lane.initial u.lanes l v }

/-- A block's view of lane l (06 R113). -/
def viewOf (v : Tbl LaneState) (l : Fin 16) : LaneState := Tbl.get .lost v l.val

/-- Whether a block sees lane l UP; RESTORING counts as not UP (06). -/
def viewUp (v : Tbl LaneState) (l : Fin 16) : Bool := decide (viewOf v l = .up)

/-- Set a block's view of lane l (06 R113). -/
def setView (v : Tbl LaneState) (l : Fin 16) (st : LaneState) : Tbl LaneState := Tbl.set .lost v l.val st

/-- Generator n. -/
def generatorOf (g : Tbl Generator) (n : Nat) : Generator := Tbl.get Generator.initial g n

/-- Verify unit u. -/
def Verifier.unit (v : Verifier) (u : Nat) : VerifyUnit := Tbl.get VerifyUnit.idle v.units u

/-- Write verify unit u. -/
def Verifier.setUnit (v : Verifier) (u : Nat) (x : VerifyUnit) : Verifier :=
  { v with units := Tbl.set VerifyUnit.idle v.units u x }

/-- Watcher w. -/
def WatcherUnit.watcher (u : WatcherUnit) (w : Nat) : Watcher := Tbl.get Watcher.initial u.table w

/-- Write watcher w. -/
def WatcherUnit.setWatcher (u : WatcherUnit) (w : Nat) (x : Watcher) : WatcherUnit :=
  { u with table := Tbl.set Watcher.initial u.table w x }

/-- Change the run state of watcher w. -/
def WatcherUnit.updRun (u : WatcherUnit) (w : Nat) (f : WatchRun → WatchRun) : WatcherUnit :=
  u.setWatcher w { u.watcher w with run := f (u.watcher w).run }

/-- The slot map entry of an outbound slot (02 R28). -/
def Switch.entry (w : Switch) (k : Slot) : Content := Tbl.get Content.idle w.map k.key

/-- The byte stored of an inbound slot (02 R23). -/
def Switch.storedByte (w : Switch) (k : Slot) : Byte := (w.stored.getD k.lane.val []).getD k.ts.val 0

/-! ### Raises -/

/-- A block hands a raise to the attention unit; the causes of one event are one raise (09 R172). -/
def Attention.hand (a : Attention) (b : RaiseBlock) (r : Raise) : Attention :=
  if r = [] then a else { a with raises := a.raises ++ [(b, r)] }

/-- The part runs: neither RST_N low nor tINIT (10 R203). -/
def State.running (s : State) : Bool := decide (s.phase = .run)

/-- An event of a running part; while RST_N is low and during tINIT no block acts (10 R203; log 2). -/
def State.whenRunning (s : State) (f : State → State) : State :=
  if s.phase = .run then f s else s

/-- Every order that a SOFT_RESET gave has been taken by its block: no owner takes a request before that (10 R199, R201; log 22). -/
def Port.ordersTaken (p : Port) : Bool := p.toSwitch.isEmpty && p.toManager.isEmpty && p.toWatchers.isEmpty && p.toAttention.isEmpty

/-- A request taken by an owner other than the circuit manager, in a running part with no order of a SOFT_RESET outstanding: refused with
BAD_REQUEST if the message is malformed (10 R194), else given to the owner's own checks. -/
def State.ownerTakes (s : State) (o : Owner) (kind : Byte) (len : Nat) (f : Request → State → State) : State :=
  if s.running && s.port.ordersTaken then
    match s.port.takeRequest o kind with
    | none => s
    | some (r, p) =>
      let s := { s with port := p }
      if messageOk len r.msg then f r s
      else { s with port := s.port.answerRequest r .badRequest [] }
  else s

end Sys2Proof.Machine
end

