-- ==== Sys2Proof/Machine/Flags.lean ====
section
/-! DEFINITION. Attention flags and the ATTN_N condition (09), and the port status bytes (10 R186). -/

namespace Sys2Proof.Machine

/-- The bit of a cause in the cause field of an entity of its kind (10.8). -/
def Cause.bit : Cause → Nat
  | .frameUnlocked => 0 | .frameLocked => 1
  | .lost => 0 | .up => 1
  | .confirmed => 0 | .cleared => 1 | .refused => 2 | .suppressed => 3
  | .created => 0 | .preempted => 1 | .displaced => 2 | .restored => 3 | .expired => 4 | .sourceFault => 5 | .sourceOk => 6
  | .partnerReleased => 7 | .accessEnded => 8

/-- A cause field with one flag pending. -/
def Cause.mask (c : Cause) : BitVec 16 := 1#16 <<< c.bit

/-- The enable of each flag of an entity, from bit 0, as places in table 9.2. -/
def enablesOf (entity : Nat) : List Nat :=
  if entity = 0 then [0, 0]
  else if entity ≤ 16 then [1, 2]
  else if entity ≤ 80 then [3, 4, 5, 6]
  else [7, 8, 9, 10, 11, 12, 12, 13, 14]

/-- The place of the request-done enable in table 9.2. -/
def requestDoneEnable : Nat := 15
/-- The place of the global enable in table 9.2. -/
def globalEnable : Nat := 16

/-- Whether an enable is on. -/
def Attention.on (a : Attention) (i : Nat) : Bool := a.enables.getD i false

/-- The pending flags of an entity (09 R171). -/
def Attention.flagsOf (a : Attention) (entity : Nat) : BitVec 16 := Tbl.get 0 a.flags entity

/-- Whether an entity holds a pending flag of an enabled kind (09 R174), given its flags. -/
def enabledPending (a : Attention) (entity : Nat) (f : BitVec 16) : Bool :=
  ((enablesOf entity).zipIdx).any fun e => f.getLsbD e.2 && a.on e.1

/-- Set one flag (09 R172). -/
def Attention.setFlag (a : Attention) (entity : Nat) (c : Cause) : Attention :=
  { a with flags := Tbl.upd 0 a.flags entity (· ||| c.mask) }

/-- Whether a request slot is DONE (10 R196). -/
def Port.someDone (p : Port) : Bool := ([0, 1, 2, 3] : List (Fin 4)).any fun n => decide ((p.slot n).st = .done)

/-- The condition under which ATTN_N is driven low (09 R174). -/
def attnLow (s : State) : Bool :=
  (s.att.on globalEnable && s.att.flags.any fun e => enabledPending s.att e.1 e.2) ||
    (s.att.on requestDoneEnable && s.port.someDone)

/-- A bit as a number. -/
def bitNat (b : Bool) (i : Nat) : Nat := if b then 2 ^ i else 0

/-- Port status byte 0 (10.8). -/
def status0 (s : State) : Byte :=
  BitVec.ofNat 8 (bitNat (decide (s.phase ≠ .run)) 7 + bitNat (attnLow s) 6 + bitNat s.sw.locked 5 + bitNat s.port.soft.isSome 4 +
    bitNat s.port.faults.writeRefused 3 + bitNat s.port.faults.submitRefused 2 + bitNat s.port.faults.clearRefused 1 +
    bitNat s.port.faults.badTransaction 0)

/-- Port status byte 1 or 2: the states of two slots (10.8). -/
def statusSlots (p : Port) (a b : Fin 4) : Byte :=
  BitVec.ofNat 8 ((p.slot a).st.toCode * 16 + (p.slot b).st.toCode)

end Sys2Proof.Machine
end

