-- ==== Sys2Proof/Machine/Operands.lean ====
section
/-! DEFINITION. Reading the parameters of request messages (10.8), with the range checks that give BAD_FIELD. `none` is BAD_FIELD. -/

namespace Sys2Proof.Machine

/-- A lane slot reference (10.8): lane 0-15, timeslot 0-47. -/
def parseSlot (m : List Byte) (i : Nat) : Option Slot :=
  if h : (byteAt m i).toNat < 16 ∧ (byteAt m (i + 1)).toNat < 48 then
    some ⟨⟨(byteAt m i).toNat, h.1⟩, ⟨(byteAt m (i + 1)).toNat, h.2⟩⟩
  else none

/-- A slot reference that may be FFFFh for DEFAULT. -/
def parseSlotOrDefault (m : List Byte) (i : Nat) : Option (Option Slot) :=
  if wordAt m i = 0xFFFF then some none else (parseSlot m i).map some

/-- A source (03 R48): an inbound slot, or generator n as lane 80h + n, timeslot 00h. -/
def parseSource (m : List Byte) (i : Nat) : Option Source :=
  match parseSlot m i with
  | some k => some (.inbound k)
  | none =>
    if h : 0x80 ≤ (byteAt m i).toNat ∧ (byteAt m i).toNat < 0x86 ∧ byteAt m (i + 1) = 0 then
      some (.gen ⟨(byteAt m i).toNat - 0x80, by omega⟩)
    else none

/-- A handle as given. -/
def parseHandle (m : List Byte) (i : Nat) : Handle := ⟨wordAt m i, BitVec.ofNat 16 (wordAt m (i + 2))⟩

/-- A record field of an opening request: 0-479, or FFFFh for ANY (01 R12). -/
def parseRecord (m : List Byte) (i : Nat) : Option (Option Nat) :=
  if wordAt m i = 0xFFFF then some none
  else if wordAt m i < Config.testPool then some (some (wordAt m i))
  else none

/-- The class of an opening request: NORMAL or PRIORITY (01 R1). -/
def parseClass (b : Byte) : Option CircClass :=
  if b = 0 then some .normal else if b = 1 then some .priority else none

/-- The fields that OPEN and OPEN_PAIR share; `none` in a field is DEFAULT (03 3.1). -/
structure CommonFields where
  cls : CircClass
  preemptable : Bool
  cond : Option Byte
  holdB : Option Byte
  rel : Option Byte
  clearDown : Option Nat
  lease : Nat
deriving DecidableEq, Repr

/-- A value that is read only when its option bit is set. -/
def given (options : Byte) (bit : Nat) (b : Byte) : Option Byte :=
  if options.getLsbD bit then some b else none

/-- The shared fields, from the places of class (then options), the three bytes (then clear-down) and lease (10.8). -/
def parseCommon (m : List Byte) (cls bytes lease : Nat) : Option CommonFields :=
  let options := byteAt m (cls + 1)
  let clear := given options 5 (byteAt m (bytes + 3))
  match parseClass (byteAt m cls) with
  | none => none
  | some c =>
    if 64 ≤ options.toNat ∨ (c = .priority ∧ options.getLsbD 0) ∨ 200 < (clear.getD 0).toNat then none
    else some {
      cls := c
      preemptable := options.getLsbD 0
      cond := given options 2 (byteAt m bytes)
      holdB := given options 3 (byteAt m (bytes + 1))
      rel := given options 4 (byteAt m (bytes + 2))
      clearDown := clear.map (·.toNat)
      lease := wordAt m lease }

/-- The verify parameter of OPEN (04 4.2); `none` in a field is DEFAULT. -/
structure VerifyFields where
  ret : Option Slot
  tvfy : Option Nat
deriving DecidableEq, Repr

/-- tVFY: 2-500 units, or FFFFh for DEFAULT (04 R74). -/
def parseTvfy (m : List Byte) (i : Nat) : Option (Option Nat) :=
  if wordAt m i = 0xFFFF then some none
  else if 2 ≤ wordAt m i ∧ wordAt m i ≤ 500 then some (some (wordAt m i))
  else none

/-- The verify parameter: absent unless option bit 1 is set (10.8). -/
def parseVerify (m : List Byte) : Option (Option VerifyFields) :=
  if (byteAt m 7).getLsbD 1 then
    match parseSlotOrDefault m 25, parseTvfy m 27 with
    | some r, some t => some (some ⟨r, t⟩)
    | _, _ => none
  else some none

/-- The legs of an OPEN: 1-4 outbound slots, none named twice (03 R48). -/
def parseLegs (m : List Byte) : Option (List Slot) :=
  let n := (byteAt m 10).toNat
  if n = 0 ∨ 4 < n then none
  else match allSome ((List.range n).map fun i => parseSlot m (11 + 2 * i)) with
    | none => none
    | some legs => if legs.Nodup then some legs else none

/-- The fields of OPEN (03 3.1). -/
structure OpenFields where
  record : Option Nat
  common : CommonFields
  source : Source
  legs : List Slot
  verify : Option VerifyFields
deriving DecidableEq, Repr

/-- OPEN (10.8). -/
def parseOpen (m : List Byte) : Option OpenFields :=
  match parseRecord m 4, parseCommon m 6 19 23, parseSource m 8, parseLegs m, parseVerify m with
  | some r, some c, some src, some legs, some v => some ⟨r, c, src, legs, v⟩
  | _, _, _, _, _ => none

/-- The fields of OPEN_PAIR (03 3.1). -/
structure PairFields where
  x : Option Nat
  y : Option Nat
  common : CommonFields
  aIn : Source
  aOut : Slot
  bIn : Source
  bOut : Slot
deriving DecidableEq, Repr

/-- OPEN_PAIR (10.8): verify absent, a_out and b_out different, no record named twice (03 R52). -/
def parsePair (m : List Byte) : Option PairFields :=
  match parseRecord m 4, parseRecord m 6, parseCommon m 8 18 22, parseSource m 10, parseSlot m 12, parseSource m 14, parseSlot m 16 with
  | some x, some y, some c, some aIn, some aOut, some bIn, some bOut =>
    if (byteAt m 9).getLsbD 1 ∨ aOut = bOut ∨ (x = y ∧ x ≠ none) then none
    else some ⟨x, y, c, aIn, aOut, bIn, bOut⟩
  | _, _, _, _, _, _, _ => none

/-- The clear-down of a RELEASE: 0-200, or FFh for RECORD (05 R91). -/
def parseReleaseClear (m : List Byte) : Option (Option Nat) :=
  let b := (byteAt m 8).toNat
  if b = 0xFF then some none else if b ≤ 200 then some (some b) else none

/-- GEN_SET: generator number, kind and flag in range (02 R40, 10 R194; log 25). -/
structure GenFields where
  gen : Fin 6
  kind : GenKind
  flag : Bool
deriving DecidableEq, Repr

/-- A generator kind (10.8). -/
def parseGenKind (b : Byte) : Option GenKind :=
  if b = 0 then some .off else if b = 1 then some .fixed else if b = 2 then some .prbs else if b = 3 then some .code else none

/-- A flag byte, 00h or 01h (10 R194; log 25). -/
def parseFlag (b : Byte) : Option Bool :=
  if b = 0 then some false else if b = 1 then some true else none

/-- Whether the parameters that a kind uses are in range (02 R40). -/
def genParamsOk (m : List Byte) (k : GenKind) : Bool :=
  match k with
  | .off => true
  | .fixed => true
  | .prbs => decide (wordAt m 7 ≤ 0x7FFF)
  | .code => decide (3 ≤ (byteAt m 9).toNat ∧ (byteAt m 9).toNat ≤ 8 ∧ (byteAt m 10).toNat < 2 ^ (byteAt m 9).toNat)

/-- GEN_SET (02 R40). -/
def parseGen (m : List Byte) : Option GenFields :=
  match parseGenKind (byteAt m 5), parseFlag (byteAt m 11) with
  | some k, some f =>
    if h : (byteAt m 4).toNat < 6 then
      if genParamsOk m k then some ⟨⟨(byteAt m 4).toNat, h⟩, k, f⟩ else none
    else none
  | _, _ => none

/-- A lane number. -/
def parseLane (b : Byte) : Option (Fin 16) :=
  if h : b.toNat < 16 then some ⟨b.toNat, h⟩ else none

/-- A watcher number. -/
def parseWatcher (b : Byte) : Option (Fin 64) :=
  if h : b.toNat < 64 then some ⟨b.toNat, h⟩ else none

/-- A watcher action (10.8). -/
def parseAction (b : Byte) : Option Action :=
  if b = 0 then some .none else if b = 1 then some .accessUp else if b = 2 then some .accessDown
  else if b = 3 then some .releaseLinked else if b = 4 then some .holdLinked else none

/-- Four bytes as a mask. -/
def maskAt (m : List Byte) (i : Nat) : BitVec 32 := BitVec.ofNat 32 (wordAt m i * 65536 + wordAt m (i + 2))

/-- The REPEAT fields of a WATCH_SET (07 R139). -/
def parseRepeat (m : List Byte) : Option RepeatCode :=
  let len := (byteAt m 8).toNat
  if 3 ≤ len ∧ len ≤ 8 ∧ (byteAt m 9).toNat < 2 ^ len then some ⟨len, byteAt m 9⟩ else none

/-- The SIGNATURE fields of a WATCH_SET (07 R139). -/
def parseSignature (m : List Byte) : Option Signature :=
  let w := (byteAt m 10).toNat
  if 1 ≤ w ∧ w ≤ 32 ∧ maskAt m 11 ≠ 0 ∧ (maskAt m 11).toNat < 2 ^ w then
    some ⟨w, maskAt m 11, BitVec.ofNat 16 (wordAt m 15)⟩
  else none

/-- The kind and its fields: REPEAT 0, SIGNATURE 1 (07 R139). -/
def parseKind (m : List Byte) : Option (Option RepeatCode × Option Signature) :=
  if byteAt m 7 = 0 then (parseRepeat m).map fun c => (some c, none)
  else if byteAt m 7 = 1 then (parseSignature m).map fun g => (none, some g)
  else none

/-- The action's fields (07 R139): the partner and the loop slot of an ACCESS_UP, a DEFAULT loop slot taking the outbound pair of the
target (R140); the linked circuit of a RELEASE_LINKED or HOLD_LINKED. -/
def parseActionFields (m : List Byte) (w : Fin 64) (target : Slot) (a : Action) : Option (Option AccessFields × Option Handle) :=
  match a with
  | .none => some (none, none)
  | .accessDown => some (none, none)
  | .accessUp =>
    let p := (byteAt m 23).toNat
    match parseSlotOrDefault m 30 with
    | none => none
    | some loop => if 63 < p ∨ p = w.val then none else some (some ⟨p, wordAt m 28, loop.getD target⟩, none)
  | .releaseLinked => if Config.testPool ≤ wordAt m 24 then none else some (none, some (parseHandle m 24))
  | .holdLinked => if Config.testPool ≤ wordAt m 24 then none else some (none, some (parseHandle m 24))

/-- WATCH_SET: the watcher and the configuration it asks for (07 R139, R140). -/
def parseWatch (m : List Byte) : Option (Fin 64 × WatchConfig) :=
  match parseWatcher (byteAt m 4), parseSlot m 5, parseKind m, parseFlag (byteAt m 20), parseAction (byteAt m 21), parseFlag (byteAt m 22) with
  | some w, some target, some (code, sig), some auto, some action, some chain =>
    if byteAt m 18 = 0 ∨ byteAt m 19 = 0 ∨ (chain ∧ w.val = 0) then none
    else match parseActionFields m w target action with
      | none => none
      | some (up, linked) => some (w, {
          configured := true
          target := target
          signature := sig.isSome
          code := code
          sig := sig
          tolerance := (byteAt m 17).toNat
          persistence := (byteAt m 18).toNat
          dropout := (byteAt m 19).toNat
          auto := auto
          action := action
          chain := chain
          up := up
          linked := linked })
  | _, _, _, _, _, _ => none

/-- MASK_SET: seventeen enables, each 00h or 01h (09 R179). -/
def parseEnables (m : List Byte) : Option (List Bool) :=
  allSome ((List.range 17).map fun i => parseFlag (byteAt m (4 + i)))

end Sys2Proof.Machine
end

