-- ==== Sys2Proof/Machine/Attention.lean ====
section
/-! DEFINITION. The attention unit (09): COLLECT, MASK_SET, raises and the soft reset order. -/

namespace Sys2Proof.Machine

/-- The entities in the order of a scan from the cursor (09 R176). -/
def scanOrder (cursor : Nat) : List Nat :=
  (List.range' cursor (Config.entities - cursor)) ++ List.range cursor

/-- The pending entities that a COLLECT returns (09 R176). -/
def Attention.found (a : Attention) (limit : Nat) : List Nat :=
  ((scanOrder a.cursor).filter fun e => decide (a.flagsOf e ≠ 0)).take limit

/-- An entry of COLLECT (10.8). -/
def Attention.entryBytes (a : Attention) (e : Nat) : List Byte := bytes16 e ++ bytes16 (a.flagsOf e).toNat

/-- The results of COLLECT: seven places, those without an entry marked empty (10.8). -/
def Attention.collectBytes (a : Attention) (found : List Nat) : List Byte :=
  ((found.flatMap a.entryBytes) ++ (List.replicate 7 [0xFF, 0xFF, 0, 0]).flatten).take 28

/-- The unit after the entities found have been returned: their flags clear, and the cursor past the last (09 R176). -/
def Attention.collected (a : Attention) (found : List Nat) : Attention :=
  { a with
    flags := found.foldl (fun t e => Tbl.set 0 t e 0) a.flags
    cursor := match found.getLast? with
      | some e => (e + 1) % Config.entities
      | none => a.cursor }

/-- COLLECT past the check of the message as a whole (09 R175, R176). -/
def State.collect (r : Request) (s : State) : State :=
  let limit := (byteAt r.msg 4).toNat
  if limit = 0 ∨ 7 < limit then { s with port := s.port.answerRequest r .badField [] }
  else
    let found := s.att.found limit
    { s with att := s.att.collected found, port := s.port.answerRequest r .ok (s.att.collectBytes found) }

/-- COLLECT, kind 28h (09 R175, R176). -/
def execCollect (s : State) : Result := .next (s.ownerTakes .attention 0x28 1 State.collect)

/-- MASK_SET past the check of the message as a whole (09 R179). -/
def State.maskSet (r : Request) (s : State) : State :=
  match parseEnables r.msg with
  | none => { s with port := s.port.answerRequest r .badField [] }
  | some l => { s with att := { s.att with enables := l }, port := s.port.answerRequest r .ok (l.map flagByte) }

/-- MASK_SET, kind 29h (09 R179). -/
def execMaskSet (s : State) : Result := .next (s.ownerTakes .attention 0x29 17 State.maskSet)

/-- The flags that a raise names are set (09 R172). -/
def Attention.takeRaise (a : Attention) (r : Raise) : Attention := r.foldl (fun a e => a.setFlag e.1 e.2) a

/-- The attention unit takes the next raise of a block (09 R172). -/
def State.takeRaise (b : RaiseBlock) (s : State) : State :=
  match takeFirst (fun r => decide (r.1 = b)) s.att.raises with
  | some (r, rest) => { s with att := { s.att with raises := rest }.takeRaise r.2 }
  | none => s

/-- ATTENTION_RAISE of a block (09 R172). -/
def execAttentionRaise (b : RaiseBlock) (s : State) : Result := .next (s.whenRunning (State.takeRaise b))

/-- The attention unit takes its soft reset order: every flag clear, cursor 0, enables kept (09 R182, 10 R199). -/
def State.attentionReset (s : State) : State :=
  match s.port.toAttention with
  | [] => s
  | id :: rest => { s with
    att := { s.att with flags := [], cursor := 0 }
    port := { s.port with toAttention := rest, acks := s.port.acks ++ [(.attention, id)] } }

/-- ATTENTION_SOFT_RESET_ORDER (09 R182). -/
def execAttentionSoftResetOrder (s : State) : Result := .next (s.whenRunning State.attentionReset)

end Sys2Proof.Machine
end

