-- ==== Sys2Proof/Machine/Offers.lean ====
section
/-! DEFINITION. What a claim of the circuit manager changes, its offer of pending-change entries (02 R31-R33), and its commit or its wait
for room (03 R69). -/

namespace Sys2Proof.Machine

/-- The effect of a claim under construction: the parts that the manager changes within a claim (01 R17, 04 R72, 08 R148), the entries it
offers, the causes it raises, and its clear-down order (05 R97). `list` is the pending-change list as the claim finds it, and is only
read. A claim reaches nothing else of the part. -/
structure Eff where
  list : List Entry
  mgr : Manager
  ver : Verifier
  wat : WatcherUnit
  port : Port
  offer : List Entry
  raise : Raise
  order : Option ClearCount
deriving DecidableEq, Repr

/-- A claim that has changed nothing yet. -/
def Eff.start (s : State) : Eff where
  list := s.sw.list
  mgr := s.mgr
  ver := s.ver
  wat := s.wat
  port := s.port
  offer := []
  raise := []
  order := none

/-! ### Records -/

/-- Record n. -/
def Manager.recOf (m : Manager) (n : Nat) : Rec := Tbl.get (Rec.free 0) m.recs n

/-- Record n as the claim has left it. -/
def Eff.recOf (e : Eff) (n : Nat) : Rec := e.mgr.recOf n

/-- Change record n. -/
def Eff.updRec (e : Eff) (n : Nat) (f : Rec → Rec) : Eff :=
  { e with mgr := { e.mgr with recs := Tbl.upd (Rec.free 0) e.mgr.recs n f } }

/-- The current handle of record n. -/
def Eff.handleOf (e : Eff) (n : Nat) : Handle := ⟨n, (e.recOf n).gen⟩

/-- Whether a handle names a record with its current generation (01 R10, R11). -/
def Eff.current (e : Eff) (h : Handle) : Bool := decide (h.num < Config.records ∧ (e.recOf h.num).gen = h.gen)

/-- A record and its partner, the record first (01 R16). -/
def Eff.members (e : Eff) (n : Nat) : List Nat := n :: (e.recOf n).partner.toList

/-- The record's origin is INBAND (01 R1). -/
def isTestPool (n : Nat) : Bool := decide (Config.testPool ≤ n)

/-- Raise a cause on record n. -/
def Eff.raiseOn (e : Eff) (n : Nat) (c : Cause) : Eff := { e with raise := e.raise ++ [(circuitEntity n, c)] }

/-- Raise a cause on watcher w. -/
def Eff.raiseWatcher (e : Eff) (w : Nat) (c : Cause) : Eff := { e with raise := e.raise ++ [(watcherEntity w, c)] }

/-! ### Who holds an outbound slot (01 R3) -/

/-- A leg that holds its slot: not DISPLACED, and not given to another record (01 R3, 03 R55, 08 R162). -/
def Leg.holdsSlot (l : Leg) (k : Slot) : Bool := decide (l.slot = k ∧ l.st ≠ .displaced) && !l.yielded

/-- The record that holds an outbound slot (01 R3). -/
def Manager.holder (m : Manager) (k : Slot) : Option Nat :=
  (m.recs.find? fun e => e.2.legs.any (·.holdsSlot k)).map (·.1)

/-- The record that holds a DISPLACED leg on an outbound slot (08 R154). -/
def Manager.displacedOn (m : Manager) (k : Slot) : Option Nat :=
  (m.recs.find? fun e => e.2.legs.any fun l => decide (l.slot = k ∧ l.st = .displaced)).map (·.1)

/-- The leg of a record on a slot. -/
def Rec.legOn (r : Rec) (k : Slot) : Option Leg := r.legs.find? fun l => decide (l.slot = k)

/-- Change the leg of a record on a slot. -/
def Rec.updLeg (r : Rec) (k : Slot) (f : Leg → Leg) : Rec :=
  { r with legs := r.legs.map fun l => if l.slot = k then f l else l }

/-- A leg in MAKING or LIVE: one that a change of its circuit offers an entry for (03 R63, R66). -/
def Leg.carries (l : Leg) : Bool := decide (l.st = .making ∨ l.st = .live)

/-- A leg in MAKING, LIVE or DISPLACED: one that a victim keeps (03 R56). -/
def Leg.kept (l : Leg) : Bool := decide (l.st ≠ .breaking)

/-! ### Fan-out index (01 R18) -/

/-- The fan-out list of an inbound slot. -/
def Manager.fanOf (m : Manager) (k : Slot) : List Nat := Tbl.get [] m.fan k.key

/-- Record n joins the tail of its source's list; a generator has none. -/
def Eff.joinFan (e : Eff) (src : Option Source) (n : Nat) : Eff :=
  match src with
  | some (.inbound k) => { e with mgr := { e.mgr with fan := Tbl.upd [] e.mgr.fan k.key (· ++ [n]) } }
  | _ => e

/-- Record n leaves its source's list, and the records behind it close up. -/
def Eff.leaveFan (e : Eff) (src : Option Source) (n : Nat) : Eff :=
  match src with
  | some (.inbound k) => { e with mgr := { e.mgr with fan := Tbl.upd [] e.mgr.fan k.key (·.filter (· ≠ n)) } }
  | _ => e

/-- The source fault of a source in the manager's view (01 R5, 06 R113). -/
def Manager.faultOf (m : Manager) (src : Source) : Bool :=
  match src with
  | .inbound k => !viewUp m.view k.lane
  | .gen _ => false

/-! ### Entries and offers (02 R31, R32) -/

/-- The content of a record's leg in a drive mode: its handle, source and three bytes (03 R50). -/
def Eff.content (e : Eff) (n : Nat) (d : Drive) (unit : Option (Fin 4)) : Content where
  owner := some (e.handleOf n)
  drive := d
  source := (e.recOf n).source
  cond := (e.recOf n).cond
  holdB := (e.recOf n).holdB
  rel := (e.recOf n).rel
  unit := unit

/-- The outcomes of the pending entry of a slot that an entry replacing it keeps: those that name a record which the claim's own outcomes
do not name, and whose handle is current (02 R32). -/
def Eff.keptOutcomes (e : Eff) (k : Slot) (own : List LegOutcome) : List LegOutcome :=
  match e.list.find? fun p => decide (p.slot = k) with
  | none => []
  | some p => p.outcomes.filter fun o => e.current o.h && !(own.any fun x => decide (x.h.num = o.h.num))

/-- Add an entry to the offer (02 R32). -/
def Eff.addEntry (e : Eff) (k : Slot) (c : Content) (own : List LegOutcome) : Eff :=
  { e with offer := e.offer ++ [⟨k, c, e.keptOutcomes k own ++ own⟩] }

/-- Put one entry in the list: in place of the entry of its slot, or at the tail (02 R32). -/
def placeOne (list : List Entry) (x : Entry) : List Entry :=
  if list.any fun y => decide (y.slot = x.slot) then list.map fun y => if y.slot = x.slot then x else y
  else list ++ [x]

/-- Put an offer in the list, in offer order (02 R32). -/
def placeOffer (list offer : List Entry) : List Entry := offer.foldl placeOne list

/-- The slots of an offer, each once. -/
def offerSlots (offer : List Entry) : List Slot := firstOf (offer.map (·.slot))

/-- Whether the switch takes an offer: the slots with no entry in the list do not exceed the free room (02 R32). -/
def fits (list offer : List Entry) : Bool :=
  decide (((offerSlots offer).filter fun k => !(list.any fun y => decide (y.slot = k))).length ≤ Config.listRoom - list.length)

/-! ### Taking a claim (01 R17, 03 R69) -/

/-- Make a claim's changes, all at one event, with the offer and clear-down order given to the switch (01 R17, 02 R32, 05 R97). -/
def Eff.commit (e : Eff) (offer : List Entry) (order : Option ClearCount) (s : State) : State :=
  { s with
    mgr := e.mgr
    ver := e.ver
    wat := e.wat
    port := e.port
    sw := { s.sw with list := placeOffer s.sw.list offer, counts := s.sw.counts ++ order.toList }
    att := s.att.hand .manager e.raise }

/-- The switch declines the offer: none of the claim's changes is made, the manager holds the claim, and the switch keeps the offer
(03 R69). -/
def holdClaim (c : Claim) (e : Eff) (s : State) : State :=
  { s with
    mgr := { s.mgr with held := some ⟨c, s.port.defaults⟩ }
    sw := { s.sw with kept := some ⟨e.offer, e.order, false⟩ } }

/-- The manager's decision on a claim: the changes if the switch takes the offer, the wait if it declines it. -/
def settle (c : Claim) (e : Eff) (s : State) : State :=
  if fits s.sw.list e.offer then e.commit e.offer e.order s else holdClaim c e s

end Sys2Proof.Machine
end

