-- ==== Sys2Proof/Machine/Circuits.lean ====
section
/-! DEFINITION. What claims do to circuits: legs and their entries, verify units, taking out of service, the return to FREE, preemption,
drive changes and the end of a test access (03, 04, 05, 08). -/

namespace Sys2Proof.Machine

/-! ### Answers -/

/-- The legs of a record as an OPEN response gives them: slot reference and leg state, four places (10.8). -/
def legsBytes (legs : List Leg) : List Byte :=
  ((legs.flatMap fun (l : Leg) => slotBytes l.slot ++ [l.st.toByte]) ++ List.replicate 12 0).take 12

/-- The unit field of an OPEN response (10.8). -/
def unitByte : Option (Fin 4) → Byte
  | some u => BitVec.ofNat 8 u.val
  | none => 0xFF

/-- The results of an OPEN answered OK (03 R51, 04 R84, 10.8); the round trip is 0000h without verify (log 15). -/
def openResults (h : Handle) (r : Rec) (unit : Option (Fin 4)) : List Byte :=
  handleBytes h ++ [r.st.toByte, flagByte r.fault, BitVec.ofNat 8 r.legs.length] ++ legsBytes r.legs ++ [unitByte unit] ++
    bytes16 (r.roundTrip.getD 0)

/-- The results of an OPEN whose verification failed or was aborted: handle, unit, frame count in bytes 24-25 (10.8; log 28). -/
def failureResults (h : Handle) (unit : Option (Fin 4)) (frames : Nat) : List Byte :=
  handleBytes h ++ List.replicate 15 0 ++ [unitByte unit] ++ bytes16 frames

/-- Write the opening answer of record n, and remove it from the record and its partner (03 R44). -/
def Eff.answerOpen (e : Eff) (n : Nat) (st : Status) (results : List Byte) : Eff :=
  match (e.recOf n).openAns with
  | none => e
  | some a =>
    let e' := (e.members n).foldl (fun e m => e.updRec m fun r => { r with openAns := none, roundTrip := none }) e
    { e' with port := e'.port.answer a.slot a.sub st results }

/-- The results of a release answer: handles, and the loop slot for an ACCESS_END (05 R96, 08 R167, 10.8). -/
def releaseResults (a : ReleaseAnswer) : List Byte :=
  handleBytes a.handle ++ (match a.loop with | some k => slotBytes k | none => []) ++ optHandleBytes a.other

/-! ### Entries for legs -/

/-- The outcome of an entry that changes a leg: CHANGED for a LIVE leg, MADE for a leg in MAKING (03 R63, R66). -/
def Leg.changeKind (l : Leg) : OutcomeKind := if l.st = .making then .made else .changed

/-- Offer one entry for each leg of record n in MAKING or LIVE, in list order (03 R63, R66, 04 R78, 05 R94). -/
def Eff.offerLegs (e : Eff) (n : Nat) (d : Drive) (unit : Option (Fin 4)) : Eff :=
  ((e.recOf n).legs.filter Leg.carries).foldl
    (fun e l => e.addEntry l.slot (e.content n d unit) [⟨e.handleOf n, l.changeKind⟩]) e

/-- Set the legs of record n that satisfy p to BREAKING, and offer for each the break: owner none, IDLE, BROKEN (05 R92, R93). -/
def Eff.breakLegs (e : Eff) (n : Nat) (p : Leg → Bool) : Eff :=
  let legs := (e.recOf n).legs.filter p
  let e := e.updRec n fun r => { r with legs := r.legs.map fun l => if p l then { l with st := .breaking } else l }
  legs.foldl (fun e l => e.addEntry l.slot Content.idle [⟨e.handleOf n, .broken⟩]) e

/-! ### Verify units (04) -/

/-- The units in number order. -/
def allUnits : List (Fin 4) := [0, 1, 2, 3]

/-- The unit that serves a circuit (04 R72). -/
def Verifier.serving (v : Verifier) (h : Handle) : Option (Fin 4) :=
  allUnits.find? fun u => decide ((v.unit u).circuit = some h)

/-- The lowest-numbered IDLE unit (04 R75). -/
def Verifier.idleUnit (v : Verifier) : Option (Fin 4) := allUnits.find? fun u => decide ((v.unit u).st = .idle)

/-- The frame count of a unit as it stands: the token frame whose end has not been judged, else the current one (04 R87; log 19). -/
def VerifyUnit.frames (x : VerifyUnit) : Nat := x.due.getD x.count

/-- A unit enters DONE with an outcome found in token frame k; it makes no further judgement, and its received bytes are removed
(04 4.1, R72). -/
def VerifyUnit.finish (x : VerifyUnit) (o : VerifyOutcome) (k : Nat) : VerifyUnit :=
  { x with st := .done, outcome := some o, count := k, due := none, rx := [] }

/-- A unit assigned a circuit: SENDING, not started, frame limit tVFY × 80 (04 R75). -/
def VerifyUnit.assigned (h : Handle) (v : VerifyField) : VerifyUnit :=
  { VerifyUnit.idle with st := .sending, circuit := some h, ret := some v.ret, limit := v.tvfy * Config.unitFrames }

/-- The path verifier takes an assignment. A unit whose return lane is not UP in the verifier's view enters DONE with RETURN_LOST at
once and hands it (04 R75, R82). -/
def Verifier.assign (v : Verifier) (u : Fin 4) (h : Handle) (f : VerifyField) : Verifier :=
  if viewUp v.view f.ret.lane then v.setUnit u (VerifyUnit.assigned h f)
  else
    let v := v.setUnit u ((VerifyUnit.assigned h f).finish .returnLost 0)
    { v with outcomes := v.outcomes ++ [⟨u, h, .returnLost⟩] }

/-- Free a unit, and assign it to the head of the wait list if there is one: that circuit becomes VERIFYING and offers TOKEN entries
(04 R78). A report that completes several verifications frees a unit for each, and no limit is put on its offer (03 R58; log 38). -/
def Eff.freeUnit (e : Eff) (u : Fin 4) : Eff :=
  let e := { e with ver := e.ver.setUnit u VerifyUnit.idle }
  match e.mgr.wait with
  | [] => e
  | h :: rest =>
    let e := { e with mgr := { e.mgr with wait := rest } }
    let e := e.updRec h.num fun r => { r with st := .verifying }
    let e := match (e.recOf h.num).verify with
      | some f => { e with ver := e.ver.assign u h f }
      | none => e
    e.offerLegs h.num .token (some u)

/-! ### Taking out of service (05) -/

/-- What every claim that takes a record out of service does first: lease, reload value, drive target and DISPLACED legs go, the
displacement links on both sides with them (05 R92). -/
def Eff.takeOut (e : Eff) (n : Nat) : Eff :=
  let links := (e.recOf n).legs.filterMap fun l => if l.st = .displaced then l.link else none
  let e := links.foldl (fun e t => e.updRec t fun r => { r with displ := none }) e
  e.updRec n fun r => { r with
    lease := none, reload := none, target := none, legs := r.legs.filter fun l => decide (l.st ≠ .displaced) }

/-- One record enters FREE: it leaves its fan-out list, its generation steps, every other field takes its free value, and its release
answer is written (05 R101). -/
def Eff.enterFree (e : Eff) (n : Nat) : Eff :=
  let r := e.recOf n
  let e := e.leaveFan r.source n
  let e := e.updRec n fun r => Rec.free (r.gen + 1)
  match r.relAns with
  | none => e
  | some a => { e with port := e.port.answer a.slot a.sub .ok (releaseResults a) }

/-- Set the state of record n. -/
def Eff.setState (e : Eff) (n : Nat) (st : CircState) : Eff := e.updRec n fun r => { r with st := st }

/-- A record and its partner in MAKING, ACTIVE or HELD are released with a clear-down in units of 10 ms (05 R92-R96): RELEASING if it is
above 0 and a LIVE leg stands, else BREAKING. Records left with no leg at all enter FREE at once. -/
def Eff.releaseServing (e : Eff) (n : Nat) (clear : Nat) (ans : Option ReleaseAnswer) : Eff :=
  let ms := e.members n
  let making := decide ((e.recOf n).st = .making)
  let handles := (e.recOf n).openAns.map (·.handles)
  let e := ms.foldl Eff.takeOut e
  let e := e.updRec n fun r => { r with relAns := ans }
  if !making && decide (0 < clear) && ms.any fun m => (e.recOf m).legs.any fun l => decide (l.st = .live) then
    let e := ms.foldl (fun e m => e.breakLegs m fun l => decide (l.st = .making)) e
    let e := ms.foldl (fun e m => e.offerLegs m .release none) e
    let e := ms.foldl (fun e m => e.updRec m fun r => { r with st := .releasing, clearOf := some clear }) e
    { e with order := some ⟨e.handleOf (ms.foldl min n), clear * Config.unitFrames, false, 0⟩ }
  else
    let e := ms.foldl (fun e m => (e.breakLegs m Leg.carries).setState m .breaking) e
    let e := if making then e.answerOpen n .makeAborted ((handles.getD []).flatMap handleBytes) else e
    if ms.all fun m => (e.recOf m).legs.isEmpty then ms.foldl Eff.enterFree e else e

/-- A record in VERIFY_WAIT is released: it leaves the wait list, its slots are unreserved, its OPEN is answered VERIFY_ABORTED, and it
enters FREE in the same claim (04 R86). -/
def Eff.releaseWaiting (e : Eff) (n : Nat) (ans : Option ReleaseAnswer) : Eff :=
  let h := e.handleOf n
  let e := { e with mgr := { e.mgr with wait := e.mgr.wait.filter (· ≠ h) } }
  let e := e.updRec n fun r => { r with relAns := ans }
  let e := e.breakLegs n fun _ => true
  let e := e.answerOpen n .verifyAborted (failureResults h none 0)
  e.enterFree n

/-- A record in VERIFYING is taken to BREAKING with no clear-down: legs BREAKING with their breaks, verify field, lease and drive target
removed, its unit freed and assigned, its OPEN answered (04 R85, R87). -/
def Eff.endVerifying (e : Eff) (n : Nat) (st : Status) (ans : Option ReleaseAnswer) : Eff :=
  let h := e.handleOf n
  let unit := e.ver.serving h
  let frames := match unit with | some u => (e.ver.unit u).frames | none => 0
  let e := e.updRec n fun r => { r with
    st := .breaking, verify := none, lease := none, reload := none, target := none, relAns := ans }
  let e := e.breakLegs n fun _ => true
  let e := e.answerOpen n st (failureResults h unit frames)
  match unit with
  | some u => e.freeUnit u
  | none => e

/-- The release of a circuit of the control pool in a state that R91 admits. -/
def Eff.releaseCircuit (e : Eff) (n : Nat) (clear : Nat) (ans : Option ReleaseAnswer) : Eff :=
  match (e.recOf n).st with
  | .verifyWait => e.releaseWaiting n ans
  | .verifying => e.endVerifying n .verifyAborted ans
  | .making => e.releaseServing n clear ans
  | .active => e.releaseServing n clear ans
  | .held => e.releaseServing n clear ans
  | .free => e
  | .releasing => e
  | .breaking => e

/-- A BREAKING record that holds no leg enters FREE with its partner, provided the partner holds none either (05 R100). -/
def Eff.tryFree (e : Eff) (n : Nat) : Eff :=
  let ms := e.members n
  if (e.recOf n).st = .breaking ∧ ms.all fun m => (e.recOf m).legs.isEmpty then ms.foldl Eff.enterFree e else e

/-! ### Drive changes (03 3.12) -/

/-- The drive mode of a drive target (03 R65). -/
def Target.drive : Target → Drive
  | .source => .source
  | .hold => .hold

/-- The state that a drive target leads to (03 R68). -/
def Target.state : Target → CircState
  | .source => .active
  | .hold => .held

/-- HOLD or RESUME of one record: drive target, an entry for each leg in MAKING or LIVE, and completion at once if there is none
(03 R66-R68). -/
def Eff.driveRecord (e : Eff) (n : Nat) (t : Target) : Eff :=
  let e := e.updRec n fun r => { r with target := some t }
  if (e.recOf n).legs.any Leg.carries then e.offerLegs n t.drive none else e.setState n t.state

/-- HOLD or RESUME of a record and its partner (03 R66, R67). -/
def Eff.driveCircuit (e : Eff) (n : Nat) (t : Target) : Eff :=
  (e.members n).foldl (fun e m => e.driveRecord m t) e

/-! ### Claiming slots by preemption (03 3.3, 3.7) -/

/-- A slot held by record v is open to preemption by a claim of a class (03 R46). -/
def Manager.open (m : Manager) (cls : CircClass) (v : Nat) (k : Slot) : Bool :=
  let r := m.recOf v
  decide (cls = .priority ∧ r.cls = .normal ∧ (r.st = .active ∨ r.st = .held)) && r.preemptable &&
    r.legs.any fun l => l.holdsSlot k && l.carries

/-- A slot can be given to a circuit of a class; `self` is the requesting record, none of whose legs may stand on the slot
(03 R45; log 13). -/
def Manager.available (m : Manager) (cls : CircClass) (self : Option Nat) (k : Slot) : Bool :=
  (match self with
    | some n => (m.recOf n).legs.all fun l => decide (l.slot ≠ k)
    | none => true) &&
  match m.holder k with
  | none => true
  | some v => m.open cls v k

/-- The slots of a claim that are taken by preemption, each with its victim (03 R55). -/
def Manager.victims (m : Manager) (ks : List Slot) : List (Slot × Nat) :=
  ks.filterMap fun k => (m.holder k).map fun v => (k, v)

/-- A victim's leg enters BREAKING and no longer holds its slot (03 R55). -/
def Eff.takeLeg (e : Eff) (p : Slot × Nat) : Eff :=
  e.updRec p.2 fun r => r.updLeg p.1 fun l => { l with st := .breaking, yielded := true }

/-- A record that keeps no leg in MAKING, LIVE or DISPLACED (03 R56). -/
def Eff.fallen (e : Eff) (n : Nat) : Bool := !((e.recOf n).legs.any Leg.kept)

/-- The partners released because their records lost their last leg (03 R57). -/
def Eff.releasedPartners (e : Eff) (vs : List Nat) : List Nat :=
  (vs.filter e.fallen).filterMap fun v => match (e.recOf v).partner with
    | some p => if vs.contains p && e.fallen p then none else some p
    | none => none

/-- Take the victims' legs: PREEMPTED once per victim, and BREAKING for a victim that keeps no leg (03 R55, R56). -/
def Eff.preempt (e : Eff) (vs : List (Slot × Nat)) : Eff :=
  let e := vs.foldl Eff.takeLeg e
  (firstOf (vs.map (·.2))).foldl (fun e v =>
    let e := e.raiseOn v .preempted
    if e.fallen v then (e.takeOut v).setState v .breaking else e) e

/-- Release the partners of the victims that lost their last leg, with clear-down 0: their break entries and PARTNER_RELEASED
(03 R57). -/
def Eff.releasePartners (e : Eff) (ps : List Nat) : Eff :=
  ps.foldl (fun e p =>
    let e := (e.takeOut p).breakLegs p Leg.carries
    (e.setState p .breaking).raiseOn p .partnerReleased) e

/-- The outcomes of the entry of a leg being made: BROKEN for a preempted victim, then MADE (03 R50, R55). -/
def Eff.makeOutcomes (e : Eff) (n : Nat) (vs : List (Slot × Nat)) (k : Slot) : List LegOutcome :=
  (match vs.find? fun p => decide (p.1 = k) with
    | some p => [⟨e.handleOf p.2, .broken⟩]
    | none => []) ++ [⟨e.handleOf n, .made⟩]

/-- Offer the entries that make legs of record n (03 R50). -/
def Eff.offerMakes (e : Eff) (n : Nat) (d : Drive) (unit : Option (Fin 4)) (vs : List (Slot × Nat)) (ks : List Slot) : Eff :=
  ks.foldl (fun e k => e.addEntry k (e.content n d unit) (e.makeOutcomes n vs k)) e

/-- More entries than the offer limit, each slot counted once (03 R58). -/
def overLimit (e : Eff) : Bool := decide (Config.offerLimit < (offerSlots e.offer).length)

/-- The first slot of a claim whose preemption releases a partner (03 R58), given the effect with the legs taken. -/
def limitSlot (e : Eff) (vs : List (Slot × Nat)) : Option Slot :=
  (vs.find? fun p => e.fallen p.2 && match (e.recOf p.2).partner with
    | some q => (e.releasedPartners (firstOf (vs.map (·.2)))).contains q
    | none => false).map (·.1)

/-! ### End of a test access (08 8.5) -/

/-- The end claim on test circuit t: BREAKING, lease and drive target removed, and the restoration entry for the loop slot. With a
displacement the owner's leg goes to MAKING, the links go, and t's leg no longer holds the slot (08 R162). -/
def Eff.endAccess (e : Eff) (t : Nat) (ans : Option ReleaseAnswer) : Eff :=
  let r := e.recOf t
  let h := e.handleOf t
  let owner := r.displ.map fun d => (e.handleOf d.1, d.2)
  let e := e.updRec t fun r => { r with
    st := .breaking, lease := none, reload := none, target := none, displ := none, restoring := owner, relAns := ans,
    legs := r.legs.map fun l => { l with st := .breaking, yielded := r.displ.isSome } }
  match r.displ with
  | none => r.legs.foldl (fun e l => e.addEntry l.slot Content.idle [⟨h, .broken⟩]) e
  | some (o, k) =>
    let e := e.updRec o fun r => r.updLeg k fun l => { l with st := .making, link := none }
    let d := match (e.recOf o).target with | some t => t.drive | none => Drive.source
    e.addEntry k (e.content o d none) [⟨h, .broken⟩, ⟨e.handleOf o, .made⟩]

/-- The return of a test record to FREE at the report of its restoration (08 R164): RESTORED on the owner whose leg is LIVE, FREE,
ACCESS_ENDED, the up watcher's link removed, and the disarming order, for the down watcher that the access claim named, and the return order
given, the latter with the number of soft reset claims taken (log 45). -/
def Eff.freeTest (e : Eff) (t : Nat) : Eff :=
  let r := e.recOf t
  let h := e.handleOf t
  let e := match r.restoring with
    | some (o, k) =>
      if e.current o && (e.recOf o.num).legs.any fun (l : Leg) => decide (l.slot = k ∧ l.st = LegState.live) then e.raiseOn o.num .restored else e
    | none => e
  let e := (e.enterFree t).raiseOn t .accessEnded
  match r.watcher with
  | none => e
  | some w =>
    let down := (r.down.map fun d => WatchOrder.disarm d h).toList
    let wat := if (e.wat.watcher w).run.link = some h then e.wat.updRun w fun x => { x with link := none } else e.wat
    { e with wat := { wat with orders := wat.orders ++ down ++ [.giveBack w h e.mgr.resets] } }

end Sys2Proof.Machine
end

