-- ==== Sys2Proof/Machine/Requests.lean ====
section
/-! DEFINITION. What each request of the circuit manager does: its checks in the order of R43, and the effect of its acceptance
(01, 03, 04, 05, 08). -/

namespace Sys2Proof.Machine

/-! ### Answers and checks -/

/-- The circuit fields of a request as given, in bytes 4-7 of a refusal: the handle; the record of an OPEN, with FFFFh; the two records of
an OPEN_PAIR; 00h for FIND_OUT and FIND_IN, which have none (10 R195; log 17). -/
def circuitFields (m : List Byte) : List Byte :=
  if byteAt m 0 = 0x01 then [byteAt m 4, byteAt m 5, 0xFF, 0xFF]
  else if byteAt m 0 = 0x0B ∨ byteAt m 0 = 0x0C then [0, 0, 0, 0]
  else [byteAt m 4, byteAt m 5, byteAt m 6, byteAt m 7]

/-- The manager refuses a request: nothing but its response is written (03 R43, R44, 10 R195). -/
def Eff.refuse (e : Eff) (r : Request) (st : Status) (named : Option Slot) : Eff :=
  { e with port := e.port.answerRequest r st (circuitFields r.msg ++ optSlotBytes named) }

/-- The manager answers a request OK. -/
def Eff.ok (e : Eff) (r : Request) (results : List Byte) : Eff :=
  { e with port := e.port.answerRequest r .ok results }

/-- The handle that a request names. -/
def Request.handle (r : Request) : Handle := parseHandle r.msg 4

/-- Steps 1 and 2 of R43: the message as a whole, then the range of every field. -/
def Eff.checked {α : Type} (e : Eff) (r : Request) (len : Nat) (fields : Option α) (f : α → Eff) : Eff :=
  if messageOk len r.msg then
    match fields with
    | some x => f x
    | none => e.refuse r .badField none
  else e.refuse r .badRequest none

/-- Steps 3 and 4 of R43: the handle (01 R10), then the class. `test`: a TEST circuit passes. -/
def Eff.onHandle (e : Eff) (r : Request) (test : Bool) (f : Nat → Eff) : Eff :=
  let h := r.handle
  if Config.records ≤ h.num then e.refuse r .badField none
  else if (e.recOf h.num).gen ≠ h.gen then e.refuse r .staleHandle none
  else if !test && decide ((e.recOf h.num).cls = .test) then e.refuse r .notPermitted none
  else f h.num

/-- Step 5 of R43 for the requests that need ACTIVE or HELD (03 R47). -/
def Eff.onServing (e : Eff) (r : Request) (n : Nat) (f : Eff) : Eff :=
  if (e.recOf n).st = .active ∨ (e.recOf n).st = .held then f else e.refuse r .stateConflict none

/-! ### Allocation (01 1.4) -/

/-- A record is FREE. -/
def Eff.isFree (e : Eff) (n : Nat) : Bool := decide ((e.recOf n).st = .free)

/-- The lowest-numbered FREE record of a pool, from `lo`, of `count` records, other than one (01 R12, R13, R14). -/
def Eff.lowestFree (e : Eff) (lo count : Nat) (other : Option Nat) : Option Nat :=
  (List.range' lo count).find? fun n => e.isFree n && decide (some n ≠ other)

/-- The record that an opening request names, or the status that refuses it (01 R12, R13). -/
def Eff.allocate (e : Eff) (want other : Option Nat) : Except Status Nat :=
  match want with
  | some n => if e.isFree n then .ok n else .error .stateConflict
  | none => match e.lowestFree 0 Config.testPool other with
    | some n => .ok n
    | none => .error .noRecord

/-- The first slot of a request that cannot be given to it (03 R45). -/
def Eff.firstBusy (e : Eff) (cls : CircClass) (self : Option Nat) (ks : List Slot) : Option Slot :=
  ks.find? fun k => !(e.mgr.available cls self k)

/-- Whether `more` further records may join a source's fan-out list (01 R18). -/
def Eff.fanRoom (e : Eff) (src : Source) (more : Nat) : Bool :=
  match src with
  | .inbound k => decide ((e.mgr.fanOf k).length + more ≤ Config.fanoutLimit)
  | .gen _ => true

/-- The inbound slot of a source. -/
def Source.slot? : Source → Option Slot
  | .inbound k => some k
  | .gen _ => none

/-! ### OPEN and OPEN_PAIR (03 3.5, 3.6, 04 4.2) -/

/-- A lease of 0 is none (01 R6). -/
def leaseOf (n : Nat) : Option Nat := if n = 0 then none else some n

/-- A record filled by the claim that accepts its opening request (03 R49, R53; 01 R4). `d`: the device defaults. -/
def fillRecord (d : Defaults) (m : Manager) (c : CommonFields) (tag : BitVec 16) (src : Source) (legs : List Slot) (partner : Option Nat)
    (ans : OpenAnswer) (r : Rec) : Rec :=
  { Rec.free r.gen with
    st := .making
    cls := c.cls
    preemptable := c.preemptable
    source := some src
    legs := legs.map fun k => ⟨k, .making, false, none⟩
    partner := partner
    cond := c.cond.getD d.cond
    holdB := c.holdB.getD d.holdB
    rel := c.rel.getD d.rel
    clearDown := c.clearDown.getD d.clearDown
    lease := leaseOf c.lease
    reload := leaseOf c.lease
    fault := m.faultOf src
    tag := tag
    target := some .source
    openAns := some ans }

/-- The verify field of an OPEN with its defaults (04 R75): the pair of the first leg, and 50 units. -/
def VerifyFields.field (v : VerifyFields) (legs : List Slot) : VerifyField :=
  ⟨v.ret.getD (legs.headD ⟨0, 0⟩), v.tvfy.getD 50⟩

/-- The state, drive and verify assignment of the circuit opened, with the offer of its own legs (03 R50, 04 R75, R76). -/
def Eff.startCircuit (e : Eff) (n : Nat) (f : OpenFields) (vs : List (Slot × Nat)) : Eff :=
  match f.verify with
  | none => e.offerMakes n .source none vs f.legs
  | some v =>
    let fld := v.field f.legs
    let e := e.updRec n fun r => { r with verify := some fld }
    match e.ver.idleUnit with
    | some u =>
      let e := { e.setState n .verifying with ver := e.ver.assign u (e.handleOf n) fld }
      e.offerMakes n .token (some u) vs f.legs
    | none =>
      let e := e.setState n .verifyWait
      let e := { e with mgr := { e.mgr with wait := e.mgr.wait ++ [e.handleOf n] } }
      e.offerMakes n .idle none vs f.legs

/-- The partners that the preemptions of a claim release (03 R57), judged with the legs taken. -/
def Eff.partnersOf (e : Eff) (vs : List (Slot × Nat)) : List Nat :=
  (vs.foldl Eff.takeLeg e).releasedPartners (firstOf (vs.map (·.2)))

/-- The refusal of a claim over the offer limit (03 R58; log 26). -/
def Eff.refuseLimit (e : Eff) (r : Request) (vs : List (Slot × Nat)) : Eff :=
  e.refuse r .slotBusy (limitSlot (vs.foldl Eff.takeLeg e) vs)

/-- The acceptance of an OPEN for record n (03 R49). -/
def Eff.acceptOpen (e : Eff) (d : Defaults) (r : Request) (f : OpenFields) (n : Nat) : Eff :=
  let vs := e.mgr.victims f.legs
  let ps := e.partnersOf vs
  let e := e.preempt vs
  let h := e.handleOf n
  let m := e.mgr
  let e := e.updRec n (fillRecord d m f.common (tagOf r.msg) f.source f.legs none ⟨r.slot, r.sub, [h]⟩)
  let e := e.joinFan (some f.source) n
  (e.startCircuit n f vs).releasePartners ps

/-- There is room to verify one more circuit (04 R74). -/
def Eff.verifyRoom (e : Eff) : Bool := e.ver.idleUnit.isSome || decide (e.mgr.wait.length < Config.waitRoom)

/-- OPEN from its fields on: step 6 of R48. -/
def Eff.open (e : Eff) (d : Defaults) (r : Request) (f : OpenFields) : Eff :=
  match e.allocate f.record none with
  | .error st => e.refuse r st none
  | .ok n =>
    match e.firstBusy f.common.cls none f.legs with
    | some k => e.refuse r .slotBusy (some k)
    | none =>
      if !(e.fanRoom f.source 1) then e.refuse r .fanoutLimit f.source.slot?
      else if overLimit (e.acceptOpen d r f n) then e.refuseLimit r (e.mgr.victims f.legs)
      else if f.verify.isSome && !e.verifyRoom then e.refuse r .noVerifyRoom none
      else e.acceptOpen d r f n

/-- OPEN (03 R48-R51, 04 R74-R76). -/
def effOpen (d : Defaults) (r : Request) (e : Eff) : Eff :=
  e.checked r 25 (parseOpen r.msg) (e.open d r)

/-- The acceptance of an OPEN_PAIR for records x and y (03 R53). -/
def Eff.acceptPair (e : Eff) (d : Defaults) (r : Request) (f : PairFields) (x y : Nat) : Eff :=
  let vs := e.mgr.victims [f.bOut, f.aOut]
  let ps := e.partnersOf vs
  let e := e.preempt vs
  let m := e.mgr
  let ans : OpenAnswer := ⟨r.slot, r.sub, [e.handleOf x, e.handleOf y]⟩
  let e := e.updRec x (fillRecord d m f.common (tagOf r.msg) f.aIn [f.bOut] (some y) ans)
  let e := e.updRec y (fillRecord d m f.common (tagOf r.msg) f.bIn [f.aOut] (some x) ans)
  let e := (e.joinFan (some f.aIn) x).joinFan (some f.bIn) y
  let e := (e.offerMakes x .source none vs [f.bOut]).offerMakes y .source none vs [f.aOut]
  e.releasePartners ps

/-- The inbound slot whose list has no room for a pair (03 R52). -/
def Eff.pairFanFull (e : Eff) (f : PairFields) : Option Slot :=
  let more := if f.aIn = f.bIn then 2 else 1
  if !(e.fanRoom f.aIn more) then f.aIn.slot?
  else if !(e.fanRoom f.bIn more) then f.bIn.slot?
  else none

/-- Both records of an OPEN_PAIR (01 R13). -/
def Eff.allocatePair (e : Eff) (f : PairFields) : Except Status (Nat × Nat) :=
  match e.allocate f.x f.y with
  | .error st => .error st
  | .ok x => match e.allocate f.y (some x) with
    | .error st => .error st
    | .ok y => .ok (x, y)

/-- OPEN_PAIR from its fields on: step 6 of R52. -/
def Eff.openPair (e : Eff) (d : Defaults) (r : Request) (f : PairFields) : Eff :=
  match e.allocatePair f with
  | .error st => e.refuse r st none
  | .ok (x, y) =>
    match e.firstBusy f.common.cls none [f.bOut, f.aOut] with
    | some k => e.refuse r .slotBusy (some k)
    | none => match e.pairFanFull f with
      | some k => e.refuse r .fanoutLimit (some k)
      | none =>
        if overLimit (e.acceptPair d r f x y) then e.refuseLimit r (e.mgr.victims [f.bOut, f.aOut])
        else e.acceptPair d r f x y

/-- OPEN_PAIR (03 R52-R54). -/
def effOpenPair (d : Defaults) (r : Request) (e : Eff) : Eff :=
  e.checked r 20 (parsePair r.msg) (e.openPair d r)

/-! ### ADD_LEG, DROP_LEG, MOVE_SOURCE (03 3.9-3.11) -/

/-- The drive mode of a record's entries (03 R65). -/
def Rec.drive (r : Rec) : Drive :=
  match r.target with
  | some t => t.drive
  | none => .source

/-- The acceptance of an ADD_LEG (03 R60). -/
def Eff.acceptLeg (e : Eff) (n : Nat) (k : Slot) : Eff :=
  let vs := e.mgr.victims [k]
  let ps := e.partnersOf vs
  let e := e.preempt vs
  let e := e.updRec n fun r => { r with legs := r.legs ++ [⟨k, .making, false, none⟩] }
  (e.offerMakes n (e.recOf n).drive none vs [k]).releasePartners ps

/-- ADD_LEG from its record on: steps 5 and 6 (03 R60). -/
def Eff.addLeg (e : Eff) (r : Request) (k : Slot) (n : Nat) : Eff :=
  let x := e.recOf n
  e.onServing r n <|
    if Config.maxLegs ≤ x.legs.length then e.refuse r .legLimit none
    else if !(e.mgr.available x.cls (some n) k) then e.refuse r .slotBusy (some k)
    else if overLimit (e.acceptLeg n k) then e.refuseLimit r (e.mgr.victims [k])
    else (e.acceptLeg n k).ok r (handleBytes r.handle ++ [BitVec.ofNat 8 x.legs.length])

/-- ADD_LEG (03 R60). -/
def effAddLeg (r : Request) (e : Eff) : Eff :=
  e.checked r 6 (parseSlot r.msg 8) fun k => e.onHandle r false (e.addLeg r k)

/-- DROP_LEG of a DISPLACED leg: the leg and the links on both sides go (03 R62). -/
def Eff.dropDisplaced (e : Eff) (n : Nat) (k : Slot) (link : Option Nat) : Eff :=
  let e := link.toList.foldl (fun e t => e.updRec t fun r => { r with displ := none }) e
  e.updRec n fun r => { r with legs := r.legs.filter fun l => decide (l.slot ≠ k) }

/-- DROP_LEG from its record on: steps 5 and 6 (03 R61, R62). -/
def Eff.dropLeg (e : Eff) (r : Request) (k : Slot) (n : Nat) : Eff :=
  let x := e.recOf n
  let answer (e : Eff) : Eff := e.ok r (handleBytes r.handle ++ [BitVec.ofNat 8 (e.recOf n).legs.length])
  e.onServing r n <|
    match x.legOn k with
    | none => e.refuse r .stateConflict none
    | some l =>
      if l.st = .breaking ∨ !(x.legs.any fun o => decide (o.slot ≠ k) && o.kept) then e.refuse r .stateConflict none
      else if l.st = .displaced then answer (e.dropDisplaced n k l.link)
      else answer (e.breakLegs n fun o => decide (o.slot = k))

/-- DROP_LEG (03 R61, R62). -/
def effDropLeg (r : Request) (e : Eff) : Eff :=
  e.checked r 6 (parseSlot r.msg 8) fun k => e.onHandle r false (e.dropLeg r k)

/-- The cause that a change of the source fault raises (03 R64). -/
def faultCause (old new : Bool) : Option Cause :=
  if !old && new then some .sourceFault else if old && !new then some .sourceOk else none

/-- Raise an optional cause on record n. -/
def Eff.raiseOpt (e : Eff) (n : Nat) (c : Option Cause) : Eff :=
  match c with
  | some c => e.raiseOn n c
  | none => e

/-- The acceptance of a MOVE_SOURCE to another source (03 R63, R64). -/
def Eff.moveTo (e : Eff) (n : Nat) (src : Source) : Eff :=
  let x := e.recOf n
  let e := (e.leaveFan x.source n).joinFan (some src) n
  let fault := e.mgr.faultOf src
  let e := e.updRec n fun r => { r with source := some src, fault := fault }
  (e.offerLegs n x.drive none).raiseOpt n (faultCause x.fault fault)

/-- MOVE_SOURCE from its record on: steps 5 and 6 (03 R63). -/
def Eff.moveSource (e : Eff) (r : Request) (src : Source) (n : Nat) : Eff :=
  let results := handleBytes r.handle ++ sourceBytes (some src)
  e.onServing r n <|
    if (e.recOf n).source = some src then e.ok r results
    else if !(e.fanRoom src 1) then e.refuse r .fanoutLimit src.slot?
    else (e.moveTo n src).ok r results

/-- MOVE_SOURCE (03 R63, R64). -/
def effMoveSource (r : Request) (e : Eff) : Eff :=
  e.checked r 6 (parseSource r.msg 8) fun src => e.onHandle r false (e.moveSource r src)

/-! ### HOLD and RESUME (03 3.12) -/

/-- Whether a record may be taken to a drive target: ACTIVE or HELD, with the other target (03 R47). -/
def Rec.mayDrive (r : Rec) (t : Target) : Bool :=
  decide ((r.st = .active ∨ r.st = .held) ∧ r.target = some (match t with | .hold => .source | .source => .hold))

/-- The check of HOLD or RESUME on a record and its partner (01 R16, 03 R47). -/
def Eff.mayDrive (e : Eff) (n : Nat) (t : Target) : Bool := (e.members n).all fun m => (e.recOf m).mayDrive t

/-- HOLD or RESUME from its record on (03 R66, R67). -/
def Eff.driveRequest (e : Eff) (r : Request) (t : Target) (n : Nat) : Eff :=
  if e.mayDrive n t then
    let e := e.driveCircuit n t
    let x := e.recOf n
    e.ok r (handleBytes r.handle ++ [x.st.toByte, t.toByte] ++ optHandleBytes (x.partner.map e.handleOf))
  else e.refuse r .stateConflict none

/-- HOLD (03 R66). -/
def effHold (r : Request) (e : Eff) : Eff :=
  e.checked r 4 (some ()) fun _ => e.onHandle r false (e.driveRequest r .hold)

/-- RESUME (03 R67). -/
def effResume (r : Request) (e : Eff) : Eff :=
  e.checked r 4 (some ()) fun _ => e.onHandle r false (e.driveRequest r .source)

/-! ### RELEASE and TOUCH (05) -/

/-- The states in which a record may be released (05 R91). -/
def CircState.mayRelease (st : CircState) : Bool :=
  decide (st = .making ∨ st = .verifyWait ∨ st = .verifying ∨ st = .active ∨ st = .held)

/-- The check of a release on a record and its partner (01 R16, 05 R91). -/
def Eff.mayRelease (e : Eff) (n : Nat) : Bool := (e.members n).all fun m => (e.recOf m).st.mayRelease

/-- RELEASE from its record on (05 R91, R96). -/
def Eff.releaseRequest (e : Eff) (r : Request) (clear : Option Nat) (n : Nat) : Eff :=
  if e.mayRelease n then
    let x := e.recOf n
    e.releaseCircuit n (clear.getD x.clearDown) (some ⟨r.slot, r.sub, r.handle, none, x.partner.map e.handleOf⟩)
  else e.refuse r .stateConflict none

/-- RELEASE (05 R91-R96, 04 R86, R87). -/
def effRelease (r : Request) (e : Eff) : Eff :=
  e.checked r 5 (parseReleaseClear r.msg) fun clear => e.onHandle r false (e.releaseRequest r clear)

/-- The status that TOUCH gives for a record's state (03 R47, 05 R105). -/
def CircState.touchStatus : CircState → Option Status
  | .free => some .stateConflict
  | .releasing => some .expired
  | .breaking => some .expired
  | .making => none
  | .verifyWait => none
  | .verifying => none
  | .active => none
  | .held => none

/-- TOUCH from its record on (05 R105). -/
def Eff.touch (e : Eff) (r : Request) (n : Nat) : Eff :=
  match (e.members n).findSome? fun m => (e.recOf m).st.touchStatus with
  | some st => e.refuse r st none
  | none =>
    let v := wordAt r.msg 8
    match (if v = 0 then (e.recOf n).reload else some v) with
    | none => e.refuse r .stateConflict none
    | some l =>
      let e := (e.members n).foldl (fun e m => e.updRec m fun x => { x with lease := some l, reload := some l }) e
      e.ok r (handleBytes r.handle ++ bytes16 l ++ bytes16 l)

/-- TOUCH (05 R105). -/
def effTouch (r : Request) (e : Eff) : Eff :=
  e.checked r 6 (some ()) fun _ => e.onHandle r true (e.touch r)

/-! ### QUERY, FIND_OUT, FIND_IN (01 1.8) -/

/-- The attributes byte of the CIRCUIT view (10.8). -/
def attributes (n : Nat) (r : Rec) : Byte :=
  BitVec.ofNat 8 (bitNat (isTestPool n) 7 + r.cls.toByte.toNat * 32 + bitNat r.preemptable 4 + bitNat r.fault 3 +
    bitNat r.partner.isSome 2 + bitNat r.lease.isSome 1)

/-- The CIRCUIT view from byte 8 (10.8). -/
def circuitView (n : Nat) (r : Rec) : List Byte :=
  [r.st.toByte, attributes n r] ++ sourceBytes r.source ++ [BitVec.ofNat 8 r.legs.length] ++ legsBytes r.legs ++
    bytes16 (r.partner.getD 0xFFFF) ++ bytes16 (r.lease.getD 0) ++ bytes16 r.tag.toNat

/-- The displacement byte of a leg position: the displacing test record less 480, or FFh (10.8). -/
def displacedByte (l : Option Leg) : Byte :=
  match l with
  | some ⟨_, .displaced, _, some t⟩ => BitVec.ofNat 8 (t - Config.testPool)
  | _ => 0xFF

/-- The displacement field of the SETTINGS view (10.8). -/
def displacementBytes (r : Rec) : List Byte :=
  match r.displ with
  | some (o, k) => bytes16 o ++ slotBytes k
  | none => (List.range 4).map fun i => displacedByte r.legs[i]?

/-- Whether a record holds a displacement link. -/
def Rec.hasDisplacement (r : Rec) : Bool := r.displ.isSome || r.legs.any fun l => decide (l.st = .displaced)

/-- The SETTINGS view from byte 8 (10.8; log 15). -/
def settingsView (r : Rec) : List Byte :=
  [r.cond, r.holdB, r.rel, BitVec.ofNat 8 r.clearDown,
    BitVec.ofNat 8 (bitNat r.reload.isSome 0 + bitNat r.verify.isSome 1 + bitNat r.hasDisplacement 2 + bitNat r.watcher.isSome 3)] ++
  bytes16 (r.reload.getD 0) ++ optSlotBytes (r.verify.map (·.ret)) ++ bytes16 ((r.verify.map (·.tvfy)).getD 0) ++
  displacementBytes r ++ [match r.watcher with | some w => BitVec.ofNat 8 w | none => 0xFF]

/-- QUERY's generation check and view: ON or OFF, SETTINGS or CIRCUIT (01 R19). -/
def parseQuery (m : List Byte) : Option (Bool × Bool) :=
  match parseFlag (byteAt m 8), parseFlag (byteAt m 9) with
  | some check, some settings => some (check, settings)
  | _, _ => none

/-- The answer of QUERY (01 R19). -/
def Eff.queryAnswer (e : Eff) (r : Request) (settings : Bool) (n : Nat) : Eff :=
  e.ok r (handleBytes (e.handleOf n) ++ if settings then settingsView (e.recOf n) else circuitView n (e.recOf n))

/-- QUERY (01 R19). -/
def effQuery (r : Request) (e : Eff) : Eff :=
  e.checked r 6 (parseQuery r.msg) fun (check, settings) =>
    if check then e.onHandle r true (e.queryAnswer r settings)
    else if Config.records ≤ r.handle.num then e.refuse r .badField none
    else e.queryAnswer r settings r.handle.num

/-- An entry of FIND_OUT: handle, class, position and state of the leg of record n on the slot that satisfies p (01 R20). -/
def Eff.findEntry (e : Eff) (n : Nat) (p : Leg → Bool) : List Byte :=
  let x := e.recOf n
  let i := x.legs.findIdx p
  handleBytes (e.handleOf n) ++
    [x.cls.toByte, BitVec.ofNat 8 i, match x.legs.find? p with | some l => l.st.toByte | none => 0]

/-- FIND_OUT (01 R20). -/
def effFindOut (r : Request) (e : Eff) : Eff :=
  e.checked r 2 (parseSlot r.msg 4) fun k =>
    let first := (e.mgr.holder k).toList.map fun n => e.findEntry n (·.holdsSlot k)
    let second := (e.mgr.displacedOn k).toList.map fun n => e.findEntry n fun l => decide (l.slot = k ∧ l.st = .displaced)
    let entries := first ++ second
    e.ok r (BitVec.ofNat 8 entries.length :: entries.flatten)

/-- FIND_IN's parameters: an inbound slot and a start 0-7 (01 R21). -/
def parseFindIn (m : List Byte) : Option (Slot × Nat) :=
  match parseSlot m 4 with
  | some k => if (byteAt m 6).toNat ≤ 7 then some (k, (byteAt m 6).toNat) else none
  | none => none

/-- FIND_IN (01 R21). -/
def effFindIn (r : Request) (e : Eff) : Eff :=
  e.checked r 3 (parseFindIn r.msg) fun (k, start) =>
    let list := e.mgr.fanOf k
    let part := (list.drop start).take 6
    e.ok r ([BitVec.ofNat 8 list.length, BitVec.ofNat 8 part.length] ++ part.flatMap fun n => handleBytes (e.handleOf n))

/-! ### ACCESS_END (08 R167) -/

/-- A test record whose access may be ended: MAKING or ACTIVE (08 R162). -/
def Rec.mayEndAccess (r : Rec) : Bool := decide (r.cls = .test ∧ (r.st = .making ∨ r.st = .active))

/-- ACCESS_END from its record on. -/
def Eff.accessEnd (e : Eff) (r : Request) (n : Nat) : Eff :=
  let x := e.recOf n
  if x.mayEndAccess then
    e.endAccess n (some ⟨r.slot, r.sub, r.handle, x.legs.head?.map (·.slot), x.displ.map fun d => e.handleOf d.1⟩)
  else e.refuse r .stateConflict none

/-- ACCESS_END (08 R167). -/
def effAccessEnd (r : Request) (e : Eff) : Eff :=
  e.checked r 4 (some ()) fun _ => e.onHandle r true (e.accessEnd r)

/-- The effect of a request of the circuit manager, by its kind (10.7). -/
def effRequest (d : Defaults) (r : Request) (e : Eff) : Eff :=
  let k := (byteAt r.msg 0).toNat
  if k = 0x01 then effOpen d r e
  else if k = 0x02 then effOpenPair d r e
  else if k = 0x03 then effAddLeg r e
  else if k = 0x04 then effDropLeg r e
  else if k = 0x05 then effMoveSource r e
  else if k = 0x06 then effHold r e
  else if k = 0x07 then effResume r e
  else if k = 0x08 then effRelease r e
  else if k = 0x09 then effTouch r e
  else if k = 0x0A then effQuery r e
  else if k = 0x0B then effFindOut r e
  else if k = 0x0C then effFindIn r e
  else if k = 0x0D then effAccessEnd r e
  else e

end Sys2Proof.Machine
end

