-- ==== Sys2Proof/Machine/Claims.lean ====
section
/-! DEFINITION. The circuit manager's claims other than host requests, the effect of any claim, and how the manager takes one
(01 R17, 03 R59, R69, R70). -/

namespace Sys2Proof.Machine

/-! ### The boundary report (03 R59) -/

/-- A leg after an outcome (03 R59, table); none: the leg is removed. -/
def Leg.after (l : Leg) (k : OutcomeKind) : Option Leg :=
  match k, l.st with
  | .made, .making => some { l with st := .live }
  | .broken, .breaking => none
  | _, _ => some l

/-- An outcome on an outbound slot changes the leg of its record on that slot; a stale handle does nothing (01 R11, 03 R59). -/
def Eff.takeOutcome (e : Eff) (k : Slot) (o : LegOutcome) : Eff :=
  if e.current o.h then
    e.updRec o.h.num fun r => { r with legs := r.legs.filterMap fun l => if l.slot = k then l.after o.kind else some l }
  else e

/-- The handles that a report's outcomes name, those that are current, each once. -/
def Eff.namedIn (e : Eff) (r : Report) : List Handle :=
  firstOf ((r.flatMap fun x => x.2.map (·.h)).filter e.current)

/-- SOURCE_FAULT on a circuit entering ACTIVE with its fault true (03 R51, R54, 04 R84, 08 R156). -/
def Eff.raiseFault (e : Eff) (n : Nat) : Eff := if (e.recOf n).fault then e.raiseOn n .sourceFault else e

/-- The results of an OPEN or OPEN_PAIR answered OK (03 R51, R54, 10.8). -/
def Eff.madeResults (e : Eff) (n : Nat) : List Byte :=
  match (e.recOf n).openAns, (e.recOf n).partner with
  | some a, some _ => a.handles.flatMap handleBytes ++ a.handles.map fun h => flagByte (e.recOf h.num).fault
  | _, _ => openResults (e.handleOf n) (e.recOf n) none

/-- MAKING becomes ACTIVE when no leg is in MAKING; the circuit is answered when its partner, if any, is ACTIVE too (03 R51, R54). -/
def Eff.completeMake (e : Eff) (n : Nat) : Eff :=
  if (e.recOf n).st = .making ∧ (e.recOf n).legs.all (fun l => decide (l.st ≠ .making)) then
    let e := e.setState n .active
    if (e.members n).all fun m => decide ((e.recOf m).st = .active) then
      let e := e.answerOpen n .ok (e.madeResults n)
      (e.members n).foldl Eff.raiseFault e
    else e
  else e

/-- A pending drive change is complete (03 R68). -/
def Eff.completeDrive (e : Eff) (n : Nat) : Eff :=
  match (e.recOf n).target with
  | some t => if (e.recOf n).st = .active ∨ (e.recOf n).st = .held then e.setState n t.state else e
  | none => e

/-- The switch to SOURCE of a verified circuit is complete (04 R84). -/
def Eff.completeVerify (e : Eff) (n : Nat) : Eff :=
  if (e.recOf n).st = .verifying ∧ (e.recOf n).roundTrip.isSome then
    let unit := e.ver.serving (e.handleOf n)
    let e := e.updRec n fun r => { r with st := .active, target := some .source, verify := none }
    let results := openResults (e.handleOf n) (e.recOf n) unit
    let e := match unit with | some u => e.freeUnit u | none => e
    (e.answerOpen n .ok results).raiseFault n
  else e

/-- The end of a test access (08 R164). -/
def Eff.completeTest (e : Eff) (n : Nat) : Eff :=
  if (e.recOf n).cls = .test ∧ (e.recOf n).st = .breaking ∧ (e.recOf n).legs = [] then e.freeTest n else e

/-- A circuit-level change on every record that a report names and that is not FREE since (03 R59; log 23). -/
def Eff.phase (e : Eff) (named : List Handle) (f : Eff → Nat → Eff) : Eff :=
  named.foldl (fun e h => if e.current h then f e h.num else e) e

/-- A boundary report (03 R59). Its offer holds the TOKEN entries of every unit that it frees, 16 at most (04 R78; log 38). -/
def effReport (r : Report) (e : Eff) : Eff :=
  let named := e.namedIn r
  let e := r.foldl (fun e x => x.2.foldl (fun e o => e.takeOutcome x.1 o) e) e
  ((((e.phase named Eff.completeMake).phase named Eff.completeDrive).phase named Eff.completeVerify).phase named Eff.completeTest).phase
    named Eff.tryFree

/-! ### Clear-down ends and leases (05) -/

/-- A clear-down end (05 R98). -/
def effClearDownEnd (h : Handle) (e : Eff) : Eff :=
  if e.current h ∧ (e.recOf h.num).st = .releasing then
    (e.members h.num).foldl (fun e m =>
      (e.updRec m fun r => { r with st := .breaking, clearOf := none }).breakLegs m fun l => decide (l.st = .live)) e
  else e

/-- A valid expiry finds its record in service with a lease of 0 (05 R104). -/
def Eff.expired (e : Eff) (h : Handle) : Bool :=
  let r := e.recOf h.num
  e.current h && decide (r.st ≠ .releasing ∧ r.st ≠ .breaking ∧ r.lease = some 0)

/-- An expiry claim (05 R104, 04 R88, 08 R168). -/
def effExpiry (h : Handle) (e : Eff) : Eff :=
  if e.expired h then
    let n := h.num
    let e := (e.members n).foldl (fun e m => e.raiseOn m .expired) e
    if (e.recOf n).cls = .test then e.endAccess n none else e.releaseCircuit n (e.recOf n).clearDown none
  else e

/-! ### Verify outcomes (04 4.5) -/

/-- An outcome claim is valid (04 R83). -/
def Eff.outcomeValid (e : Eff) (o : OutcomeClaim) : Bool :=
  e.current o.h && decide ((e.recOf o.h.num).st = .verifying ∧ e.ver.serving o.h = some o.unit)

/-- An outcome claim (04 R83-R85). -/
def effOutcome (o : OutcomeClaim) (e : Eff) : Eff :=
  if e.outcomeValid o then
    match o.outcome with
    | .detected k =>
      (e.updRec o.h.num fun r => { r with roundTrip := some k, target := some .source }).offerLegs o.h.num .source none
    | .timedOut => e.endVerifying o.h.num .verifyFailed none
    | .returnLost => e.endVerifying o.h.num .returnLost none
  else e

/-! ### Lane changes (06 6.4) -/

/-- The attention of a change of a record's source fault by its lane (06 R116, R117). -/
def laneCause (r : Rec) (fault : Bool) : Option Cause :=
  if r.st = .active ∨ r.st = .held ∨ r.st = .releasing then faultCause r.fault fault else none

/-- One record fed from a lane takes the lane's fault. -/
def Eff.laneFault (e : Eff) (fault : Bool) (n : Nat) : Eff :=
  let r := e.recOf n
  (e.updRec n fun r => { r with fault := fault }).raiseOpt n (laneCause r fault)

/-- The records fed from a lane, by timeslot and then list order (06 R116). -/
def Manager.fedFrom (m : Manager) (l : Fin 16) : List Nat :=
  (List.range Config.timeslots).flatMap fun t => Tbl.get [] m.fan (l.val * 48 + t)

/-- A lane-change claim (06 R116, R117). -/
def effLane (r : LaneReport) (e : Eff) : Eff :=
  let old := viewUp e.mgr.view r.lane
  let new := decide (r.st = .up)
  let e := { e with mgr := { e.mgr with view := setView e.mgr.view r.lane r.st } }
  if old = new then e else (e.mgr.fedFrom r.lane).foldl (fun e n => e.laneFault (!new) n) e

/-! ### Watcher actions (07 R137, R138, 08) -/

/-- A watcher's linked handle passes the checks of R10 and R47 that do not depend on the action. -/
def Eff.linkedOk (e : Eff) (h : Handle) : Bool := e.current h && decide ((e.recOf h.num).cls ≠ .test)

/-- A RELEASE_LINKED claim (07 R137). -/
def effReleaseLinked (w : Nat) (h : Handle) (e : Eff) : Eff :=
  if e.linkedOk h && e.mayRelease h.num then e.releaseCircuit h.num (e.recOf h.num).clearDown none
  else e.raiseWatcher w .refused

/-- A HOLD_LINKED claim: HOLD at confirmation, RESUME at clearing (07 R138). -/
def effHoldLinked (w : Nat) (h : Handle) (confirmation : Bool) (e : Eff) : Eff :=
  let t : Target := if confirmation then .hold else .source
  if e.linkedOk h && e.mayDrive h.num t then e.driveCircuit h.num t else e.raiseWatcher w .refused

/-- The partner of an up watcher's configuration. -/
def WatcherUnit.partnerOf (u : WatcherUnit) (w : Nat) : Option Nat := (u.watcher w).cfg.up.map (·.partner)

/-- No non-FREE TEST record is linked to an up watcher with this partner (08 R151). -/
def Eff.partnerUnused (e : Eff) (p : Nat) : Bool :=
  (List.range' Config.testPool (Config.records - Config.testPool)).all fun t =>
    match (e.recOf t).watcher with
    | some u => decide ((e.recOf t).st = .free ∨ e.wat.partnerOf u ≠ some p)
    | none => true

/-- The judgements on watchers of an access claim (08 R151), and the number check of R169. The up watcher is a head with action ACCESS_UP
(table 8.1): every test circuit names one (R156). -/
def Eff.accessFits (e : Eff) (a : AccessRequest) : Bool :=
  let up := e.wat.watcher a.watcher
  let down := e.wat.watcher a.partner
  decide (e.mgr.resets ≤ a.resets ∧ up.cfg.chain = false ∧ up.cfg.action = .accessUp ∧ up.run.st = .confirmed ∧ up.run.link = none ∧
    down.cfg.configured ∧ down.cfg.chain = false ∧ down.cfg.action = .accessDown ∧ down.cfg.target.lane = a.target.lane) && e.partnerUnused a.partner

/-- A holder whose leg on the loop slot may be displaced (08 R152). -/
def Manager.displaceable (m : Manager) (o : Nat) (k : Slot) : Bool :=
  let r := m.recOf o
  decide (r.cls = .normal ∧ (r.st = .active ∨ r.st = .held)) && r.legs.any fun l => l.holdsSlot k && l.carries

/-- The loop slot can be given to a test circuit (08 R152). -/
def Manager.loopFree (m : Manager) (k : Slot) : Bool :=
  match m.holder k with
  | none => true
  | some o => m.displaceable o k

/-- The test record of an access (08 R153). -/
def testRecord (d : Defaults) (m : Manager) (a : AccessRequest) (displ : Option (Nat × Slot)) (r : Rec) : Rec :=
  { Rec.free r.gen with
    st := .making
    cls := .test
    source := some (.inbound a.target)
    legs := [⟨a.loop, .making, false, none⟩]
    cond := d.cond
    holdB := d.holdB
    rel := d.rel
    clearDown := d.clearDown
    lease := leaseOf a.lease
    reload := leaseOf a.lease
    fault := m.faultOf (.inbound a.target)
    displ := displ
    watcher := some a.watcher
    down := some a.partner
    tag := BitVec.ofNat 16 a.watcher
    target := some .source }

/-- The owner's leg on the loop slot is displaced by test record t (08 R154). -/
def Eff.displace (e : Eff) (o : Nat) (k : Slot) (t : Nat) : Eff :=
  (e.updRec o fun r => r.updLeg k fun l => { l with st := .displaced, link := some t }).raiseOn o .displaced

/-- The acceptance of an access claim with test record t (08 R153-R157). -/
def Eff.makeAccess (e : Eff) (d : Defaults) (a : AccessRequest) (t : Nat) : Eff :=
  let owner := e.mgr.holder a.loop
  let m := e.mgr
  let e := (e.updRec t (testRecord d m a (owner.map fun o => (o, a.loop)))).raiseOn t .created
  let e := e.joinFan (some (.inbound a.target)) t
  let e := match owner with | some o => e.displace o a.loop t | none => e
  let h := e.handleOf t
  let changed : List LegOutcome := owner.toList.map fun o => ⟨e.handleOf o, .changed⟩
  let e := e.addEntry a.loop (e.content t .source none) (changed ++ [⟨h, .made⟩])
  let wat := e.wat.updRun a.watcher fun x => { x with link := some h }
  { e with wat := { wat with orders := wat.orders ++ [.arm a.partner a.watcher h] } }

/-- An access claim (08 R151-R157). -/
def effAccess (d : Defaults) (a : AccessRequest) (e : Eff) : Eff :=
  if e.accessFits a && e.mgr.loopFree a.loop && e.fanRoom (.inbound a.target) 1 then
    match e.lowestFree Config.testPool (Config.records - Config.testPool) none with
    | some t => e.makeAccess d a t
    | none => e.raiseWatcher a.watcher .refused
  else e.raiseWatcher a.watcher .refused

/-- An end-of-access claim (08 R166). -/
def effEndOfAccess (w : Nat) (h : Option Handle) (e : Eff) : Eff :=
  match h with
  | some h => if e.current h && (e.recOf h.num).mayEndAccess then e.endAccess h.num none else e.raiseWatcher w .refused
  | none => e.raiseWatcher w .refused

/-- An action claim (07 R136, 08 R149). -/
def effAction (d : Defaults) (a : ActionClaim) (e : Eff) : Eff :=
  match a with
  | .releaseLinked w h => effReleaseLinked w h e
  | .holdLinked w h c => effHoldLinked w h c e
  | .suppression w => e.raiseWatcher w .suppressed
  | .access a => effAccess d a e
  | .endOfAccess w h => effEndOfAccess w h e

/-! ### Taking a claim -/

/-- The effect of a claim, with the device defaults it reads (01 R17). -/
def effect (d : Defaults) (c : Claim) (e : Eff) : Eff :=
  match c with
  | .request r => effRequest d r e
  | .report r => effReport r e
  | .clearDownEnd h => effClearDownEnd h e
  | .expiry h => effExpiry h e
  | .outcome o => effOutcome o e
  | .action a => effAction d a e
  | .lane r => effLane r e

/-- The manager takes a claim: its changes at one event, or the wait for room (01 R17, 03 R69). -/
def State.takeClaim (s : State) (c : Claim) : State := settle c (effect s.port.defaults c (Eff.start s)) s

/-- The manager can take a claim: the part runs and no claim waits for room (03 R69, 10 R203). -/
def State.managerFree (s : State) : Bool := s.running && s.mgr.held.isNone

/-- The circuit manager's taking of the request at the head of its routing queue, of the kind named. Every order of a SOFT_RESET, the
engine's clearance order among them, goes first (10 R199, R201; log 22). -/
def State.managerRequest (s : State) (kind : Byte) : State :=
  if s.managerFree && s.port.ordersTaken then
    match s.port.takeRequest .manager kind with
    | some (r, p) => { s with port := p }.takeClaim (.request r)
    | none => s
  else s

/-- The held claim refused on its second judgement against the watcher table: the kept offer is discarded (08 R152). -/
def refuseHeld (a : AccessRequest) (s : State) : State :=
  { s with att := s.att.hand .manager [(watcherEntity a.watcher, .refused)] }

/-- The held claim is taken with its kept offer, as first built (03 R69; log 31). -/
def commitHeld (hd : Held) (kp : Kept) (s : State) : State :=
  (effect hd.defaults hd.claim (Eff.start s)).commit kp.offer kp.order s

/-- The switch takes the kept offer that a boundary has made room for, and the manager takes the held claim (03 R69, 08 R152). -/
def State.takeHeld (s : State) : State :=
  match s.mgr.held, s.sw.kept with
  | some hd, some kp =>
    if kp.room && fits s.sw.list kp.offer then
      let s := { s with mgr := { s.mgr with held := none }, sw := { s.sw with kept := none } }
      match hd.claim with
      | .action (.access a) => if (Eff.start s).accessFits a then commitHeld hd kp s else refuseHeld a s
      | _ => commitHeld hd kp s
    else s
  | _, _ => s

end Sys2Proof.Machine
end

