-- ==== Sys2Proof/Machine/CircuitRequests.lean ====
section
/-! DEFINITION. The circuit manager's taking of each of its requests (10.7). The kinds are those of the catalogue; the effects stand in
Machine/Requests.lean. -/

namespace Sys2Proof.Machine

/-- OPEN, kind 01h (03 R48-R51, 04 R74-R76). -/
def execOpen (s : State) : Result := .next (s.managerRequest 0x01)

/-- OPEN_PAIR, kind 02h (03 R52-R54). -/
def execOpenPair (s : State) : Result := .next (s.managerRequest 0x02)

/-- ADD_LEG, kind 03h (03 R60). -/
def execAddLeg (s : State) : Result := .next (s.managerRequest 0x03)

/-- DROP_LEG, kind 04h (03 R61, R62). -/
def execDropLeg (s : State) : Result := .next (s.managerRequest 0x04)

/-- MOVE_SOURCE, kind 05h (03 R63, R64). -/
def execMoveSource (s : State) : Result := .next (s.managerRequest 0x05)

/-- HOLD, kind 06h (03 R66). -/
def execHold (s : State) : Result := .next (s.managerRequest 0x06)

/-- RESUME, kind 07h (03 R67). -/
def execResume (s : State) : Result := .next (s.managerRequest 0x07)

/-- RELEASE, kind 08h (05 R91-R96). -/
def execRelease (s : State) : Result := .next (s.managerRequest 0x08)

/-- TOUCH, kind 09h (05 R105). -/
def execTouch (s : State) : Result := .next (s.managerRequest 0x09)

/-- QUERY, kind 0Ah (01 R19). -/
def execQuery (s : State) : Result := .next (s.managerRequest 0x0A)

/-- FIND_OUT, kind 0Bh (01 R20). -/
def execFindOut (s : State) : Result := .next (s.managerRequest 0x0B)

/-- FIND_IN, kind 0Ch (01 R21). -/
def execFindIn (s : State) : Result := .next (s.managerRequest 0x0C)

/-- ACCESS_END, kind 0Dh (08 R167). -/
def execAccessEnd (s : State) : Result := .next (s.managerRequest 0x0D)

end Sys2Proof.Machine
end

