-- ==== Sys2Proof/Machine/Engine.lean ====
section
/-! DEFINITION. The request engine's own requests (10 10.4, 10.5): CONFIG, IDENT, SOFT_RESET, and what it takes to complete a soft reset. -/

namespace Sys2Proof.Machine

/-- The five defaults as CONFIG gives them (10.8). -/
def Defaults.bytes (d : Defaults) : List Byte := [d.idle, d.cond, d.holdB, d.rel, BitVec.ofNat 8 d.clearDown]

/-- CONFIG past the check of the message as a whole (10 R197). -/
def State.configure (r : Request) (s : State) : State :=
  match parseFlag (byteAt r.msg 4) with
  | none => { s with port := s.port.answerRequest r .badField [] }
  | some false => { s with port := s.port.answerRequest r .ok s.port.defaults.bytes }
  | some true =>
    if 200 < (byteAt r.msg 9).toNat then { s with port := s.port.answerRequest r .badField [] }
    else
      let d : Defaults := ⟨byteAt r.msg 5, byteAt r.msg 6, byteAt r.msg 7, byteAt r.msg 8, (byteAt r.msg 9).toNat⟩
      { s with port := { s.port with defaults := d }.answerRequest r .ok d.bytes }

/-- CONFIG, kind 30h (10 R197). -/
def execConfig (s : State) : Result := .next (s.ownerTakes .engine 0x30 6 State.configure)

/-- The results of IDENT (10 R198, 10.8). -/
def identBytes (locked : Bool) : List Byte :=
  [0x24, 0x16, 0x01, flagByte locked, BitVec.ofNat 8 Config.lanes, BitVec.ofNat 8 Config.timeslots] ++ bytes16 Config.records ++
    bytes16 Config.testPool ++
    [BitVec.ofNat 8 Config.watchers, BitVec.ofNat 8 Config.generators, BitVec.ofNat 8 Config.units, BitVec.ofNat 8 Config.listRoom,
      BitVec.ofNat 8 Config.slots]

/-- IDENT past the check of the message as a whole (10 R198). -/
def State.identify (r : Request) (s : State) : State :=
  { s with port := s.port.answerRequest r .ok (identBytes s.sw.locked) }

/-- IDENT, kind 31h (10 R198). -/
def execIdent (s : State) : Result := .next (s.ownerTakes .engine 0x31 0 State.identify)

/-- The request slots in number order. -/
def allSlots : List (Fin 4) := [0, 1, 2, 3]

/-- Step 1 of R199 on one slot: QUEUED or WORKING is completed with RESET_ABORTED. -/
def Port.abort (p : Port) (n : Fin 4) : Port :=
  let e := p.slot n
  if e.st = .queued ∨ e.st = .working then
    p.setSlot n { e with st := .done, response := responseOf e.request .resetAborted [] }
  else p

/-- SOFT_RESET past the check of the message as a whole: the other slots aborted and their requests withdrawn, the four orders given, and
the soft reset marked in progress (10 R199, R202). -/
def Port.softReset (p : Port) (r : Request) : Port :=
  let p := (allSlots.filter (· ≠ r.slot)).foldl Port.abort p
  let id := p.softId + 1
  { p with
    queue := []
    soft := some ⟨id, r.slot, r.sub, [], []⟩
    softId := id
    toSwitch := p.toSwitch ++ [id]
    toManager := p.toManager ++ [id]
    toWatchers := p.toWatchers ++ [id]
    toAttention := p.toAttention ++ [id] }

/-- SOFT_RESET, kind 3Fh (10 R199). -/
def execSoftReset (s : State) : Result := .next (s.ownerTakes .engine 0x3F 0 fun r s => { s with port := s.port.softReset r })

/-- Everything that completes a soft reset has been recorded (10 R201). -/
def SoftReset.complete (x : SoftReset) : Bool :=
  x.acks.contains .manager && x.acks.contains .watcherUnit && x.acks.contains .attention && x.cleared.contains (.manager x.id)

/-- Record something for the soft reset in progress, and complete it with OK if everything is there (10 R201). -/
def Port.record (p : Port) (x : SoftReset) : Port :=
  if x.complete then { p with soft := none }.answer x.slot x.sub .ok [] else { p with soft := some x }

/-- The engine takes the next acknowledgement of a block; one that names an earlier SOFT_RESET is disregarded (10 R201, R202). -/
def Port.takeAck (p : Port) (b : ResetBlock) : Port :=
  match takeFirst (fun a => decide (a.1 = b)) p.acks with
  | none => p
  | some ((_, id), rest) =>
    let p := { p with acks := rest }
    match p.soft with
    | some x => if x.id = id then p.record { x with acks := x.acks ++ [b] } else p
    | none => p

/-- SOFT_RESET_ACKNOWLEDGEMENT of a block (10 R201). -/
def execSoftResetAcknowledgement (b : ResetBlock) (s : State) : Result :=
  .next (s.whenRunning fun s => { s with port := s.port.takeAck b })

/-- The engine takes the next clearance-done report (10 R201, R202). -/
def State.takeCleared (s : State) : State :=
  match s.sw.cleared with
  | [] => s
  | names :: rest =>
    let s := { s with sw := { s.sw with cleared := rest } }
    match s.port.soft with
    | some x => { s with port := s.port.record { x with cleared := x.cleared ++ names } }
    | none => s

/-- CLEARANCE_DONE_REPORT (10 R201). -/
def execClearanceDoneReport (s : State) : Result := .next (s.whenRunning State.takeCleared)

end Sys2Proof.Machine
end

