-- ==== Sys2Proof/Machine/Verify.lean ====
section
/-! DEFINITION. The path verifier (04): the token, the verify units' frames, and the outcomes at the circuit manager. -/

namespace Sys2Proof.Machine

/-- The token of unit u for circuit record c (04 R73). -/
def token (u c : Nat) : List Byte :=
  let ub := BitVec.ofNat 8 u
  let hi := BitVec.ofNat 8 (c / 256)
  let lo := BitVec.ofNat 8 c
  [0x7E, ub, hi, lo, ~~~ub, ~~~hi, ~~~lo, 0x81]

/-- The token byte at a position, modulo 8. -/
def tokenByte (u c pos : Nat) : Byte := (token u c).getD (pos % 8) 0

/-- 32 bytes are four whole repetitions of the token begun at one of its positions (04 R80). -/
def fourTokens (u c : Nat) (rx : List Byte) : Bool :=
  decide (rx.length = 32) && (List.range 8).any fun r => rx == (List.range 32).map fun i => tokenByte u c (r + i)

/-- The token byte that a unit presents at a position, if it serves a circuit. -/
def VerifyUnit.present (x : VerifyUnit) (u p : Nat) : VerifyUnit :=
  { x with pos := some (p % 8), shown := x.circuit.map fun h => tokenByte u h.num p }

/-- A unit at the start of a frame: the byte it presents, and its frame count (04 R72). A unit that is DONE and has presented no token byte,
started or not, presents the idle byte (log 39). -/
def VerifyUnit.startFrame (u : Nat) (x : VerifyUnit) : VerifyUnit :=
  match x.st with
  | .idle => { x with pos := none, shown := none }
  | .sending => if x.started then { x.present u x.count with count := x.count + 1 } else { x with pos := none, shown := none }
  | .done => match x.pos with
    | some p => x.present u (p + 1)
    | none => { x with shown := none }

/-- A unit at the end of a frame: the token frame that ended waits to be judged (04 R80; log 5). -/
def VerifyUnit.endFrame (x : VerifyUnit) : VerifyUnit :=
  { x with due := if x.st = .sending ∧ x.started = true ∧ 0 < x.count then some x.count else none }

/-! ### Token notices (04 R79) -/

/-- A unit started by a notice: token frame 1 is the frame that started at the notice's boundary, or the next one (04 R79; log 21). -/
def VerifyUnit.start (u : Nat) (atBoundary : Bool) (x : VerifyUnit) : VerifyUnit :=
  if atBoundary then { x.present u 0 with started := true, count := 1 } else { x with started := true }

/-- A unit takes a notice (04 R79). -/
def Verifier.takeNotice (v : Verifier) (n : Notice) (atBoundary : Bool) : Verifier :=
  let x := v.unit n.unit
  if x.st = .sending ∧ x.started = false ∧ x.circuit = some n.h then v.setUnit n.unit (x.start n.unit (atBoundary && n.fresh)) else v

/-- Unit u takes its next notice. -/
def State.takeNotice (u : Fin 4) (atBoundary : Bool) (s : State) : State :=
  match takeFirst (fun n => decide (n.unit = u)) s.sw.notices with
  | some (n, rest) => { s with sw := { s.sw with notices := rest }, ver := s.ver.takeNotice n atBoundary }
  | none => s

/-- TOKEN_NOTICE, taken by unit u (04 R79). -/
def execTokenNotice (u : Fin 4) (atBoundary : Bool) (s : State) : Result := .next (s.whenRunning (State.takeNotice u atBoundary))

/-! ### Token frame ends (04 R80, R81) -/

/-- A unit at the end of token frame k, with the byte received in its return slot: detection first, then the limit (04 R80, R81). -/
def VerifyUnit.judge (u : Nat) (h : Handle) (k : Nat) (b : Byte) (x : VerifyUnit) : VerifyUnit :=
  let all := x.rx ++ [b]
  let rx := all.drop (all.length - 32)
  if 32 ≤ k ∧ fourTokens u h.num rx = true then x.finish (.detected (k - 32)) k
  else if x.limit ≤ k then x.finish .timedOut k
  else { x with rx := rx, due := none }

/-- The outcome that a unit in DONE hands to the circuit manager (04 R80-R82). -/
def VerifyUnit.handed (u : Fin 4) (x : VerifyUnit) : List OutcomeClaim :=
  match x.st, x.circuit, x.outcome with
  | .done, some h, some o => [⟨u, h, o⟩]
  | _, _, _ => []

/-- Unit u judges token frame k, with the byte stored for its return slot at the frame's end. In a frame that a relock cuts before that slot
(02 R26) this is the byte stored from the frame before, the model's choice where 04 R80 speaks of the byte received in the frame (log 43). -/
def State.judgeUnit (u : Fin 4) (k : Nat) (s : State) : State :=
  let x := s.ver.unit u
  match x.st, x.circuit, x.ret with
  | .sending, some h, some r =>
    let y := x.judge u h k (s.sw.storedByte r)
    let v := s.ver.setUnit u y
    { s with ver := { v with outcomes := v.outcomes ++ y.handed u } }
  | _, _, _ => s

/-- The end of a token frame of unit u, if it has not been judged (04 R80; log 5). -/
def State.tokenFrameEnd (u : Fin 4) (s : State) : State :=
  match (s.ver.unit u).due with
  | some k => s.judgeUnit u k
  | none => s

/-- TOKEN_FRAME_END of unit u (04 R80, R81). -/
def execTokenFrameEnd (u : Fin 4) (s : State) : Result := .next (s.whenRunning (State.tokenFrameEnd u))

/-- The end of the token frame at which the count of unit u reaches its limit: the same event as its token frame end (04 R81; log 18). -/
def State.verifyTimeout (u : Fin 4) (s : State) : State :=
  match (s.ver.unit u).due with
  | some k => if (s.ver.unit u).limit ≤ k then s.judgeUnit u k else s
  | none => s

/-- VERIFY_TIMEOUT of unit u (04 R81). -/
def execVerifyTimeout (u : Fin 4) (s : State) : Result := .next (s.whenRunning (State.verifyTimeout u))

/-! ### Lane changes (04 R82, 06 R120) -/

/-- A SENDING unit whose return lane leaves UP (04 R82). -/
def Verifier.loseReturn (l : Fin 16) (v : Verifier) (u : Fin 4) : Verifier :=
  let x := v.unit u
  if x.st = .sending ∧ x.ret.map (·.lane) = some l then
    let y := x.finish .returnLost x.frames
    let v := v.setUnit u y
    { v with outcomes := v.outcomes ++ y.handed u }
  else v

/-- The verifier takes a lane-change report: the view, and the units whose return lane leaves UP (06 R120). -/
def Verifier.takeLane (v : Verifier) (r : LaneReport) : Verifier :=
  let lost := viewUp v.view r.lane && decide (r.st ≠ .up)
  let v := { v with view := setView v.view r.lane r.st }
  if lost then allUnits.foldl (Verifier.loseReturn r.lane) v else v

/-- The verifier takes its next report of lane l. -/
def State.verifierLane (l : Fin 16) (s : State) : State :=
  match takeFirst (fun r => decide (r.lane = l)) s.sup.toVerifier with
  | some (r, rest) => { s with sup := { s.sup with toVerifier := rest }, ver := s.ver.takeLane r }
  | none => s

/-- VERIFIER_LANE_CHANGE_REPORT of lane l (04 R82, 06 R120). -/
def execVerifierLaneChangeReport (l : Fin 16) (s : State) : Result := .next (s.whenRunning (State.verifierLane l))

/-! ### Outcomes at the circuit manager (04 R83-R85) -/

/-- A DETECTED outcome. -/
def VerifyOutcome.isDetected : VerifyOutcome → Bool
  | .detected _ => true
  | .timedOut => false
  | .returnLost => false

/-- The manager takes the next outcome, if it is of the kind named (04 R83). -/
def State.claimOutcome (detected : Bool) (s : State) : State :=
  match s.managerFree, s.ver.outcomes with
  | true, o :: rest =>
    if o.outcome.isDetected = detected then { s with ver := { s.ver with outcomes := rest } }.takeClaim (.outcome o) else s
  | _, _ => s

/-- DETECTED_OUTCOME (04 R84). -/
def execDetectedOutcome (s : State) : Result := .next (s.claimOutcome true)

/-- VERIFY_FAILURE_OUTCOME (04 R85). -/
def execVerifyFailureOutcome (s : State) : Result := .next (s.claimOutcome false)

end Sys2Proof.Machine
end

