-- ==== Sys2Proof/Machine/Generators.lean ====
section
/-! DEFINITION. The generator bank (02 2.8): the bytes that a generator produces, its step in a frame, and GEN_SET. -/

namespace Sys2Proof.Machine

/-- The byte of a repeated code from code position p: 8 bits of the stream, the code's bits most significant first (02 R39, 07 R126). -/
def codeByte (len : Nat) (value : Byte) (p : Nat) : Byte :=
  byteOfBits ((List.range 8).map fun j => value.getLsbD (len - 1 - (p + j) % len))

/-- One bit step of the PRBS register: stage 14 exclusive-or stage 15 enters stage 1; stage i is bit i - 1 (02 R38). -/
def prbsBit (r : BitVec 15) : Bool := r.getLsbD 13 ^^ r.getLsbD 14

/-- The register after one bit step (02 R38). -/
def prbsStep (r : BitVec 15) : BitVec 15 := r <<< 1 ||| (if prbsBit r then 1 else 0)

/-- The register after n bit steps, and the bits output. -/
def prbsRun : Nat → BitVec 15 → BitVec 15 × List Bool
  | 0, r => (r, [])
  | n + 1, r =>
    let q := prbsRun n (prbsStep r)
    (q.1, prbsBit r :: q.2)

/-- A generator's output in a frame, and its advance (02 R37-R39). `idle` is the device idle byte in force in the frame. -/
def Generator.step (idle : Byte) (g : Generator) : Generator :=
  match g.kind with
  | .off => { g with out := idle }
  | .fixed => { g with out := g.fixed }
  | .prbs =>
    let q := prbsRun 8 g.reg
    { g with reg := q.1, out := byteOfBits q.2 }
  | .code => { g with phase := (g.phase + 8) % g.len, out := codeByte g.len g.value g.phase }

/-- The seed that a GEN_SET selects: 0000h selects 7FFFh (02 R40). -/
def seedOf (n : Nat) : BitVec 16 := if n = 0 then 0x7FFF else BitVec.ofNat 16 n

/-- The generator after an accepted GEN_SET: the kind, the parameters of that kind and the flag are written, and the sequence restarts
(02 R40). -/
def Generator.configured (g : Generator) (f : GenFields) (m : List Byte) : Generator :=
  let g := { g with kind := f.kind, flag := f.flag }
  match f.kind with
  | .off => g
  | .fixed => { g with fixed := byteAt m 6 }
  | .prbs => { g with seed := seedOf (wordAt m 7), reg := (seedOf (wordAt m 7)).setWidth 15 }
  | .code => { g with len := (byteAt m 9).toNat, value := byteAt m 10, phase := 0 }

/-- The results of GEN_SET (10.8). -/
def genResults (n : Nat) (g : Generator) : List Byte :=
  [BitVec.ofNat 8 n, g.kind.toByte, g.fixed] ++ bytes16 g.seed.toNat ++ [BitVec.ofNat 8 g.len, g.value, flagByte g.flag]

/-- GEN_SET past the check of the message as a whole (02 R40). -/
def State.genSet (r : Request) (s : State) : State :=
  match parseGen r.msg with
  | none => { s with port := s.port.answerRequest r .badField [] }
  | some f =>
    let g := (generatorOf s.gens f.gen).configured f r.msg
    { s with
      gens := Tbl.set Generator.initial s.gens f.gen g
      port := s.port.answerRequest r .ok (genResults f.gen g) }

/-- GEN_SET, kind 10h (02 R40). -/
def execGenSet (s : State) : Result := .next (s.ownerTakes .generators 0x10 8 State.genSet)

end Sys2Proof.Machine
end

