-- ==== Sys2Proof/Machine/Watchers.lean ====
section
/-! DEFINITION. The watcher unit (07): chains, arming, sampling, interval ends, freezing, its requests, and the circuit manager's orders
to it (08). -/

namespace Sys2Proof.Machine

/-! ### Chains (07 7.2) -/

/-- The head of the chain of watcher w (07 R124). -/
def WatcherUnit.headOf (u : WatcherUnit) : Nat → Nat
  | 0 => 0
  | n + 1 => if (u.watcher (n + 1)).cfg.chain then WatcherUnit.headOf u n else n + 1

/-- The watchers from n on, at most k, whose chain flags are set without a break. -/
def WatcherUnit.followers (u : WatcherUnit) (n : Nat) : Nat → List Nat
  | 0 => []
  | k + 1 => if n < Config.watchers ∧ (u.watcher n).cfg.chain = true then n :: WatcherUnit.followers u (n + 1) k else []

/-- The members of the chain of head h, the head first (07 R124). -/
def WatcherUnit.members (u : WatcherUnit) (h : Nat) : List Nat := h :: u.followers (h + 1) Config.watchers

/-- Every member's target lane is UP in the watcher unit's view (07 R134). -/
def WatcherUnit.lanesUp (u : WatcherUnit) (h : Nat) : Bool :=
  (u.members h).all fun m => viewUp u.view (u.watcher m).cfg.target.lane

/-- Change the run state of every member of a chain. -/
def WatcherUnit.updChain (u : WatcherUnit) (h : Nat) (f : Nat → WatchRun → WatchRun) : WatcherUnit :=
  (u.members h).foldl (fun u m => u.updRun m (f m)) u

/-- An armed head: any state but DISARMED and LINKED (07 7.4). -/
def WatchState.armedHead (s : WatchState) : Bool :=
  decide (s = .armed ∨ s = .candidate ∨ s = .confirmed ∨ s = .clearing)

/-! ### Arming and disarming -/

/-- The run state at its starting values, with confirmations and the linked test circuit kept (07 R123). -/
def WatchRun.restart (r : WatchRun) : WatchRun :=
  { WatchRun.initial with confirmations := r.confirmations, link := r.link }

/-- Arm the chain of head h, frozen if a member's lane is not UP (07 R142, R134); `served`: the access that the arming serves
(08 R148). -/
def WatcherUnit.armChain (u : WatcherUnit) (h : Nat) (served : Option Handle) : WatcherUnit :=
  let frozen := !u.lanesUp h
  u.updChain h fun m r =>
    if m = h then { r.restart with st := .armed, frozen := frozen, served := served } else { r.restart with st := .linked }

/-- Disarm the chain of head h (07 R123, R143). -/
def WatcherUnit.disarmChain (u : WatcherUnit) (h : Nat) : WatcherUnit := u.updChain h fun _ r => r.restart

/-! ### Sampling (07 7.3) -/

/-- One bit into the CRC register (07 R128). -/
def crcBit (r : BitVec 16) (b : Bool) : BitVec 16 :=
  if r.msb ^^ b then (r <<< 1) ^^^ 0x1021 else r <<< 1

/-- One byte into the CRC register, most significant bit first (07 R128). -/
def crcByte (r : BitVec 16) (b : Byte) : BitVec 16 :=
  ((List.range 8).map fun j => b.getLsbD (7 - j)).foldl crcBit r

/-- The byte that a REPEAT member expects at phase p: the code byte there; a code of length 8 has one phase, and every frame is judged
against the code value itself (07 R126). -/
def RepeatCode.phaseByte (c : RepeatCode) (p : Nat) : Byte := if c.len = 8 then c.value else codeByte c.len c.value p

/-- The lowest phase whose code byte is b (07 R126). -/
def findPhase (c : RepeatCode) (b : Byte) : Option Nat :=
  (List.range c.len).find? fun p => c.phaseByte p = b

/-- A REPEAT member's phase before the byte: the held phase if it fits, or the lowest that fits when none is held; none is a miss
(07 R126). -/
def hitPhase (c : RepeatCode) (held : Option Nat) (b : Byte) : Option Nat :=
  match held with
  | some p => if c.phaseByte p = b then some p else none
  | none => findPhase c b

/-- A REPEAT sample (07 R126). -/
def WatchRun.sampleRepeat (r : WatchRun) (c : RepeatCode) (b : Byte) : WatchRun :=
  match hitPhase c r.phase b with
  | some p => { r with phase := some ((p + 8) % c.len) }
  | none => { r with phase := none, misses := r.misses + 1 }

/-- A SIGNATURE sample (07 R127). -/
def WatchRun.sampleSignature (r : WatchRun) (g : Signature) (b : Byte) : WatchRun :=
  let crc := if g.mask.getLsbD r.wpos then crcByte r.crc b else r.crc
  if r.wpos + 1 < g.window then { r with crc := crc, wpos := r.wpos + 1 }
  else { r with crc := 0xFFFF, wpos := 0, misses := if crc = g.crc then r.misses else r.misses + 1 }

/-- A member's sample of the byte received in its target slot (07 R125). -/
def Watcher.sample (x : Watcher) (b : Byte) : WatchRun :=
  match x.cfg.code, x.cfg.sig with
  | some c, none => x.run.sampleRepeat c b
  | _, some g => x.run.sampleSignature g b
  | none, none => x.run

/-- The sample of watcher w for the frame that ended, if it is due; the head's sample moves the interval position, which
stands at 800 from the last sample to the interval end (07 R125; log 5, log 42). -/
def State.sampleWatcher (w : Nat) (s : State) : State :=
  let x := s.wat.watcher w
  if x.run.due then
    let r := x.sample (s.sw.storedByte x.cfg.target)
    let r := { r with due := false, pos := if s.wat.headOf w = w then r.pos + 1 else r.pos }
    { s with wat := s.wat.setWatcher w { x with run := r } }
  else s

/-- WATCHER_SAMPLE of watcher w (07 R125-R127). -/
def execWatcherSample (w : Fin 64) (s : State) : Result := .next (s.whenRunning (State.sampleWatcher w.val))

/-! ### Interval ends (07 R129-R133, R136, 08 R149) -/

/-- What an interval end is. -/
inductive IntervalEvent where
  | none | confirmation | clearing
deriving DecidableEq, Repr

/-- The head after the judgement of an interval, and the event (07 R131, R132). -/
def WatchRun.judged (r : WatchRun) (c : WatchConfig) (present : Bool) : WatchRun × IntervalEvent :=
  let confirm : WatchRun × IntervalEvent := ({ r with st := .confirmed, present := 0, absent := 0 }, .confirmation)
  let clear : WatchRun × IntervalEvent := ({ r with st := .armed, present := 0, absent := 0 }, .clearing)
  match r.st, present with
  | .armed, true => if c.persistence ≤ 1 then confirm else ({ r with st := .candidate, present := 1 }, .none)
  | .candidate, true =>
    if c.persistence ≤ r.present + 1 then confirm else ({ r with present := r.present + 1 }, .none)
  | .candidate, false => ({ r with st := .armed, present := 0 }, .none)
  | .confirmed, false => if c.dropout ≤ 1 then clear else ({ r with st := .clearing, absent := 1 }, .none)
  | .clearing, false => if c.dropout ≤ r.absent + 1 then clear else ({ r with absent := r.absent + 1 }, .none)
  | .clearing, true => ({ r with st := .confirmed, absent := 0 }, .none)
  | _, _ => (r, .none)

/-- The chain's interval is present: no member's misses exceed its tolerance (07 R129). -/
def WatcherUnit.intervalPresent (u : WatcherUnit) (h : Nat) : Bool :=
  (u.members h).all fun m => decide ((u.watcher m).run.misses ≤ (u.watcher m).cfg.tolerance)

/-- The next interval starts with the next frame (07 R125, R127). -/
def WatcherUnit.nextInterval (u : WatcherUnit) (h : Nat) : WatcherUnit :=
  u.updChain h fun _ r => { r with pos := 0, misses := 0, wpos := 0, crc := 0xFFFF }

/-- The switch's answer to the own-request suppression read for an inbound slot (02 R41). -/
def State.suppressed (s : State) (k : Slot) : Bool :=
  let e := s.sw.entry k
  match e.drive, e.source with
  | .source, some (.gen n) => (generatorOf s.gens n.val).flag
  | _, _ => false

/-- The claim of a confirmation in AUTOMATIC mode (07 R136, 08 R149). -/
def State.confirmClaim (s : State) (w : Nat) (x : Watcher) : List ActionClaim :=
  match x.cfg.action with
  | .none => []
  | .releaseLinked => x.cfg.linked.toList.map (.releaseLinked w)
  | .holdLinked => x.cfg.linked.toList.map (.holdLinked w · true)
  | .accessUp =>
    if s.suppressed x.cfg.target then [.suppression w]
    else x.cfg.up.toList.map fun f => .access ⟨w, x.cfg.target, f.loop, f.partner, f.lease, s.wat.resets⟩
  | .accessDown => [.endOfAccess w x.run.served]

/-- The claim of a clearing in AUTOMATIC mode (07 R136). -/
def clearClaim (w : Nat) (x : Watcher) : List ActionClaim :=
  match x.cfg.action with
  | .holdLinked => x.cfg.linked.toList.map (.holdLinked w · false)
  | _ => []

/-- A watcher raises a cause on its entity. -/
def State.raiseWatch (s : State) (w : Nat) (c : Cause) : State :=
  { s with att := s.att.hand .watcherUnit [(watcherEntity w, c)] }

/-- Hand action claims to the circuit manager. -/
def State.handClaims (s : State) (l : List ActionClaim) : State :=
  { s with wat := { s.wat with claims := s.wat.claims ++ l } }

/-- A confirmation or a clearing: the count, the attention, and in AUTOMATIC mode the action (07 R133). -/
def State.watchEvent (s : State) (w : Nat) (e : IntervalEvent) : State :=
  let x := s.wat.watcher w
  match e with
  | .none => s
  | .confirmation =>
    let s := { s with wat := s.wat.updRun w fun r => { r with confirmations := min 255 (r.confirmations + 1) } }
    let s := s.raiseWatch w .confirmed
    if x.cfg.auto then s.handClaims (s.confirmClaim w x) else s
  | .clearing =>
    let s := s.raiseWatch w .cleared
    if x.cfg.auto then s.handClaims (clearClaim w x) else s

/-- A chain's interval has ended: the head armed and not frozen, its 800th frame sampled, no member's sample due (07 R125). -/
def WatcherUnit.intervalOver (u : WatcherUnit) (h : Nat) : Bool :=
  let r := (u.watcher h).run
  r.st.armedHead && !r.frozen && decide (Config.interval ≤ r.pos) && (u.members h).all fun m => !(u.watcher m).run.due

/-- The judgement of the interval of head h (07 R129-R133). -/
def State.endInterval (w : Nat) (s : State) : State :=
  if s.wat.intervalOver w then
    let x := s.wat.watcher w
    let present := s.wat.intervalPresent w
    let s := { s with wat := s.wat.nextInterval w }
    if x.run.link.isSome then s
    else
      let j := (s.wat.watcher w).run.judged x.cfg present
      { s with wat := s.wat.updRun w fun _ => j.1 }.watchEvent w j.2
  else s

/-- INTERVAL_END of the chain of head w (07 R129-R133, 08 R149). -/
def execIntervalEnd (w : Fin 64) (s : State) : Result := .next (s.whenRunning (State.endInterval w.val))

/-! ### Freezing (07 7.5, 06 R119) -/

/-- The heads of armed chains. -/
def WatcherUnit.armedHeads (u : WatcherUnit) : List Nat :=
  (List.range Config.watchers).filter fun h => (u.watcher h).run.st.armedHead

/-- Freeze the chain of head h (07 R134). -/
def WatcherUnit.freeze (u : WatcherUnit) (h : Nat) : WatcherUnit :=
  u.updChain h fun m r =>
    let r := { r with pos := 0, misses := 0, wpos := 0, crc := 0xFFFF, inFrame := false, due := false }
    if m = h then
      let r := { r with frozen := true }
      if r.st = .candidate then { r with st := .armed, present := 0 } else r
    else r

/-- Thaw the chain of head h: a fresh interval starts with the next frame (07 R135). -/
def WatcherUnit.thaw (u : WatcherUnit) (h : Nat) : WatcherUnit :=
  u.updChain h fun m r =>
    let r := { r with pos := 0, misses := 0, wpos := 0, crc := 0xFFFF, phase := none, inFrame := false, due := false }
    if m = h then { r with frozen := false } else r

/-- One armed chain after the watcher unit's view has changed: frozen when a member's lane is not UP, thawed when all are (07 R134, R135). -/
def WatcherUnit.refreeze (u : WatcherUnit) (h : Nat) : WatcherUnit :=
  match (u.watcher h).run.frozen, u.lanesUp h with
  | false, false => u.freeze h
  | true, true => u.thaw h
  | _, _ => u

/-- The watcher unit takes a lane-change report: the view, then the armed chains with a member on the lane (06 R119). -/
def WatcherUnit.takeLane (u : WatcherUnit) (r : LaneReport) : WatcherUnit :=
  let u := { u with view := setView u.view r.lane r.st }
  (u.armedHeads.filter fun h => (u.members h).any fun m => decide ((u.watcher m).cfg.target.lane = r.lane)).foldl
    WatcherUnit.refreeze u

/-- The watcher unit takes its next report of lane l. -/
def State.watcherLane (l : Fin 16) (s : State) : State :=
  match takeFirst (fun r => decide (r.lane = l)) s.sup.toWatchers with
  | some (r, rest) => { s with sup := { s.sup with toWatchers := rest }, wat := s.wat.takeLane r }
  | none => s

/-- WATCHER_LANE_CHANGE_REPORT of lane l (06 R119, 07 R134, R135). -/
def execWatcherLaneChangeReport (l : Fin 16) (s : State) : Result := .next (s.whenRunning (State.watcherLane l))

/-! ### Requests (07 7.7) -/

/-- The answer of a watcher request. -/
def State.watchAnswer (s : State) (r : Request) (st : Status) (results : List Byte) : State :=
  { s with port := s.port.answerRequest r st results }

/-- Four bytes of a mask. -/
def maskBytes (m : BitVec 32) : List Byte := bytes16 (m.toNat / 65536) ++ bytes16 m.toNat

/-- A watcher's configuration as WATCH_SET gives it: an absent loop slot FFFFh (10.8), every other absent field 00h in each byte, an absent
linked handle 00000000h among them (log 15). -/
def watchBytes (w : Nat) (c : WatchConfig) : List Byte :=
  [BitVec.ofNat 8 w] ++ slotBytes c.target ++
    [flagByte c.signature, BitVec.ofNat 8 ((c.code.map (·.len)).getD 0), (c.code.map (·.value)).getD 0,
      BitVec.ofNat 8 ((c.sig.map (·.window)).getD 0)] ++
    maskBytes ((c.sig.map (·.mask)).getD 0) ++ bytes16 ((c.sig.map Signature.crc).getD 0).toNat ++
    [BitVec.ofNat 8 c.tolerance, BitVec.ofNat 8 c.persistence, BitVec.ofNat 8 c.dropout, flagByte c.auto, c.action.toByte,
      flagByte c.chain, BitVec.ofNat 8 ((c.up.map (·.partner)).getD 0)] ++
    (match c.linked with | some h => handleBytes h | none => [0, 0, 0, 0]) ++
    bytes16 ((c.up.map (·.lease)).getD 0) ++ optSlotBytes (c.up.map (·.loop))

/-- The states that refuse a WATCH_SET: the watcher is not DISARMED, or it would join an armed chain (07 R140). -/
def WatcherUnit.setConflict (u : WatcherUnit) (w : Nat) (c : WatchConfig) : Bool :=
  decide ((u.watcher w).run.st ≠ .disarmed) || (c.chain && decide ((u.watcher (w - 1)).run.st ≠ .disarmed))

/-- WATCH_SET past the check of the message as a whole (07 R139, R140). -/
def State.watchSet (r : Request) (s : State) : State :=
  match parseWatch r.msg with
  | none => s.watchAnswer r .badField []
  | some (w, c) =>
    if s.wat.setConflict w c then s.watchAnswer r .stateConflict []
    else
      let x : Watcher := ⟨c, { (s.wat.watcher w).run with confirmations := 0 }⟩
      { s with wat := s.wat.setWatcher w x }.watchAnswer r .ok (watchBytes w c)

/-- WATCH_SET, kind 20h (07 R139-R141). -/
def execWatchSet (s : State) : Result := .next (s.ownerTakes .watchers 0x20 28 State.watchSet)

/-- A head that WATCH_ARM and WATCH_DISARM may name (07 R142, R143). -/
def WatcherUnit.namedHead (u : WatcherUnit) (b : Byte) : Option (Fin 64) :=
  match parseWatcher b with
  | some w => if (u.watcher w).cfg.chain then none else some w
  | none => none

/-- The states that refuse a WATCH_ARM (07 R142). -/
def WatcherUnit.armConflict (u : WatcherUnit) (h : Nat) : Bool :=
  decide ((u.watcher h).run.st ≠ .disarmed ∨ (u.watcher h).cfg.action = .accessDown) ||
    (u.members h).any fun m => !(u.watcher m).cfg.configured

/-- WATCH_ARM past the check of the message as a whole (07 R142). -/
def State.watchArm (r : Request) (s : State) : State :=
  match s.wat.namedHead (byteAt r.msg 4) with
  | none => s.watchAnswer r .badField []
  | some h =>
    if s.wat.armConflict h then s.watchAnswer r .stateConflict []
    else
      let results := [byteAt r.msg 4, WatchState.armed.toByte, flagByte (!s.wat.lanesUp h), BitVec.ofNat 8 (s.wat.members h).length]
      { s with wat := s.wat.armChain h none }.watchAnswer r .ok results

/-- WATCH_ARM, kind 21h (07 R142). -/
def execWatchArm (s : State) : Result := .next (s.ownerTakes .watchers 0x21 1 State.watchArm)

/-- The states that refuse a WATCH_DISARM (07 R143). -/
def WatcherUnit.disarmConflict (u : WatcherUnit) (h : Nat) : Bool :=
  let x := u.watcher h
  decide ((x.cfg.action = .accessUp ∧ x.run.link.isSome) ∨ (x.cfg.action = .accessDown ∧ x.run.st ≠ .disarmed))

/-- WATCH_DISARM past the check of the message as a whole (07 R143). -/
def State.watchDisarm (r : Request) (s : State) : State :=
  match s.wat.namedHead (byteAt r.msg 4) with
  | none => s.watchAnswer r .badField []
  | some h =>
    let st := (s.wat.watcher h).run.st
    let results := [byteAt r.msg 4, st.toByte, WatchState.disarmed.toByte]
    if st = .disarmed then s.watchAnswer r .ok results
    else if s.wat.disarmConflict h then s.watchAnswer r .stateConflict []
    else { s with wat := s.wat.disarmChain h }.watchAnswer r .ok results

/-- WATCH_DISARM, kind 22h (07 R143). -/
def execWatchDisarm (s : State) : Result := .next (s.ownerTakes .watchers 0x22 1 State.watchDisarm)

/-- Bytes 17-21 of WATCH_QUERY; places that the action does not use are 00h (10.8, R195; log 15). -/
def actionBytes (c : WatchConfig) : List Byte :=
  match c.up, c.linked with
  | some f, _ => [BitVec.ofNat 8 f.partner] ++ bytes16 f.lease ++ slotBytes f.loop
  | none, some h => handleBytes h ++ [0]
  | none, none => [0, 0, 0, 0, 0]

/-- Bytes 7-13 of WATCH_QUERY; without a kind's settings 00h (10.8; log 15). -/
def kindBytes (c : WatchConfig) : List Byte :=
  match c.code, c.sig with
  | _, some g => [BitVec.ofNat 8 g.window] ++ maskBytes g.mask ++ bytes16 g.crc.toNat
  | some x, none => [BitVec.ofNat 8 x.len, x.value, 0, 0, 0, 0, 0]
  | none, none => [0, 0, 0, 0, 0, 0, 0]

/-- A linked test circuit or served access as WATCH_QUERY shows it: record less 480, FFh absent (10.8). -/
def accessByte (r : WatchRun) : Byte :=
  match r.link, r.served with
  | some h, _ => BitVec.ofNat 8 (h.num - Config.testPool)
  | none, some h => BitVec.ofNat 8 (h.num - Config.testPool)
  | none, none => 0xFF

/-- Byte 29 of WATCH_QUERY (10.8). -/
def countByte (r : WatchRun) : Byte :=
  match r.st with
  | .candidate => BitVec.ofNat 8 r.present
  | .clearing => BitVec.ofNat 8 r.absent
  | _ => 0

/-- The results of WATCH_QUERY: a follower shows its head's frozen condition, position, counts and links (07 R144, 10.8). -/
def WatcherUnit.queryBytes (u : WatcherUnit) (w : Nat) : List Byte :=
  let x := u.watcher w
  let h := u.headOf w
  let r := (u.watcher h).run
  slotBytes x.cfg.target ++
    [BitVec.ofNat 8 ((if x.cfg.configured then 128 else 0) + (if x.cfg.signature then 64 else 0) + (if x.cfg.auto then 32 else 0) +
      (if x.cfg.chain then 16 else 0) + x.cfg.action.toByte.toNat)] ++
    kindBytes x.cfg ++ [BitVec.ofNat 8 x.cfg.tolerance, BitVec.ofNat 8 x.cfg.persistence, BitVec.ofNat 8 x.cfg.dropout] ++
    actionBytes x.cfg ++
    [BitVec.ofNat 8 (x.run.st.toByte.toNat * 32 + (if r.frozen then 16 else 0) + x.run.phase.getD 15), BitVec.ofNat 8 h,
      BitVec.ofNat 8 (u.members h).length] ++
    bytes16 r.pos ++ bytes16 x.run.misses ++ [countByte r, BitVec.ofNat 8 r.confirmations, accessByte r]

/-- WATCH_QUERY past the check of the message as a whole (07 R144). -/
def State.watchQuery (r : Request) (s : State) : State :=
  match parseWatcher (byteAt r.msg 4) with
  | none => s.watchAnswer r .badField []
  | some w => s.watchAnswer r .ok (s.wat.queryBytes w)

/-- WATCH_QUERY, kind 23h (07 R144). -/
def execWatchQuery (s : State) : Result := .next (s.ownerTakes .watchers 0x23 1 State.watchQuery)

/-! ### The circuit manager's orders (08 R157, R165) -/

/-- A down watcher can be armed for an up watcher (08 R157). -/
def WatcherUnit.armFits (u : WatcherUnit) (d w : Nat) : Bool :=
  let x := u.watcher d
  decide (x.cfg.configured ∧ x.run.st = .disarmed ∧ x.cfg.chain = false ∧ x.cfg.action = .accessDown ∧
    x.cfg.target.lane = (u.watcher w).cfg.target.lane) && (u.members d).all fun m => (u.watcher m).cfg.configured

/-- The arming order (08 R157). -/
def State.orderArm (s : State) (d w : Nat) (h : Handle) : State :=
  if (s.wat.watcher w).run.link = some h then
    if s.wat.armFits d w then { s with wat := s.wat.armChain d (some h) } else s.raiseWatch w .refused
  else s

/-- The disarming order (08 R165). -/
def State.orderDisarm (s : State) (d : Nat) (h : Handle) : State :=
  let x := s.wat.watcher d
  if x.run.st.armedHead = true ∧ x.cfg.action = .accessDown ∧ x.run.served = some h then { s with wat := s.wat.disarmChain d } else s

/-- A chain returned to ARMED by the return order, with fresh counts (08 R165). DESIGN CHOICE: the head's action is not read, and a served
access that it holds is kept (log 46). -/
def WatcherUnit.returnChain (u : WatcherUnit) (w : Nat) : WatcherUnit :=
  let frozen := !u.lanesUp w
  u.updChain w fun m r =>
    if m = w then { r.restart with st := .armed, frozen := frozen, served := r.served } else { r.restart with st := r.st }

/-- The return order, given when the manager had taken `resets` soft reset claims (08 R165; log 24). One from before a soft reset whose order the
watcher unit has taken finds nothing to do (08 R169; log 45). DESIGN CHOICE: R165 names an up watcher; the order acts on an armed head of any
action (log 46). -/
def State.orderReturn (s : State) (w resets : Nat) : State :=
  let x := s.wat.watcher w
  if s.wat.resets ≤ resets ∧ x.run.st.armedHead = true ∧ x.run.link = none then { s with wat := s.wat.returnChain w } else s

/-- The watcher unit's orders without the first. -/
def State.dropOrder (s : State) : State := { s with wat := { s.wat with orders := s.wat.orders.tail } }

/-- The watcher unit takes its next order if it is an arming order. -/
def State.takeArm (s : State) : State :=
  match s.wat.orders with
  | .arm d w h :: _ => s.dropOrder.orderArm d w h
  | _ => s

/-- ARMING_ORDER (08 R157). -/
def execArmingOrder (s : State) : Result := .next (s.whenRunning State.takeArm)

/-- The watcher unit takes its next order if it is a disarming order. -/
def State.takeDisarm (s : State) : State :=
  match s.wat.orders with
  | .disarm d h :: _ => s.dropOrder.orderDisarm d h
  | _ => s

/-- DISARMING_ORDER (08 R165). -/
def execDisarmingOrder (s : State) : Result := .next (s.whenRunning State.takeDisarm)

/-- The watcher unit takes its next order if it is a return order. -/
def State.takeReturn (s : State) : State :=
  match s.wat.orders with
  | .giveBack w _ n :: _ => s.dropOrder.orderReturn w n
  | _ => s

/-- RETURN_ORDER (08 R165, R169). -/
def execReturnOrder (s : State) : Result := .next (s.whenRunning State.takeReturn)

/-- Every watcher DISARMED, its run state and confirmations at their starting values, links removed (07 R147, 08 R169). -/
def WatcherUnit.softReset (u : WatcherUnit) : WatcherUnit :=
  { u with
    table := Tbl.mapAll Watcher.initial (fun _ x => { x with run := WatchRun.initial }) u.table
    resets := u.resets + 1 }

/-- The watcher unit takes its soft reset order and acknowledges it (07 R147, 10 R199). -/
def State.watcherReset (s : State) : State :=
  match s.port.toWatchers with
  | [] => s
  | id :: rest => { s with
    wat := s.wat.softReset
    port := { s.port with toWatchers := rest, acks := s.port.acks ++ [(.watcherUnit, id)] } }

/-- WATCHER_SOFT_RESET_ORDER (07 R147). -/
def execWatcherSoftResetOrder (s : State) : Result := .next (s.whenRunning State.watcherReset)

end Sys2Proof.Machine
end

