-- ==== Sys2Proof/Machine/Frames.lean ====
section
/-! DEFINITION. The switch (02): the frame boundary, the frame timing, clear-down counts, clearances, and what the lanes carry. -/

namespace Sys2Proof.Machine

/-! ### What the outbound lanes carry (02 R29, R30, 10 R203, R205) -/

/-- The byte that a verify unit presents in the frame in progress (04 R72). -/
def State.tokenShown (s : State) (u : Fin 4) : Byte := (s.ver.unit u).shown.getD s.sw.idle

/-- The byte of a source in SOURCE drive (02 R29, R30). -/
def State.sourceByte (s : State) (cond : Byte) : Source → Byte
  | .inbound k => if (s.sup.lane k.lane).st = .up then s.sw.storedByte k else cond
  | .gen n => (generatorOf s.gens n).out

/-- The byte that the switch builds for an outbound slot at this instant of the frame in progress (02 R29, R30). -/
def State.slotByte (s : State) (k : Slot) : Byte :=
  let e := s.sw.entry k
  match e.drive with
  | .idle => s.sw.idle
  | .hold => e.holdB
  | .release => e.rel
  | .token => match e.unit with
    | some u => s.tokenShown u
    | none => s.sw.idle
  | .source => match e.source with
    | some src => s.sourceByte e.cond src
    | none => s.sw.idle

/-- What the LOUT pins carry in an outbound slot: none is high impedance (10 R203, R205; log 8). -/
def State.lout (s : State) (k : Slot) : Option Byte :=
  if s.oeHigh then none
  else if s.phase = .run ∧ s.sw.inFrame = true then some (s.slotByte k)
  else some 0xFF

/-- The level of LOCK (10 R205). -/
def State.lockPin (s : State) : Bool := s.sw.locked

/-! ### The end of a frame -/

/-- The first n bits that a lane received in a frame. -/
def laneBits (lane : List Byte) (n : Nat) : List Bool := (lane.flatMap bitsOf).take n

/-- Whether received bits show a transition, the first against the bit before (06 R109). -/
def transition : Bool → List Bool → Bool
  | _, [] => false
  | p, b :: bs => (p != b) || transition b bs

/-- A lane of a frame of inbound data. -/
def FrameIn.lane (rx : FrameIn) (l : Nat) : List Byte := rx.getD l []

/-- The bytes stored after a frame of which the first n timeslots were received; the others keep the byte of the frame before (02 R23, R26). -/
def storeFrame (stored rx : FrameIn) (n : Nat) : FrameIn :=
  (List.range Config.lanes).map fun l =>
    let a := (FrameIn.lane rx l).take n
    a ++ (FrameIn.lane stored l).drop a.length

/-- A lane at a frame end: its last bit, and its presence in the frame if a whole-frame count was running (06 R109; log 4, log 5). -/
def Lane.endFrame (bits : List Bool) (inFrame : Bool) (x : Lane) : Lane :=
  { x with
    lastBit := bits.getLastD x.lastBit
    ended := if inFrame then some (transition x.lastBit bits) else none }

/-- The supervisor at a frame end. -/
def Supervisor.endFrame (u : Supervisor) (rx : FrameIn) (bits : Nat) (inFrame : Bool) : Supervisor :=
  { u with lanes := Tbl.updAll Lane.initial Config.lanes (fun l x => x.endFrame (laneBits (FrameIn.lane rx l) bits) inFrame) u.lanes }

/-- A watcher at a frame end: its sample is due if the frame belongs to its chain's interval (07 R125; log 5). -/
def WatcherUnit.endFrame (u : WatcherUnit) : WatcherUnit :=
  { u with table := Tbl.mapAll Watcher.initial (fun w x =>
      { x with run := { x.run with due := x.run.inFrame && decide ((u.watcher (u.headOf w)).run.pos < Config.interval) } }) u.table }

/-- The end of the frame in progress, of which `bits` bits of each lane were received (02 R23, 04 R80, 06 R109, 07 R125). Before the first
frame only the lanes' last bits are taken. -/
def State.endFrame (rx : FrameIn) (bits : Nat) (s : State) : State :=
  if s.sw.inFrame then
    { s with
      sw := { s.sw with stored := storeFrame s.sw.stored rx (bits / 8) }
      sup := s.sup.endFrame rx bits true
      ver := { s.ver with units := Tbl.mapAll VerifyUnit.idle (fun _ x => x.endFrame) s.ver.units }
      wat := s.wat.endFrame }
  else { s with sup := s.sup.endFrame rx bits false }

/-! ### The boundary (02 R34-R36) -/

/-- A marked clearance sets every entry to its hard-reset content and is reported (02 R36). -/
def Switch.clear (w : Switch) : Switch :=
  match w.clearance with
  | [] => w
  | names => { w with map := [], clearance := [], cleared := w.cleared ++ [names] }

/-- The token notice of an entry applied (02 R35). -/
def Entry.notice (x : Entry) : List Notice :=
  match x.content.drive, x.content.unit, x.content.owner with
  | .token, some u, some h => [⟨u, x.slot, h, true⟩]
  | _, _, _ => []

/-- The boundary report of a list; an empty list sends none (02 R35). -/
def reportOf (list : List Entry) : List Report :=
  if list = [] then [] else [list.map fun x => (x.slot, x.outcomes)]

/-- Apply the pending-change list, empty it, and send the report and the token notices; a kept offer has room from here on
(02 R34, R35, 03 R69). -/
def Switch.applyList (w : Switch) : Switch :=
  { w with
    map := w.list.foldl (fun m x => Tbl.set Content.idle m x.slot.key x.content) w.map
    list := []
    kept := w.kept.map fun k => { k with room := true }
    reports := w.reports ++ reportOf w.list
    notices := (w.notices.map fun n => { n with fresh := false }) ++ w.list.flatMap Entry.notice }

/-- A clear-down count at a boundary: it begins at the first, and counts one frame at each one after (05 R97). -/
def ClearCount.tick (c : ClearCount) : ClearCount :=
  if c.started then { c with done := min c.n (c.done + 1) } else { c with started := true }

/-! ### The start of a frame -/

/-- A watcher at the start of a frame: the frame belongs to its chain's interval if the chain is armed and not frozen (07 R125). -/
def WatcherUnit.startFrame (u : WatcherUnit) : WatcherUnit :=
  { u with table := Tbl.mapAll Watcher.initial (fun w x =>
      let r := (u.watcher (u.headOf w)).run
      { x with run := { x.run with inFrame := r.st.armedHead && !r.frozen } }) u.table }

/-- The start of a frame at an instant: the idle byte in force, the generators, the verify units, the watchers' intervals, and an FSO pulse
(02 R29, R37, 04 R72, 07 R125, 10 R205). -/
def State.startFrame (at_ : Nat) (s : State) : State :=
  { s with
    sw := { s.sw with idle := s.port.defaults.idle, boundaryAt := at_, align := none, inFrame := true, fso := s.sw.fso + 1 }
    gens := Tbl.updAll Generator.initial Config.generators (fun _ g => g.step s.port.defaults.idle) s.gens
    ver := { s.ver with units := Tbl.updAll VerifyUnit.idle Config.units (fun u x => x.startFrame u) s.ver.units }
    wat := s.wat.startFrame }

/-- The switch's own work at a boundary: the clearance, the list, the clear-down counts. -/
def Switch.boundary (w : Switch) : Switch :=
  let w := w.clear.applyList
  { w with counts := w.counts.map ClearCount.tick }

/-- A frame boundary at an instant, ending a frame of which `bits` bits were received. A kept offer that the boundary before made room for
is taken first, if it has not been (03 R69; log 12). -/
def State.boundary (rx : FrameIn) (bits at_ : Nat) (s : State) : State :=
  let s := s.takeHeld.endFrame rx bits
  { s with sw := s.sw.boundary }.startFrame at_

/-- The instant of the coming boundary: where an FSYNC placed it, else one frame after the last (02 R25). -/
def Switch.nextAt (w : Switch) : Nat := w.align.getD (w.boundaryAt + Config.framePeriods)

/-- FRAME_BOUNDARY (02 R34-R36). -/
def execFrameBoundary (rx : FrameIn) (s : State) : Result :=
  .next (s.whenRunning fun s => s.boundary rx 384 s.sw.nextAt)

/-! ### Frame timing (02 2.2) -/

/-- Two instants within one master-clock period of each other (02 2.2). -/
def near (a b : Nat) : Bool := decide (a ≤ b + 1 ∧ b ≤ a + 1)

/-- An FSYNC in LOCKED: at the expected position it clears the missed count and places the boundary; elsewhere it is disregarded
(02 R25; one period after a boundary taken: log 36). -/
def Switch.fsyncLocked (w : Switch) (t : Nat) : Switch :=
  if near t (w.boundaryAt + Config.framePeriods) then { w with missed := 0, align := some t }
  else if near t w.boundaryAt then { w with missed := 0, boundaryAt := t }
  else w

/-- FSYNC_IN_LOCKED at instant t (02 R25). -/
def execFsyncInLocked (t : Nat) (s : State) : Result :=
  .next (s.whenRunning fun s => if s.sw.locked then { s with sw := s.sw.fsyncLocked t } else s)

/-- The switch hands a raise on the device entity (09 R172). -/
def State.raiseDevice (s : State) (c : Cause) : State := { s with att := s.att.hand .switch [(deviceEntity, c)] }

/-- An expected position passes without an FSYNC (02 R25). -/
def State.fsyncMissed (s : State) : State :=
  if s.sw.locked then
    if Config.missLimit ≤ s.sw.missed + 1 then
      { s with sw := { s.sw with locked := false, missed := 0, cand := none, run := 0 } }.raiseDevice .frameUnlocked
    else { s with sw := { s.sw with missed := s.sw.missed + 1 } }
  else s

/-- FSYNC_MISSED (02 R25). -/
def execFsyncMissed (s : State) : Result := .next (s.whenRunning State.fsyncMissed)

/-- The run count after an FSYNC at instant t in FREERUN (02 R26). -/
def Switch.runAfter (w : Switch) (t : Nat) : Nat :=
  match w.cand with
  | some c => if near t c then w.run + 1 else 1
  | none => 1

/-- The bits of the frame in progress that count as received at instant t: those whose whole bit period has passed, the one in progress
apart (02 R26, 10 R205; log 37). -/
def Switch.bitsAt (w : Switch) (t : Nat) : Nat := min 384 ((t - w.boundaryAt) / Config.bitPeriods)

/-- The switch enters LOCKED and raises FRAME_LOCKED (02 R26). -/
def State.enterLocked (s : State) : State :=
  { s with sw := { s.sw with locked := true, run := 0, cand := none } }.raiseDevice .frameLocked

/-- A relock at instant t. If the internal boundary of that very instant has been taken, it is the boundary of the relock; else a boundary is
taken at t, which ends the frame in progress normally at the internal boundary's instant and cuts it short at any other
(02 R26; log 4, log 36, log 37). -/
def State.relock (t : Nat) (rx : FrameIn) (s : State) : State :=
  let s := s.enterLocked
  if t ≤ s.sw.boundaryAt then s else s.boundary rx (s.sw.bitsAt t) t

/-- An FSYNC in FREERUN (02 R26). -/
def State.fsyncFreerun (t : Nat) (rx : FrameIn) (s : State) : State :=
  if s.sw.locked then s
  else if Config.runLimit ≤ s.sw.runAfter t then s.relock t rx
  else { s with sw := { s.sw with run := s.sw.runAfter t, cand := some (t + Config.framePeriods) } }

/-- FSYNC_IN_FREERUN at instant t (02 R26). -/
def execFsyncInFreerun (t : Nat) (rx : FrameIn) (s : State) : Result := .next (s.whenRunning (State.fsyncFreerun t rx))

/-- A candidate position passes without an FSYNC (02 R26). -/
def State.candidatePassed (s : State) : State :=
  match s.sw.locked, s.sw.cand with
  | false, some _ => { s with sw := { s.sw with run := 0, cand := none } }
  | _, _ => s

/-- CANDIDATE_POSITION_PASSED (02 R26). -/
def execCandidatePositionPassed (s : State) : Result := .next (s.whenRunning State.candidatePassed)

/-! ### Clear-down ends and clearances (05 R97, 02 R36) -/

/-- A clear-down count has run out (05 R97). -/
def ClearCount.over (c : ClearCount) : Bool := c.started && decide (c.n ≤ c.done)

/-- The switch hands the clear-down end of the first count that has run out; of counts that run out at one boundary, the one ordered first
(05 R97; log 40). -/
def Switch.runOut (w : Switch) : Switch :=
  match takeFirst ClearCount.over w.counts with
  | some (c, rest) => { w with counts := rest, ends := w.ends ++ [c.h] }
  | none => w

/-- CLEAR_DOWN_RUN_OUT (05 R97). -/
def execClearDownRunOut (s : State) : Result := .next (s.whenRunning fun s => { s with sw := s.sw.runOut })

/-- The switch takes a clearance order: the list, a kept offer and the clear-down counts are discarded, and a clearance is marked
(02 R36, 03 R70, 05 R97). A count that has run out has been handed before. -/
def Switch.takeClearance (w : Switch) (n : ClearanceName) : Switch :=
  { w with
    list := []
    kept := none
    ends := w.ends ++ (w.counts.filter ClearCount.over).map (·.h)
    counts := []
    clearance := w.clearance ++ [n] }

/-- The engine's clearance order: with a kept offer the manager's held claim is abandoned (03 R70). A kept offer that a boundary has made room
for is taken first (log 12). -/
def State.clearanceOrder (s : State) : State :=
  match s.port.toSwitch with
  | [] => s
  | id :: rest =>
    let s := { s with port := { s.port with toSwitch := rest } }.takeHeld
    { s with sw := s.sw.takeClearance (.engine id), mgr := { s.mgr with held := none } }

/-- CLEARANCE_ORDER (02 R36, 03 R70). -/
def execClearanceOrder (s : State) : Result := .next (s.whenRunning State.clearanceOrder)

end Sys2Proof.Machine
end

