-- ==== Sys2Proof/Machine/InternalClaims.lean ====
section
/-! DEFINITION. The circuit manager's taking of the claims that arise inside the part, the lease clock, and the soft reset claim
(01, 03, 05, 07, 08). -/

namespace Sys2Proof.Machine

/-- HELD_CLAIM_TAKEN (03 R69, 08 R152). -/
def execHeldClaimTaken (s : State) : Result := .next (s.whenRunning State.takeHeld)

/-- The manager takes the next boundary report. -/
def State.claimReport (s : State) : State :=
  match s.managerFree, s.sw.reports with
  | true, r :: rest => { s with sw := { s.sw with reports := rest } }.takeClaim (.report r)
  | _, _ => s

/-- BOUNDARY_REPORT (03 R59). -/
def execBoundaryReport (s : State) : Result := .next s.claimReport

/-- The manager takes the next clear-down end. -/
def State.claimClearDownEnd (s : State) : State :=
  match s.managerFree, s.sw.ends with
  | true, h :: rest => { s with sw := { s.sw with ends := rest } }.takeClaim (.clearDownEnd h)
  | _, _ => s

/-- CLEAR_DOWN_END (05 R98). -/
def execClearDownEnd (s : State) : Result := .next s.claimClearDownEnd

/-! ### Leases (05 5.4) -/

/-- A lease runs in these states (05 R102). -/
def CircState.leaseRuns (st : CircState) : Bool :=
  decide (st = .making ∨ st = .verifyWait ∨ st = .verifying ∨ st = .active ∨ st = .held)

/-- A record after a lease event (05 R103). -/
def Rec.leaseTick (r : Rec) : Rec := if r.st.leaseRuns then { r with lease := r.lease.map (· - 1) } else r

/-- A record whose lease a lease event takes to 0 (05 R103). -/
def Rec.runsOut (r : Rec) : Bool := r.st.leaseRuns && decide (r.lease = some 1)

/-- A record for which an expiry claim is presented: its lease runs out, and it is the lower-numbered of a pair (05 R103). -/
def expiryOf (n : Nat) (r : Rec) : Option Handle :=
  if r.runsOut && (match r.partner with | some p => decide (n < p) | none => true) then some ⟨n, r.gen⟩ else none

/-- A lease event (05 R102, R103). -/
def State.leaseEvent (s : State) : State :=
  { s with
    mgr := { s.mgr with recs := Tbl.mapAll (Rec.free 0) (fun _ r => r.leaseTick) s.mgr.recs }
    lease := {
      nextAt := s.lease.nextAt + Config.secondPeriods
      expiries := s.lease.expiries ++ s.mgr.recs.filterMap fun e => expiryOf e.1 e.2 } }

/-- LEASE_EVENT (05 R103). -/
def execLeaseEvent (s : State) : Result := .next (s.whenRunning State.leaseEvent)

/-- The manager takes the next expiry claim. -/
def State.claimExpiry (s : State) : State :=
  match s.managerFree, s.lease.expiries with
  | true, h :: rest => { s with lease := { s.lease with expiries := rest } }.takeClaim (.expiry h)
  | _, _ => s

/-- EXPIRY_CLAIM (05 R104, 04 R88, 08 R168). -/
def execExpiryClaim (s : State) : Result := .next s.claimExpiry

/-! ### Action claims (07 R136, 08 R149) -/

/-- The manager takes the watcher unit's next claim, if it is of the kind named. -/
def State.claimAction (p : ActionClaim → Bool) (s : State) : State :=
  match s.managerFree, s.wat.claims with
  | true, a :: rest => if p a then { s with wat := { s.wat with claims := rest } }.takeClaim (.action a) else s
  | _, _ => s

/-- The kinds of action claim. -/
def ActionClaim.isRelease : ActionClaim → Bool
  | .releaseLinked _ _ => true
  | _ => false
/-- A HOLD_LINKED claim. -/
def ActionClaim.isHold : ActionClaim → Bool
  | .holdLinked _ _ _ => true
  | _ => false
/-- A suppression claim. -/
def ActionClaim.isSuppression : ActionClaim → Bool
  | .suppression _ => true
  | _ => false
/-- An access claim. -/
def ActionClaim.isAccess : ActionClaim → Bool
  | .access _ => true
  | _ => false
/-- An end-of-access claim. -/
def ActionClaim.isEnd : ActionClaim → Bool
  | .endOfAccess _ _ => true
  | _ => false

/-- RELEASE_LINKED_CLAIM (07 R137). -/
def execReleaseLinkedClaim (s : State) : Result := .next (s.claimAction ActionClaim.isRelease)

/-- HOLD_LINKED_CLAIM (07 R138). -/
def execHoldLinkedClaim (s : State) : Result := .next (s.claimAction ActionClaim.isHold)

/-- SUPPRESSION_CLAIM (08 R150). -/
def execSuppressionClaim (s : State) : Result := .next (s.claimAction ActionClaim.isSuppression)

/-- ACCESS_CLAIM (08 R151-R157). -/
def execAccessClaim (s : State) : Result := .next (s.claimAction ActionClaim.isAccess)

/-- END_OF_ACCESS_CLAIM (08 R166). -/
def execEndOfAccessClaim (s : State) : Result := .next (s.claimAction ActionClaim.isEnd)

/-! ### The soft reset claim (01 R22, 04 R89, 10 R199) -/

/-- Every record FREE with its generation stepped (01 R22). -/
def freedRecords (m : Manager) : Tbl Rec :=
  (List.range Config.records).filterMap fun n =>
    let r := Rec.free ((m.recOf n).gen + 1)
    if r = Rec.free 0 then none else some (n, r)

/-- The manager after the soft reset claim (01 R22, 03 R71, 04 R89). -/
def Manager.softReset (m : Manager) : Manager :=
  { m with recs := freedRecords m, fan := [], wait := [], held := none, resets := m.resets + 1 }

/-- A unit IDLE; the byte it presents changes with the next frame (04 R89; log 20). -/
def VerifyUnit.reset (x : VerifyUnit) : VerifyUnit := { VerifyUnit.idle with shown := x.shown }

/-- The manager takes its soft reset claim: records, wait list and units are reset, the clearance order is given within the claim, and the
claim is acknowledged (01 R22, 04 R89, 10 R199). -/
def State.softResetClaim (s : State) : State :=
  match s.managerFree, s.port.toManager with
  | true, id :: rest => { s with
    mgr := s.mgr.softReset
    ver := { s.ver with units := Tbl.mapAll VerifyUnit.idle (fun _ x => x.reset) s.ver.units }
    sw := s.sw.takeClearance (.manager id)
    port := { s.port with toManager := rest, acks := s.port.acks ++ [(.manager, id)] } }
  | _, _ => s

/-- SOFT_RESET_CLAIM (01 R22, 04 R89, 10 R199). -/
def execSoftResetClaim (s : State) : Result := .next s.softResetClaim

end Sys2Proof.Machine
end

