-- ==== Sys2Proof/Machine/Lanes.lean ====
section
/-! DEFINITION. The lane supervisor (06): LANE_SET, LANE_QUERY, the frame judgement of a lane and its reports, and the circuit manager's
lane-change claim. -/

namespace Sys2Proof.Machine

/-- LANE_SET's fields in range (06 R114). -/
def laneSetOk (tlos trsq : Nat) : Bool := decide (8 ≤ tlos ∧ tlos ≤ 255 ∧ 1 ≤ trsq ∧ trsq ≤ 255)

/-- LANE_SET past the check of the message as a whole (06 R114). -/
def State.laneSet (r : Request) (s : State) : State :=
  let tlos := (byteAt r.msg 5).toNat
  let trsq := (byteAt r.msg 6).toNat
  match parseLane (byteAt r.msg 4) with
  | some l =>
    if laneSetOk tlos trsq then
      let x := { s.sup.lane l with tlos := tlos, trsq := trsq }
      { s with
        sup := s.sup.setLane l x
        port := s.port.answerRequest r .ok [byteAt r.msg 4, byteAt r.msg 5, byteAt r.msg 6, x.st.toByte] }
    else { s with port := s.port.answerRequest r .badField [] }
  | none => { s with port := s.port.answerRequest r .badField [] }

/-- LANE_SET, kind 18h (06 R114). -/
def execLaneSet (s : State) : Result := .next (s.ownerTakes .supervisor 0x18 3 State.laneSet)

/-- The results of LANE_QUERY for one lane (10.8). -/
def laneBytes (l : Nat) (x : Lane) : List Byte :=
  [BitVec.ofNat 8 l, x.st.toByte, BitVec.ofNat 8 x.tlos, BitVec.ofNat 8 x.trsq, BitVec.ofNat 8 x.absent] ++ bytes16 x.presence

/-- LANE_QUERY past the check of the message as a whole (06 R115). -/
def State.laneQuery (r : Request) (s : State) : State :=
  if byteAt r.msg 4 = 0xFF then
    { s with port := s.port.answerRequest r .ok ((List.range Config.lanes).map fun l => (s.sup.lane l).st.toByte) }
  else match parseLane (byteAt r.msg 4) with
    | some l => { s with port := s.port.answerRequest r .ok (laneBytes l (s.sup.lane l)) }
    | none => { s with port := s.port.answerRequest r .badField [] }

/-- LANE_QUERY, kind 19h (06 R115). -/
def execLaneQuery (s : State) : Result := .next (s.ownerTakes .supervisor 0x19 1 State.laneQuery)

/-- The judgement of one frame of a lane (06 R110, R111). -/
def Lane.judge (x : Lane) (present : Bool) : Lane :=
  match x.st with
  | .up =>
    if present then { x with absent := 0 }
    else if x.tlos ≤ x.absent + 1 then { x with st := .lost, absent := 0 }
    else { x with absent := x.absent + 1 }
  | .lost => if present then { x with st := .restoring, presence := 1 } else x
  | .restoring =>
    if present then
      if x.trsq * Config.unitFrames ≤ x.presence + 1 then { x with st := .up, absent := 0, presence := 0 }
      else { x with presence := x.presence + 1 }
    else { x with st := .lost, presence := 0 }

/-- The attention of an entry to a lane state (06 R112). -/
def laneRaise (l : Nat) : LaneState → Raise
  | .lost => [(laneEntity l, .lost)]
  | .up => [(laneEntity l, .up)]
  | .restoring => []

/-- A change of a lane's state: its attention, and its reports to the three blocks (06 R112). -/
def State.laneChanged (s : State) (r : LaneReport) : State :=
  { s with
    sup := { s.sup with
      toManager := s.sup.toManager ++ [r]
      toWatchers := s.sup.toWatchers ++ [r]
      toVerifier := s.sup.toVerifier ++ [r] }
    att := s.att.hand .supervisor (laneRaise r.lane r.st) }

/-- The judgement of the frame that ended on lane l; without such a frame nothing happens (06 R109; log 5). -/
def State.judgeLane (l : Fin 16) (s : State) : State :=
  let x := s.sup.lane l
  match x.ended with
  | none => s
  | some present =>
    let y := { x.judge present with ended := none }
    let s := { s with sup := s.sup.setLane l y }
    if y.st = x.st then s else s.laneChanged ⟨l, y.st⟩

/-- LANE_FRAME_JUDGEMENT of lane l (06 R109-R112). -/
def execLaneFrameJudgement (l : Fin 16) (s : State) : Result := .next (s.whenRunning (State.judgeLane l))

/-- The manager takes its next report of lane l; a lane-change claim makes no offer (06 R116, R117). -/
def State.claimLane (l : Fin 16) (s : State) : State :=
  if s.managerFree then
    match takeFirst (fun r => decide (r.lane = l)) s.sup.toManager with
    | some (r, rest) => { s with sup := { s.sup with toManager := rest } }.takeClaim (.lane r)
    | none => s
  else s

/-- LANE_CHANGE_CLAIM of lane l (06 R116, R117). -/
def execLaneChangeClaim (l : Fin 16) (s : State) : Result := .next (s.claimLane l)

end Sys2Proof.Machine
end

