-- ==== Sys2Proof/WellFormed.lean ====
section
/-! DEFINITION. Which commands are well formed: an unknown transaction code names no transaction, and a frame of inbound data
has a byte for each of the 48 timeslots of the 16 lanes. -/

namespace Sys2Proof

/-- 16 lanes of 48 bytes (02 R23). -/
def FrameIn.wellFormed (rx : FrameIn) : Bool :=
  rx.length == Config.lanes && rx.all fun lane => lane.length == Config.timeslots

/-- Whether a command is one that can reach the part. -/
def Instr.wellFormed : Instr → Bool
  | .unknownTransactionCode code _ => !knownCode code
  | .fsyncInFreerun _ rx => FrameIn.wellFormed rx
  | .frameBoundary rx => FrameIn.wellFormed rx
  | _ => true

end Sys2Proof
end

