-- ==== Sys2Proof/Machine/PortTransactions.lean ====
section
/-! DEFINITION. The transactions of the control port (10 10.1). -/

namespace Sys2Proof.Machine

/-- The bytes that a transaction sends: byte 0 of the port status as it stood when CS_N fell, then the given bytes, one for each byte
clocked after the code byte, and 00h after them (10 R185; log 33). -/
def State.send (s : State) (mosi payload : List Byte) : State :=
  { s with port := { s.port with miso := status0 s :: (payload ++ List.replicate mosi.length 0).take mosi.length } }

/-- Change the port fault flags. -/
def State.setFaults (s : State) (f : PortFaults → PortFaults) : State :=
  { s with port := { s.port with faults := f s.port.faults } }

/-- Set BAD_TRANSACTION (10 R191). -/
def State.badTransaction (s : State) : State := s.setFaults fun f => { f with badTransaction := true }

/-- Write a request slot. -/
def State.setSlot (s : State) (n : Fin 4) (v : PortSlot) : State := { s with port := s.port.setSlot n v }

/-- A transaction other than READ_STATUS: ignored while RST_N is low, BAD_TRANSACTION during tINIT (10 R203), else its effect. -/
def State.transact (s : State) (mosi payload : List Byte) (f : State → State) : State :=
  match s.phase with
  | .reset => s
  | .init => (s.send mosi []).badTransaction
  | .run => f (s.send mosi payload)

/-- The bytes that READ_STATUS sends after its code byte; every slot shows EMPTY until tINIT has ended (10 R186, R203). -/
def State.statusReply (s : State) : List Byte :=
  let p := if s.running then s.port else Port.initial
  [status0 s, statusSlots p 0 1, statusSlots p 2 3]

/-- READ_STATUS (10 R186, R203). -/
def execReadStatus (mosi : List Byte) (s : State) : Result :=
  .next (if s.phase = .reset then s else s.send mosi s.statusReply)

/-- Bytes stored from an offset; bytes past place 31 are discarded (10 R187). -/
def storeBytes (area : List Byte) (off : Nat) (data : List Byte) : List Byte :=
  (area.take off ++ data ++ area.drop (off + data.length)).take 32

/-- Data that does not run past place 31, at an offset that names a place (10 R187). -/
def writeFits (off len : Nat) : Bool := decide (off < 32 ∧ off + len ≤ 32)

/-- WRITE_SLOT's effect, by the state of the slot (10 R187, table). -/
def State.writeSlot (s : State) (n : Fin 4) (off : Nat) (data : List Byte) : State :=
  let e := s.port.slot n
  if e.st = .empty ∨ e.st = .loaded then
    let stored := if off < 32 ∧ data ≠ [] then s.setSlot n { e with st := .loaded, request := storeBytes e.request off data } else s
    if writeFits off data.length then stored else stored.badTransaction
  else s.setFaults fun f => { f with writeRefused := true }

/-- WRITE_SLOT n (10 R187). -/
def execWriteSlot (n : Fin 4) (mosi : List Byte) (s : State) : Result :=
  .next (s.transact mosi [] fun s => match mosi with
    | [] => s
    | off :: data => s.writeSlot n off.toNat data)

/-- What READ_SLOT sends after its code byte: 00h during the offset byte, then the response area from the offset (10 R188; the 00h: log 33). -/
def readBytes (area : List Byte) (mosi : List Byte) : List Byte :=
  match mosi with
  | [] => []
  | off :: _ => 0 :: area.drop off.toNat

/-- READ_SLOT n (10 R188). -/
def execReadSlot (n : Fin 4) (mosi : List Byte) (s : State) : Result :=
  .next (s.transact mosi (readBytes (s.port.slot n).response mosi) fun s => match mosi with
    | [] => s
    | off :: _ => if off.toNat < 32 then s else s.badTransaction)

/-- The owner of a kind of request (10.7). -/
def ownerOf (kind : Byte) : Option Owner :=
  let k := kind.toNat
  if 0x01 ≤ k ∧ k ≤ 0x0D then some .manager
  else if k = 0x10 then some .generators
  else if k = 0x18 ∨ k = 0x19 then some .supervisor
  else if 0x20 ≤ k ∧ k ≤ 0x23 then some .watchers
  else if k = 0x28 ∨ k = 0x29 then some .attention
  else if k = 0x30 ∨ k = 0x31 ∨ k = 0x3F then some .engine
  else none

/-- SUBMIT's effect: route the request, or answer an unknown kind (10 R189, R193). -/
def State.submitSlot (s : State) (n : Fin 4) : State :=
  let e := s.port.slot n
  if e.st = .loaded then
    let e := { e with sub := e.sub + 1 }
    match ownerOf (byteAt e.request 0) with
    | some o =>
      let s := s.setSlot n { e with st := .queued, response := List.replicate 32 0 }
      { s with port := { s.port with queue := s.port.queue ++ [(o, n)] } }
    | none => s.setSlot n { e with st := .done, response := responseOf e.request .badRequest [] }
  else s.setFaults fun f => { f with submitRefused := true }

/-- SUBMIT n (10 R189, R193, R206). -/
def execSubmit (n : Fin 4) (mosi : List Byte) (s : State) : Result :=
  .next (s.transact mosi [] fun s => s.submitSlot n)

/-- CLEAR_SLOT's effect (10 R190). -/
def State.emptySlot (s : State) (n : Fin 4) : State :=
  let e := s.port.slot n
  if e.st = .queued ∨ e.st = .working then s.setFaults fun f => { f with clearRefused := true }
  else s.setSlot n { PortSlot.initial with sub := e.sub }

/-- CLEAR_SLOT n (10 R190). -/
def execClearSlot (n : Fin 4) (mosi : List Byte) (s : State) : Result :=
  .next (s.transact mosi [] fun s => s.emptySlot n)

/-- CLEAR_PORT_FAULTS (10 R190). -/
def execClearPortFaults (mosi : List Byte) (s : State) : Result :=
  .next (s.transact mosi [] fun s => s.setFaults fun _ => ⟨false, false, false, false⟩)

/-- A transaction code that names no transaction (10 R185). A code that names one is no such command (log 2). -/
def execUnknownTransactionCode (code : Byte) (mosi : List Byte) (s : State) : Result :=
  .next (if knownCode code then s else s.transact mosi [] State.badTransaction)

/-! ### The pin MISO (10 R185, R203) -/

/-- The bytes that the part sends after the code byte, as far as the bytes received give them; 00h follows (10 R185-R188, R203). -/
def State.reply (s : State) (received : List Byte) : List Byte :=
  match portTransaction received with
  | some (.readStatus _) => s.statusReply
  | some (.readSlot n mosi) => if s.running then readBytes (s.port.slot n).response mosi else []
  | _ => []

/-- What MISO carries, none for high impedance: while CS_N is high (`none`), and while RST_N is low, high impedance; while CS_N is low, with the
bits received on MOSI since it fell, the next bit of what the part sends, most significant first: byte 0 of the port status, then the reply
(10 R185, R203). The state is that of the port as CS_N fell (log 6). -/
def State.misoPin (s : State) : Option (List Bool) → Option Bool
  | none => none
  | some mosi =>
    if s.phase = .reset then none
    else some (((status0 s :: s.reply (bytesOfBits mosi)).getD (mosi.length / 8) 0).getLsbD (7 - mosi.length % 8))

end Sys2Proof.Machine
end

