-- ==== Sys2Proof/Machine/Resets.lean ====
section
/-! DEFINITION. RST_N, the end of tINIT, and OE_N (10 R203, R205). -/

namespace Sys2Proof.Machine

/-- HARD_RESET: RST_N is low, and every block holds its hard-reset values. The pin OE_N and the commands to come are not the part's
(10 R203; log 9). -/
def execHardReset (s : State) : Result := .next { State.reset with pending := s.pending, oeHigh := s.oeHigh }

/-- RST_N_RELEASE: tINIT begins (10 R203). -/
def execRstNRelease (s : State) : Result := .next (if s.phase = .reset then { s with phase := .init } else s)

/-- TINIT_END: the part runs, and the lease clock starts (10 R203, 05 R102). -/
def execTinitEnd (s : State) : Result :=
  .next (if s.phase = .init then { s with phase := .run, lease := { s.lease with nextAt := Config.secondPeriods } } else s)

/-- OE_N_CHANGE: the level of the pin (10 R205). -/
def execOeNChange (high : Bool) (s : State) : Result := .next { s with oeHigh := high }

end Sys2Proof.Machine
end

