-- ==== Sys2Proof/Machine/Dispatch.lean ====
section
/-! DEFINITION. The meaning of every command, one arm for each row of spec/opcode_table.json. -/

namespace Sys2Proof.Machine

def exec (i : Instr) (s : State) : Host.Outcome State Fault Refusal :=
  match i with
  | .readStatus mosi => Sys2Proof.Machine.execReadStatus mosi s
  | .writeSlot n mosi => Sys2Proof.Machine.execWriteSlot n mosi s
  | .readSlot n mosi => Sys2Proof.Machine.execReadSlot n mosi s
  | .submit n mosi => Sys2Proof.Machine.execSubmit n mosi s
  | .clearSlot n mosi => Sys2Proof.Machine.execClearSlot n mosi s
  | .clearPortFaults mosi => Sys2Proof.Machine.execClearPortFaults mosi s
  | .unknownTransactionCode code mosi => Sys2Proof.Machine.execUnknownTransactionCode code mosi s
  | .openCircuit => Sys2Proof.Machine.execOpen s
  | .openPair => Sys2Proof.Machine.execOpenPair s
  | .addLeg => Sys2Proof.Machine.execAddLeg s
  | .dropLeg => Sys2Proof.Machine.execDropLeg s
  | .moveSource => Sys2Proof.Machine.execMoveSource s
  | .hold => Sys2Proof.Machine.execHold s
  | .resume => Sys2Proof.Machine.execResume s
  | .release => Sys2Proof.Machine.execRelease s
  | .touch => Sys2Proof.Machine.execTouch s
  | .query => Sys2Proof.Machine.execQuery s
  | .findOut => Sys2Proof.Machine.execFindOut s
  | .findIn => Sys2Proof.Machine.execFindIn s
  | .accessEnd => Sys2Proof.Machine.execAccessEnd s
  | .genSet => Sys2Proof.Machine.execGenSet s
  | .laneSet => Sys2Proof.Machine.execLaneSet s
  | .laneQuery => Sys2Proof.Machine.execLaneQuery s
  | .watchSet => Sys2Proof.Machine.execWatchSet s
  | .watchArm => Sys2Proof.Machine.execWatchArm s
  | .watchDisarm => Sys2Proof.Machine.execWatchDisarm s
  | .watchQuery => Sys2Proof.Machine.execWatchQuery s
  | .collect => Sys2Proof.Machine.execCollect s
  | .maskSet => Sys2Proof.Machine.execMaskSet s
  | .config => Sys2Proof.Machine.execConfig s
  | .ident => Sys2Proof.Machine.execIdent s
  | .softReset => Sys2Proof.Machine.execSoftReset s
  | .heldClaimTaken => Sys2Proof.Machine.execHeldClaimTaken s
  | .hardReset => Sys2Proof.Machine.execHardReset s
  | .tinitEnd => Sys2Proof.Machine.execTinitEnd s
  | .oeNChange high => Sys2Proof.Machine.execOeNChange high s
  | .fsyncInLocked t => Sys2Proof.Machine.execFsyncInLocked t s
  | .fsyncMissed => Sys2Proof.Machine.execFsyncMissed s
  | .fsyncInFreerun t rx => Sys2Proof.Machine.execFsyncInFreerun t rx s
  | .candidatePositionPassed => Sys2Proof.Machine.execCandidatePositionPassed s
  | .frameBoundary rx => Sys2Proof.Machine.execFrameBoundary rx s
  | .clearDownRunOut => Sys2Proof.Machine.execClearDownRunOut s
  | .clearanceOrder => Sys2Proof.Machine.execClearanceOrder s
  | .boundaryReport => Sys2Proof.Machine.execBoundaryReport s
  | .tokenNotice u atBoundary => Sys2Proof.Machine.execTokenNotice u atBoundary s
  | .clearDownEnd => Sys2Proof.Machine.execClearDownEnd s
  | .laneFrameJudgement l => Sys2Proof.Machine.execLaneFrameJudgement l s
  | .laneChangeClaim l => Sys2Proof.Machine.execLaneChangeClaim l s
  | .watcherLaneChangeReport l => Sys2Proof.Machine.execWatcherLaneChangeReport l s
  | .verifierLaneChangeReport l => Sys2Proof.Machine.execVerifierLaneChangeReport l s
  | .leaseEvent => Sys2Proof.Machine.execLeaseEvent s
  | .expiryClaim => Sys2Proof.Machine.execExpiryClaim s
  | .tokenFrameEnd u => Sys2Proof.Machine.execTokenFrameEnd u s
  | .verifyTimeout u => Sys2Proof.Machine.execVerifyTimeout u s
  | .detectedOutcome => Sys2Proof.Machine.execDetectedOutcome s
  | .verifyFailureOutcome => Sys2Proof.Machine.execVerifyFailureOutcome s
  | .watcherSample w => Sys2Proof.Machine.execWatcherSample w s
  | .intervalEnd w => Sys2Proof.Machine.execIntervalEnd w s
  | .releaseLinkedClaim => Sys2Proof.Machine.execReleaseLinkedClaim s
  | .holdLinkedClaim => Sys2Proof.Machine.execHoldLinkedClaim s
  | .suppressionClaim => Sys2Proof.Machine.execSuppressionClaim s
  | .accessClaim => Sys2Proof.Machine.execAccessClaim s
  | .endOfAccessClaim => Sys2Proof.Machine.execEndOfAccessClaim s
  | .armingOrder => Sys2Proof.Machine.execArmingOrder s
  | .disarmingOrder => Sys2Proof.Machine.execDisarmingOrder s
  | .returnOrder => Sys2Proof.Machine.execReturnOrder s
  | .softResetClaim => Sys2Proof.Machine.execSoftResetClaim s
  | .watcherSoftResetOrder => Sys2Proof.Machine.execWatcherSoftResetOrder s
  | .attentionSoftResetOrder => Sys2Proof.Machine.execAttentionSoftResetOrder s
  | .softResetAcknowledgement b => Sys2Proof.Machine.execSoftResetAcknowledgement b s
  | .clearanceDoneReport => Sys2Proof.Machine.execClearanceDoneReport s
  | .attentionRaise b => Sys2Proof.Machine.execAttentionRaise b s
  | .rstNRelease => Sys2Proof.Machine.execRstNRelease s

end Sys2Proof.Machine
end

