-- ==== Sys2Proof/Safety.lean ====
section
/-! DEFINITION. The words the statements are written in: when an owner takes a request, what a claim leaves alone, the entries that claims
offer, and the invariants of the part. -/

namespace Sys2Proof.Machine

/-! ### Taking a request -/

/-- An order that a SOFT_RESET gave has not been taken by its block (10 R199). -/
def State.orderOutstanding (s : State) : Prop :=
  s.port.toSwitch ≠ [] ∨ s.port.toManager ≠ [] ∨ s.port.toWatchers ≠ [] ∨ s.port.toAttention ≠ []

/-- What must be so for an owner to take a request at all: every order of a SOFT_RESET has been taken (10 R199, R201; log 22), and at the
circuit manager no claim waits for room (03 R69). -/
def State.ownerReady (s : State) (o : Owner) : Prop := ¬s.orderOutstanding ∧ (o = .manager → s.mgr.held = none)

/-- The part runs, and the owner takes request r of the kind named from the head of its routing queue; p is the port then, the slot of r
being WORKING (10 R193). -/
structure State.Takes (s : State) (o : Owner) (kind : Byte) (r : Request) (p : Port) : Prop where
  run : s.phase = .run
  ready : s.ownerReady o
  head : s.port.takeRequest o kind = some (r, p)

/-- The kinds of request: constructor, owner, kind code and parameter length (10.7). -/
def requestKinds : List (Instr × Owner × Byte × Nat) :=
  [(.openCircuit, .manager, 0x01, 25), (.openPair, .manager, 0x02, 20), (.addLeg, .manager, 0x03, 6), (.dropLeg, .manager, 0x04, 6),
    (.moveSource, .manager, 0x05, 6), (.hold, .manager, 0x06, 4), (.resume, .manager, 0x07, 4), (.release, .manager, 0x08, 5),
    (.touch, .manager, 0x09, 6), (.query, .manager, 0x0A, 6), (.findOut, .manager, 0x0B, 2), (.findIn, .manager, 0x0C, 3),
    (.accessEnd, .manager, 0x0D, 4)] ++
  [(.genSet, .generators, 0x10, 8), (.laneSet, .supervisor, 0x18, 3), (.laneQuery, .supervisor, 0x19, 1), (.watchSet, .watchers, 0x20, 28),
    (.watchArm, .watchers, 0x21, 1), (.watchDisarm, .watchers, 0x22, 1), (.watchQuery, .watchers, 0x23, 1),
    (.collect, .attention, 0x28, 1), (.maskSet, .attention, 0x29, 17), (.config, .engine, 0x30, 6), (.ident, .engine, 0x31, 0),
    (.softReset, .engine, 0x3F, 0)]

/-- The port transactions, with the bytes received after the code byte (10 10.1). -/
def transactionOf : Instr → Option (List Byte)
  | .readStatus mosi => some mosi
  | .writeSlot _ mosi => some mosi
  | .readSlot _ mosi => some mosi
  | .submit _ mosi => some mosi
  | .clearSlot _ mosi => some mosi
  | .clearPortFaults mosi => some mosi
  | .unknownTransactionCode code mosi => if knownCode code then none else some mosi
  | _ => none

/-- The events on the pins RST_N and OE_N, and the end of tINIT (10 R203, R205). -/
def isPinEvent : Instr → Bool
  | .hardReset => true
  | .rstNRelease => true
  | .tinitEnd => true
  | .oeNChange _ => true
  | _ => false

/-! ### Reading a message (10.8) -/

/-- Bytes i and i + 1 of a message name a lane slot. -/
def readsSlot (m : List Byte) (i : Nat) (k : Slot) : Prop := (byteAt m i).toNat = k.lane.val ∧ (byteAt m (i + 1)).toNat = k.ts.val

/-- Bytes i and i + 1 of a message name a source: a lane slot, or generator n as lane 80h + n, timeslot 00h. -/
def readsSource (m : List Byte) (i : Nat) : Source → Prop
  | .inbound k => readsSlot m i k
  | .gen n => (byteAt m i).toNat = 0x80 + n.val ∧ byteAt m (i + 1) = 0

/-- Bytes i and i + 1 of a message are a record field: a record of the control pool, or FFFFh for ANY (01 R12). -/
def readsRecord (m : List Byte) (i : Nat) : Option Nat → Prop
  | none => wordAt m i = 0xFFFF
  | some n => wordAt m i = n ∧ n < 480

/-- The fields that OPEN and OPEN_PAIR share, from the places of class (then options), the three bytes (then clear-down) and lease, each in its
range (03 R48). -/
def readsCommon (m : List Byte) (cls bytes lease : Nat) (c : CommonFields) : Prop :=
  let options := byteAt m (cls + 1)
  let optional (bit : Nat) (b : Byte) : Option Byte := if options.getLsbD bit then some b else none
  options.toNat < 64 ∧ c.preemptable = options.getLsbD 0 ∧
  ((byteAt m cls = 0 ∧ c.cls = .normal) ∨ (byteAt m cls = 1 ∧ c.cls = .priority ∧ c.preemptable = false)) ∧
  c.cond = optional 2 (byteAt m bytes) ∧ c.holdB = optional 3 (byteAt m (bytes + 1)) ∧ c.rel = optional 4 (byteAt m (bytes + 2)) ∧
  c.clearDown = (optional 5 (byteAt m (bytes + 3))).map BitVec.toNat ∧ (∀ n, c.clearDown = some n → n ≤ 200) ∧ c.lease = wordAt m lease

/-- The verify parameter of an OPEN: absent unless option bit 1 is set; a return slot and a tVFY of 2 to 500, each FFFFh for DEFAULT (04 R74). -/
def readsVerify (m : List Byte) : Option VerifyFields → Prop
  | none => (byteAt m 7).getLsbD 1 = false
  | some v => (byteAt m 7).getLsbD 1 = true ∧
    (match v.ret with
      | none => wordAt m 25 = 0xFFFF
      | some k => readsSlot m 25 k) ∧
    match v.tvfy with
    | none => wordAt m 27 = 0xFFFF
    | some n => wordAt m 27 = n ∧ 2 ≤ n ∧ n ≤ 500

/-- The legs of an OPEN: 1 to 4 lane slots, no two the same (03 R48). -/
def readsLegs (m : List Byte) (legs : List Slot) : Prop :=
  (byteAt m 10).toNat = legs.length ∧ 1 ≤ legs.length ∧ legs.length ≤ 4 ∧ legs.Nodup ∧
    ∀ i (h : i < legs.length), readsSlot m (11 + 2 * i) legs[i]

/-- The n bytes of an answer's results from byte i of the response area on are v, most significant byte first; the results begin at byte 4 (10 R195). -/
def resultIs (results : List Byte) (i n v : Nat) : Prop :=
  ∀ j, j < n → results.getD (i - 4 + j) 0 = BitVec.ofNat 8 (v / 256 ^ (n - 1 - j))

/-- Bytes i and i + 1 of an answer name a slot: lane, then timeslot. -/
def resultIsSlot (results : List Byte) (i : Nat) (k : Slot) : Prop := resultIs results i 1 k.lane.val ∧ resultIs results (i + 1) 1 k.ts.val

/-! ### Records and handles -/

/-- Record n of the state. -/
def State.recordOf (s : State) (n : Nat) : Rec := s.mgr.recOf n

/-- The current handle of record n. -/
def State.handle (s : State) (n : Nat) : Handle := ⟨n, (s.recordOf n).gen⟩

/-- A handle names a record with its current generation (01 R10, R11). -/
def State.isCurrent (s : State) (h : Handle) : Bool := decide (h.num < Config.records ∧ (s.recordOf h.num).gen = h.gen)

/-- The circuit manager can take a claim (03 R69, 10 R203). -/
structure State.Ready (s : State) : Prop where
  run : s.phase = .run
  free : s.mgr.held = none

/-! ### Entries of an offer (02 R31, R32) -/

/-- The outcomes that an entry on slot k keeps from the entry it replaces: those of current handles whose record is not in `own`
(02 R32). -/
def State.kept (s : State) (own : List Nat) (k : Slot) : List LegOutcome :=
  match s.sw.list.find? fun x => decide (x.slot = k) with
  | none => []
  | some x => x.outcomes.filter fun o => s.isCurrent o.h && !(own.any fun n => decide (n = o.h.num))

/-- The content of a leg of record n in a drive mode (03 R50). -/
def legContent (n : Nat) (x : Rec) (d : Drive) (unit : Option (Fin 4)) : Content where
  owner := some ⟨n, x.gen⟩
  drive := d
  source := x.source
  cond := x.cond
  holdB := x.holdB
  rel := x.rel
  unit := unit

/-- The entry that makes or changes the leg of record n on slot k, x being the record as the claim leaves it. -/
def State.legEntry (s : State) (n : Nat) (x : Rec) (d : Drive) (unit : Option (Fin 4)) (kind : OutcomeKind) (k : Slot) : Entry :=
  ⟨k, legContent n x d unit, s.kept [n] k ++ [⟨s.handle n, kind⟩]⟩

/-- The entry that breaks the leg of record n on slot k. -/
def State.breakEntry (s : State) (n : Nat) (k : Slot) : Entry := ⟨k, Content.idle, s.kept [n] k ++ [⟨s.handle n, .broken⟩]⟩

/-! ### What claims change -/

/-- A claim on circuits: the records and the fan-out index may change, the offer joins the list, the raises named are handed to the attention
unit as one, and the port is as given; nothing else changes. -/
def State.circuitClaim (s t : State) (offer : List Entry) (raises : Raise) (p : Port) : Prop :=
  t = { s with
    mgr := { s.mgr with recs := t.mgr.recs, fan := t.mgr.fan }
    sw := { s.sw with list := placeOffer s.sw.list offer }
    att := { s.att with raises := s.att.raises ++ (if raises = [] then [] else [(.manager, raises)]) }
    port := p }

/-- Record n becomes x and every other record stands. -/
def State.recordBecomes (s t : State) (n : Nat) (x : Rec) : Prop := ∀ m, t.recordOf m = if m = n then x else s.recordOf m

/-- The records named are changed by f, the others stand. -/
def State.recordsBecome (s t : State) (ns : List Nat) (f : Nat → Rec → Rec) : Prop :=
  ∀ m, t.recordOf m = if m ∈ ns then f m (s.recordOf m) else s.recordOf m

/-- The fan-out lists stand (01 R18). -/
def State.fanStands (s t : State) : Prop := ∀ k, t.mgr.fanOf k = s.mgr.fanOf k

/-- Record n joins the tail of the list of its source; the other lists stand (01 R18). -/
def State.fanJoins (s t : State) (n : Nat) (src : Source) : Prop :=
  ∀ k, t.mgr.fanOf k = s.mgr.fanOf k ++ (if src = .inbound k then [n] else [])

/-- The source fault of a source in the manager's view (01 R5). -/
def State.sourceFault (s : State) : Source → Bool
  | .inbound k => decide (viewOf s.mgr.view k.lane ≠ .up)
  | .gen _ => false

/-- The record that an accepted opening request fills (03 R49, R53; 01 R4, R6). -/
def State.openedRecord (s : State) (r : Request) (c : CommonFields) (src : Source) (legs : List Slot) (partner : Option Nat)
    (handles : List Handle) (gen : BitVec 16) : Rec where
  gen := gen
  st := .making
  cls := c.cls
  preemptable := c.preemptable
  source := some src
  legs := legs.map fun k => ⟨k, .making, false, none⟩
  partner := partner
  cond := c.cond.getD s.port.defaults.cond
  holdB := c.holdB.getD s.port.defaults.holdB
  rel := c.rel.getD s.port.defaults.rel
  clearDown := c.clearDown.getD s.port.defaults.clearDown
  lease := if c.lease = 0 then none else some c.lease
  reload := if c.lease = 0 then none else some c.lease
  verify := none
  fault := s.sourceFault src
  displ := none
  watcher := none
  tag := BitVec.ofNat 16 (wordAt r.msg 2)
  target := some .source
  clearOf := none
  roundTrip := none
  openAns := some ⟨r.slot, r.sub, handles⟩
  relAns := none
  restoring := none
  down := none

/-- Each record of a list leaves the list of its source (01 R18, 05 R101). -/
def State.fanLeaves (s t : State) (ms : List Nat) : Prop :=
  ∀ k, t.mgr.fanOf k = (s.mgr.fanOf k).filter fun m => !(decide (m ∈ ms ∧ (s.recordOf m).source = some (.inbound k)))

/-- The record that an opening request takes for a record field: the one it names, if that is FREE, or for ANY the lowest-numbered FREE record of
the control pool, the record `other` apart (01 R12, R13). -/
def State.allocates (s : State) (want other : Option Nat) (n : Nat) : Prop :=
  (s.recordOf n).st = .free ∧
    match want with
    | some m => m = n
    | none => n < 480 ∧ some n ≠ other ∧ ∀ m, m < n → some m ≠ other → (s.recordOf m).st ≠ .free

/-- There is room for `more` records on the list of a source (01 R18). -/
def State.fanRoom (s : State) (src : Source) (more : Nat) : Prop := ∀ k, src = .inbound k → (s.mgr.fanOf k).length + more ≤ 8

/-! ### Taking slots by preemption (03 R46, R55-R58) -/

/-- A claim of a circuit of a class may take slot k: no one holds it, or the claim is PRIORITY and the holder is a preemptable NORMAL circuit in
ACTIVE or HELD whose leg there is in MAKING or LIVE (03 R45, R46). -/
def State.mayTake (s : State) (cls : CircClass) (k : Slot) : Prop :=
  ∀ v, s.mgr.holder k = some v → cls = .priority ∧ (s.recordOf v).cls = .normal ∧ (s.recordOf v).preemptable = true ∧
    ((s.recordOf v).st = .active ∨ (s.recordOf v).st = .held) ∧ ∃ l ∈ (s.recordOf v).legs, l.holdsSlot k = true ∧ l.carries = true

/-- The leg of record v on a slot of ks that v holds: a claim on ks takes it (03 R55). -/
def State.takesLeg (s : State) (ks : List Slot) (v : Nat) (l : Leg) : Bool := decide (l.slot ∈ ks ∧ s.mgr.holder l.slot = some v)

/-- A claim on the slots ks leaves record v no leg in MAKING, LIVE or DISPLACED (03 R56). -/
def State.falls (s : State) (ks : List Slot) (v : Nat) : Bool := (s.recordOf v).legs.all fun l => decide (l.st = .breaking) || s.takesLeg ks v l

/-- The partner that the taking of slot k, in a claim on the slots ks, releases: that of a victim that falls, unless it falls as a victim itself
(03 R57). -/
def State.releasedBy (s : State) (ks : List Slot) (k : Slot) : Option Nat :=
  match s.mgr.holder k with
  | none => none
  | some v => if s.falls ks v then
      match (s.recordOf v).partner with
      | none => none
      | some q => if s.falls ks q && ks.any fun j => decide (s.mgr.holder j = some q) then none else some q
    else none

/-- The slots of the offer of a claim on the slots ks: ks, and the slots that the released partners still carry, each once (03 R58). -/
def State.offerSlotsOf (s : State) (ks : List Slot) : List Slot :=
  (ks ++ (ks.filterMap (s.releasedBy ks)).flatMap fun q =>
    ((s.recordOf q).legs.filter fun l => l.carries && !s.takesLeg ks q l).map (·.slot)).dedup

/-- The victims of a claim on the slots ks, in the order of its slots (03 R55). -/
def State.victimsOf (s : State) (ks : List Slot) : List Nat := firstOf (ks.filterMap s.mgr.holder)

/-- The partners that a claim on the slots ks releases, in the order of its slots (03 R57). -/
def State.releasedOf (s : State) (ks : List Slot) : List Nat := firstOf (ks.filterMap (s.releasedBy ks))

/-- The slots that a released partner still carries: the claim breaks them (03 R57). -/
def State.stillCarried (s : State) (ks : List Slot) (q : Nat) : List Slot :=
  ((s.recordOf q).legs.filter fun l => l.carries && !s.takesLeg ks q l).map (·.slot)

/-- The entry that a claim on behalf of record n offers for a slot: BROKEN for the victim there, if any, then MADE (03 R50, R55). -/
def State.takingEntry (s : State) (n : Nat) (x : Rec) (d : Drive) (unit : Option (Fin 4)) (k : Slot) : Entry :=
  let victim := (s.mgr.holder k).toList
  ⟨k, legContent n x d unit, s.kept (victim ++ [n]) k ++ victim.map (fun v => ⟨s.handle v, .broken⟩) ++ [⟨s.handle n, .made⟩]⟩

/-- The entries that preemption adds to a claim on the slots ks, after those of its own legs (03 R57). -/
def State.partnerBreaks (s : State) (ks : List Slot) : List Entry :=
  (s.releasedOf ks).flatMap fun q => (s.stillCarried ks q).map (s.breakEntry q)

/-- What preemption raises in a claim on the slots ks (03 R55, R57). -/
def State.preemptionRaises (s : State) (ks : List Slot) : Raise :=
  (s.victimsOf ks).map (fun v => (81 + v, .preempted)) ++ (s.releasedOf ks).map fun q => (81 + q, .partnerReleased)

/-- There is room in a claim and in the list for an offer on the slots ks with what preemption adds (03 R58, 02 R32). -/
def State.offerFits (s : State) (ks : List Slot) : Prop :=
  (s.offerSlotsOf ks).length ≤ 8 ∧ s.sw.list.length + (s.offerSlotsOf ks).length ≤ 96

/-- The manager takes request r of the kind named, whose message is well formed as a whole. -/
structure State.TakesWhole (s : State) (kind : Byte) (len : Nat) (r : Request) (p : Port) : Prop where
  takes : s.Takes .manager kind r p
  whole : byteAt r.msg 1 = BitVec.ofNat 8 len

/-- The request names record n by its current handle, and n is no test circuit unless the request may name one (01 R10, 03 R43). -/
structure State.Names (s : State) (r : Request) (n : Nat) (test : Bool) : Prop where
  num : r.handle = ⟨n, (s.recordOf n).gen⟩
  range : n < 512
  notTest : test = false → (s.recordOf n).cls ≠ .test

/-- A record in ACTIVE or HELD (03 R47). -/
def Rec.serving (r : Rec) : Prop := r.st = .active ∨ r.st = .held

/-- The drive of the entries of a record in ACTIVE or HELD (03 R65). -/
def Rec.targetDrive (r : Rec) : Drive := if r.target = some .hold then .hold else .source

/-- The slots of the legs of a record in MAKING or LIVE, in list order. -/
def Rec.carrying (r : Rec) : List Slot := (r.legs.filter Leg.carries).map (·.slot)

/-- The entries of a change of every carrying leg of record n: MADE for a leg in MAKING, CHANGED for a LIVE leg (03 R63, R66). -/
def State.changeEntries (s : State) (n : Nat) (x : Rec) (d : Drive) (unit : Option (Fin 4)) : List Entry :=
  (x.legs.filter Leg.carries).map fun l => s.legEntry n x d unit (if l.st = .making then .made else .changed) l.slot

/-- The legs of a record after the outcomes, each on a slot, with which a report names it (03 R59, table): MADE takes a leg in MAKING to LIVE, BROKEN
removes a leg in BREAKING, and every other leg stays as it is. -/
def Rec.legsAfter (r : Rec) (outs : List (Slot × OutcomeKind)) : List Leg :=
  (r.legs.filter fun l => !decide (l.st = .breaking ∧ (l.slot, .broken) ∈ outs)).map fun l =>
    if l.st = .making ∧ (l.slot, .made) ∈ outs then { l with st := .live } else l

/-- The port after the release answers of the records named, as they enter FREE in that order (05 R96, R101). -/
def State.answersReleases (s : State) (ms : List Nat) : Port :=
  ms.foldl (fun p m => match (s.recordOf m).relAns with
    | none => p
    | some a => p.answer a.slot a.sub .ok (releaseResults a)) s.port

/-- A record taken out of service (05 R92): lease, reload value, drive target and DISPLACED legs go. -/
def Rec.outOfService (r : Rec) : Rec :=
  { r with lease := none, reload := none, target := none, legs := r.legs.filter fun l => decide (l.st ≠ .displaced) }

/-- The legs that satisfy p are BREAKING. -/
def Rec.breaking (r : Rec) (p : Leg → Bool) : Rec :=
  { r with legs := r.legs.map fun l => if p l then { l with st := .breaking } else l }

/-- The test records that displace a leg of record n (01 R7). -/
def State.displacers (s : State) (n : Nat) : List Nat :=
  (s.recordOf n).legs.filterMap fun l => if l.st = .displaced then l.link else none

/-- The opening answer of a record, written for an outcome of its opening (03 R44). -/
def Port.answerOpening (p : Port) (a : Option OpenAnswer) (st : Status) (results : List Byte) : Port :=
  match a with
  | none => p
  | some a => p.answer a.slot a.sub st results

/-- A release of record n and its partner in MAKING, ACTIVE or HELD (05 R92-R95): from ACTIVE or HELD, with a clear-down and a LIVE leg, they are
RELEASING, legs in MAKING broken, LIVE legs in RELEASE drive, and a clear-down order given for the lower-numbered; else they are BREAKING with
every carrying leg broken, and from MAKING the opening request is answered MAKE_ABORTED with its handles. The displacers of their legs lose their
links. `ans` is the release answer to come. -/
def State.releases (s t : State) (n clear : Nat) (ans : Option ReleaseAnswer) (raises : Raise) : Prop :=
  let ms := n :: (s.recordOf n).partner.toList
  let making := (s.recordOf n).st = .making
  let answered := making ∧ (s.recordOf n).openAns.isSome = true
  let slow := ¬making ∧ 0 < clear ∧ ∃ m ∈ ms, ∃ l ∈ (s.recordOf m).legs, l.st = .live
  let others := ms.flatMap s.displacers
  (∀ m, m ∉ ms → t.recordOf m = if m ∈ others then { s.recordOf m with displ := none } else s.recordOf m) ∧
  t.mgr = { s.mgr with recs := t.mgr.recs } ∧
  (slow →
    (∀ m ∈ ms, t.recordOf m = { (s.recordOf m).outOfService.breaking (fun l => decide (l.st = .making)) with
      st := .releasing, clearOf := some clear, relAns := if m = n then ans else (s.recordOf m).relAns }) ∧
    t = { s with
      mgr := t.mgr
      sw := { s.sw with
        list := placeOffer s.sw.list
          ((ms.flatMap fun m => ((s.recordOf m).legs.filter fun l => decide (l.st = .making)).map fun l => s.breakEntry m l.slot) ++
            ms.flatMap fun m => ((s.recordOf m).legs.filter fun l => decide (l.st = .live)).map fun l =>
              s.legEntry m (s.recordOf m) .release none .changed l.slot)
        counts := s.sw.counts ++ [⟨s.handle (ms.foldl min n), clear * 80, false, 0⟩] }
      att := { s.att with raises := s.att.raises ++ (if raises = [] then [] else [(.manager, raises)]) } }) ∧
  (¬slow →
    (∀ m ∈ ms, t.recordOf m = { (s.recordOf m).outOfService.breaking Leg.carries with
      st := .breaking
      relAns := if m = n then ans else (s.recordOf m).relAns
      openAns := if answered then none else (s.recordOf m).openAns
      roundTrip := if answered then none else (s.recordOf m).roundTrip }) ∧
    t = { s with
      mgr := t.mgr
      sw := { s.sw with
        list := placeOffer s.sw.list (ms.flatMap fun m => (s.recordOf m).carrying.map fun k => s.breakEntry m k) }
      att := { s.att with raises := s.att.raises ++ (if raises = [] then [] else [(.manager, raises)]) }
      port := if making then s.port.answerOpening (s.recordOf n).openAns .makeAborted
        (((s.recordOf n).openAns.map fun a => a.handles.flatMap handleBytes).getD []) else s.port })

/-- The circuit of record n may be released, with room for its entries: it and its partner are both MAKING, or each ACTIVE or HELD, the partner is
another record, no displacer is among them, and some leg is not DISPLACED (05 R91, R96). -/
structure State.Releasable (s : State) (n : Nat) : Prop where
  serving : (∀ m ∈ n :: (s.recordOf n).partner.toList, (s.recordOf m).serving) ∨
    ∀ m ∈ n :: (s.recordOf n).partner.toList, (s.recordOf m).st = .making
  other : (s.recordOf n).partner ≠ some n
  apart : ∀ m ∈ n :: (s.recordOf n).partner.toList, ∀ o ∈ s.displacers m, o ∉ n :: (s.recordOf n).partner.toList
  leg : ∃ m ∈ n :: (s.recordOf n).partner.toList, ∃ l ∈ (s.recordOf m).legs, l.st ≠ .displaced
  room : (s.sw.list.length + ((n :: (s.recordOf n).partner.toList).flatMap fun m => (s.recordOf m).carrying).length) ≤ 96

/-- The circuit of record n has nothing but DISPLACED legs: it and its partner are each ACTIVE or HELD, every leg is DISPLACED, the partner is another
record that waits for no release answer, and no displacer is among them (05 R96). -/
structure State.OnlyDisplaced (s : State) (n : Nat) : Prop where
  serving : ∀ m ∈ n :: (s.recordOf n).partner.toList, (s.recordOf m).serving
  legs : ∀ m ∈ n :: (s.recordOf n).partner.toList, ∀ l ∈ (s.recordOf m).legs, l.st = .displaced
  other : ∀ q, (s.recordOf n).partner = some q → q ≠ n ∧ (s.recordOf q).relAns = none
  apart : ∀ m ∈ n :: (s.recordOf n).partner.toList, ∀ o ∈ s.displacers m, o ∉ n :: (s.recordOf n).partner.toList

/-- The release of a circuit that has nothing but DISPLACED legs: it and its partner are FREE at once, their displacers lose their links, and no entry
is offered (05 R96, R101). -/
def State.freesAtOnce (s t : State) (n : Nat) (raises : Raise) (p : Port) : Prop :=
  let ms := n :: (s.recordOf n).partner.toList
  s.circuitClaim t [] raises p ∧ s.fanLeaves t ms ∧
  ∀ m, t.recordOf m = if m ∈ ms then Rec.free ((s.recordOf m).gen + 1)
    else if m ∈ ms.flatMap s.displacers then { s.recordOf m with displ := none } else s.recordOf m

/-- Record m as preemption for the slots ks leaves it (03 R55-R57): a victim's legs there are BREAKING and no longer hold their slots (log 13); a victim that keeps no
leg is BREAKING and out of service; a released partner is BREAKING, out of service, and so is every leg that it still carries; a test record
that displaced a leg of a released partner loses its link. -/
def State.preempted (s : State) (ks : List Slot) (m : Nat) : Rec :=
  let x := s.recordOf m
  let taken : Rec := { x with legs := x.legs.map fun l => if s.takesLeg ks m l then { l with st := .breaking, yielded := true } else l }
  if m ∈ s.releasedOf ks then { taken.outOfService.breaking Leg.carries with st := .breaking }
  else if m ∈ s.victimsOf ks ∧ s.falls ks m = true then { taken.outOfService with st := .breaking }
  else if m ∈ (s.releasedOf ks).flatMap s.displacers then { taken with displ := none }
  else taken

/-- The records of `own` become f, and every other record is as preemption for the slots ks leaves it. -/
def State.recordsTake (s t : State) (ks : List Slot) (own : List Nat) (f : Nat → Rec) : Prop :=
  ∀ m, t.recordOf m = if m ∈ own then f m else s.preempted ks m

/-- A circuit without a partner in VERIFY_WAIT, named once on the wait list or not at all, is released or runs out (04 R86, R88): it leaves the wait list,
its slots are broken, its opening is answered VERIFY_ABORTED with no unit and frame count 0 (log 28), and it is FREE at once. -/
def State.endsWaiting (s t : State) (n : Nat) (raises : Raise) : Prop :=
  ({ s with mgr := { s.mgr with wait := s.mgr.wait.filter fun h => decide (h ≠ s.handle n) } } : State).circuitClaim t
    ((s.recordOf n).legs.map fun l => s.breakEntry n l.slot) raises
    (s.port.answerOpening (s.recordOf n).openAns .verifyAborted (handleBytes (s.handle n) ++ List.replicate 15 0 ++ [0xFF, 0, 0])) ∧
  s.recordBecomes t n (Rec.free ((s.recordOf n).gen + 1)) ∧ s.fanLeaves t [n]

/-- A circuit without a partner in VERIFYING is taken to BREAKING (04 R85, R87): every leg is broken, the verify field, the lease and the drive target
go, its opening answer is written with the status given, the unit that served it and that unit's frame count, and that unit is freed. With a circuit waiting, the
head of the wait list becomes VERIFYING on the unit and offers TOKEN entries. -/
def State.endsVerifying (s t : State) (n : Nat) (u : Fin 4) (st : Status) (ans : Option ReleaseAnswer) (raises : Raise) : Prop :=
  let x := s.recordOf n
  let unit := s.ver.unit u
  let broken : Rec := { x.breaking (fun _ => true) with
    st := .breaking
    verify := none
    lease := none
    reload := none
    target := none
    openAns := none
    roundTrip := if x.openAns.isSome then none else x.roundTrip
    relAns := ans }
  let port := s.port.answerOpening x.openAns st
    (handleBytes (s.handle n) ++ List.replicate 15 0 ++ [BitVec.ofNat 8 u.val] ++ bytes16 (unit.due.getD unit.count))
  let breaks := x.legs.map fun l => s.breakEntry n l.slot
  (∀ v : Fin 4, v ≠ u → t.ver.unit v = s.ver.unit v) ∧ t.ver.view = s.ver.view ∧
  (s.mgr.wait = [] → ({ s with ver := t.ver } : State).circuitClaim t breaks raises port ∧ s.recordBecomes t n broken ∧ s.fanStands t ∧
    t.ver.unit u = VerifyUnit.idle ∧ t.ver.outcomes = s.ver.outcomes) ∧
  ∀ h rest field, s.mgr.wait = h :: rest → (s.recordOf h.num).st = .verifyWait → (s.recordOf h.num).verify = some field →
    let assigned : VerifyUnit := { VerifyUnit.idle with
      st := .sending, circuit := some h, ret := some field.ret, limit := field.tvfy * 80 }
    let up := viewUp s.ver.view field.ret.lane
    ({ s with ver := t.ver, mgr := { s.mgr with wait := rest } } : State).circuitClaim t
      (breaks ++ s.changeEntries h.num (s.recordOf h.num) .token (some u)) raises port ∧
    s.recordsBecome t [n, h.num] (fun m y => if m = n then broken else { y with st := .verifying }) ∧ s.fanStands t ∧
    t.ver.unit u = (if up then assigned else { assigned with st := .done, outcome := some .returnLost }) ∧
    t.ver.outcomes = s.ver.outcomes ++ (if up then [] else [⟨u, h, .returnLost⟩])

/-- Record n is VERIFYING on unit u, without a partner, with room for its entries and those of the circuit that waits for the unit. -/
structure State.Verifies (s : State) (n : Nat) (u : Fin 4) : Prop where
  st : (s.recordOf n).st = .verifying
  alone : (s.recordOf n).partner = none
  range : n < 512
  unit : (s.ver.unit u).circuit = some (s.handle n)
  first : ∀ v : Fin 4, v < u → (s.ver.unit v).circuit ≠ some (s.handle n)
  room : s.sw.list.length + (s.recordOf n).legs.length + ((s.mgr.wait.map fun h => (s.recordOf h.num).legs.length).headD 0) ≤ 96

/-- An access claim passes the judgements on watchers (08 R151), and carries no number below the soft reset claims taken (08 R169): the up watcher is an
unlinked ACCESS_UP head (table 8.1, R156) in CONFIRMED; its partner is configured, a head, ACCESS_DOWN and on the target's lane; and no test record out of FREE is linked to an up
watcher of that partner. -/
structure State.WatchersFit (s : State) (a : AccessRequest) : Prop where
  fresh : s.mgr.resets ≤ a.resets
  head : (s.wat.watcher a.watcher).cfg.chain = false
  up : (s.wat.watcher a.watcher).cfg.action = .accessUp
  confirmed : (s.wat.watcher a.watcher).run.st = .confirmed
  unlinked : (s.wat.watcher a.watcher).run.link = none
  configured : (s.wat.watcher a.partner).cfg.configured = true
  partnerHead : (s.wat.watcher a.partner).cfg.chain = false
  down : (s.wat.watcher a.partner).cfg.action = .accessDown
  lane : (s.wat.watcher a.partner).cfg.target.lane = a.target.lane
  unused : ∀ t u f, 480 ≤ t → t < 512 → (s.recordOf t).st ≠ .free → (s.recordOf t).watcher = some u →
    (s.wat.watcher u).cfg.up = some f → f.partner ≠ a.partner

/-- The loop slot of an access may be taken: no one holds it, or a NORMAL circuit in ACTIVE or HELD whose leg there is in MAKING or LIVE (08 R152). -/
def State.mayLoop (s : State) (k : Slot) : Prop :=
  ∀ o, s.mgr.holder k = some o → (s.recordOf o).cls = .normal ∧ (s.recordOf o).serving ∧
    ∃ l ∈ (s.recordOf o).legs, l.holdsSlot k = true ∧ l.carries = true

/-- The end of the access of test record n (08 R162): BREAKING, lease and drive target removed; the loop slot goes back to the displaced owner's
leg, which is MAKING, or is broken when there is none. -/
def State.endsAccess (s t : State) (n : Nat) (ans : Option ReleaseAnswer) (raises : Raise) (p : Port) : Prop :=
  let x := s.recordOf n
  let ended : Rec := { x with
    st := .breaking
    lease := none
    reload := none
    target := none
    displ := none
    restoring := x.displ.map fun d => (s.handle d.1, d.2)
    relAns := ans
    legs := x.legs.map fun l => { l with st := .breaking, yielded := x.displ.isSome } }
  s.fanStands t ∧
  (x.displ = none → s.circuitClaim t (x.legs.map fun l => s.breakEntry n l.slot) raises p ∧ s.recordBecomes t n ended) ∧
  ∀ o k, x.displ = some (o, k) →
    s.circuitClaim t [⟨k, legContent o (s.recordOf o) (s.recordOf o).targetDrive none,
      s.kept [n, o] k ++ [⟨s.handle n, .broken⟩, ⟨s.handle o, .made⟩]⟩] raises p ∧
    s.recordsBecome t [n, o] fun m r => if m = n then ended else
      { r with legs := r.legs.map fun l => if l.slot = k then { l with st := .making, link := none } else l }

/-! ### Claims that wait for room (02 R32, 03 R69) -/

/-- The command at which the manager takes a watcher's claim (07 R136, 08 R149). -/
def ActionClaim.command : ActionClaim → Instr
  | .releaseLinked _ _ => .releaseLinkedClaim
  | .holdLinked _ _ _ => .holdLinkedClaim
  | .suppression _ => .suppressionClaim
  | .access _ => .accessClaim
  | .endOfAccess _ _ => .endOfAccessClaim

/-- The manager takes claim k at a command, the state then being s' but for what the claim does: a request from its routing queue, or the first
of the boundary reports, clear-down ends, expiries, verify outcomes or watcher claims (03 R59, R69). -/
inductive State.Hands (s : State) : Instr → Claim → State → Prop
  | request (c : Instr) (kind : Byte) (len : Nat) (r : Request) (p : Port) : (c, .manager, kind, len) ∈ requestKinds → s.Takes .manager kind r p →
      State.Hands s c (.request r) { s with port := p }
  | report (x : Report) (rest : List Report) : s.Ready → s.sw.reports = x :: rest →
      State.Hands s .boundaryReport (.report x) { s with sw := { s.sw with reports := rest } }
  | clearDownEnd (h : Handle) (rest : List Handle) : s.Ready → s.sw.ends = h :: rest →
      State.Hands s .clearDownEnd (.clearDownEnd h) { s with sw := { s.sw with ends := rest } }
  | expiry (h : Handle) (rest : List Handle) : s.Ready → s.lease.expiries = h :: rest →
      State.Hands s .expiryClaim (.expiry h) { s with lease := { s.lease with expiries := rest } }
  | outcome (o : OutcomeClaim) (rest : List OutcomeClaim) : s.Ready → s.ver.outcomes = o :: rest →
      State.Hands s (if o.outcome.isDetected then .detectedOutcome else .verifyFailureOutcome) (.outcome o)
        { s with ver := { s.ver with outcomes := rest } }
  | action (a : ActionClaim) (rest : List ActionClaim) : s.Ready → s.wat.claims = a :: rest →
      State.Hands s a.command (.action a) { s with wat := { s.wat with claims := rest } }

/-- The switch declines an offer: its slots without an entry in the list are more than the list has room for (02 R32). -/
def State.declines (s : State) (offer : List Entry) : Prop :=
  96 - s.sw.list.length < ((offer.map (·.slot)).filter fun k => !(s.sw.list.any fun x => decide (x.slot = k))).dedup.length

/-- The changes of a claim, with the offer and the clear-down order that the switch takes (03 R69, 05 R97). -/
def State.makes (s t : State) (e : Eff) (offer : List Entry) (order : Option ClearCount) : Prop :=
  t = { s with
    mgr := e.mgr
    ver := e.ver
    wat := e.wat
    port := e.port
    sw := { s.sw with list := placeOffer s.sw.list offer, counts := s.sw.counts ++ order.toList }
    att := { s.att with raises := s.att.raises ++ (if e.raise = [] then [] else [(.manager, e.raise)]) } }

/-! ### Invariants -/

/-- Every table has its canonical form: numbers rising, no value equal to the entry's reset value (log 32). -/
def State.tablesCanonical (s : State) : Bool :=
  Tbl.wf (Rec.free 0) s.mgr.recs && Tbl.wf [] s.mgr.fan && Tbl.wf .lost s.mgr.view && Tbl.wf Content.idle s.sw.map &&
    Tbl.wf Generator.initial s.gens && Tbl.wf VerifyUnit.idle s.ver.units && Tbl.wf .lost s.ver.view && Tbl.wf Lane.initial s.sup.lanes &&
    Tbl.wf Watcher.initial s.wat.table && Tbl.wf .lost s.wat.view && Tbl.wf 0 s.att.flags && Tbl.wf PortSlot.initial s.port.slots

/-- The routing queues hold exactly the QUEUED slots, each once, with the owner that the catalogue names for its kind (10 R193). -/
def State.routed (s : State) : Prop :=
  (s.port.queue.map (·.2)).Nodup ∧ (∀ n, (s.port.slot n).st = .queued ↔ n ∈ s.port.queue.map (·.2)) ∧
    ∀ q ∈ s.port.queue, ownerOf (byteAt (s.port.slot q.2).request 0) = some q.1

/-- The pending-change list has room for 96 entries and at most one for each slot (02 R31, R32). -/
def State.listInRoom (s : State) : Prop := s.sw.list.length ≤ Config.listRoom ∧ (s.sw.list.map (·.slot)).Nodup

/-- The frame timing's counts (02 R25, R26): a missed count below 8, kept in LOCKED only; a run below 4 with its candidate position, kept in
FREERUN only. -/
def State.timingLegal (s : State) : Prop :=
  s.sw.missed < Config.missLimit ∧ s.sw.run < Config.runLimit ∧ (s.sw.locked = true → s.sw.run = 0) ∧ (s.sw.locked = false → s.sw.missed = 0) ∧
    (s.sw.cand = none ↔ s.sw.run = 0)

/-- A generator's settings and position (02 R38-R40): a shift register that is never 0, a code of 3 to 8 bits and a position in it. -/
def Generator.legal (g : Generator) : Prop :=
  g.reg ≠ 0 ∧ g.seed ≠ 0 ∧ g.seed.toNat ≤ 0x7FFF ∧ 3 ≤ g.len ∧ g.len ≤ 8 ∧ g.value.toNat < 2 ^ g.len ∧ g.phase < g.len

/-- A lane's settings and counts (06 R110, R111, R114): settings in range, an absent count in UP only, a presence count in RESTORING only. -/
def Lane.legal (x : Lane) : Prop :=
  8 ≤ x.tlos ∧ x.tlos ≤ 255 ∧ 1 ≤ x.trsq ∧ x.trsq ≤ 255 ∧ x.absent < 255 ∧ x.presence < 255 * Config.unitFrames ∧
    (x.st ≠ .up → x.absent = 0) ∧ (x.st ≠ .restoring → x.presence = 0)

/-- A watcher: counts in range, and an armed one has no chain flag, so it is the head of its chain (07 R123, R124, R139, R142). -/
def Watcher.legal (x : Watcher) : Prop :=
  1 ≤ x.cfg.persistence ∧ x.cfg.persistence ≤ 255 ∧ 1 ≤ x.cfg.dropout ∧ x.cfg.dropout ≤ 255 ∧ x.run.confirmations ≤ 255 ∧
    (x.run.st.armedHead = true → x.cfg.chain = false)

/-- The generators, the lanes and the watchers are legal. -/
def State.banksLegal (s : State) : Prop :=
  (∀ n, (generatorOf s.gens n).legal) ∧ (∀ l, (s.sup.lane l).legal) ∧ ∀ w, (s.wat.watcher w).legal

/-- A change of the watcher table alone: the watchers named are changed by f, every other stands. -/
def State.watchersBecome (s t : State) (ns : List Nat) (f : Nat → Watcher → Watcher) : Prop :=
  ∀ m, t.wat.watcher m = if m ∈ ns then f m (s.wat.watcher m) else s.wat.watcher m

/-- The request areas and the response areas hold 32 bytes, the default clear-down is at most 200, there are seventeen enables, the cursor names
an entity, and a unit holds at most 32 received bytes (10.3, 10 R197, 09 R173, R176, 04 4.1). -/
def State.areasLegal (s : State) : Prop :=
  (∀ n, (s.port.slot n).request.length = 32 ∧ (s.port.slot n).response.length = 32) ∧ s.port.defaults.clearDown ≤ 200 ∧
    s.att.enables.length = 17 ∧ s.att.cursor < Config.entities ∧ ∀ u, (s.ver.unit u).rx.length ≤ 32

/-- The manager holds a claim for room exactly while the switch keeps its offer (03 R69, R70). -/
def State.heldHasOffer (s : State) : Prop := s.mgr.held.isSome = s.sw.kept.isSome

/-- The circuit table is consistent: partners name each other, are two records of the control pool, and stand in no state that a pair does not
take (01 R15); no record has two legs on one slot; DISPLACED legs belong to the control pool and are linked to the test pool, whose records out of
FREE, and no others, are TEST, and whose displacement names the control pool (01 R1, R7); the wait list holds current handles of circuits in VERIFY_WAIT, none
twice (04 R77). -/
def State.circuitsLegal (s : State) : Prop :=
  (∀ n q, (s.recordOf n).partner = some q → q ≠ n ∧ n < 480 ∧ (s.recordOf q).partner = some n ∧ (s.recordOf n).st ≠ .free ∧
    (s.recordOf n).st ≠ .verifyWait ∧ (s.recordOf n).st ≠ .verifying) ∧
  (∀ n, ((s.recordOf n).legs.map (·.slot)).Nodup) ∧
  (∀ n, ∀ l ∈ (s.recordOf n).legs, l.st = .displaced → n < 480 ∧ ∀ d, l.link = some d → 480 ≤ d) ∧
  (∀ n d, (s.recordOf n).displ = some d → 480 ≤ n ∧ d.1 < 480) ∧
  (∀ n, 480 ≤ n → (s.recordOf n).st ≠ .free → (s.recordOf n).cls = .test) ∧
  (∀ n, (s.recordOf n).cls = .test → 480 ≤ n ∧ (s.recordOf n).st ≠ .verifyWait) ∧
  (∀ h ∈ s.mgr.wait, (s.recordOf h.num).st = .verifyWait ∧ (s.recordOf h.num).gen = h.gen) ∧ (s.mgr.wait.map (·.num)).Nodup

/-- While RST_N is low and during tINIT every block holds its hard-reset values, the port faults of tINIT apart (10 R203). -/
def State.quietUntilRun (s : State) : Prop :=
  s.phase ≠ .run → s = { State.reset with
    pending := s.pending
    phase := s.phase
    oeHigh := s.oeHigh
    port := { Port.initial with faults := s.port.faults, miso := s.port.miso } }

end Sys2Proof.Machine
end

