-- ==== Sys2Proof/Certificates/Slice0/Obligations.lean ====
section
/-! DEFINITION. The statements for the provers. -/

open Sys2Proof Sys2Proof.Machine

/-! ### The machine -/

/-- The command at the front of the queue is taken with the rest of the queue left; an empty queue idles (log 3). -/
def Obligations.StepTakesFrontCommand : Prop :=
  (∀ (c : Instr) (rest : List Instr) (s : State), s.pending = c :: rest → step s = exec c { s with pending := rest }) ∧
    ∀ s : State, s.pending = [] → step s = .next s

/-- Every command answers a next state and leaves the queue of commands as it is. That a command for an event which cannot occur in the state answers
the state unchanged is the model's choice (log 2). -/
def Obligations.EveryCommandAnswersNext : Prop :=
  ∀ (c : Instr) (s : State), ∃ t, exec c s = .next t ∧ t.pending = s.pending

/-- RST_N, the end of tINIT and OE_N (R203, R205): RST_N low gives every block its hard-reset values; its release begins tINIT; the end of tINIT
starts the lease clock; OE_N high makes the outbound lanes high-impedance, whatever else holds.
While RST_N is low the port ignores every transaction; during tINIT READ_STATUS answers NOT_READY with every slot EMPTY and every other
transaction sets BAD_TRANSACTION and does nothing else; and no other event does anything (R203). The model's choices: HARD_RESET leaves the level of
OE_N as it is (log 10); and of the hard-reset values, those of the bytes stored and the last bits received (log 7), of the instants before the
first frame (log 8), and of the lease clock's next event until tINIT ends (log 41). -/
def Obligations.PinEventsAndTheQuietBeforeTheRun : Prop :=
  (∀ s : State,
    exec .hardReset s = .next { State.reset with pending := s.pending, oeHigh := s.oeHigh } ∧
    (s.phase = .reset → exec .rstNRelease s = .next { s with phase := .init }) ∧
    (s.phase = .init → exec .tinitEnd s = .next { s with phase := .run, lease := { s.lease with nextAt := 24576000 } }) ∧
    (∀ high, exec (.oeNChange high) s = .next { s with oeHigh := high }) ∧
    (∀ k, s.oeHigh = true → s.lout k = none) ∧
    (∀ k, s.oeHigh = false → s.phase ≠ .run → s.lout k = some 0xFF)) ∧
  ((∀ c mosi (s : State), transactionOf c = some mosi → s.phase = .reset → exec c s = .next s) ∧
  (∀ mosi (s : State), s.phase = .init → exec (.readStatus mosi) s = .next (s.send mosi [status0 s, 0, 0]) ∧
    (status0 s).getLsbD 7 = true) ∧
  (∀ c mosi (s : State), transactionOf c = some mosi → (∀ m, c ≠ .readStatus m) → s.phase = .init →
    exec c s = .next { s with port := { s.port with
      miso := status0 s :: List.replicate mosi.length 0
      faults := { s.port.faults with badTransaction := true } } }) ∧
  (∀ c (s : State), transactionOf c = none → isPinEvent c = false → s.phase ≠ .run → exec c s = .next s))

/-! ### The port (10) -/

/-- READ_STATUS (R186): the three status bytes are sent, nothing else changes, and the bits of the bytes are those of 10.8. -/
def Obligations.ReadStatusSendsThePortStatus : Prop :=
  ∀ (mosi : List Byte) (s : State), s.phase = .run →
    exec (.readStatus mosi) s = .next { s with port := { s.port with
      miso := status0 s ::
        ([status0 s, statusSlots s.port 0 1, statusSlots s.port 2 3] ++ List.replicate mosi.length 0).take mosi.length } } ∧
    (status0 s).getLsbD 7 = false ∧ (status0 s).getLsbD 6 = attnLow s ∧ (status0 s).getLsbD 5 = s.sw.locked ∧
    (status0 s).getLsbD 4 = s.port.soft.isSome ∧ (status0 s).getLsbD 3 = s.port.faults.writeRefused ∧
    (status0 s).getLsbD 2 = s.port.faults.submitRefused ∧ (status0 s).getLsbD 1 = s.port.faults.clearRefused ∧
    (status0 s).getLsbD 0 = s.port.faults.badTransaction ∧
    ∀ a b : Fin 4, (statusSlots s.port a b).toNat = (s.port.slot a).st.toCode * 16 + (s.port.slot b).st.toCode

/-- WRITE_SLOT (R187): the table of its results. A slot EMPTY or LOADED stores the bytes that fit and becomes LOADED; without data it keeps its
state; an offset above 31, or data past place 31, sets BAD_TRANSACTION; a slot in another state stores nothing and sets WRITE_REFUSED; without an
offset byte nothing happens. The part sends 00h. -/
def Obligations.WriteSlotStoresTheBytesThatFit : Prop :=
  (∀ (n : Fin 4) (s : State), s.phase = .run → exec (.writeSlot n []) s = .next (s.send [] [])) ∧
  ∀ (n : Fin 4) (off : Byte) (data : List Byte) (s : State), s.phase = .run → (s.port.slot n).request.length = 32 →
    (((s.port.slot n).st = .empty ∨ (s.port.slot n).st = .loaded) →
      (data = [] → off.toNat < 32 → exec (.writeSlot n (off :: data)) s = .next (s.send (off :: data) [])) ∧
      (32 ≤ off.toNat → exec (.writeSlot n (off :: data)) s =
        .next ((s.send (off :: data) []).setFaults fun f => { f with badTransaction := true })) ∧
      (data ≠ [] → off.toNat < 32 → ∃ area : List Byte, area.length = 32 ∧
        (∀ i, i < 32 → area.getD i 0 =
          if off.toNat ≤ i ∧ i < off.toNat + data.length then data.getD (i - off.toNat) 0 else (s.port.slot n).request.getD i 0) ∧
        exec (.writeSlot n (off :: data)) s = .next
          (((s.send (off :: data) []).setSlot n { s.port.slot n with st := .loaded, request := area }).setFaults fun f =>
            { f with badTransaction := f.badTransaction || decide (32 < off.toNat + data.length) }))) ∧
    ((s.port.slot n).st ≠ .empty → (s.port.slot n).st ≠ .loaded → exec (.writeSlot n (off :: data)) s =
      .next ((s.send (off :: data) []).setFaults fun f => { f with writeRefused := true }))

/-- READ_SLOT (R188), the transaction that each code byte names, and a code that names none (R185): READ_SLOT sends the response area from the offset
and then 00h, and changes no slot; an offset above 31, or an unknown code, sets BAD_TRANSACTION. That 00h is sent while the offset byte is
received is the model's (log 33).
The bits of the port (R185): the bits received on MOSI make bytes, most significant bit first, a byte left incomplete is discarded, and without a whole
code byte there is no transaction. MISO is high-impedance while CS_N is high and while RST_N is low (R203); while CS_N is low it carries, bit by bit and
most significant first, byte 0 of the port status as the code byte is received, and then the bytes that the transaction sends. That the whole
transaction sees the state as CS_N fell is the model's (log 6). -/
def Obligations.ReadSlotSendsTheResponseArea : Prop :=
  (∀ (n : Fin 4) (s : State), s.phase = .run → exec (.readSlot n []) s = .next (s.send [] [])) ∧
  (∀ (n : Fin 4) (off : Byte) (more : List Byte) (s : State), s.phase = .run → (s.port.slot n).response.length = 32 →
    ∃ sent : List Byte, sent.length = more.length ∧ (∀ i, i < more.length → sent.getD i 0 = (s.port.slot n).response.getD (off.toNat + i) 0) ∧
      exec (.readSlot n (off :: more)) s = .next { s with port := { s.port with
        miso := status0 s :: 0 :: sent
        faults := { s.port.faults with badTransaction := s.port.faults.badTransaction || decide (31 < off.toNat) } } }) ∧
  (∀ (code : Byte) (mosi : List Byte) (s : State), s.phase = .run → knownCode code = false →
    exec (.unknownTransactionCode code mosi) s = .next { s with port := { s.port with
      miso := status0 s :: List.replicate mosi.length 0
      faults := { s.port.faults with badTransaction := true } } }) ∧
  (∀ (code : Byte) (mosi : List Byte),
    (code = 0x5A → portCommand code mosi = .readStatus mosi) ∧ (code = 0x6C → portCommand code mosi = .clearPortFaults mosi) ∧
    (∀ n : Fin 4,
      (code.toNat = 0x10 + n.val → portCommand code mosi = .writeSlot n mosi) ∧ (code.toNat = 0x20 + n.val → portCommand code mosi = .submit n mosi) ∧
      (code.toNat = 0x30 + n.val → portCommand code mosi = .readSlot n mosi) ∧
      (code.toNat = 0x40 + n.val → portCommand code mosi = .clearSlot n mosi)) ∧
    (code ≠ 0x5A → code ≠ 0x6C → (∀ (n : Fin 4) (b : Nat), b ∈ [0x10, 0x20, 0x30, 0x40] → code.toNat ≠ b + n.val) →
      portCommand code mosi = .unknownTransactionCode code mosi ∧ knownCode code = false)) ∧
  (∀ b : Byte, bitsOf b =
    [b.getLsbD 7, b.getLsbD 6, b.getLsbD 5, b.getLsbD 4, b.getLsbD 3, b.getLsbD 2, b.getLsbD 1, b.getLsbD 0]) ∧
  (∀ part : List Bool, part.length < 8 → portSelection part = none ∧
    ∀ (code : Byte) (mosi : List Byte), portSelection ((code :: mosi).flatMap bitsOf ++ part) = some (portCommand code mosi)) ∧
  (∀ s : State, s.misoPin none = none ∧ (s.phase = .reset → ∀ bits, s.misoPin (some bits) = none) ∧
    (s.phase ≠ .reset → ∀ part : List Bool, part.length < 8 → s.misoPin (some part) = some ((status0 s).getLsbD (7 - part.length)))) ∧
  ∀ (code : Byte) (mosi : List Byte) (s : State), s.phase ≠ .reset → ∃ t, exec (portCommand code mosi) s = .next t ∧
    t.port.miso.length = mosi.length + 1 ∧ ∀ i, i < 8 * (mosi.length + 1) →
      s.misoPin (some (((code :: mosi).flatMap bitsOf).take i)) = some ((t.port.miso.flatMap bitsOf).getD i false)

/-- SUBMIT (R189, R193): a LOADED slot becomes QUEUED with its response area 00h and its request at the tail of the routing queues, for the owner
that the catalogue names; a kind that names no request completes the slot with BAD_REQUEST; any other slot keeps its state and sets
SUBMIT_REFUSED. The submission number of a slot is the model's (log 11). -/
def Obligations.SubmitRoutesTheRequest : Prop :=
  ∀ (n : Fin 4) (mosi : List Byte) (s : State), s.phase = .run →
    let e := s.port.slot n
    (e.st = .loaded → ∀ o, ownerOf (byteAt e.request 0) = some o → ∃ t, exec (.submit n mosi) s = .next t ∧
      t = { s with port := { s.port with slots := t.port.slots, queue := s.port.queue ++ [(o, n)], miso := t.port.miso } } ∧
      t.port.slot n = { e with st := .queued, response := List.replicate 32 0, sub := e.sub + 1 } ∧
      (∀ m, m ≠ n → t.port.slot m = s.port.slot m) ∧ t.port.miso = status0 s :: List.replicate mosi.length 0) ∧
    (e.st = .loaded → ownerOf (byteAt e.request 0) = none → ∃ t, exec (.submit n mosi) s = .next t ∧
      t = { s with port := { s.port with slots := t.port.slots, miso := t.port.miso } } ∧
      t.port.slot n = { e with
        st := .done
        response := [byteAt e.request 0, 0x01, byteAt e.request 2, byteAt e.request 3] ++ List.replicate 28 0
        sub := e.sub + 1 } ∧
      (∀ m, m ≠ n → t.port.slot m = s.port.slot m) ∧ t.port.miso = status0 s :: List.replicate mosi.length 0) ∧
    (e.st ≠ .loaded → exec (.submit n mosi) s = .next { s with port := { s.port with
      miso := status0 s :: List.replicate mosi.length 0
      faults := { s.port.faults with submitRefused := true } } })

/-- CLEAR_SLOT and CLEAR_PORT_FAULTS (R190), whole: the bytes after the code byte play no part. The status byte is sent first (R185); that 00h follows
it is log 33's, and that a cleared slot keeps its submission number, so that a late answer finds none, is the model's (log 11). -/
def Obligations.ClearsEmptyASlotOrTheFaults : Prop :=
  ∀ (n : Fin 4) (mosi : List Byte) (s : State), s.phase = .run →
    ((s.port.slot n).st = .empty ∨ (s.port.slot n).st = .loaded ∨ (s.port.slot n).st = .done →
      ∃ t, exec (.clearSlot n mosi) s = .next t ∧
        t = { s with port := { s.port with slots := t.port.slots, miso := status0 s :: List.replicate mosi.length 0 } } ∧
        t.port.slot n = ⟨.empty, List.replicate 32 0, List.replicate 32 0, (s.port.slot n).sub⟩ ∧
        ∀ m, m ≠ n → t.port.slot m = s.port.slot m) ∧
    ((s.port.slot n).st = .queued ∨ (s.port.slot n).st = .working →
      exec (.clearSlot n mosi) s = .next { s with port := { s.port with
        miso := status0 s :: List.replicate mosi.length 0
        faults := { s.port.faults with clearRefused := true } } }) ∧
    exec (.clearPortFaults mosi) s = .next { s with port := { s.port with
      miso := status0 s :: List.replicate mosi.length 0
      faults := ⟨false, false, false, false⟩ } }

/-- An owner takes the first request of its own in the routing queues, and only when its kind is the one named; the slot becomes WORKING and no
other slot changes (R193).
A response is written whole for a submission that is WORKING, with the kind, the status and the tag in its header, and the slot becomes
DONE; a response for a submission that has been answered is discarded (R192, R195, R200). -/
def Obligations.RequestsAreTakenInOrderAndAnsweredOnce : Prop :=
  (∀ (p : Port) (o : Owner) (kind : Byte) (pre post : List (Owner × Fin 4)) (n : Fin 4),
    p.queue = pre ++ (o, n) :: post → (∀ x ∈ pre, x.1 ≠ o) →
    (byteAt (p.slot n).request 0 = kind → ∃ r q, p.takeRequest o kind = some (r, q) ∧ r.slot = n ∧ r.sub = (p.slot n).sub ∧
      (∀ i, i < 4 + paramLength (p.slot n).request → byteAt r.msg i = if i < 32 then byteAt (p.slot n).request i else 0) ∧
      q = { p with queue := pre ++ post, slots := q.slots } ∧ q.slot n = { p.slot n with st := .working } ∧
      ∀ m, m ≠ n → q.slot m = p.slot m) ∧
    (byteAt (p.slot n).request 0 ≠ kind → p.takeRequest o kind = none)) ∧
  (∀ (p : Port) (n : Fin 4) (sub : Nat) (st : Status) (results : List Byte),
    ((p.slot n).st = .working → (p.slot n).sub = sub → results.length ≤ 28 → ∃ q, p.answer n sub st results = q ∧
      q = { p with slots := q.slots } ∧
      q.slot n = { p.slot n with
        st := .done
        response := [byteAt (p.slot n).request 0, st.toByte, byteAt (p.slot n).request 2, byteAt (p.slot n).request 3] ++ results ++
          List.replicate (28 - results.length) 0 } ∧
      ∀ m, m ≠ n → q.slot m = p.slot m) ∧
    (((p.slot n).st ≠ .working ∨ (p.slot n).sub ≠ sub) → p.answer n sub st results = p))

/-- Every owner refuses with BAD_REQUEST a message whose flags byte is not the parameter length of its kind, and changes nothing but its slot:
its response carries the circuit fields and FFFFh from the circuit manager, and 00h from the others (R194, R195). That the circuit fields of a
FIND_OUT or FIND_IN are 00h is the model's choice (log 17), and so is that a field past a short parameter length reads as 00h (log 16). -/
def Obligations.MalformedMessageIsBadRequest : Prop :=
  ∀ x ∈ requestKinds, ∀ (s : State) (r : Request) (p : Port), s.Takes x.2.1 x.2.2.1 r p → byteAt r.msg 1 ≠ BitVec.ofNat 8 x.2.2.2 →
    exec x.1 s = .next { s with
      port := p.answerRequest r .badRequest (if x.2.1 = .manager then circuitFields r.msg ++ [0xFF, 0xFF] else []) }

/-! ### The request engine (10) -/

/-- CONFIG (R197): the write flag 00h reads the five defaults, 01h with a clear-down of at most 200 writes them all, anything else is BAD_FIELD;
nothing but the defaults and the slot changes.
IDENT (R198): answered OK with the device code, the revision, the frame-timing state and the numbers of the part; it changes nothing else. -/
def Obligations.ConfigAndIdent : Prop :=
  (∀ (s : State) (r : Request) (p : Port), s.Takes .engine 0x30 r p → byteAt r.msg 1 = 6 →
    (byteAt r.msg 4 = 0 → exec .config s = .next { s with
      port := p.answerRequest r .ok [s.port.defaults.idle, s.port.defaults.cond, s.port.defaults.holdB, s.port.defaults.rel,
        BitVec.ofNat 8 s.port.defaults.clearDown] }) ∧
    (byteAt r.msg 4 = 1 → (byteAt r.msg 9).toNat ≤ 200 → exec .config s = .next { s with
      port := ({ p with
        defaults := ⟨byteAt r.msg 5, byteAt r.msg 6, byteAt r.msg 7, byteAt r.msg 8, (byteAt r.msg 9).toNat⟩ } : Port).answerRequest r .ok
          [byteAt r.msg 5, byteAt r.msg 6, byteAt r.msg 7, byteAt r.msg 8, byteAt r.msg 9] }) ∧
    (byteAt r.msg 4 = 1 → 200 < (byteAt r.msg 9).toNat → exec .config s = .next { s with port := p.answerRequest r .badField [] }) ∧
    (byteAt r.msg 4 ≠ 0 → byteAt r.msg 4 ≠ 1 → exec .config s = .next { s with port := p.answerRequest r .badField [] })) ∧
  (∀ (s : State) (r : Request) (p : Port), s.Takes .engine 0x31 r p → byteAt r.msg 1 = 0 →
    exec .ident s = .next { s with
      port := p.answerRequest r .ok [0x24, 0x16, 0x01, if s.sw.locked then 1 else 0, 16, 48, 0x02, 0x00, 0x01, 0xE0, 64, 6, 4, 96, 4] })

/-- SOFT_RESET (R199, R202): every other slot QUEUED or WORKING is completed with RESET_ABORTED and results 00h, the routing queues are emptied,
the four orders are given, and the soft reset is in progress; its own slot stays WORKING with its areas and its submission as they were when it was
taken, and nothing else changes. The number that names the SOFT_RESET, one above the last, is the model's (log 11). No request of any owner is
taken while an order has not been taken by its block (R199, R201; log 22). -/
def Obligations.SoftResetAbortsTheOtherSlotsAndGivesFourOrders : Prop :=
  (∀ (s : State) (r : Request) (p : Port), s.Takes .engine 0x3F r p → byteAt r.msg 1 = 0 → ∃ t, exec .softReset s = .next t ∧
    t = { s with port := { p with
      slots := t.port.slots
      queue := []
      soft := some ⟨s.port.softId + 1, r.slot, r.sub, [], []⟩
      softId := s.port.softId + 1
      toSwitch := s.port.toSwitch ++ [s.port.softId + 1]
      toManager := s.port.toManager ++ [s.port.softId + 1]
      toWatchers := s.port.toWatchers ++ [s.port.softId + 1]
      toAttention := s.port.toAttention ++ [s.port.softId + 1] } } ∧
    (t.port.slot r.slot).st = .working ∧ t.port.slot r.slot = p.slot r.slot ∧
    ∀ n, n ≠ r.slot →
      ((s.port.slot n).st = .queued ∨ (s.port.slot n).st = .working → t.port.slot n = { s.port.slot n with
        st := .done
        response := [byteAt (s.port.slot n).request 0, 0x10, byteAt (s.port.slot n).request 2, byteAt (s.port.slot n).request 3] ++
          List.replicate 28 0 }) ∧
      ((s.port.slot n).st ≠ .queued → (s.port.slot n).st ≠ .working → t.port.slot n = s.port.slot n)) ∧
  ∀ x ∈ requestKinds, ∀ s : State, s.phase = .run → s.orderOutstanding → exec x.1 s = .next s

/-- The engine completes a SOFT_RESET with OK at the last of the three acknowledgements and the clearance-done report that names the manager's
order for it (R201); an acknowledgement that names an earlier SOFT_RESET is disregarded (R202). -/
def Obligations.SoftResetCompletesWhenAllHasBeenTaken : Prop :=
  (∀ (s : State) (b : ResetBlock) (pre post : List (ResetBlock × Nat)) (x : SoftReset), s.phase = .run →
    s.port.acks = pre ++ (b, x.id) :: post → (∀ a ∈ pre, a.1 ≠ b) → s.port.soft = some x →
    let all := ∀ c : ResetBlock, c ∈ x.acks ∨ c = b
    ((all ∧ .manager x.id ∈ x.cleared) → exec (.softResetAcknowledgement b) s = .next { s with
      port := ({ s.port with acks := pre ++ post, soft := none } : Port).answer x.slot x.sub .ok [] }) ∧
    (¬(all ∧ .manager x.id ∈ x.cleared) → exec (.softResetAcknowledgement b) s = .next { s with
      port := { s.port with acks := pre ++ post, soft := some { x with acks := x.acks ++ [b] } } })) ∧
  (∀ (s : State) (b : ResetBlock) (pre post : List (ResetBlock × Nat)) (id : Nat), s.phase = .run →
    s.port.acks = pre ++ (b, id) :: post → (∀ a ∈ pre, a.1 ≠ b) → (∀ x, s.port.soft = some x → x.id ≠ id) →
    exec (.softResetAcknowledgement b) s = .next { s with port := { s.port with acks := pre ++ post } }) ∧
  (∀ (s : State) (names : List ClearanceName) (rest : List (List ClearanceName)) (x : SoftReset), s.phase = .run →
    s.sw.cleared = names :: rest → s.port.soft = some x →
    let done := (∀ c : ResetBlock, c ∈ x.acks) ∧ (.manager x.id ∈ x.cleared ∨ .manager x.id ∈ names)
    (done → exec .clearanceDoneReport s = .next { s with
      sw := { s.sw with cleared := rest }
      port := ({ s.port with soft := none } : Port).answer x.slot x.sub .ok [] }) ∧
    (¬done → exec .clearanceDoneReport s = .next { s with
      sw := { s.sw with cleared := rest }
      port := { s.port with soft := some { x with cleared := x.cleared ++ names } } })) ∧
  ∀ (s : State) (names : List ClearanceName) (rest : List (List ClearanceName)), s.phase = .run → s.sw.cleared = names :: rest →
    s.port.soft = none → exec .clearanceDoneReport s = .next { s with sw := { s.sw with cleared := rest } }

/-! ### Attention (09) -/

/-- COLLECT (R175, R176): from the cursor on and round, the first entities with a pending flag, at most as many as the limit, are returned with
all their flags and cleared; the cursor moves past the last; a limit of 0 or above 7 is BAD_FIELD and changes nothing else. -/
def Obligations.CollectReturnsAndClearsPendingEntities : Prop :=
  ∀ (s : State) (r : Request) (p : Port), s.Takes .attention 0x28 r p → byteAt r.msg 1 = 1 →
    let limit := (byteAt r.msg 4).toNat
    let found := ((List.range' s.att.cursor (593 - s.att.cursor) ++ List.range s.att.cursor).filter fun e =>
      decide (s.att.flagsOf e ≠ 0)).take limit
    (1 ≤ limit → limit ≤ 7 → ∃ t, exec .collect s = .next t ∧
      t = { s with
        att := { s.att with flags := t.att.flags, cursor := t.att.cursor }
        port := p.answerRequest r .ok ((found.flatMap fun e => bytes16 e ++ bytes16 (s.att.flagsOf e).toNat) ++
          (List.replicate (7 - found.length) [0xFF, 0xFF, 0x00, 0x00]).flatten) } ∧
      (∀ e, t.att.flagsOf e = if e ∈ found then 0 else s.att.flagsOf e) ∧
      t.att.cursor = match found.getLast? with | some e => (e + 1) % 593 | none => s.att.cursor) ∧
    (limit = 0 ∨ 7 < limit → exec .collect s = .next { s with port := p.answerRequest r .badField [] })

/-- MASK_SET (R179): seventeen enables, each 00h or 01h, replace the enables and are answered; any other value is BAD_FIELD; no flag and not the
cursor changes. ATTN_N is low exactly when the global enable is on and a pending flag's cause enable is, or the request-done enable is on and a slot is
DONE (R173, R174, table 9.2).
A raise sets every flag it names and no other (R172); the soft reset order clears every flag, sets the cursor to 0, keeps the enables and is
acknowledged (R182). -/
def Obligations.EnablesFlagsAndTheAttentionReset : Prop :=
  (∀ (s : State) (r : Request) (p : Port), s.Takes .attention 0x29 r p → byteAt r.msg 1 = 17 →
    ((∀ i, i < 17 → byteAt r.msg (4 + i) = 0 ∨ byteAt r.msg (4 + i) = 1) → exec .maskSet s = .next { s with
      att := { s.att with enables := (List.range 17).map fun i => decide (byteAt r.msg (4 + i) = 1) }
      port := p.answerRequest r .ok ((List.range 17).map fun i => byteAt r.msg (4 + i)) }) ∧
    ((∃ i, i < 17 ∧ byteAt r.msg (4 + i) ≠ 0 ∧ byteAt r.msg (4 + i) ≠ 1) →
      exec .maskSet s = .next { s with port := p.answerRequest r .badField [] })) ∧
  ((∀ (s : State) (b : RaiseBlock) (x : Raise) (pre post : List (RaiseBlock × Raise)), s.phase = .run →
    s.att.raises = pre ++ (b, x) :: post → (∀ y ∈ pre, y.1 ≠ b) → ∃ t, exec (.attentionRaise b) s = .next t ∧
      t = { s with att := { s.att with flags := t.att.flags, raises := pre ++ post } } ∧
      ∀ e i, (t.att.flagsOf e).getLsbD i = ((s.att.flagsOf e).getLsbD i || x.any fun y => decide (y.1 = e) && decide (y.2.bit = i))) ∧
  ∀ (s : State) (id : Nat) (rest : List Nat), s.phase = .run → s.port.toAttention = id :: rest →
    exec .attentionSoftResetOrder s = .next { s with
      att := { s.att with flags := [], cursor := 0 }
      port := { s.port with toAttention := rest, acks := s.port.acks ++ [(.attention, id)] } }) ∧
  ∀ s : State, Tbl.wf 0 s.att.flags = true →
    let enabled (i : Nat) : Prop := s.att.enables.getD i false = true
    let enableOf (e : Nat) : List Nat :=
      if e = 0 then [0, 0] else if e ≤ 16 then [1, 2] else if e ≤ 80 then [3, 4, 5, 6] else [7, 8, 9, 10, 11, 12, 12, 13, 14]
    (attnLow s = true ↔
      (enabled 16 ∧ ∃ e i k, (s.att.flagsOf e).getLsbD i = true ∧ (enableOf e)[i]? = some k ∧ enabled k) ∨
        (enabled 15 ∧ ∃ n : Fin 4, (s.port.slot n).st = .done))

/-! ### Generators and the switch (02) -/

/-- GEN_SET (R40): the kind, the parameters of that kind and the flag are written, the sequence restarts, and the settings are answered; a field out
of range is BAD_FIELD and changes nothing else. A flag byte above 01h is out of range by log 25. -/
def Obligations.GenSetConfiguresAGenerator : Prop :=
  ∀ (s : State) (r : Request) (p : Port), s.Takes .generators 0x10 r p → byteAt r.msg 1 = 8 →
    let n := (byteAt r.msg 4).toNat
    let g := generatorOf s.gens n
    let flag := byteAt r.msg 11
    let becomes (g' : Generator) : Prop := ∃ t, exec .genSet s = .next t ∧
      t = { s with
        gens := t.gens
        port := p.answerRequest r .ok ([byteAt r.msg 4, byteAt r.msg 5, g'.fixed] ++ bytes16 g'.seed.toNat ++
          [BitVec.ofNat 8 g'.len, g'.value, flag]) } ∧
      ∀ m, generatorOf t.gens m = if m = n then g' else generatorOf s.gens m
    let inRange := n < 6 ∧ (flag = 0 ∨ flag = 1)
    (inRange → byteAt r.msg 5 = 0 → becomes { g with kind := .off, flag := decide (flag = 1) }) ∧
    (inRange → byteAt r.msg 5 = 1 → becomes { g with kind := .fixed, flag := decide (flag = 1), fixed := byteAt r.msg 6 }) ∧
    (inRange → byteAt r.msg 5 = 2 → wordAt r.msg 7 = 0 → becomes { g with
      kind := .prbs, flag := decide (flag = 1), seed := 0x7FFF, reg := 0x7FFF }) ∧
    (inRange → byteAt r.msg 5 = 2 → wordAt r.msg 7 ≠ 0 → wordAt r.msg 7 ≤ 0x7FFF → becomes { g with
      kind := .prbs, flag := decide (flag = 1), seed := BitVec.ofNat 16 (wordAt r.msg 7), reg := BitVec.ofNat 15 (wordAt r.msg 7) }) ∧
    (inRange → byteAt r.msg 5 = 3 → 3 ≤ (byteAt r.msg 9).toNat → (byteAt r.msg 9).toNat ≤ 8 →
      (byteAt r.msg 10).toNat < 2 ^ (byteAt r.msg 9).toNat → becomes { g with
        kind := .code, flag := decide (flag = 1), len := (byteAt r.msg 9).toNat, value := byteAt r.msg 10, phase := 0 }) ∧
    ((¬inRange ∨ 3 < (byteAt r.msg 5).toNat ∨ (byteAt r.msg 5 = 2 ∧ 0x7FFF < wordAt r.msg 7) ∨
      (byteAt r.msg 5 = 3 ∧ ((byteAt r.msg 9).toNat < 3 ∨ 8 < (byteAt r.msg 9).toNat ∨
        2 ^ (byteAt r.msg 9).toNat ≤ (byteAt r.msg 10).toNat))) →
      exec .genSet s = .next { s with port := p.answerRequest r .badField [] })

/-- What a generator sends in a frame (R37-R39): OFF the idle byte, FIXED its byte, CODE eight bits of its code from its position on, most
significant bit first, PRBS the outputs of eight steps of its register, each the exclusive-or of stages 14 and 15, which enters stage 1. -/
def Obligations.GeneratorsSendTheirSequences : Prop :=
  ∀ (idle : Byte) (g : Generator),
    (g.kind = .off → g.step idle = { g with out := idle }) ∧
    (g.kind = .fixed → g.step idle = { g with out := g.fixed }) ∧
    (g.kind = .code → g.step idle = { g with out := (g.step idle).out, phase := (g.phase + 8) % g.len } ∧
      ∀ j, j < 8 → (g.step idle).out.getLsbD (7 - j) = g.value.getLsbD (g.len - 1 - (g.phase + j) % g.len)) ∧
    (g.kind = .prbs → ∃ reg : Nat → BitVec 15, reg 0 = g.reg ∧
      (∀ j, j < 8 → (∀ i, 1 ≤ i → i < 15 → (reg (j + 1)).getLsbD i = (reg j).getLsbD (i - 1)) ∧
        (reg (j + 1)).getLsbD 0 = ((reg j).getLsbD 13 ^^ (reg j).getLsbD 14) ∧
        (g.step idle).out.getLsbD (7 - j) = ((reg j).getLsbD 13 ^^ (reg j).getLsbD 14)) ∧
      g.step idle = { g with out := (g.step idle).out, reg := reg 8 })

/-- FRAME_BOUNDARY when no kept offer has room yet (R34-R37): a marked clearance empties the map and is reported, then every entry of the list is
written to the map, the list is emptied and reported with its outcomes, a kept offer has room from here on (03 R69), TOKEN entries give notices, the
clear-down counts tick, and the generators step; the bytes of the frame that ended are stored (R23) and each lane's transitions are noted (06 R109).
A verify unit presents its next token byte and counts its token frames (04 R72), and a watcher's frame belongs to an interval while its chain is armed
and not frozen (07 R125). The counted FSO pulses, the instant of the boundary and the freshness of a notice are the model's (log 29, log 8, log 21),
and so is that the frame end of a lane, a unit or a watcher waits for its own command (log 5). A DONE unit that has presented no token byte
presents the idle byte by log 39; a kept offer that has room already is taken first (log 12), which DeclinedClaimIsHeldAndTakenLater states. -/
def Obligations.FrameBoundaryAppliesTheList : Prop :=
  ∀ (rx : FrameIn) (s : State), s.phase = .run → (∀ kp, s.sw.kept = some kp → kp.room = false) → (s.sw.list.map (·.slot)).Nodup →
    FrameIn.wellFormed rx = true → ∃ t, exec (.frameBoundary rx) s = .next t ∧
      t = { s with
        sw := t.sw
        gens := t.gens
        ver := { s.ver with units := t.ver.units }
        sup := { s.sup with lanes := t.sup.lanes }
        wat := { s.wat with table := t.wat.table } } ∧
      t.sw = { s.sw with
        map := t.sw.map
        stored := t.sw.stored
        list := []
        kept := s.sw.kept.map fun kp => { kp with room := true }
        clearance := []
        cleared := s.sw.cleared ++ (if s.sw.clearance = [] then [] else [s.sw.clearance])
        reports := s.sw.reports ++ (if s.sw.list = [] then [] else [s.sw.list.map fun x => (x.slot, x.outcomes)])
        notices := (s.sw.notices.map fun n => { n with fresh := false }) ++ s.sw.list.flatMap Entry.notice
        counts := s.sw.counts.map ClearCount.tick
        idle := s.port.defaults.idle
        boundaryAt := s.sw.align.getD (s.sw.boundaryAt + 3072)
        align := none
        inFrame := true
        fso := s.sw.fso + 1 } ∧
      (∀ k, t.sw.entry k = match s.sw.list.find? fun x => decide (x.slot = k) with
        | some x => x.content
        | none => if s.sw.clearance = [] then s.sw.entry k else Content.idle) ∧
      (∀ k : Slot, s.sw.inFrame = true → t.sw.storedByte k = (rx.getD k.lane.val []).getD k.ts.val 0) ∧
      (s.sw.inFrame = false → t.sw.stored = s.sw.stored) ∧
      (∀ n : Fin 6, generatorOf t.gens n = (generatorOf s.gens n).step s.port.defaults.idle) ∧
      (∀ l : Fin 16, let bits := (rx.getD l.val []).flatMap bitsOf
        t.sup.lane l = { s.sup.lane l with
          lastBit := bits.getLastD (s.sup.lane l).lastBit
          ended := if s.sw.inFrame then some (transition (s.sup.lane l).lastBit bits) else none }) ∧
      (Tbl.wf VerifyUnit.idle s.ver.units = true → ∀ u : Fin 4,
        let x := s.ver.unit u
        let due := if s.sw.inFrame then (if x.st = .sending ∧ x.started = true ∧ 0 < x.count then some x.count else none) else x.due
        let shown (p : Nat) : Option Byte := x.circuit.map fun h => (token u h.num).getD (p % 8) 0
        (x.st = .idle ∨ (x.st = .sending ∧ x.started = false) → t.ver.unit u = { x with due := due, pos := none, shown := none }) ∧
        (x.st = .sending → x.started = true → t.ver.unit u = { x with
          due := due, pos := some (x.count % 8), shown := shown x.count, count := x.count + 1 }) ∧
        (∀ q, x.st = .done → x.pos = some q → t.ver.unit u = { x with due := due, pos := some ((q + 1) % 8), shown := shown (q + 1) }) ∧
        (x.st = .done → x.pos = none → t.ver.unit u = { x with due := due, shown := none })) ∧
      (Tbl.wf Watcher.initial s.wat.table = true → ∀ w,
        let x := s.wat.watcher w
        let head := (s.wat.watcher (s.wat.headOf w)).run
        t.wat.watcher w = { x with run := { x.run with
          due := if s.sw.inFrame then x.run.inFrame && decide (head.pos < 800) else x.run.due
          inFrame := head.st.armedHead && !head.frozen } })

/-- What an outbound slot carries in a frame, by its drive (R29, R30): the idle byte in force, the hold byte, the release byte, the token byte of its
unit, the byte received on its inbound slot or the conditioning byte while that lane is not UP, or the byte of its generator. -/
def Obligations.OutboundSlotCarriesWhatItsDriveGives : Prop :=
  ∀ (s : State) (k : Slot), s.phase = .run → s.sw.inFrame = true → s.oeHigh = false →
    let e := s.sw.entry k
    (e.drive = .idle → s.lout k = some s.sw.idle) ∧
    (e.drive = .hold → s.lout k = some e.holdB) ∧
    (e.drive = .release → s.lout k = some e.rel) ∧
    (∀ u, e.drive = .token → e.unit = some u → s.lout k = some ((s.ver.unit u).shown.getD s.sw.idle)) ∧
    (∀ i : Slot, e.drive = .source → e.source = some (.inbound i) → (s.sup.lane i.lane).st = .up →
      s.lout k = some ((s.sw.stored.getD i.lane.val []).getD i.ts.val 0)) ∧
    (∀ i : Slot, e.drive = .source → e.source = some (.inbound i) → (s.sup.lane i.lane).st ≠ .up → s.lout k = some e.cond) ∧
    (∀ n : Fin 6, e.drive = .source → e.source = some (.gen n) → s.lout k = some (generatorOf s.gens n).out)

/-- Frame timing in LOCKED (R25): an FSYNC within a period of the expected position clears the missed count and places the boundary there; one
that is near neither boundary is disregarded; a missed position counts, and the eighth in a row unlocks and raises FRAME_UNLOCKED.
Frame timing in FREERUN (R26): an FSYNC at the candidate position lengthens the run, any other begins a run of 1, and the candidate moves a
frame on; the fourth of a run locks and raises FRAME_LOCKED. At the internal boundary's instant, taken or coming, the frame in progress ends normally;
at any other the frame is cut short there: it is one frame like any other, but that inbound slots not wholly received keep their bytes and the lanes
are judged on the bits received. A candidate position that passes ends the run. That an FSYNC in LOCKED at the boundary just taken or one period after it counts
as that boundary's, clears the missed count and moves that boundary's instant is the model's reading (log 36); which bits of a cut frame count as
received is the model's (log 37). -/
def Obligations.FrameTimingLocksAndUnlocks : Prop :=
  ((∀ (s : State) (t : Nat), s.phase = .run → s.sw.locked = true → near t (s.sw.boundaryAt + 3072) = true →
    exec (.fsyncInLocked t) s = .next { s with sw := { s.sw with missed := 0, align := some t } }) ∧
  (∀ (s : State) (t : Nat), s.phase = .run → s.sw.locked = true → near t (s.sw.boundaryAt + 3072) = false → near t s.sw.boundaryAt = false →
    exec (.fsyncInLocked t) s = .next s) ∧
  (∀ (s : State) (t : Nat), s.phase = .run → s.sw.locked = true → s.sw.boundaryAt ≤ t → t ≤ s.sw.boundaryAt + 1 →
    exec (.fsyncInLocked t) s = .next { s with sw := { s.sw with missed := 0, boundaryAt := t } }) ∧
  (∀ s : State, s.phase = .run → s.sw.locked = true → s.sw.missed < 7 →
    exec .fsyncMissed s = .next { s with sw := { s.sw with missed := s.sw.missed + 1 } }) ∧
  ∀ s : State, s.phase = .run → s.sw.locked = true → 7 ≤ s.sw.missed → exec .fsyncMissed s = .next { s with
    sw := { s.sw with locked := false, missed := 0, cand := none, run := 0 }
    att := { s.att with raises := s.att.raises ++ [(.switch, [(0, .frameUnlocked)])] } }) ∧
  ((∀ (s : State) (t : Nat) (rx : FrameIn), s.phase = .run → s.sw.locked = false →
    let run := match s.sw.cand with | some c => if near t c then s.sw.run + 1 else 1 | none => 1
    (run < 4 → exec (.fsyncInFreerun t rx) s = .next { s with sw := { s.sw with run := run, cand := some (t + 3072) } }) ∧
    let locked : State := { s with
      sw := { s.sw with locked := true, run := 0, cand := none }
      att := { s.att with raises := s.att.raises ++ [(.switch, [(0, .frameLocked)])] } }
    let atFsync : State := { locked with sw := { locked.sw with align := some t } }
    (4 ≤ run →
      (t = s.sw.boundaryAt → exec (.fsyncInFreerun t rx) s = .next locked) ∧
      (t = s.sw.boundaryAt + 3072 → exec (.fsyncInFreerun t rx) s = exec (.frameBoundary rx) atFsync) ∧
      (s.sw.boundaryAt < t → t < s.sw.boundaryAt + 3072 → ∃ u, exec (.fsyncInFreerun t rx) s = .next u ∧
        let n := (t - s.sw.boundaryAt) / 8
        (∃ v, exec (.frameBoundary rx) atFsync = .next v ∧
          u = { v with sw := { v.sw with stored := u.sw.stored }, sup := { v.sup with lanes := u.sup.lanes } }) ∧
        (FrameIn.wellFormed rx = true → s.sw.inFrame = true → ∀ k : Slot, u.sw.storedByte k =
          if 8 * k.ts.val + 8 ≤ n then (rx.getD k.lane.val []).getD k.ts.val 0 else s.sw.storedByte k) ∧
        (s.sw.inFrame = false → u.sw.stored = s.sw.stored) ∧
        ∀ l : Fin 16, let bits := ((rx.getD l.val []).flatMap bitsOf).take n
          u.sup.lane l = { s.sup.lane l with
            lastBit := bits.getLastD (s.sup.lane l).lastBit
            ended := if s.sw.inFrame then some (transition (s.sup.lane l).lastBit bits) else none }))) ∧
  ∀ (s : State) (c : Nat), s.phase = .run → s.sw.locked = false → s.sw.cand = some c →
    exec .candidatePositionPassed s = .next { s with sw := { s.sw with run := 0, cand := none } })

/-- The first clear-down count that has run out is handed to the manager as a clear-down end (05 R97); the engine's clearance order discards the
list, a kept offer that has no room yet with the held claim, and the clear-down counts, and marks a clearance (R36, 03 R70). That counts which have
run out are handed first is the model's order (log 35), and so is that of counts which run out at one boundary the first ordered is handed first
(log 40). With a kept offer that a boundary has made room for, the held claim is taken first, as at its own command, and the clearance discards what it
offered with the rest (03 R70); that it is taken then at the latest is the model's (log 12). -/
def Obligations.ClearDownEndsAndClearanceOrders : Prop :=
  (∀ (s : State) (c : ClearCount) (pre post : List ClearCount), s.phase = .run → s.sw.counts = pre ++ c :: post →
    (∀ x ∈ pre, x.started = true → x.done < x.n) → c.started = true → c.n ≤ c.done →
    exec .clearDownRunOut s = .next { s with sw := { s.sw with counts := pre ++ post, ends := s.sw.ends ++ [c.h] } }) ∧
  (∀ (s : State) (id : Nat) (rest : List Nat), s.phase = .run → s.port.toSwitch = id :: rest → (∀ kp, s.sw.kept = some kp → kp.room = false) →
    (∀ x ∈ s.sw.counts, x.started = true → x.done < x.n) → exec .clearanceOrder s = .next { s with
      port := { s.port with toSwitch := rest }
      mgr := { s.mgr with held := none }
      sw := { s.sw with list := [], kept := none, counts := [], clearance := s.sw.clearance ++ [.engine id] } }) ∧
  ∀ (s : State) (id : Nat) (rest : List Nat), s.phase = .run → s.port.toSwitch = id :: rest → ∃ t,
    exec .heldClaimTaken { s with port := { s.port with toSwitch := rest } } = .next t ∧ exec .clearanceOrder s = .next { t with
      mgr := { t.mgr with held := none }
      sw := { t.sw with
        list := []
        kept := none
        ends := t.sw.ends ++ (t.sw.counts.filter fun x => x.started && decide (x.n ≤ x.done)).map (·.h)
        counts := []
        clearance := t.sw.clearance ++ [.engine id] } }

/-! ### Lanes (06) -/

/-- LANE_SET (R114) writes tLOS and tRSQ of a lane and keeps its state and counts; LANE_QUERY (R115) gives one lane, or for FFh the states of all
sixteen; fields out of range are BAD_FIELD; a query changes nothing but its slot. -/
def Obligations.LaneSetAndLaneQuery : Prop :=
  (∀ (s : State) (r : Request) (p : Port) (l : Fin 16), s.Takes .supervisor 0x18 r p → byteAt r.msg 1 = 3 → (byteAt r.msg 4).toNat = l.val →
    8 ≤ (byteAt r.msg 5).toNat → 1 ≤ (byteAt r.msg 6).toNat → ∃ t, exec .laneSet s = .next t ∧
      t = { s with
        sup := { s.sup with lanes := t.sup.lanes }
        port := p.answerRequest r .ok [byteAt r.msg 4, byteAt r.msg 5, byteAt r.msg 6, (s.sup.lane l).st.toByte] } ∧
      ∀ m, t.sup.lane m = if m = l.val then { s.sup.lane m with tlos := (byteAt r.msg 5).toNat, trsq := (byteAt r.msg 6).toNat }
        else s.sup.lane m) ∧
  (∀ (s : State) (r : Request) (p : Port), s.Takes .supervisor 0x18 r p → byteAt r.msg 1 = 3 →
    (16 ≤ (byteAt r.msg 4).toNat ∨ (byteAt r.msg 5).toNat < 8 ∨ byteAt r.msg 6 = 0) →
    exec .laneSet s = .next { s with port := p.answerRequest r .badField [] }) ∧
  (∀ (s : State) (r : Request) (p : Port) (l : Fin 16), s.Takes .supervisor 0x19 r p → byteAt r.msg 1 = 1 → (byteAt r.msg 4).toNat = l.val →
    exec .laneQuery s = .next { s with
      port := p.answerRequest r .ok ([byteAt r.msg 4, (s.sup.lane l).st.toByte, BitVec.ofNat 8 (s.sup.lane l).tlos,
        BitVec.ofNat 8 (s.sup.lane l).trsq, BitVec.ofNat 8 (s.sup.lane l).absent] ++ bytes16 (s.sup.lane l).presence) }) ∧
  ∀ (s : State) (r : Request) (p : Port), s.Takes .supervisor 0x19 r p → byteAt r.msg 1 = 1 →
    (byteAt r.msg 4 = 0xFF → exec .laneQuery s = .next { s with
      port := p.answerRequest r .ok ((List.range 16).map fun l => (s.sup.lane l).st.toByte) }) ∧
    (16 ≤ (byteAt r.msg 4).toNat → byteAt r.msg 4 ≠ 0xFF → exec .laneQuery s = .next { s with port := p.answerRequest r .badField [] })

/-- The judgement of a frame of a lane (R110-R112): UP counts absent frames to tLOS, LOST enters RESTORING at a present frame, RESTORING counts
present frames to 80 tRSQ and falls back at an absent one; a change of state is reported to the three blocks, and LOST and UP are raised. That the frame's end
waits to be judged is the model's (log 5). -/
def Obligations.LaneFrameJudgement : Prop :=
  ∀ (s : State) (l : Fin 16) (present : Bool), s.phase = .run → (s.sup.lane l).ended = some present →
    let x := s.sup.lane l
    let becomes (y : Lane) (cause : List Cause) : Prop := ∃ t, exec (.laneFrameJudgement l) s = .next t ∧
      t = { s with
        sup := t.sup
        att := { s.att with raises := s.att.raises ++ cause.map fun c => (.supervisor, [(1 + l.val, c)]) } } ∧
      (∀ m, t.sup.lane m = if m = l.val then { y with ended := none } else s.sup.lane m) ∧
      t.sup.toManager = s.sup.toManager ++ (if y.st = x.st then [] else [⟨l, y.st⟩]) ∧
      t.sup.toWatchers = s.sup.toWatchers ++ (if y.st = x.st then [] else [⟨l, y.st⟩]) ∧
      t.sup.toVerifier = s.sup.toVerifier ++ (if y.st = x.st then [] else [⟨l, y.st⟩])
    (x.st = .up → present = true → becomes { x with absent := 0 } []) ∧
    (x.st = .up → present = false → x.absent + 1 < x.tlos → becomes { x with absent := x.absent + 1 } []) ∧
    (x.st = .up → present = false → x.tlos ≤ x.absent + 1 → becomes { x with st := .lost, absent := 0 } [.lost]) ∧
    (x.st = .lost → present = true → becomes { x with st := .restoring, presence := 1 } []) ∧
    (x.st = .lost → present = false → becomes x []) ∧
    (x.st = .restoring → present = true → x.presence + 1 < x.trsq * 80 → becomes { x with presence := x.presence + 1 } []) ∧
    (x.st = .restoring → present = true → x.trsq * 80 ≤ x.presence + 1 → becomes { x with st := .up, absent := 0, presence := 0 } [.up]) ∧
    (x.st = .restoring → present = false → becomes { x with st := .lost, presence := 0 } [.lost])

/-- The manager's lane-change claim (R113, R116, R117): its view takes the lane's state, and when UP has changed every record fed from the lane
takes the fault, those ACTIVE, HELD or RELEASING whose fault changes raising SOURCE_FAULT or SOURCE_OK in one raise; no entry is offered. -/
def Obligations.LaneChangeClaimMovesTheSourceFaults : Prop :=
  ∀ (s : State) (l : Fin 16) (st : LaneState) (pre post : List LaneReport), s.Ready → s.sup.toManager = pre ++ ⟨l, st⟩ :: post →
    (∀ x ∈ pre, x.lane ≠ l) →
    let up := decide (st = .up)
    let same := decide (viewUp s.mgr.view l = up)
    let cause (n : Nat) : Option (Nat × Cause) :=
      if (s.recordOf n).st = .active ∨ (s.recordOf n).st = .held ∨ (s.recordOf n).st = .releasing then
        if (s.recordOf n).fault = false ∧ up = false then some (81 + n, .sourceFault)
        else if (s.recordOf n).fault = true ∧ up = true then some (81 + n, .sourceOk) else none
      else none
    let raises := if same then [] else (firstOf (s.mgr.fedFrom l)).filterMap cause
    ∃ t, exec (.laneChangeClaim l) s = .next t ∧
      t = { s with
        sup := { s.sup with toManager := pre ++ post }
        mgr := { s.mgr with view := t.mgr.view, recs := t.mgr.recs }
        att := { s.att with raises := s.att.raises ++ (if raises = [] then [] else [(.manager, raises)]) } } ∧
      (∀ m, viewOf t.mgr.view m = if m = l then st else viewOf s.mgr.view m) ∧
      ∀ n, t.recordOf n = if same = false ∧ n ∈ s.mgr.fedFrom l then { s.recordOf n with fault := !up } else s.recordOf n

/-! ### Watchers (07) -/

/-- What WATCH_SET reads of its message (R139, 10.8): the fields in their places, each in its range, and it reads every such message. The head of a
watcher's chain and the chain's members (R124). What the answers hold, byte by byte (10.8, R144).
WATCH_SET (R140) writes the configuration of a DISARMED watcher whose predecessor, if it joins its chain, is DISARMED, clears its
confirmations and answers the configuration; a watcher not DISARMED, or an armed chain to join, is STATE_CONFLICT; WATCH_QUERY (R144) changes
nothing but its slot; a field out of range is BAD_FIELD. That a mode or chain flag byte above 01h is out of range is log 25's reading, and what the
answers hold in absent fields is log 15's: 00h in every byte, the linked handle of WATCH_SET's answer that the action does not use (00000000h) among them. -/
def Obligations.WatchSetAndWatchQuery : Prop :=
  (∀ (m : List Byte) (w : Fin 64) (c : WatchConfig), parseWatch m = some (w, c) ↔
    (byteAt m 4).toNat = w.val ∧ c.configured = true ∧ (byteAt m 5).toNat = c.target.lane.val ∧ (byteAt m 6).toNat = c.target.ts.val ∧
    (byteAt m 7 = 0 → c.signature = false ∧ c.sig = none ∧ c.code = some ⟨(byteAt m 8).toNat, byteAt m 9⟩ ∧
      3 ≤ (byteAt m 8).toNat ∧ (byteAt m 8).toNat ≤ 8 ∧ (byteAt m 9).toNat < 2 ^ (byteAt m 8).toNat) ∧
    (byteAt m 7 ≠ 0 → byteAt m 7 = 1 ∧ c.signature = true ∧ c.code = none ∧ ∃ g, c.sig = some g ∧ g.window = (byteAt m 10).toNat ∧
      1 ≤ g.window ∧ g.window ≤ 32 ∧ g.mask.toNat = wordAt m 11 * 65536 + wordAt m 13 ∧ g.mask ≠ 0 ∧ g.mask.toNat < 2 ^ g.window ∧
      g.crc.toNat = wordAt m 15) ∧
    c.tolerance = (byteAt m 17).toNat ∧ c.persistence = (byteAt m 18).toNat ∧ 1 ≤ c.persistence ∧ c.dropout = (byteAt m 19).toNat ∧
    1 ≤ c.dropout ∧ byteAt m 20 = (if c.auto then 1 else 0) ∧ byteAt m 21 = c.action.toByte ∧ byteAt m 22 = (if c.chain then 1 else 0) ∧
    (c.chain = true → w ≠ 0) ∧
    (c.action = .accessUp → c.linked = none ∧ ∃ f, c.up = some f ∧ f.partner = (byteAt m 23).toNat ∧ f.partner < 64 ∧ f.partner ≠ w.val ∧
      f.lease = wordAt m 28 ∧ (wordAt m 30 = 0xFFFF → f.loop = c.target) ∧
      (wordAt m 30 ≠ 0xFFFF → (byteAt m 30).toNat = f.loop.lane.val ∧ (byteAt m 31).toNat = f.loop.ts.val)) ∧
    (c.action = .releaseLinked ∨ c.action = .holdLinked → c.up = none ∧
      c.linked = some ⟨wordAt m 24, BitVec.ofNat 16 (wordAt m 26)⟩ ∧ wordAt m 24 < 480) ∧
    (c.action = .none ∨ c.action = .accessDown → c.up = none ∧ c.linked = none)) ∧
  ((∀ (s : State) (r : Request) (p : Port) (w : Fin 64) (c : WatchConfig), s.Takes .watchers 0x20 r p → byteAt r.msg 1 = 28 →
    parseWatch r.msg = some (w, c) →
    let clear := (s.wat.watcher w).run.st = .disarmed ∧ (c.chain = true → (s.wat.watcher (w - 1)).run.st = .disarmed)
    (clear → ∃ t, exec .watchSet s = .next t ∧
      t = { s with wat := { s.wat with table := t.wat.table }, port := p.answerRequest r .ok (watchBytes w c) } ∧
      s.watchersBecome t [w.val] fun _ x => ⟨c, { x.run with confirmations := 0 }⟩) ∧
    (¬clear → exec .watchSet s = .next { s with port := p.answerRequest r .stateConflict [] })) ∧
  (∀ (s : State) (r : Request) (p : Port), s.Takes .watchers 0x20 r p → byteAt r.msg 1 = 28 → parseWatch r.msg = none →
    exec .watchSet s = .next { s with port := p.answerRequest r .badField [] }) ∧
  ∀ (s : State) (r : Request) (p : Port), s.Takes .watchers 0x23 r p → byteAt r.msg 1 = 1 →
    ((byteAt r.msg 4).toNat < 64 → exec .watchQuery s = .next { s with
      port := p.answerRequest r .ok (s.wat.queryBytes (byteAt r.msg 4).toNat) }) ∧
    (64 ≤ (byteAt r.msg 4).toNat → exec .watchQuery s = .next { s with port := p.answerRequest r .badField [] })) ∧
  (∀ (u : WatcherUnit) (w : Nat), u.headOf w ≤ w ∧ (u.headOf w ≠ 0 → (u.watcher (u.headOf w)).cfg.chain = false) ∧
    (∀ m, u.headOf w < m → m ≤ w → (u.watcher m).cfg.chain = true) ∧ (u.members w).Nodup ∧
    ∀ m, m ∈ u.members w ↔ m = w ∨ (w < m ∧ m < 64 ∧ ∀ j, w < j → j ≤ m → (u.watcher j).cfg.chain = true)) ∧
  (∀ (w : Fin 64) (c : WatchConfig), let b := watchBytes w c
    b.length = 28 ∧ resultIs b 4 1 w.val ∧ resultIsSlot b 5 c.target ∧ resultIs b 7 1 (if c.signature then 1 else 0) ∧
    (∀ x, c.code = some x → resultIs b 8 1 x.len ∧ resultIs b 9 1 x.value.toNat) ∧ (c.code = none → resultIs b 8 2 0) ∧
    (∀ g, c.sig = some g → resultIs b 10 1 g.window ∧ resultIs b 11 4 g.mask.toNat ∧ resultIs b 15 2 g.crc.toNat) ∧
    (c.sig = none → resultIs b 10 7 0) ∧ resultIs b 17 1 c.tolerance ∧ resultIs b 18 1 c.persistence ∧ resultIs b 19 1 c.dropout ∧
    resultIs b 20 1 (if c.auto then 1 else 0) ∧ resultIs b 21 1 c.action.toByte.toNat ∧ resultIs b 22 1 (if c.chain then 1 else 0) ∧
    (∀ f, c.up = some f → resultIs b 23 1 f.partner ∧ resultIs b 28 2 f.lease ∧ resultIsSlot b 30 f.loop) ∧
    (c.up = none → resultIs b 23 1 0 ∧ resultIs b 28 2 0 ∧ resultIs b 30 2 0xFFFF) ∧
    (∀ h, c.linked = some h → resultIs b 24 2 h.num ∧ resultIs b 26 2 h.gen.toNat) ∧ (c.linked = none → resultIs b 24 4 0)) ∧
  (∀ (u : WatcherUnit) (w : Fin 64), let b := u.queryBytes w
    let c := (u.watcher w).cfg
    let own := (u.watcher w).run
    let head := (u.watcher (u.headOf w)).run
    b.length = 28 ∧ resultIsSlot b 4 c.target ∧
    resultIs b 6 1 ((if c.configured then 128 else 0) + (if c.signature then 64 else 0) + (if c.auto then 32 else 0) + (if c.chain then 16 else 0) +
      c.action.toByte.toNat) ∧
    (∀ g, c.sig = some g → resultIs b 7 1 g.window ∧ resultIs b 8 4 g.mask.toNat ∧ resultIs b 12 2 g.crc.toNat) ∧
    (∀ x, c.sig = none → c.code = some x → resultIs b 7 1 x.len ∧ resultIs b 8 1 x.value.toNat ∧ resultIs b 9 5 0) ∧
    (c.sig = none → c.code = none → resultIs b 7 7 0) ∧
    resultIs b 14 1 c.tolerance ∧ resultIs b 15 1 c.persistence ∧ resultIs b 16 1 c.dropout ∧
    (∀ f, c.up = some f → resultIs b 17 1 f.partner ∧ resultIs b 18 2 f.lease ∧ resultIsSlot b 20 f.loop) ∧
    (∀ h, c.up = none → c.linked = some h → resultIs b 17 2 h.num ∧ resultIs b 19 2 h.gen.toNat ∧ resultIs b 21 1 0) ∧
    (c.up = none → c.linked = none → resultIs b 17 5 0) ∧
    resultIs b 22 1 (own.st.toByte.toNat * 32 + (if head.frozen then 16 else 0) + own.phase.getD 15) ∧ resultIs b 23 1 (u.headOf w) ∧
    resultIs b 24 1 (u.members (u.headOf w)).length ∧ resultIs b 25 2 head.pos ∧ resultIs b 27 2 own.misses ∧
    resultIs b 29 1 (if head.st = .candidate then head.present else if head.st = .clearing then head.absent else 0) ∧
    resultIs b 30 1 head.confirmations ∧ (∀ h, head.link = some h → resultIs b 31 1 (h.num - 480)) ∧
    (∀ h, head.link = none → head.served = some h → resultIs b 31 1 (h.num - 480)) ∧
    (head.link = none → head.served = none → resultIs b 31 1 0xFF)) ∧
  [Action.none, .accessUp, .accessDown, .releaseLinked, .holdLinked].map (fun a => a.toByte.toNat) = [0, 1, 2, 3, 4] ∧
  [WatchState.disarmed, .armed, .candidate, .confirmed, .clearing, .linked].map (fun a => a.toByte.toNat) = [0, 1, 2, 3, 4, 5]

/-- WATCH_ARM (R142) takes the chain of a DISARMED head, every member configured and the head's action not ACCESS_DOWN, to ARMED and LINKED at the
starting values, frozen unless every member's lane is UP; WATCH_DISARM (R143) takes a chain to DISARMED, unless an access is linked to it or it
is an armed ACCESS_DOWN; confirmations and the linked test circuit are kept; a watcher that is no head is BAD_FIELD. -/
def Obligations.WatchArmAndWatchDisarm : Prop :=
  ∀ (s : State) (r : Request) (p : Port), byteAt r.msg 1 = 1 →
    let h := (byteAt r.msg 4).toNat
    let x := s.wat.watcher h
    let named := h < 64 ∧ x.cfg.chain = false
    let mayArm := x.run.st = .disarmed ∧ x.cfg.action ≠ .accessDown ∧ ∀ m ∈ s.wat.members h, (s.wat.watcher m).cfg.configured = true
    let mayDisarm := ¬(x.cfg.action = .accessUp ∧ x.run.link.isSome = true) ∧ x.cfg.action ≠ .accessDown
    (s.Takes .watchers 0x21 r p →
      (named → mayArm → ∃ t, exec .watchArm s = .next t ∧
        t = { s with
          wat := { s.wat with table := t.wat.table }
          port := p.answerRequest r .ok [byteAt r.msg 4, 1, if s.wat.lanesUp h then 0 else 1, BitVec.ofNat 8 (s.wat.members h).length] } ∧
        s.watchersBecome t (s.wat.members h) fun m y => { y with run := { WatchRun.initial with
          confirmations := y.run.confirmations
          link := y.run.link
          st := if m = h then .armed else .linked
          frozen := decide (m = h) && !s.wat.lanesUp h } }) ∧
      (named → ¬mayArm → exec .watchArm s = .next { s with port := p.answerRequest r .stateConflict [] }) ∧
      (¬named → exec .watchArm s = .next { s with port := p.answerRequest r .badField [] })) ∧
    (s.Takes .watchers 0x22 r p →
      (named → x.run.st = .disarmed → exec .watchDisarm s = .next { s with port := p.answerRequest r .ok [byteAt r.msg 4, 0, 0] }) ∧
      (named → x.run.st ≠ .disarmed → mayDisarm → ∃ t, exec .watchDisarm s = .next t ∧
        t = { s with
          wat := { s.wat with table := t.wat.table }
          port := p.answerRequest r .ok [byteAt r.msg 4, x.run.st.toByte, 0] } ∧
        s.watchersBecome t (s.wat.members h) fun _ y => { y with run := { WatchRun.initial with
          confirmations := y.run.confirmations, link := y.run.link } }) ∧
      (named → x.run.st ≠ .disarmed → ¬mayDisarm → exec .watchDisarm s = .next { s with port := p.answerRequest r .stateConflict [] }) ∧
      (¬named → exec .watchDisarm s = .next { s with port := p.answerRequest r .badField [] }))

/-- A watcher's sample of the byte b of its target slot (R125-R127). REPEAT: the held phase, or with none the lowest phase of the code that fits,
moves on 8 bits; no fit is a miss and no phase is held. A code of length 8 has one phase: every frame is judged against its value. SIGNATURE: a selected window frame enters the CRC; at the window's end a CRC other than
the one configured is a miss, and window and CRC begin again. The head's sample moves the interval on. That a frame's
sample waits to be taken is the model's (log 5), and so is that the position after the 800th sample is 800, until the interval ends (log 42). -/
def Obligations.WatcherSampleJudgesTheByte : Prop :=
  (∀ (c : RepeatCode) (p : Nat), (c.len = 8 → c.phaseByte p = c.value) ∧ (c.len ≠ 8 → c.phaseByte p = codeByte c.len c.value p)) ∧
  ∀ (s : State) (w : Fin 64), s.phase = .run → (s.wat.watcher w).run.due = true →
    let x := s.wat.watcher w
    let b := s.sw.storedByte x.cfg.target
    let base : WatchRun := { x.run with due := false, pos := if s.wat.headOf w = w.val then x.run.pos + 1 else x.run.pos }
    let becomes (r : WatchRun) : Prop := ∃ t, exec (.watcherSample w) s = .next t ∧
      t = { s with wat := { s.wat with table := t.wat.table } } ∧ s.watchersBecome t [w.val] fun _ y => { y with run := r }
    (∀ c q, x.cfg.code = some c → x.cfg.sig = none → (x.run.phase = some q ∨ (x.run.phase = none ∧ q < c.len ∧
        ∀ j, j < q → c.phaseByte j ≠ b)) → c.phaseByte q = b →
      becomes { base with phase := some ((q + 8) % c.len) }) ∧
    (∀ c, x.cfg.code = some c → x.cfg.sig = none → ((∃ q, x.run.phase = some q ∧ c.phaseByte q ≠ b) ∨ (x.run.phase = none ∧
        ∀ j, j < c.len → c.phaseByte j ≠ b)) →
      becomes { base with phase := none, misses := x.run.misses + 1 }) ∧
    ∀ g, x.cfg.sig = some g →
      let crc := if g.mask.getLsbD x.run.wpos then crcByte x.run.crc b else x.run.crc
      (x.run.wpos + 1 < g.window → becomes { base with crc := crc, wpos := x.run.wpos + 1 }) ∧
      (g.window ≤ x.run.wpos + 1 → crc = g.crc → becomes { base with crc := 0xFFFF, wpos := 0 }) ∧
      (g.window ≤ x.run.wpos + 1 → crc ≠ g.crc → becomes { base with crc := 0xFFFF, wpos := 0, misses := x.run.misses + 1 })

/-- The CRC of a SIGNATURE (R128): CRC-16 with polynomial 1021h, each byte most significant bit first; the nine ASCII digits from FFFFh give
29B1h. -/
def Obligations.SignatureCrcIsCrc16 : Prop :=
  (∀ (reg : BitVec 16) (x : Bool), crcBit reg x = (reg <<< 1) ^^^ (if reg.getLsbD 15 ^^ x then 0x1021 else 0)) ∧
  (∀ (reg : BitVec 16) (b : Byte), crcByte reg b = [7, 6, 5, 4, 3, 2, 1, 0].foldl (fun r i => crcBit r (b.getLsbD i)) reg) ∧
  ([0x31, 0x32, 0x33, 0x34, 0x35, 0x36, 0x37, 0x38, 0x39] : List Byte).foldl crcByte 0xFFFF = 0x29B1

/-- When an interval is over (R125): the head is armed and not frozen, 800 frames are sampled, and no member's sample is still due; INTERVAL_END does nothing
before that. That the samples and the interval's end wait for their commands is the model's (log 5), and so is that the position stands at 800 between
the last sample and the end (log 42).
The end of an interval of an armed chain that is not frozen (R129-R133, R136): present when no member's misses exceed its tolerance. Without a
linked test circuit the head moves between ARMED, CANDIDATE, CONFIRMED and CLEARING by its persistence and dropout; a confirmation counts and
raises CONFIRMED, a clearing raises CLEARED, and in AUTOMATIC mode either hands the claim of the head's action: RELEASE_LINKED at a
confirmation, HOLD_LINKED at both, ACCESS_DOWN the end of the access it serves, and ACCESS_UP an access claim, or a suppression claim when the outbound
pair of its target carries a generator whose access-request flag is set (R136, 08 R149, 02 R41). With one, only a fresh interval begins. -/
def Obligations.IntervalEndMovesTheHead : Prop :=
  (∀ (u : WatcherUnit) (h : Nat), u.intervalOver h = true ↔
    ((u.watcher h).run.st = .armed ∨ (u.watcher h).run.st = .candidate ∨ (u.watcher h).run.st = .confirmed ∨ (u.watcher h).run.st = .clearing) ∧
      (u.watcher h).run.frozen = false ∧ 800 ≤ (u.watcher h).run.pos ∧ ∀ m ∈ u.members h, (u.watcher m).run.due = false) ∧
  (∀ (s : State) (h : Fin 64), s.wat.intervalOver h = false → exec (.intervalEnd h) s = .next s) ∧
  ∀ (s : State) (h : Fin 64), s.phase = .run → s.wat.intervalOver h = true →
    let x := s.wat.watcher h
    let present := (s.wat.members h).all fun m => decide ((s.wat.watcher m).run.misses ≤ (s.wat.watcher m).cfg.tolerance)
    let becomes (f : WatchRun → WatchRun) (causes : List Cause) (claims : List ActionClaim) : Prop :=
      ∃ t, exec (.intervalEnd h) s = .next t ∧
        t = { s with
          wat := { s.wat with table := t.wat.table, claims := s.wat.claims ++ (if x.cfg.auto then claims else []) }
          att := { s.att with raises := s.att.raises ++ causes.map fun c => (.watcherUnit, [(17 + h.val, c)]) } } ∧
        s.watchersBecome t (s.wat.members h) fun m y =>
          let fresh := { y.run with pos := 0, misses := 0, wpos := 0, crc := 0xFFFF }
          { y with run := if m = h.val then f fresh else fresh }
    let pair := s.sw.entry x.cfg.target
    let suppressed : Bool := decide (pair.drive = .source ∧ ∃ n : Fin 6, pair.source = some (.gen n) ∧ (generatorOf s.gens n).flag = true)
    let confirmation : List ActionClaim := match x.cfg.action with
      | .none => []
      | .releaseLinked => x.cfg.linked.toList.map fun c => .releaseLinked h c
      | .holdLinked => x.cfg.linked.toList.map fun c => .holdLinked h c true
      | .accessUp => if suppressed then [.suppression h]
        else x.cfg.up.toList.map fun f => .access ⟨h, x.cfg.target, f.loop, f.partner, f.lease, s.wat.resets⟩
      | .accessDown => [.endOfAccess h x.run.served]
    let clearing : List ActionClaim := match x.cfg.action with
      | .none => []
      | .releaseLinked => []
      | .holdLinked => x.cfg.linked.toList.map fun c => .holdLinked h c false
      | .accessUp => []
      | .accessDown => []
    let confirm (r : WatchRun) : WatchRun := { r with st := .confirmed, present := 0, absent := 0, confirmations := min 255 (r.confirmations + 1) }
    let clear (r : WatchRun) : WatchRun := { r with st := .armed, present := 0, absent := 0 }
    (x.run.link.isSome = true → becomes id [] []) ∧
    (x.run.link = none →
      (x.run.st = .armed → present = false → becomes id [] []) ∧
      (x.run.st = .armed → present = true → 1 < x.cfg.persistence → becomes (fun r => { r with st := .candidate, present := 1 }) [] []) ∧
      (x.run.st = .armed → present = true → x.cfg.persistence ≤ 1 → becomes confirm [.confirmed] confirmation) ∧
      (x.run.st = .candidate → present = false → becomes (fun r => { r with st := .armed, present := 0 }) [] []) ∧
      (x.run.st = .candidate → present = true → x.run.present + 1 < x.cfg.persistence →
        becomes (fun r => { r with present := r.present + 1 }) [] []) ∧
      (x.run.st = .candidate → present = true → x.cfg.persistence ≤ x.run.present + 1 →
        becomes confirm [.confirmed] confirmation) ∧
      (x.run.st = .confirmed → present = true → becomes id [] []) ∧
      (x.run.st = .confirmed → present = false → 1 < x.cfg.dropout → becomes (fun r => { r with st := .clearing, absent := 1 }) [] []) ∧
      (x.run.st = .confirmed → present = false → x.cfg.dropout ≤ 1 → becomes clear [.cleared] clearing) ∧
      (x.run.st = .clearing → present = true → becomes (fun r => { r with st := .confirmed, absent := 0 }) [] []) ∧
      (x.run.st = .clearing → present = false → x.run.absent + 1 < x.cfg.dropout →
        becomes (fun r => { r with absent := r.absent + 1 }) [] []) ∧
      (x.run.st = .clearing → present = false → x.cfg.dropout ≤ x.run.absent + 1 → becomes clear [.cleared] clearing))

/-- A lane-change report at the watcher unit (06 R119, R134, R135): its view takes the state; an armed chain with a member on the lane freezes when a
member's lane is not UP, a CANDIDATE going back to ARMED, and thaws when every member's is; a fresh interval begins either way. -/
def Obligations.LaneChangeFreezesAndThawsChains : Prop :=
  ∀ (s : State) (l : Fin 16) (st : LaneState) (pre post : List LaneReport), s.phase = .run → s.sup.toWatchers = pre ++ ⟨l, st⟩ :: post →
    (∀ x ∈ pre, x.lane ≠ l) → (∀ w, (s.wat.watcher w).run.st.armedHead = true → (s.wat.watcher w).cfg.chain = false) →
    let view := setView s.wat.view l st
    let up (h : Nat) : Bool := (s.wat.members h).all fun m => viewUp view (s.wat.watcher m).cfg.target.lane
    let touched (h : Nat) : Prop := h < 64 ∧ (s.wat.watcher h).run.st.armedHead = true ∧
      ∃ m ∈ s.wat.members h, (s.wat.watcher m).cfg.target.lane = l
    ∃ t, exec (.watcherLaneChangeReport l) s = .next t ∧
      t = { s with
        sup := { s.sup with toWatchers := pre ++ post }
        wat := { s.wat with table := t.wat.table, view := view } } ∧
      (∀ h, touched h → ∀ m ∈ s.wat.members h,
        let r := (s.wat.watcher m).run
        let frozen := (s.wat.watcher h).run.frozen
        let still : WatchRun := { r with pos := 0, misses := 0, wpos := 0, crc := 0xFFFF, inFrame := false, due := false }
        let stop : WatchRun := { still with
          frozen := true
          st := if r.st = .candidate then .armed else r.st
          present := if r.st = .candidate then 0 else r.present }
        let go : WatchRun := { still with phase := none, frozen := if m = h then false else r.frozen }
        t.wat.watcher m = { s.wat.watcher m with
          run := if frozen = false ∧ up h = false then (if m = h then stop else still)
            else if frozen = true ∧ up h = true then go else r }) ∧
      ∀ m, (∀ h, touched h → m ∉ s.wat.members h) → t.wat.watcher m = s.wat.watcher m

/-- The manager's orders to the watcher unit (08 R157, R165). Arming: a down watcher that is a configured DISARMED head with action ACCESS_DOWN on the up
watcher's lane, every member of its chain configured, is armed for the access, any other raises REFUSED on the up watcher, and without the link nothing happens. Disarming: a down watcher armed for the access is disarmed. Return: an armed
head without a link goes back to ARMED with fresh counts, but an order from before a soft reset whose order the watcher unit has taken does nothing (R169); that
such an order is known by the number it carries of soft reset claims the manager had taken, and that any other acts on a head armed again since, are the model's
reading (log 45), and so is that a LINKED watcher stays as it is like a DISARMED one (log 24); that the order does not read the head's action, and keeps a served
access, is the model's choice (log 46).
The watcher unit's soft reset order (R147): every watcher DISARMED with its run state at its starting values, its configuration kept, and the
order acknowledged. -/
def Obligations.OrdersToTheWatcherUnit : Prop :=
  (∀ (s : State) (rest : List WatchOrder), s.phase = .run →
    let drop (t : State) : Prop := t = { s with wat := { s.wat with table := t.wat.table, orders := rest } }
    (∀ d w hd, s.wat.orders = .arm d w hd :: rest →
      (s.wat.watcher w).run.link = some hd →
      let x := s.wat.watcher d
      let fits := x.cfg.configured = true ∧ x.run.st = .disarmed ∧ x.cfg.chain = false ∧ x.cfg.action = .accessDown ∧
        x.cfg.target.lane = (s.wat.watcher w).cfg.target.lane ∧ ∀ m ∈ s.wat.members d, (s.wat.watcher m).cfg.configured = true
      (fits → ∃ t, exec .armingOrder s = .next t ∧ drop t ∧
        s.watchersBecome t (s.wat.members d) fun m y => { y with run := { WatchRun.initial with
          confirmations := y.run.confirmations
          link := y.run.link
          st := if m = d then .armed else .linked
          frozen := decide (m = d) && !s.wat.lanesUp d
          served := if m = d then some hd else none } }) ∧
      (¬fits → exec .armingOrder s = .next { s with
        wat := { s.wat with orders := rest }
        att := { s.att with raises := s.att.raises ++ [(.watcherUnit, [(17 + w, .refused)])] } })) ∧
    (∀ d w hd, s.wat.orders = .arm d w hd :: rest → (s.wat.watcher w).run.link ≠ some hd →
      exec .armingOrder s = .next { s with wat := { s.wat with orders := rest } }) ∧
    (∀ d hd, s.wat.orders = .disarm d hd :: rest →
      let mine := (s.wat.watcher d).run.st.armedHead = true ∧ (s.wat.watcher d).cfg.action = .accessDown ∧ (s.wat.watcher d).run.served = some hd
      (mine → ∃ t, exec .disarmingOrder s = .next t ∧ drop t ∧
        s.watchersBecome t (s.wat.members d) fun _ y => { y with run := { WatchRun.initial with
          confirmations := y.run.confirmations, link := y.run.link } }) ∧
      (¬mine → exec .disarmingOrder s = .next { s with wat := { s.wat with orders := rest } })) ∧
    ∀ w hd n, s.wat.orders = .giveBack w hd n :: rest →
      let mine := s.wat.resets ≤ n ∧ (s.wat.watcher w).run.st.armedHead = true ∧ (s.wat.watcher w).run.link = none
      (mine → ∃ t, exec .returnOrder s = .next t ∧ drop t ∧
        s.watchersBecome t (s.wat.members w) fun m y => { y with run := { WatchRun.initial with
          confirmations := y.run.confirmations
          link := y.run.link
          st := if m = w then .armed else y.run.st
          frozen := decide (m = w) && !s.wat.lanesUp w
          served := if m = w then y.run.served else none } }) ∧
      (¬mine → exec .returnOrder s = .next { s with wat := { s.wat with orders := rest } })) ∧
  (∀ (s : State) (id : Nat) (rest : List Nat), s.phase = .run → s.port.toWatchers = id :: rest → Tbl.wf Watcher.initial s.wat.table = true →
    ∃ t, exec .watcherSoftResetOrder s = .next t ∧
      t = { s with
        wat := { s.wat with table := t.wat.table, resets := s.wat.resets + 1 }
        port := { s.port with toWatchers := rest, acks := s.port.acks ++ [(.watcherUnit, id)] } } ∧
      ∀ w, t.wat.watcher w = { s.wat.watcher w with run := WatchRun.initial })

/-! ### Path verification (04) -/

/-- The token of unit u for record c (R73), with the manual's example, and what four whole repetitions of it are (R80). -/
def Obligations.TokenIsEightBytes : Prop :=
  (∀ (u : Fin 4) (c : Nat), c < 512 → ∃ hi lo : Byte, hi.toNat * 256 + lo.toNat = c ∧
    token u c = [0x7E, BitVec.ofNat 8 u.val, hi, lo, ~~~(BitVec.ofNat 8 u.val), ~~~hi, ~~~lo, 0x81]) ∧
  token 2 300 = [0x7E, 0x02, 0x01, 0x2C, 0xFD, 0xFE, 0xD3, 0x81] ∧
  ∀ (u : Fin 4) (c : Nat) (rx : List Byte), fourTokens u c rx = true ↔
    rx.length = 32 ∧ ∃ r, r < 8 ∧ ∀ i, i < 32 → rx.getD i 0 = (token u c).getD ((r + i) % 8) 0

/-- (The frame count of a unit that a lost return ends, with a frame ended and not judged, is that frame's by log 19; whether a notice is in time is an
operand, log 21.) A token notice (R79) starts the unit it names for the circuit it names, with token frame 1 the frame that starts at its boundary if it is taken
in time, else the next; any other notice does nothing. A lane-change report at the verifier (06 R120, R82) takes the view, and a SENDING unit
whose return lane leaves UP is DONE with RETURN_LOST and hands it. -/
def Obligations.NoticesStartUnitsAndLostReturnsEndThem : Prop :=
  (∀ (s : State) (n : Notice) (pre post : List Notice) (atBoundary : Bool), s.phase = .run → s.sw.notices = pre ++ n :: post →
    (∀ x ∈ pre, x.unit ≠ n.unit) →
    let x := s.ver.unit n.unit
    let mine := x.st = .sending ∧ x.started = false ∧ x.circuit = some n.h
    (mine → ∃ t, exec (.tokenNotice n.unit atBoundary) s = .next t ∧
      t = { s with sw := { s.sw with notices := pre ++ post }, ver := { s.ver with units := t.ver.units } } ∧
      (∀ u : Fin 4, u ≠ n.unit → t.ver.unit u = s.ver.unit u) ∧
      (atBoundary = true → n.fresh = true → t.ver.unit n.unit = { x with
        started := true, count := 1, pos := some 0, shown := some ((token n.unit n.h.num).getD 0 0) }) ∧
      (atBoundary = false ∨ n.fresh = false → t.ver.unit n.unit = { x with started := true })) ∧
    (¬mine → exec (.tokenNotice n.unit atBoundary) s = .next { s with sw := { s.sw with notices := pre ++ post } })) ∧
  ∀ (s : State) (l : Fin 16) (st : LaneState) (pre post : List LaneReport), s.phase = .run → s.sup.toVerifier = pre ++ ⟨l, st⟩ :: post →
    (∀ x ∈ pre, x.lane ≠ l) →
    let leaves := viewUp s.ver.view l = true ∧ st ≠ .up
    let hit (u : Fin 4) : Bool := decide (leaves ∧ (s.ver.unit u).st = .sending ∧ ∃ k, (s.ver.unit u).ret = some k ∧ k.lane = l)
    ∃ t, exec (.verifierLaneChangeReport l) s = .next t ∧
      t = { s with sup := { s.sup with toVerifier := pre ++ post }, ver := t.ver } ∧
      (∀ m, viewOf t.ver.view m = if m = l then st else viewOf s.ver.view m) ∧
      (∀ u : Fin 4, t.ver.unit u = if hit u then { s.ver.unit u with
        st := .done
        outcome := some .returnLost
        count := (s.ver.unit u).due.getD (s.ver.unit u).count
        due := none
        rx := [] } else s.ver.unit u) ∧
      t.ver.outcomes = s.ver.outcomes ++ [0, 1, 2, 3].filterMap fun u : Fin 4 =>
        if hit u then (s.ver.unit u).circuit.map fun h => ⟨u, h, .returnLost⟩ else none

/-- The end of a token frame k of a SENDING unit (R80, R81): with four whole tokens received by frame 32 or later the unit is DONE with DETECTED
and the round trip k - 32, else at its limit with TIMED_OUT, and either is handed to the manager; else the unit goes on. A VERIFY_TIMEOUT is the
same event at the limit (log 18). That a frame cut before the return slot was received gives the byte stored from the frame before is the model's
choice (log 43); that a frame past the limit times out like the one at it is log 19's, and that a frame's end waits to be judged
is log 5's. -/
def Obligations.TokenFrameEndDetectsOrTimesOut : Prop :=
  ∀ (s : State) (u : Fin 4) (k : Nat) (h : Handle) (ret : Slot), s.phase = .run → (s.ver.unit u).due = some k → (s.ver.unit u).st = .sending →
    (s.ver.unit u).circuit = some h → (s.ver.unit u).ret = some ret →
    let x := s.ver.unit u
    let all := x.rx ++ [s.sw.storedByte ret]
    let rx := all.drop (all.length - 32)
    let becomes (c : Instr) (y : VerifyUnit) (handed : List OutcomeClaim) : Prop := ∃ t, exec c s = .next t ∧
      t = { s with ver := { s.ver with units := t.ver.units, outcomes := s.ver.outcomes ++ handed } } ∧
      ∀ v : Fin 4, t.ver.unit v = if v = u then y else s.ver.unit v
    let done (o : VerifyOutcome) : VerifyUnit := { x with st := .done, outcome := some o, count := k, due := none, rx := [] }
    (32 ≤ k → fourTokens u h.num rx = true →
      becomes (.tokenFrameEnd u) (done (.detected (k - 32))) [⟨u, h, .detected (k - 32)⟩] ∧
      (x.limit ≤ k → becomes (.verifyTimeout u) (done (.detected (k - 32))) [⟨u, h, .detected (k - 32)⟩])) ∧
    (k < 32 ∨ fourTokens u h.num rx = false → x.limit ≤ k →
      becomes (.tokenFrameEnd u) (done .timedOut) [⟨u, h, .timedOut⟩] ∧ becomes (.verifyTimeout u) (done .timedOut) [⟨u, h, .timedOut⟩]) ∧
    (k < 32 ∨ fourTokens u h.num rx = false → k < x.limit →
      becomes (.tokenFrameEnd u) { x with rx := rx, due := none } [] ∧ exec (.verifyTimeout u) s = .next s)

/-! ### Opening circuits (01, 03, 04) -/

/-- An OPEN without verify that finds its slots held by no one (R43-R50): record n is filled as R49 gives, joins the list of its source, and offers
an entry in SOURCE drive for each leg, MADE; its slot stays WORKING; nothing else changes. -/
def Obligations.OpenMakesItsCircuit : Prop :=
  ∀ (s : State) (r : Request) (p : Port) (f : OpenFields) (n : Nat), s.TakesWhole 0x01 25 r p → parseOpen r.msg = some f → f.verify = none →
    s.allocates f.record none n → (∀ k ∈ f.legs, s.mgr.holder k = none) → s.fanRoom f.source 1 →
    s.sw.list.length + f.legs.length ≤ 96 →
    let x := s.openedRecord r f.common f.source f.legs none [s.handle n] (s.recordOf n).gen
    ∃ t, exec .openCircuit s = .next t ∧ s.circuitClaim t (f.legs.map (s.legEntry n x .source none .made)) [] p ∧ s.recordBecomes t n x ∧
      s.fanJoins t n f.source

/-- An OPEN with verify (04 R74-R77). With a unit IDLE, the lowest is assigned, the record is VERIFYING, and its entries are in TOKEN drive; the unit
is SENDING, or, with its return lane not UP in the verifier's view, DONE with RETURN_LOST handed at once. With no unit IDLE and room on the wait
list, the record is VERIFY_WAIT, its handle joins the wait list, and its slots are reserved with entries in IDLE drive. -/
def Obligations.OpenWithVerifyTakesAUnitOrWaits : Prop :=
  ∀ (s : State) (r : Request) (p : Port) (f : OpenFields) (v : VerifyFields) (n : Nat), s.TakesWhole 0x01 25 r p → parseOpen r.msg = some f →
    f.verify = some v → s.allocates f.record none n → (∀ k ∈ f.legs, s.mgr.holder k = none) → s.fanRoom f.source 1 →
    s.sw.list.length + f.legs.length ≤ 96 →
    let field : VerifyField := ⟨v.ret.getD (f.legs.headD ⟨0, 0⟩), v.tvfy.getD 50⟩
    let x : Rec := { s.openedRecord r f.common f.source f.legs none [s.handle n] (s.recordOf n).gen with verify := some field }
    (∀ u : Fin 4, (s.ver.unit u).st = .idle → (∀ w : Fin 4, w < u → (s.ver.unit w).st ≠ .idle) →
      let assigned : VerifyUnit := { VerifyUnit.idle with
        st := .sending, circuit := some (s.handle n), ret := some field.ret, limit := field.tvfy * 80 }
      let up := viewUp s.ver.view field.ret.lane
      ∃ t, exec .openCircuit s = .next t ∧
        ({ s with ver := t.ver } : State).circuitClaim t (f.legs.map (s.legEntry n x .token (some u) .made)) [] p ∧
        s.recordBecomes t n { x with st := .verifying } ∧ s.fanJoins t n f.source ∧ t.ver.view = s.ver.view ∧
        (∀ w : Fin 4, w ≠ u → t.ver.unit w = s.ver.unit w) ∧
        t.ver.unit u = (if up then assigned else { assigned with st := .done, outcome := some .returnLost }) ∧
        t.ver.outcomes = s.ver.outcomes ++ (if up then [] else [⟨u, s.handle n, .returnLost⟩])) ∧
    ((∀ u : Fin 4, (s.ver.unit u).st ≠ .idle) → s.mgr.wait.length < 8 →
      ∃ t, exec .openCircuit s = .next t ∧
        ({ s with mgr := { s.mgr with wait := s.mgr.wait ++ [s.handle n] } } : State).circuitClaim t
          (f.legs.map (s.legEntry n x .idle none .made)) [] p ∧
        s.recordBecomes t n { x with st := .verifyWait } ∧ s.fanJoins t n f.source)

/-- What an OPEN reads of its message: each field in its place and in its range (R48, 10.8).
The refusals of an OPEN in the order of its checks (R43, R48, 01 R12, 04 R74): a field out of range, a record not FREE, no FREE record, the first
slot that it may not take (R45, R46), a full fan-out list by name, an offer of more than 8 slots (R58), no room to verify; nothing but its slot
changes. Over the offer limit the slot named is the first whose taking releases a partner (log 26). -/
def Obligations.OpenIsRefusedAtItsFirstFailingCheck : Prop :=
  (∀ (m : List Byte) (f : OpenFields), parseOpen m = some f ↔ readsRecord m 4 f.record ∧ readsCommon m 6 19 23 f.common ∧
    readsSource m 8 f.source ∧ readsLegs m f.legs ∧ readsVerify m f.verify) ∧
  ∀ (s : State) (r : Request) (p : Port), s.TakesWhole 0x01 25 r p →
    let refuses (st : Status) (named : List Byte) : Prop :=
      exec .openCircuit s = .next { s with port := p.answerRequest r st ([byteAt r.msg 4, byteAt r.msg 5, 0xFF, 0xFF] ++ named) }
    (parseOpen r.msg = none → refuses .badField [0xFF, 0xFF]) ∧
    ∀ f, parseOpen r.msg = some f →
      (∀ m, f.record = some m → (s.recordOf m).st ≠ .free → refuses .stateConflict [0xFF, 0xFF]) ∧
      (f.record = none → (∀ m, m < 480 → (s.recordOf m).st ≠ .free) → refuses .noRecord [0xFF, 0xFF]) ∧
      ∀ n, s.allocates f.record none n →
        (∀ k pre post, f.legs = pre ++ k :: post → (∀ j ∈ pre, s.mayTake f.common.cls j) → ¬s.mayTake f.common.cls k →
          refuses .slotBusy (slotBytes k)) ∧
        ((∀ k ∈ f.legs, s.mayTake f.common.cls k) →
          (∀ k, f.source = .inbound k → 8 ≤ (s.mgr.fanOf k).length → refuses .fanoutLimit (slotBytes k)) ∧
          (s.fanRoom f.source 1 → (∀ k ∈ f.legs, s.releasedBy f.legs k ≠ some n) →
            (∀ k pre post, 8 < (s.offerSlotsOf f.legs).length → f.legs = pre ++ k :: post →
              (∀ j ∈ pre, s.releasedBy f.legs j = none) → s.releasedBy f.legs k ≠ none → refuses .slotBusy (slotBytes k)) ∧
            ((s.offerSlotsOf f.legs).length ≤ 8 → f.verify ≠ none → (∀ u : Fin 4, (s.ver.unit u).st ≠ .idle) → 8 ≤ s.mgr.wait.length →
              refuses .noVerifyRoom [0xFF, 0xFF])))

/-- A PRIORITY OPEN of one leg on a slot held by a preemptable NORMAL circuit in ACTIVE or HELD (R46, R55-R57): the victim's leg is BREAKING and its
slot given to the new leg in one entry with both outcomes, and PREEMPTED is raised. A victim that keeps a leg serves on; one that does not is
BREAKING, and its partner, if it has one that keeps its own legs, is released with no clear-down and PARTNER_RELEASED. The mark on a leg that it no
longer holds its slot is the model's (log 13).
The same for any number of legs, and for every request that may preempt: an OPEN of one to four legs, with verify or without, an OPEN_PAIR, and an
ADD_LEG, each whose slots are free or open to preemption (R46, R49, R53, R55-R58, R60, 04 R75-R77): each slot's entry holds the victim's BROKEN and the
new leg's MADE, the break entries of the released partners follow, every victim raises PREEMPTED and every released partner PARTNER_RELEASED, and
each of their records is changed as its own legs give. -/
def Obligations.PriorityOpenPreemptsItsVictim : Prop :=
  (∀ (s : State) (r : Request) (p : Port) (f : OpenFields) (n v : Nat) (k : Slot) (l : Leg), s.TakesWhole 0x01 25 r p →
    parseOpen r.msg = some f → f.verify = none → f.legs = [k] → f.common.cls = .priority → s.allocates f.record none n → s.fanRoom f.source 1 →
    s.mgr.holder k = some v → (s.recordOf v).cls = .normal → (s.recordOf v).preemptable = true → (s.recordOf v).serving →
    (s.recordOf v).legs.filter (fun o => decide (o.slot = k)) = [l] → l.carries = true → l.yielded = false →
    let x := s.openedRecord r f.common f.source f.legs none [s.handle n] (s.recordOf n).gen
    let taken : Rec := { s.recordOf v with
      legs := (s.recordOf v).legs.map fun o => if o.slot = k then { o with st := .breaking, yielded := true } else o }
    let entry : Entry := ⟨k, legContent n x .source none, s.kept [v, n] k ++ [⟨s.handle v, .broken⟩, ⟨s.handle n, .made⟩]⟩
    let keeps := ∃ o ∈ (s.recordOf v).legs, o.slot ≠ k ∧ o.st ≠ .breaking
    (keeps → s.sw.list.length + 1 ≤ 96 → ∃ t, exec .openCircuit s = .next t ∧ s.circuitClaim t [entry] [(81 + v, .preempted)] p ∧
      s.fanJoins t n f.source ∧ s.recordsBecome t [n, v] fun m _ => if m = n then x else taken) ∧
    (¬keeps → (s.recordOf v).partner = none → s.sw.list.length + 1 ≤ 96 → ∃ t, exec .openCircuit s = .next t ∧
      s.circuitClaim t [entry] [(81 + v, .preempted)] p ∧ s.fanJoins t n f.source ∧
      s.recordsBecome t [n, v] fun m _ => if m = n then x else { taken with st := .breaking, lease := none, reload := none, target := none }) ∧
    ∀ q, ¬keeps → (s.recordOf v).partner = some q → q ≠ v → q ≠ n → (s.recordOf q).legs ≠ [] →
      (∀ o ∈ (s.recordOf q).legs, o.carries = true ∧ o.slot ≠ k) → (s.recordOf q).legs.length ≤ 4 →
      s.sw.list.length + 1 + (s.recordOf q).legs.length ≤ 96 → ∃ t, exec .openCircuit s = .next t ∧
        s.circuitClaim t (entry :: (s.recordOf q).legs.map fun o => s.breakEntry q o.slot)
          [(81 + v, .preempted), (81 + q, .partnerReleased)] p ∧
        s.fanJoins t n f.source ∧ s.recordsBecome t [n, v, q] fun m y =>
          if m = n then x
          else if m = v then { taken with st := .breaking, lease := none, reload := none, target := none }
          else { y.breaking (fun _ => true) with st := .breaking, lease := none, reload := none, target := none }) ∧
  (∀ (s : State) (r : Request) (p : Port) (f : OpenFields) (n : Nat), s.TakesWhole 0x01 25 r p → parseOpen r.msg = some f → s.circuitsLegal →
    s.allocates f.record none n → (∀ k ∈ f.legs, s.mayTake f.common.cls k) → s.fanRoom f.source 1 → s.offerFits f.legs →
    let x := s.openedRecord r f.common f.source f.legs none [s.handle n] (s.recordOf n).gen
    let offer (x : Rec) (d : Drive) (u : Option (Fin 4)) : List Entry := f.legs.map (s.takingEntry n x d u) ++ s.partnerBreaks f.legs
    let raises := s.preemptionRaises f.legs
    (f.verify = none → ∃ t, exec .openCircuit s = .next t ∧ s.circuitClaim t (offer x .source none) raises p ∧ s.fanJoins t n f.source ∧
      s.recordsTake t f.legs [n] fun _ => x) ∧
    ∀ v, f.verify = some v →
      let field : VerifyField := ⟨v.ret.getD (f.legs.headD ⟨0, 0⟩), v.tvfy.getD 50⟩
      let x : Rec := { x with verify := some field }
      (∀ u : Fin 4, (s.ver.unit u).st = .idle → (∀ w : Fin 4, w < u → (s.ver.unit w).st ≠ .idle) →
        let assigned : VerifyUnit := { VerifyUnit.idle with
          st := .sending, circuit := some (s.handle n), ret := some field.ret, limit := field.tvfy * 80 }
        let up := viewUp s.ver.view field.ret.lane
        ∃ t, exec .openCircuit s = .next t ∧ ({ s with ver := t.ver } : State).circuitClaim t (offer x .token (some u)) raises p ∧
          s.fanJoins t n f.source ∧ (s.recordsTake t f.legs [n] fun _ => { x with st := .verifying }) ∧ t.ver.view = s.ver.view ∧
          (∀ w : Fin 4, t.ver.unit w = if w = u then (if up then assigned else { assigned with st := .done, outcome := some .returnLost })
            else s.ver.unit w) ∧
          t.ver.outcomes = s.ver.outcomes ++ (if up then [] else [⟨u, s.handle n, .returnLost⟩])) ∧
      ((∀ u : Fin 4, (s.ver.unit u).st ≠ .idle) → s.mgr.wait.length < 8 → ∃ t, exec .openCircuit s = .next t ∧
        ({ s with mgr := { s.mgr with wait := s.mgr.wait ++ [s.handle n] } } : State).circuitClaim t (offer x .idle none) raises p ∧
        s.fanJoins t n f.source ∧ s.recordsTake t f.legs [n] fun _ => { x with st := .verifyWait })) ∧
  (∀ (s : State) (r : Request) (p : Port) (f : PairFields) (x y : Nat), s.TakesWhole 0x02 20 r p → parsePair r.msg = some f → s.circuitsLegal →
    s.allocates f.x f.y x → s.allocates f.y (some x) y → (∀ k ∈ [f.bOut, f.aOut], s.mayTake f.common.cls k) →
    s.fanRoom f.aIn (if f.aIn = f.bIn then 2 else 1) → s.fanRoom f.bIn (if f.aIn = f.bIn then 2 else 1) → s.offerFits [f.bOut, f.aOut] →
    let rx := s.openedRecord r f.common f.aIn [f.bOut] (some y) [s.handle x, s.handle y] (s.recordOf x).gen
    let ry := s.openedRecord r f.common f.bIn [f.aOut] (some x) [s.handle x, s.handle y] (s.recordOf y).gen
    ∃ t, exec .openPair s = .next t ∧
      s.circuitClaim t ([s.takingEntry x rx .source none f.bOut, s.takingEntry y ry .source none f.aOut] ++ s.partnerBreaks [f.bOut, f.aOut])
        (s.preemptionRaises [f.bOut, f.aOut]) p ∧
      (s.recordsTake t [f.bOut, f.aOut] [x, y] fun m => if m = x then rx else ry) ∧
      ∀ k, t.mgr.fanOf k = s.mgr.fanOf k ++ (if f.aIn = .inbound k then [x] else []) ++ (if f.bIn = .inbound k then [y] else [])) ∧
  ∀ (s : State) (r : Request) (p : Port) (n : Nat) (k : Slot), s.TakesWhole 0x03 6 r p → parseSlot r.msg 8 = some k → s.Names r n false →
    s.circuitsLegal → (s.recordOf n).serving → (s.recordOf n).legs.length < 4 → (∀ l ∈ (s.recordOf n).legs, l.slot ≠ k) →
    s.mayTake (s.recordOf n).cls k → s.releasedBy [k] k ≠ some n → s.offerFits [k] →
    let x := s.recordOf n
    ∃ t, exec .addLeg s = .next t ∧
      s.circuitClaim t (s.takingEntry n x x.targetDrive none k :: s.partnerBreaks [k]) (s.preemptionRaises [k])
        (p.answerRequest r .ok (handleBytes r.handle ++ [BitVec.ofNat 8 x.legs.length])) ∧
      s.fanStands t ∧ s.recordsTake t [k] [n] fun _ => { x with legs := x.legs ++ [⟨k, .making, false, none⟩] }

/-- What an OPEN_PAIR reads of its message, each field in its place and in its range, and its refusals in the order of its checks (R52, 10.8; the slot
named over the offer limit: log 26); a refusal gives both record fields as the request had them, and changes nothing but the slot.
An OPEN_PAIR that finds both slots held by no one (R52, R53; 01 R13, R15): records x and y are filled with one leg each, each the partner of the
other, with one opening answer, and join the lists of their sources, x first; two MADE entries are offered, for b_out then a_out. -/
def Obligations.OpenPairMakesTwoPartners : Prop :=
  (∀ (m : List Byte) (f : PairFields), parsePair m = some f ↔ readsRecord m 4 f.x ∧ readsRecord m 6 f.y ∧ (f.x = f.y → f.x = none) ∧
    readsCommon m 8 18 22 f.common ∧ (byteAt m 9).getLsbD 1 = false ∧ readsSource m 10 f.aIn ∧ readsSlot m 12 f.aOut ∧
    readsSource m 14 f.bIn ∧ readsSlot m 16 f.bOut ∧ f.aOut ≠ f.bOut) ∧
  (∀ (s : State) (r : Request) (p : Port), s.TakesWhole 0x02 20 r p →
    let refuses (st : Status) (named : List Byte) : Prop := exec .openPair s = .next { s with
      port := p.answerRequest r st ([byteAt r.msg 4, byteAt r.msg 5, byteAt r.msg 6, byteAt r.msg 7] ++ named) }
    (parsePair r.msg = none → refuses .badField [0xFF, 0xFF]) ∧
    ∀ f, parsePair r.msg = some f →
      let more := if f.aIn = f.bIn then 2 else 1
      (∀ m, f.x = some m → (s.recordOf m).st ≠ .free → refuses .stateConflict [0xFF, 0xFF]) ∧
      (f.x = none → (∀ m, m < 480 → some m ≠ f.y → (s.recordOf m).st ≠ .free) → refuses .noRecord [0xFF, 0xFF]) ∧
      ∀ x, s.allocates f.x f.y x →
        (∀ m, f.y = some m → (s.recordOf m).st ≠ .free → refuses .stateConflict [0xFF, 0xFF]) ∧
        (f.y = none → (∀ m, m < 480 → m ≠ x → (s.recordOf m).st ≠ .free) → refuses .noRecord [0xFF, 0xFF]) ∧
        ∀ y, s.allocates f.y (some x) y →
          (¬s.mayTake f.common.cls f.bOut → refuses .slotBusy (slotBytes f.bOut)) ∧
          (s.mayTake f.common.cls f.bOut → ¬s.mayTake f.common.cls f.aOut → refuses .slotBusy (slotBytes f.aOut)) ∧
          (s.mayTake f.common.cls f.bOut → s.mayTake f.common.cls f.aOut →
            (∀ k, f.aIn = .inbound k → 8 < (s.mgr.fanOf k).length + more → refuses .fanoutLimit (slotBytes k)) ∧
            (s.fanRoom f.aIn more → ∀ k, f.bIn = .inbound k → 8 < (s.mgr.fanOf k).length + more → refuses .fanoutLimit (slotBytes k)) ∧
            (s.fanRoom f.aIn more → s.fanRoom f.bIn more →
              (∀ k ∈ [f.bOut, f.aOut], s.releasedBy [f.bOut, f.aOut] k ≠ some x ∧ s.releasedBy [f.bOut, f.aOut] k ≠ some y) →
              ∀ k pre post, 8 < (s.offerSlotsOf [f.bOut, f.aOut]).length → [f.bOut, f.aOut] = pre ++ k :: post →
                (∀ j ∈ pre, s.releasedBy [f.bOut, f.aOut] j = none) → s.releasedBy [f.bOut, f.aOut] k ≠ none →
                refuses .slotBusy (slotBytes k)))) ∧
  ∀ (s : State) (r : Request) (p : Port) (f : PairFields) (x y : Nat), s.TakesWhole 0x02 20 r p → parsePair r.msg = some f →
    s.allocates f.x f.y x → s.allocates f.y (some x) y → s.mgr.holder f.bOut = none → s.mgr.holder f.aOut = none →
    s.fanRoom f.aIn (if f.aIn = f.bIn then 2 else 1) → s.fanRoom f.bIn (if f.aIn = f.bIn then 2 else 1) → s.sw.list.length + 2 ≤ 96 →
    let rx := s.openedRecord r f.common f.aIn [f.bOut] (some y) [s.handle x, s.handle y] (s.recordOf x).gen
    let ry := s.openedRecord r f.common f.bIn [f.aOut] (some x) [s.handle x, s.handle y] (s.recordOf y).gen
    ∃ t, exec .openPair s = .next t ∧
      s.circuitClaim t [s.legEntry x rx .source none .made f.bOut, s.legEntry y ry .source none .made f.aOut] [] p ∧
      s.recordsBecome t [x, y] (fun m _ => if m = x then rx else ry) ∧
      ∀ k, t.mgr.fanOf k = s.mgr.fanOf k ++ (if f.aIn = .inbound k then [x] else []) ++ (if f.bIn = .inbound k then [y] else [])

/-! ### Changing circuits (03) -/

/-- The handle check (01 R10, R43) of the nine requests that name a circuit by its handle: a record number above 511 is BAD_FIELD, a generation that is not the
record's is STALE_HANDLE, and a TEST circuit is NOT_PERMITTED but for TOUCH, QUERY and ACCESS_END; nothing but the slot changes. Before it, whatever the handle, comes
the range of every other field (BAD_FIELD): the outbound slot of ADD_LEG and DROP_LEG (R60, R61), the source of MOVE_SOURCE (R63), the clear-down of RELEASE, 201
to 254 (05 R91), the generation check and the view of QUERY (01 R19). A QUERY with its check OFF is refused for a record number above 511 alone. -/
def Obligations.StaleHandlesAndTestCircuitsAreRefused : Prop :=
  (∀ c kind len test, (c, kind, len, test) ∈ ([(.addLeg, 0x03, 6, false), (.dropLeg, 0x04, 6, false), (.moveSource, 0x05, 6, false),
      (.hold, 0x06, 4, false), (.resume, 0x07, 4, false), (.release, 0x08, 5, false), (.touch, 0x09, 6, true), (.query, 0x0A, 6, true),
      (.accessEnd, 0x0D, 4, true)] : List (Instr × Byte × Nat × Bool)) →
    ∀ (s : State) (r : Request) (p : Port), s.TakesWhole kind len r p →
      (kind = 0x03 ∨ kind = 0x04 → (parseSlot r.msg 8).isSome = true) → (kind = 0x05 → (parseSource r.msg 8).isSome = true) →
      (kind = 0x08 → (byteAt r.msg 8).toNat ≤ 200 ∨ byteAt r.msg 8 = 0xFF) → (kind = 0x0A → byteAt r.msg 8 = 1 ∧ (byteAt r.msg 9).toNat < 2) →
      let refuses (st : Status) : Prop := exec c s = .next { s with
        port := p.answerRequest r st ([byteAt r.msg 4, byteAt r.msg 5, byteAt r.msg 6, byteAt r.msg 7, 0xFF, 0xFF]) }
      (511 < r.handle.num → refuses .badField) ∧
      (r.handle.num ≤ 511 → (s.recordOf r.handle.num).gen ≠ r.handle.gen → refuses .staleHandle) ∧
      (r.handle.num ≤ 511 → (s.recordOf r.handle.num).gen = r.handle.gen → (s.recordOf r.handle.num).cls = .test → test = false →
        refuses .notPermitted)) ∧
  ∀ (s : State) (r : Request) (p : Port),
    let refuses (c : Instr) : Prop := exec c s = .next { s with
      port := p.answerRequest r .badField ([byteAt r.msg 4, byteAt r.msg 5, byteAt r.msg 6, byteAt r.msg 7, 0xFF, 0xFF]) }
    (∀ c kind, (c, kind) ∈ ([(.addLeg, 0x03), (.dropLeg, 0x04)] : List (Instr × Byte)) → s.TakesWhole kind 6 r p →
      16 ≤ (byteAt r.msg 8).toNat ∨ 48 ≤ (byteAt r.msg 9).toNat → refuses c) ∧
    (s.TakesWhole 0x05 6 r p → (∀ src, ¬readsSource r.msg 8 src) → refuses .moveSource) ∧
    (s.TakesWhole 0x08 5 r p → 200 < (byteAt r.msg 8).toNat → (byteAt r.msg 8).toNat < 255 → refuses .release) ∧
    (s.TakesWhole 0x0A 6 r p →
      (1 < (byteAt r.msg 8).toNat ∨ 1 < (byteAt r.msg 9).toNat → refuses .query) ∧
      (byteAt r.msg 8 = 0 → 511 < r.handle.num → refuses .query))

/-- ADD_LEG (R60) on an ACTIVE or HELD circuit with fewer than four legs, none of them on the slot, which no one holds: the leg joins the tail in
MAKING with one entry in the drive of the record's target, and the answer gives its position. A full leg list is LEG_LIMIT; a slot that the record
may not take (R45, R46), or on which it has a leg in any state (log 13), is SLOT_BUSY by name.
DROP_LEG (R61, R62) of a leg that is not the record's last: a leg in MAKING or LIVE goes to BREAKING with its break entry; a DISPLACED leg goes at
once with the links on both sides and no entry; the answer gives the legs left. The last leg, or a slot without one, is STATE_CONFLICT.
Either is STATE_CONFLICT on a record that is not ACTIVE or HELD (R47). -/
def Obligations.AddLegAndDropLeg : Prop :=
  (∀ (s : State) (r : Request) (p : Port) (n : Nat) (k : Slot), s.TakesWhole 0x03 6 r p → parseSlot r.msg 8 = some k → s.Names r n false →
    (s.recordOf n).serving →
    let x := s.recordOf n
    (x.legs.length < 4 → (∀ l ∈ x.legs, l.slot ≠ k) → s.mgr.holder k = none → s.sw.list.length + 1 ≤ 96 →
      ∃ t, exec .addLeg s = .next t ∧
        s.circuitClaim t [s.legEntry n x x.targetDrive none .made k] []
          (p.answerRequest r .ok (handleBytes r.handle ++ [BitVec.ofNat 8 x.legs.length])) ∧
        s.recordBecomes t n { x with legs := x.legs ++ [⟨k, .making, false, none⟩] } ∧ s.fanStands t) ∧
    (x.legs.length < 4 → ((∃ l ∈ x.legs, l.slot = k) ∨ ¬s.mayTake x.cls k) → exec .addLeg s = .next { s with
      port := p.answerRequest r .slotBusy ([byteAt r.msg 4, byteAt r.msg 5, byteAt r.msg 6, byteAt r.msg 7] ++ slotBytes k) }) ∧
    (4 ≤ x.legs.length → exec .addLeg s = .next { s with
      port := p.answerRequest r .legLimit ([byteAt r.msg 4, byteAt r.msg 5, byteAt r.msg 6, byteAt r.msg 7, 0xFF, 0xFF]) })) ∧
  (∀ (s : State) (r : Request) (p : Port) (n : Nat) (k : Slot), s.TakesWhole 0x04 6 r p → parseSlot r.msg 8 = some k → s.Names r n false →
    (s.recordOf n).serving →
    let x := s.recordOf n
    let others := ∃ o ∈ x.legs, o.slot ≠ k ∧ o.st ≠ .breaking
    let refuses : Prop := exec .dropLeg s = .next { s with
      port := p.answerRequest r .stateConflict ([byteAt r.msg 4, byteAt r.msg 5, byteAt r.msg 6, byteAt r.msg 7, 0xFF, 0xFF]) }
    (∀ l, x.legs.filter (fun o => decide (o.slot = k)) = [l] → others →
      (l.carries = true → s.sw.list.length + 1 ≤ 96 → ∃ t, exec .dropLeg s = .next t ∧
        s.circuitClaim t [s.breakEntry n k] [] (p.answerRequest r .ok (handleBytes r.handle ++ [BitVec.ofNat 8 x.legs.length])) ∧
        s.recordBecomes t n (x.breaking fun o => decide (o.slot = k)) ∧ s.fanStands t) ∧
      (∀ d, l.st = .displaced → l.link = some d → d ≠ n → ∃ t, exec .dropLeg s = .next t ∧
        s.circuitClaim t [] [] (p.answerRequest r .ok (handleBytes r.handle ++ [BitVec.ofNat 8 (x.legs.length - 1)])) ∧
        s.recordsBecome t [n, d] (fun m y => if m = n then { x with legs := x.legs.filter fun o => decide (o.slot ≠ k) }
          else { y with displ := none }) ∧ s.fanStands t) ∧
      (l.st = .breaking → refuses)) ∧
    (¬others → refuses) ∧ ((∀ o ∈ x.legs, o.slot ≠ k) → refuses)) ∧
  ∀ c kind, (c, kind) ∈ ([(.addLeg, 0x03), (.dropLeg, 0x04)] : List (Instr × Byte)) → ∀ (s : State) (r : Request) (p : Port) (n : Nat) (k : Slot),
    s.TakesWhole kind 6 r p → parseSlot r.msg 8 = some k → s.Names r n false → ¬(s.recordOf n).serving → exec c s = .next { s with
      port := p.answerRequest r .stateConflict ([byteAt r.msg 4, byteAt r.msg 5, byteAt r.msg 6, byteAt r.msg 7, 0xFF, 0xFF]) }

/-- MOVE_SOURCE (R63, R64) to another source with room: the record leaves one fan-out list and joins the other, takes the source and its fault, and
offers an entry for each carrying leg; a change of the fault raises SOURCE_FAULT or SOURCE_OK. To the source it has, it is answered OK and
nothing changes. An inbound slot whose list is full is FANOUT_LIMIT, and a record that is not ACTIVE or HELD is STATE_CONFLICT (R47). -/
def Obligations.MoveSourceChangesTheSource : Prop :=
  (∀ (s : State) (r : Request) (p : Port) (n : Nat) (src : Source), s.TakesWhole 0x05 6 r p → parseSource r.msg 8 = some src →
    s.Names r n false → (s.recordOf n).serving →
    let x := s.recordOf n
    let y : Rec := { x with source := some src, fault := s.sourceFault src }
    let answer := p.answerRequest r .ok (handleBytes r.handle ++ sourceBytes (some src))
    (x.source = some src → exec .moveSource s = .next { s with port := answer }) ∧
    (x.source ≠ some src → s.fanRoom src 1 → s.sw.list.length + x.carrying.length ≤ 96 → ∃ t, exec .moveSource s = .next t ∧
      s.circuitClaim t (s.changeEntries n y x.targetDrive none)
        (if x.fault = s.sourceFault src then [] else [(81 + n, if s.sourceFault src then .sourceFault else .sourceOk)]) answer ∧
      s.recordBecomes t n y ∧
      ∀ k, t.mgr.fanOf k = (if x.source = some (.inbound k) then (s.mgr.fanOf k).filter (fun m => decide (m ≠ n)) else s.mgr.fanOf k) ++
        (if src = .inbound k then [n] else [])) ∧
    (x.source ≠ some src → ∀ k, src = .inbound k → 8 ≤ (s.mgr.fanOf k).length → exec .moveSource s = .next { s with
      port := p.answerRequest r .fanoutLimit ([byteAt r.msg 4, byteAt r.msg 5, byteAt r.msg 6, byteAt r.msg 7] ++ slotBytes k) })) ∧
  ∀ (s : State) (r : Request) (p : Port) (n : Nat) (src : Source), s.TakesWhole 0x05 6 r p → parseSource r.msg 8 = some src →
    s.Names r n false → ¬(s.recordOf n).serving → exec .moveSource s = .next { s with
      port := p.answerRequest r .stateConflict ([byteAt r.msg 4, byteAt r.msg 5, byteAt r.msg 6, byteAt r.msg 7, 0xFF, 0xFF]) }

/-- HOLD and RESUME (R66-R68) on a record and its partner with the other drive target: each takes the target and offers an entry for each carrying
leg; a record with none changes state at once; the answer gives the state, the target and the partner. The same target is STATE_CONFLICT. -/
def Obligations.HoldAndResumeSetTheDriveTarget : Prop :=
  ∀ c kind (new old : Target), (c, kind, new, old) ∈ ([(.hold, 0x06, .hold, .source), (.resume, 0x07, .source, .hold)] :
      List (Instr × Byte × Target × Target)) →
    ∀ (s : State) (r : Request) (p : Port) (n : Nat), s.TakesWhole kind 4 r p → s.Names r n false → (s.recordOf n).partner ≠ some n →
      let ms := n :: (s.recordOf n).partner.toList
      let drive : Drive := if new = .hold then .hold else .source
      let done : CircState := if new = .hold then .held else .active
      let after (x : Rec) : Rec := { x with target := some new, st := if x.carrying = [] then done else x.st }
      ((∀ m ∈ ms, (s.recordOf m).serving ∧ (s.recordOf m).target = some old) →
        s.sw.list.length + (ms.flatMap fun m => (s.recordOf m).carrying).length ≤ 96 → ∃ t, exec c s = .next t ∧
          s.circuitClaim t (ms.flatMap fun m => s.changeEntries m (s.recordOf m) drive none) []
            (p.answerRequest r .ok (handleBytes r.handle ++ [(after (s.recordOf n)).st.toByte, new.toByte] ++
              optHandleBytes ((s.recordOf n).partner.map s.handle))) ∧
          s.recordsBecome t ms (fun _ x => after x) ∧ s.fanStands t) ∧
      ((∃ m ∈ ms, ¬(s.recordOf m).serving ∨ (s.recordOf m).target ≠ some old) → exec c s = .next { s with
        port := p.answerRequest r .stateConflict ([byteAt r.msg 4, byteAt r.msg 5, byteAt r.msg 6, byteAt r.msg 7, 0xFF, 0xFF]) })

/-- TOUCH (05 R105) sets lease and reload value of a record and its partner to its value, or for 0 to the record's reload value; a record RELEASING
or BREAKING is EXPIRED; without a value to give it is STATE_CONFLICT.
QUERY, FIND_OUT and FIND_IN (01 R19-R21) change nothing but their slot. QUERY gives the handle as it stands and the view asked for; FIND_OUT the
record that holds the slot and the one with a DISPLACED leg on it; FIND_IN the length of the slot's list and up to six of its handles. The bytes of
the two views and the codes of the states, classes and drive targets are those of 10.8; an absent reload value or tVFY is shown as 0000h by log 15.
A FIND_OUT or FIND_IN of no lane slot, or a FIND_IN with a start above 7, is BAD_FIELD, with 00h in the circuit fields by log 17. -/
def Obligations.TouchRenewsTheLeaseAndQueriesChangeNothing : Prop :=
  (∀ (s : State) (r : Request) (p : Port) (n : Nat), s.TakesWhole 0x09 6 r p → s.Names r n true →
    let ms := n :: (s.recordOf n).partner.toList
    let value := if wordAt r.msg 8 = 0 then (s.recordOf n).reload else some (wordAt r.msg 8)
    let refuses (st : Status) : Prop := exec .touch s = .next { s with
      port := p.answerRequest r st ([byteAt r.msg 4, byteAt r.msg 5, byteAt r.msg 6, byteAt r.msg 7, 0xFF, 0xFF]) }
    (∀ v, (∀ m ∈ ms, (s.recordOf m).st.leaseRuns = true) → value = some v → ∃ t, exec .touch s = .next t ∧
      s.circuitClaim t [] [] (p.answerRequest r .ok (handleBytes r.handle ++ bytes16 v ++ bytes16 v)) ∧
      s.recordsBecome t ms (fun _ x => { x with lease := some v, reload := some v }) ∧ s.fanStands t) ∧
    ((∀ m ∈ ms, (s.recordOf m).st.leaseRuns = true) → value = none → refuses .stateConflict) ∧
    ((s.recordOf n).st = .releasing ∨ (s.recordOf n).st = .breaking → refuses .expired) ∧ ((s.recordOf n).st = .free → refuses .stateConflict)) ∧
  (∀ (s : State) (r : Request) (p : Port) (n : Nat) (check settings : Bool), s.TakesWhole 0x0A 6 r p → parseQuery r.msg = some (check, settings) →
    r.handle.num = n → n < 512 → (check = true → r.handle.gen = (s.recordOf n).gen) → exec .query s = .next { s with
      port := p.answerRequest r .ok (handleBytes (s.handle n) ++
        if settings then settingsView (s.recordOf n) else circuitView n (s.recordOf n)) }) ∧
  (∀ (s : State) (r : Request) (p : Port) (k : Slot), s.TakesWhole 0x0B 2 r p → parseSlot r.msg 4 = some k →
    let entry (n : Nat) (q : Leg → Bool) : List Byte := handleBytes (s.handle n) ++ [(s.recordOf n).cls.toByte,
      BitVec.ofNat 8 ((s.recordOf n).legs.findIdx q), match (s.recordOf n).legs.find? q with | some l => l.st.toByte | none => 0]
    let found := (s.mgr.holder k).toList.map (fun n => entry n fun l => l.holdsSlot k) ++
      (s.mgr.displacedOn k).toList.map fun n => entry n fun l => decide (l.slot = k ∧ l.st = .displaced)
    exec .findOut s = .next { s with port := p.answerRequest r .ok (BitVec.ofNat 8 found.length :: found.flatten) }) ∧
  (∀ (s : State) (r : Request) (p : Port) (k : Slot), s.TakesWhole 0x0C 3 r p → parseSlot r.msg 4 = some k → (byteAt r.msg 6).toNat ≤ 7 →
    let part := ((s.mgr.fanOf k).drop (byteAt r.msg 6).toNat).take 6
    exec .findIn s = .next { s with
      port := p.answerRequest r .ok ([BitVec.ofNat 8 (s.mgr.fanOf k).length, BitVec.ofNat 8 part.length] ++
        part.flatMap fun n => handleBytes (s.handle n)) }) ∧
  (∀ (s : State) (r : Request) (p : Port),
    let refuses (c : Instr) : Prop := exec c s = .next { s with port := p.answerRequest r .badField [0, 0, 0, 0, 0xFF, 0xFF] }
    let noSlot := 16 ≤ (byteAt r.msg 4).toNat ∨ 48 ≤ (byteAt r.msg 5).toNat
    (s.TakesWhole 0x0B 2 r p → noSlot → refuses .findOut) ∧ (s.TakesWhole 0x0C 3 r p → noSlot ∨ 7 < (byteAt r.msg 6).toNat → refuses .findIn)) ∧
  (∀ (n : Nat) (x : Rec), let b := handleBytes ⟨n, x.gen⟩ ++ circuitView n x
    b.length = 27 ∧ resultIs b 4 2 n ∧ resultIs b 6 2 x.gen.toNat ∧ resultIs b 8 1 x.st.toByte.toNat ∧
    resultIs b 9 1 ((if 480 ≤ n then 128 else 0) + x.cls.toByte.toNat * 32 + (if x.preemptable then 16 else 0) + (if x.fault then 8 else 0) +
      (if x.partner.isSome then 4 else 0) + (if x.lease.isSome then 2 else 0)) ∧
    (∀ k, x.source = some (.inbound k) → resultIsSlot b 10 k) ∧
    (∀ g : Fin 6, x.source = some (.gen g) → resultIs b 10 1 (0x80 + g.val) ∧ resultIs b 11 1 0) ∧ (x.source = none → resultIs b 10 2 0xFFFF) ∧
    resultIs b 12 1 x.legs.length ∧
    (∀ i l, i < 4 → x.legs[i]? = some l → resultIsSlot b (13 + 3 * i) l.slot ∧ resultIs b (15 + 3 * i) 1 l.st.toByte.toNat) ∧
    (∀ i, i < 4 → x.legs[i]? = none → resultIs b (13 + 3 * i) 3 0) ∧
    resultIs b 25 2 (x.partner.getD 0xFFFF) ∧ resultIs b 27 2 (x.lease.getD 0) ∧ resultIs b 29 2 x.tag.toNat) ∧
  (∀ (n : Nat) (x : Rec), let b := handleBytes ⟨n, x.gen⟩ ++ settingsView x
    let displaced (l : Leg) : Prop := l.st = .displaced
    b.length = 20 ∧ resultIs b 4 2 n ∧ resultIs b 6 2 x.gen.toNat ∧ resultIs b 8 1 x.cond.toNat ∧ resultIs b 9 1 x.holdB.toNat ∧
    resultIs b 10 1 x.rel.toNat ∧ resultIs b 11 1 x.clearDown ∧
    (((∃ l ∈ x.legs, displaced l) ∨ x.displ.isSome = true) →
      resultIs b 12 1 ((if x.reload.isSome then 1 else 0) + (if x.verify.isSome then 2 else 0) + 4 + (if x.watcher.isSome then 8 else 0))) ∧
    ((∀ l ∈ x.legs, ¬displaced l) → x.displ = none →
      resultIs b 12 1 ((if x.reload.isSome then 1 else 0) + (if x.verify.isSome then 2 else 0) + (if x.watcher.isSome then 8 else 0))) ∧
    resultIs b 13 2 (x.reload.getD 0) ∧ (∀ v, x.verify = some v → resultIsSlot b 15 v.ret ∧ resultIs b 17 2 v.tvfy) ∧
    (x.verify = none → resultIs b 15 2 0xFFFF ∧ resultIs b 17 2 0) ∧
    (∀ o k, x.displ = some (o, k) → resultIs b 19 2 o ∧ resultIsSlot b 21 k) ∧
    (x.displ = none → ∀ i, i < 4 →
      (∀ l d, x.legs[i]? = some l → displaced l → l.link = some d → resultIs b (19 + i) 1 (d - 480)) ∧
      ((∀ l, x.legs[i]? = some l → displaced l → l.link = none) → resultIs b (19 + i) 1 0xFF)) ∧
    resultIs b 23 1 (x.watcher.getD 0xFF)) ∧
  [CircState.free, .making, .verifyWait, .verifying, .active, .held, .releasing, .breaking].map (fun a => a.toByte.toNat) = [0, 1, 2, 3, 4, 5, 6, 7] ∧
  [LegState.making, .live, .breaking, .displaced].map (fun a => a.toByte.toNat) = [0, 1, 2, 3] ∧
  [CircClass.normal, .priority, .test].map (fun a => a.toByte.toNat) = [0, 1, 2] ∧
  [Target.source, .hold].map (fun a => a.toByte.toNat) = [0, 1]

/-! ### Taking circuits down (05, 04) -/

/-- RELEASE of a circuit in MAKING, ACTIVE or HELD (R91-R96), with the clear-down of the request, or for FFh the record's: it and its partner go to
RELEASING or BREAKING, and its slot waits for the answer. With nothing but DISPLACED legs it and its partner are FREE at once and the request is answered OK. A record or a
partner in FREE, RELEASING or BREAKING is STATE_CONFLICT. That the release answer of a pair is kept by the record named, and not by its partner, is the model's
reading (log 27). -/
def Obligations.ReleaseTakesACircuitDown : Prop :=
  ∀ (s : State) (r : Request) (p : Port) (n : Nat), s.TakesWhole 0x08 5 r p → s.Names r n false →
    (byteAt r.msg 8).toNat ≤ 200 ∨ byteAt r.msg 8 = 0xFF →
    let clear := if byteAt r.msg 8 = 0xFF then (s.recordOf n).clearDown else (byteAt r.msg 8).toNat
    (s.Releasable n → ∃ t, exec .release s = .next t ∧ ({ s with port := p } : State).releases t n clear
      (some ⟨r.slot, r.sub, r.handle, none, (s.recordOf n).partner.map s.handle⟩) []) ∧
    (s.OnlyDisplaced n → ∃ t, exec .release s = .next t ∧
      s.freesAtOnce t n [] (p.answerRequest r .ok (handleBytes r.handle ++ optHandleBytes ((s.recordOf n).partner.map s.handle)))) ∧
    ((∃ m ∈ n :: (s.recordOf n).partner.toList, (s.recordOf m).st = .free ∨ (s.recordOf m).st = .releasing ∨ (s.recordOf m).st = .breaking) →
      exec .release s = .next { s with
        port := p.answerRequest r .stateConflict ([byteAt r.msg 4, byteAt r.msg 5, byteAt r.msg 6, byteAt r.msg 7, 0xFF, 0xFF]) })

/-- The ends of a verification (04 R83-R87). A DETECTED outcome keeps the round trip and offers SOURCE entries, the record staying VERIFYING; a
TIMED_OUT or RETURN_LOST ends it with VERIFY_FAILED or RETURN_LOST, and a RELEASE with VERIFY_ABORTED; a RELEASE of a circuit on the wait list
frees it at once; an outcome of a circuit that the unit no longer serves does nothing. The frame count of a unit whose frame has ended and is not
judged is that frame's (log 19); a circuit on the wait list is answered with unit FFh and frame count 0 (log 28). -/
def Obligations.VerificationSwitchesOrEnds : Prop :=
  (∀ (s : State) (n : Nat) (u : Fin 4) (k : Nat) (rest : List OutcomeClaim), s.Ready → s.Verifies n u →
    s.ver.outcomes = ⟨u, s.handle n, .detected k⟩ :: rest → ∃ t, exec .detectedOutcome s = .next t ∧
      ({ s with ver := { s.ver with outcomes := rest } } : State).circuitClaim t (s.changeEntries n (s.recordOf n) .source none) [] s.port ∧
      s.recordBecomes t n { s.recordOf n with roundTrip := some k, target := some .source } ∧ s.fanStands t) ∧
  (∀ (s : State) (n : Nat) (u : Fin 4) (o : VerifyOutcome) (st : Status) (rest : List OutcomeClaim), s.Ready → s.Verifies n u →
    (o, st) ∈ ([(.timedOut, .verifyFailed), (.returnLost, .returnLost)] : List (VerifyOutcome × Status)) →
    s.ver.outcomes = ⟨u, s.handle n, o⟩ :: rest → ∃ t, exec .verifyFailureOutcome s = .next t ∧
      ({ s with ver := { s.ver with outcomes := rest } } : State).endsVerifying t n u st none []) ∧
  (∀ (s : State) (o : OutcomeClaim) (rest : List OutcomeClaim), s.Ready → s.ver.outcomes = o :: rest →
    (s.isCurrent o.h = false ∨ (s.recordOf o.h.num).st ≠ .verifying ∨ ∀ v : Fin 4, (s.ver.unit v).circuit ≠ some o.h) →
    exec (if o.outcome.isDetected then .detectedOutcome else .verifyFailureOutcome) s = .next { s with
      ver := { s.ver with outcomes := rest } }) ∧
  ∀ (s : State) (r : Request) (p : Port) (n : Nat), s.TakesWhole 0x08 5 r p → s.Names r n false →
    ((byteAt r.msg 8).toNat ≤ 200 ∨ byteAt r.msg 8 = 0xFF) →
    (∀ u, s.Verifies n u → ∃ t, exec .release s = .next t ∧
      ({ s with port := p } : State).endsVerifying t n u .verifyAborted (some ⟨r.slot, r.sub, r.handle, none, none⟩) []) ∧
    ((s.recordOf n).st = .verifyWait → (s.recordOf n).partner = none → s.sw.list.length + (s.recordOf n).legs.length ≤ 96 →
      ∃ t, exec .release s = .next t ∧
        ({ s with mgr := { s.mgr with wait := s.mgr.wait.filter fun h => decide (h ≠ s.handle n) } } : State).circuitClaim t
          ((s.recordOf n).legs.map fun l => s.breakEntry n l.slot) []
          ((p.answerOpening (s.recordOf n).openAns .verifyAborted (handleBytes (s.handle n) ++ List.replicate 15 0 ++ [0xFF, 0, 0])).answer
            r.slot r.sub .ok (handleBytes r.handle ++ [0xFF, 0xFF, 0xFF, 0xFF])) ∧
        s.recordBecomes t n (Rec.free ((s.recordOf n).gen + 1)) ∧ s.fanLeaves t [n])

/-- A boundary report whose outcomes, of any kinds on any slots, name one circuit (03 R59; R51, R54, R68, 04 R84, R78, 05 R100, R101). In every state of
the circuit MADE takes its legs in MAKING to LIVE, BROKEN removes its legs in BREAKING, and no other leg is touched: neither by MADE on a leg in BREAKING,
nor by BROKEN or CHANGED on one in MAKING. A circuit in MAKING without a partner is ACTIVE with no leg left in MAKING, and its opening is answered; one of
a pair is ACTIVE then, and when its partner is ACTIVE too, or in the same report, the pair is answered with its handles and source faults. On a circuit
ACTIVE or HELD any outcome completes a pending drive change, and on a verified circuit the switch to SOURCE. In VERIFY_WAIT, in VERIFYING before
DETECTED and in RELEASING the legs alone change (04 R75, R76, 05 R99). A BREAKING circuit and its partner are FREE with no leg left, their generations
stepped, the release answered (for a TEST circuit see EndOfAccessGivesTheSlotBack); with a leg left it stays BREAKING. Outcomes of stale handles alone do
nothing. An OPEN without verify is answered with round trip 0000h by log 15. -/
def Obligations.BoundaryReportMovesLegsAndCircuits : Prop :=
  (∀ (s : State) (rest : List Report) (n : Nat) (outs : List (Slot × OutcomeKind)), s.Ready → n < 512 → outs ≠ [] →
    s.sw.reports = (outs.map fun o => (o.1, [⟨s.handle n, o.2⟩])) :: rest → (s.recordOf n).partner ≠ some n →
    let s' : State := { s with sw := { s.sw with reports := rest } }
    let x := s.recordOf n
    let answered (y : Rec) : Rec := if x.openAns.isSome then { y with openAns := none, roundTrip := none } else y
    let fault (m : Nat) : Raise := if (s.recordOf m).fault then [(81 + m, .sourceFault)] else []
    let legs := x.legsAfter outs
    let moved := ∃ t, exec .boundaryReport s = .next t ∧ s'.circuitClaim t [] [] s.port ∧ s.recordBecomes t n { x with legs := legs } ∧ s.fanStands t
    (x.st ∈ [.free, .verifyWait, .releasing] ∨ (x.st = .verifying ∧ x.roundTrip = none) → moved) ∧
    (x.st = .making → x.target = some .source →
      ((∃ l ∈ legs, l.st = .making) → moved) ∧
      ((∀ l ∈ legs, l.st ≠ .making) →
        (x.partner = none → ∃ t, exec .boundaryReport s = .next t ∧
          s'.circuitClaim t [] (fault n) (s.port.answerOpening x.openAns .ok (handleBytes (s.handle n) ++
            [4, if x.fault then 1 else 0, BitVec.ofNat 8 legs.length] ++ legsBytes legs ++ [0xFF] ++ bytes16 (x.roundTrip.getD 0))) ∧
          s.recordBecomes t n (answered { x with legs := legs, st := .active }) ∧ s.fanStands t) ∧
        ∀ q, x.partner = some q →
          ((s.recordOf q).st ≠ .active → ∃ t, exec .boundaryReport s = .next t ∧ s'.circuitClaim t [] [] s.port ∧
            s.recordBecomes t n { x with legs := legs, st := .active } ∧ s.fanStands t) ∧
          ((s.recordOf q).st = .active → ∃ t, exec .boundaryReport s = .next t ∧
            s'.circuitClaim t [] (fault n ++ fault q) (s.port.answerOpening x.openAns .ok ((x.openAns.map fun a =>
              a.handles.flatMap handleBytes ++ a.handles.map fun h => if (s.recordOf h.num).fault then 1 else 0).getD [])) ∧
            s.recordsBecome t [n, q] (fun m y => if m = n then answered { x with legs := legs, st := .active } else answered y) ∧
            s.fanStands t))) ∧
    (x.st = .breaking →
      let ms := n :: x.partner.toList
      let others := ∀ q, x.partner = some q → (s.recordOf q).legs = []
      (x.cls ≠ .test → legs = [] → others → ∃ t, exec .boundaryReport s = .next t ∧ s'.circuitClaim t [] [] (s.answersReleases ms) ∧
        s.recordsBecome t ms (fun _ y => Rec.free (y.gen + 1)) ∧ s.fanLeaves t ms) ∧
      (legs ≠ [] ∨ (x.cls ≠ .test ∧ ¬others) → moved)) ∧
    (∀ target, x.serving → x.target = some target → ∃ t, exec .boundaryReport s = .next t ∧ s'.circuitClaim t [] [] s.port ∧
      s.recordBecomes t n { x with legs := legs, st := if target = .hold then .held else .active } ∧ s.fanStands t) ∧
    (∀ u trip, s.Verifies n u → x.roundTrip = some trip →
      let done (y : Rec) : Rec := answered { y with legs := legs, st := .active, target := some .source, verify := none }
      let port := s.port.answerOpening x.openAns .ok (handleBytes (s.handle n) ++ [4, if x.fault then 1 else 0, BitVec.ofNat 8 legs.length] ++
        legsBytes legs ++ [BitVec.ofNat 8 u.val] ++ bytes16 trip)
      (s.mgr.wait = [] → ∃ t, exec .boundaryReport s = .next t ∧
        ({ s' with ver := { s.ver with units := t.ver.units } } : State).circuitClaim t [] (fault n) port ∧
        (∀ v : Fin 4, t.ver.unit v = if v = u then VerifyUnit.idle else s.ver.unit v) ∧ s.recordBecomes t n (done x) ∧ s.fanStands t) ∧
      ∀ h rest field, s.mgr.wait = h :: rest → (s.recordOf h.num).st = .verifyWait → (s.recordOf h.num).verify = some field →
        let assigned : VerifyUnit := { VerifyUnit.idle with
          st := .sending, circuit := some h, ret := some field.ret, limit := field.tvfy * 80 }
        let up := viewUp s.ver.view field.ret.lane
        ∃ t, exec .boundaryReport s = .next t ∧
          ({ s' with ver := t.ver, mgr := { s.mgr with wait := rest } } : State).circuitClaim t
            (s.changeEntries h.num (s.recordOf h.num) .token (some u)) (fault n) port ∧
          s.recordsBecome t [n, h.num] (fun m y => if m = n then done y else { y with st := .verifying }) ∧ s.fanStands t ∧
          t.ver.view = s.ver.view ∧
          (∀ v : Fin 4, t.ver.unit v = if v = u then (if up then assigned else { assigned with st := .done, outcome := some .returnLost })
            else s.ver.unit v) ∧
          t.ver.outcomes = s.ver.outcomes ++ (if up then [] else [⟨u, h, .returnLost⟩]))) ∧
  (∀ (s : State) (rest : List Report) (n q : Nat) (k j : Slot), s.Ready → n < 512 → q < 512 → n ≠ q →
    s.sw.reports = [(k, [⟨s.handle n, .made⟩]), (j, [⟨s.handle q, .made⟩])] :: rest →
    (∀ m ∈ [n, q], (s.recordOf m).st = .making ∧ (s.recordOf m).target = some .source) →
    (s.recordOf n).partner = some q → (s.recordOf q).partner = some n →
    (∀ l ∈ (s.recordOf n).legs, l.slot = k) → (∀ l ∈ (s.recordOf q).legs, l.slot = j) →
    let fault (m : Nat) : Raise := if (s.recordOf m).fault then [(81 + m, .sourceFault)] else []
    let opening := (s.recordOf q).openAns
    let made (y : Rec) : Rec := { y with st := .active, legs := y.legs.map fun l => if l.st = .making then { l with st := .live } else l }
    ∃ t, exec .boundaryReport s = .next t ∧
      ({ s with sw := { s.sw with reports := rest } } : State).circuitClaim t [] (fault q ++ fault n)
        (s.port.answerOpening opening .ok ((opening.map fun a =>
          a.handles.flatMap handleBytes ++ a.handles.map fun h => if (s.recordOf h.num).fault then 1 else 0).getD [])) ∧
      s.recordsBecome t [n, q] (fun _ y => if opening.isSome then { made y with openAns := none, roundTrip := none } else made y) ∧
      s.fanStands t) ∧
  ∀ (s : State) (x : Report) (rest : List Report), s.Ready → s.sw.reports = x :: rest → (∀ e ∈ x, ∀ o ∈ e.2, s.isCurrent o.h = false) →
    exec .boundaryReport s = .next { s with sw := { s.sw with reports := rest } }

/-- Outcomes and claims of handles that name no record any more do nothing (01 R11): a boundary report of stale outcomes alone, a stale clear-down
end, a stale expiry, are taken and change nothing.
A clear-down end (05 R98) takes a RELEASING circuit and its partner to BREAKING and breaks their LIVE legs. A valid expiry (05 R104, 04 R88,
08 R168) raises EXPIRED on a circuit and its partner, and releases it with its own clear-down (FREE at once with nothing but DISPLACED legs, R96), ends
its verification or its wait for a unit, or ends its test access. The frame count of a unit whose frame has ended and is not judged is that frame's
(log 19), an opening that waits for a unit is answered with unit FFh and frame count 0 (log 28), and what a test record remembers of the restored
owner is the model's (logs 13, 14). -/
def Obligations.ClearDownEndsAndExpiriesTakeCircuitsDown : Prop :=
  ((∀ (s : State) (x : Report) (rest : List Report), s.Ready → s.sw.reports = x :: rest → (∀ e ∈ x, ∀ o ∈ e.2, s.isCurrent o.h = false) →
    exec .boundaryReport s = .next { s with sw := { s.sw with reports := rest } }) ∧
  (∀ (s : State) (h : Handle) (rest : List Handle), s.Ready → s.sw.ends = h :: rest →
    (s.isCurrent h = false ∨ (s.recordOf h.num).st ≠ .releasing) →
    exec .clearDownEnd s = .next { s with sw := { s.sw with ends := rest } }) ∧
  ∀ (s : State) (h : Handle) (rest : List Handle), s.Ready → s.lease.expiries = h :: rest →
    (s.isCurrent h = false ∨ (s.recordOf h.num).lease ≠ some 0 ∨ (s.recordOf h.num).st = .releasing ∨ (s.recordOf h.num).st = .breaking) →
    exec .expiryClaim s = .next { s with lease := { s.lease with expiries := rest } }) ∧
  ((∀ (s : State) (n : Nat) (rest : List Handle), s.Ready → n < 512 → s.sw.ends = s.handle n :: rest → (s.recordOf n).st = .releasing →
    (s.recordOf n).partner ≠ some n →
    let ms := n :: (s.recordOf n).partner.toList
    let live (m : Nat) : List Slot := ((s.recordOf m).legs.filter fun l => decide (l.st = .live)).map (·.slot)
    s.sw.list.length + (ms.flatMap live).length ≤ 96 → ∃ t, exec .clearDownEnd s = .next t ∧
      ({ s with sw := { s.sw with ends := rest } } : State).circuitClaim t (ms.flatMap fun m => (live m).map fun k => s.breakEntry m k) []
        s.port ∧
      s.recordsBecome t ms (fun _ x => { x.breaking (fun l => decide (l.st = .live)) with st := .breaking, clearOf := none }) ∧ s.fanStands t) ∧
  ∀ (s : State) (n : Nat) (rest : List Handle), s.Ready → n < 512 → s.lease.expiries = s.handle n :: rest → (s.recordOf n).lease = some 0 →
    let s' : State := { s with lease := { s.lease with expiries := rest } }
    let raises : Raise := (n :: (s.recordOf n).partner.toList).map fun m => (81 + m, .expired)
    ((s.recordOf n).cls ≠ .test → s.Releasable n → ∃ t, exec .expiryClaim s = .next t ∧
      s'.releases t n (s.recordOf n).clearDown none raises) ∧
    ((s.recordOf n).cls ≠ .test → s.OnlyDisplaced n → ∃ t, exec .expiryClaim s = .next t ∧ s'.freesAtOnce t n raises s.port) ∧
    ((s.recordOf n).cls ≠ .test → (s.recordOf n).st = .verifyWait → (s.recordOf n).partner = none →
      s.sw.list.length + (s.recordOf n).legs.length ≤ 96 → ∃ t, exec .expiryClaim s = .next t ∧ s'.endsWaiting t n raises) ∧
    (∀ u, (s.recordOf n).cls ≠ .test → s.Verifies n u → ∃ t, exec .expiryClaim s = .next t ∧ s'.endsVerifying t n u .verifyAborted none raises) ∧
    ((s.recordOf n).cls = .test → (s.recordOf n).st ≠ .releasing → (s.recordOf n).st ≠ .breaking →
      (∀ d, (s.recordOf n).displ = some d → d.1 ≠ n) → s.sw.list.length + (s.recordOf n).legs.length + 1 ≤ 96 →
      ∃ t, exec .expiryClaim s = .next t ∧ s'.endsAccess t n none raises s.port))

/-- A lease event (R102, R103): every running lease above 0 falls by 1, and the records whose lease comes to 0 are claimed, in order of record number,
one for each pair; the next event is one second on. -/
def Obligations.LeaseEventCountsLeasesDown : Prop :=
  ∀ s : State, s.phase = .run → Tbl.wf (Rec.free 0) s.mgr.recs = true → ∃ t claims, exec .leaseEvent s = .next t ∧
    t = { s with
      mgr := { s.mgr with recs := t.mgr.recs }
      lease := ⟨s.lease.nextAt + 24576000, s.lease.expiries ++ claims⟩ } ∧
    (∀ n, t.recordOf n = if (s.recordOf n).st.leaseRuns then { s.recordOf n with lease := (s.recordOf n).lease.map fun l => l - 1 }
      else s.recordOf n) ∧
    (∀ n g, (⟨n, g⟩ : Handle) ∈ claims ↔ g = (s.recordOf n).gen ∧ (s.recordOf n).st.leaseRuns = true ∧ (s.recordOf n).lease = some 1 ∧
      ∀ q, (s.recordOf n).partner = some q → n < q) ∧
    (claims.map (·.num)).Pairwise (· < ·)

/-! ### Claims that wait for room (03 R69, R70) -/

/-- A claim of any kind whose offer the switch declines is held: the manager keeps it with the defaults in force, the switch keeps the offer and the
clear-down order, and nothing else changes, so that a request's slot stays WORKING; an offer that it does not decline joins the list with the claim's
changes. While a claim is held no other is taken, a lane change included (06 6.4). When a boundary has made room the offer kept joins the list
and the claim's changes are made; an access claim is judged again against the watcher table then (08 R152): it takes its offer as any other, or raises
REFUSED on its watcher and its offer is discarded. What each kind of claim changes and offers is that claim's own statement. An ADD_LEG, a
clear-down end and an access claim are written out. That the claim is taken at a command of its own, which a frame boundary that finds it untaken
takes first, is the model's (log 12), and so is that the offer is taken as it was built (log 31). -/
def Obligations.DeclinedClaimIsHeldAndTakenLater : Prop :=
  (∀ (s s' : State) (c : Instr) (k : Claim), s.Hands c k s' →
    let e := effect s'.port.defaults k (Eff.start s')
    (s'.declines e.offer → exec c s = .next { s' with
      mgr := { s'.mgr with held := some ⟨k, s'.port.defaults⟩ }
      sw := { s'.sw with kept := some ⟨e.offer, e.order, false⟩ } }) ∧
    (¬s'.declines e.offer → ∃ t, exec c s = .next t ∧ s'.makes t e e.offer e.order)) ∧
  (∀ (s : State) (c : Instr), s.mgr.held ≠ none →
    c ∈ ([.openCircuit, .openPair, .addLeg, .dropLeg, .moveSource, .hold, .resume, .release, .touch, .query, .findOut, .findIn, .accessEnd,
      .boundaryReport, .clearDownEnd, .expiryClaim, .detectedOutcome, .verifyFailureOutcome, .releaseLinkedClaim, .holdLinkedClaim,
      .suppressionClaim, .accessClaim, .endOfAccessClaim, .softResetClaim] : List Instr) ∨ (∃ l, c = .laneChangeClaim l) → exec c s = .next s) ∧
  (∀ (s : State) (k : Claim) (d : Defaults) (kp : Kept), s.phase = .run → s.mgr.held = some ⟨k, d⟩ → s.sw.kept = some kp →
    (kp.room = false → exec .heldClaimTaken s = .next s) ∧
    (kp.room = true → ¬s.declines kp.offer → (∀ a, k = .action (.access a) → s.WatchersFit a) →
      let s' : State := { s with mgr := { s.mgr with held := none }, sw := { s.sw with kept := none } }
      ∃ t, exec .heldClaimTaken s = .next t ∧ s'.makes t (effect d k (Eff.start s')) kp.offer kp.order)) ∧
  (∀ (r : Request) (n : Nat) (k : Slot) (s : State), byteAt r.msg 0 = 3 → byteAt r.msg 1 = 6 → parseSlot r.msg 8 = some k → s.Names r n false →
    (s.recordOf n).serving → (s.recordOf n).legs.length < 4 → (∀ l ∈ (s.recordOf n).legs, l.slot ≠ k) → s.mgr.holder k = none →
    let x := s.recordOf n
    let entry := s.legEntry n x x.targetDrive none .made k
    (∀ p, s.Takes .manager 0x03 r p → s.sw.list.length = 96 → (∀ e ∈ s.sw.list, e.slot ≠ k) → exec .addLeg s = .next { s with
      port := p
      mgr := { s.mgr with held := some ⟨.request r, s.port.defaults⟩ }
      sw := { s.sw with kept := some ⟨[entry], none, false⟩ } }) ∧
    ∀ d kp, s.phase = .run → s.mgr.held = some ⟨.request r, d⟩ → s.sw.kept = some kp → s.sw.list.length + kp.offer.length ≤ 96 →
      kp.room = true → ∃ t, exec .heldClaimTaken s = .next t ∧
        t = { s with
          mgr := { s.mgr with held := none, recs := t.mgr.recs }
          sw := { s.sw with kept := none, list := placeOffer s.sw.list kp.offer, counts := s.sw.counts ++ kp.order.toList }
          port := s.port.answerRequest r .ok (handleBytes r.handle ++ [BitVec.ofNat 8 x.legs.length]) } ∧
        s.recordBecomes t n { x with legs := x.legs ++ [⟨k, .making, false, none⟩] }) ∧
  (∀ (s : State) (n : Nat) (k : Slot) (rest : List Handle), s.Ready → n < 512 → s.sw.ends = s.handle n :: rest →
    (s.recordOf n).st = .releasing → (s.recordOf n).partner = none →
    (s.recordOf n).legs.filter (fun l => decide (l.st = .live)) = [⟨k, .live, false, none⟩] →
    s.sw.list.length = 96 → (∀ e ∈ s.sw.list, e.slot ≠ k) → exec .clearDownEnd s = .next { s with
      mgr := { s.mgr with held := some ⟨.clearDownEnd (s.handle n), s.port.defaults⟩ }
      sw := { s.sw with ends := rest, kept := some ⟨[s.breakEntry n k], none, false⟩ } }) ∧
  (∀ (s : State) (a : AccessRequest) (d : Defaults) (kp : Kept), s.phase = .run → s.mgr.held = some ⟨.action (.access a), d⟩ →
    s.sw.kept = some kp → kp.room = true → s.sw.list.length + kp.offer.length ≤ 96 →
    (¬s.WatchersFit a → exec .heldClaimTaken s = .next { s with
      mgr := { s.mgr with held := none }
      sw := { s.sw with kept := none }
      att := { s.att with raises := s.att.raises ++ [(.manager, [(17 + a.watcher, .refused)])] } }) ∧
    ∀ t0, s.WatchersFit a → s.mayLoop a.loop → s.fanRoom (.inbound a.target) 1 → 480 ≤ t0 → t0 < 512 → (s.recordOf t0).st = .free →
      (∀ m, 480 ≤ m → m < t0 → (s.recordOf m).st ≠ .free) → ∃ t, exec .heldClaimTaken s = .next t ∧
        t.sw = { s.sw with kept := none, list := placeOffer s.sw.list kp.offer, counts := s.sw.counts ++ kp.order.toList } ∧
        t.mgr.held = none ∧ (t.recordOf t0).cls = .test ∧ (t.recordOf t0).cond = d.cond ∧ (t.recordOf t0).watcher = some a.watcher ∧
        t.wat.orders = s.wat.orders ++ [.arm a.partner a.watcher (s.handle t0)]) ∧
  ∀ (s t : State) (rx : FrameIn), exec .heldClaimTaken s = .next t → exec (.frameBoundary rx) s = exec (.frameBoundary rx) t

/-- The manager's soft reset claim (01 R22, 04 R89, 10 R199): every record is FREE with its generation stepped, the fan-out lists and the wait list are
empty, the units are IDLE, the switch takes the manager's clearance order, and the claim is acknowledged (a unit's byte of the frame in progress:
log 20; clear-down counts that have run out: log 35). -/
def Obligations.SoftResetClaimFreesEveryRecord : Prop :=
  ∀ (s : State) (id : Nat) (rest : List Nat), s.Ready → s.port.toManager = id :: rest → Tbl.wf VerifyUnit.idle s.ver.units = true →
    (∀ x ∈ s.sw.counts, x.started = true → x.done < x.n) → ∃ t, exec .softResetClaim s = .next t ∧
      t = { s with
        mgr := { s.mgr with recs := t.mgr.recs, fan := [], wait := [], resets := s.mgr.resets + 1 }
        ver := { s.ver with units := t.ver.units }
        sw := { s.sw with list := [], kept := none, counts := [], clearance := s.sw.clearance ++ [.manager id] }
        port := { s.port with toManager := rest, acks := s.port.acks ++ [(.manager, id)] } } ∧
      (∀ n, n < 512 → t.recordOf n = Rec.free ((s.recordOf n).gen + 1)) ∧
      ∀ u : Fin 4, t.ver.unit u = { VerifyUnit.idle with shown := (s.ver.unit u).shown }

/-! ### Watcher actions and test access (07, 08) -/

/-- The manager's claims from watchers that act on circuits (07 R137, R138, 08 R150). RELEASE_LINKED releases its circuit with the record's own
clear-down (FREE at once with nothing but DISPLACED legs, R96), or ends its verification or its wait for a unit (04 R86, R87; logs 19, 28); HOLD_LINKED holds at a confirmation and resumes at a clearing; a circuit that may not be so changed, or a stale handle, raises REFUSED
on the watcher and nothing else; a suppression raises SUPPRESSED on the watcher and changes nothing else. -/
def Obligations.LinkedActionsAndSuppression : Prop :=
  ∀ (s : State) (w : Nat) (rest : List ActionClaim), s.Ready →
    let s' : State := { s with wat := { s.wat with claims := rest } }
    let raised (c : Cause) : State := { s' with att := { s.att with raises := s.att.raises ++ [(.manager, [(17 + w, c)])] } }
    (s.wat.claims = .suppression w :: rest → exec .suppressionClaim s = .next (raised .suppressed)) ∧
    (∀ h, s.wat.claims = .releaseLinked w h :: rest → s.isCurrent h = true → (s.recordOf h.num).cls ≠ .test → s.Releasable h.num →
      ∃ t, exec .releaseLinkedClaim s = .next t ∧ s'.releases t h.num (s.recordOf h.num).clearDown none []) ∧
    (∀ h, s.wat.claims = .releaseLinked w h :: rest → s.isCurrent h = true → (s.recordOf h.num).cls ≠ .test →
      (s.OnlyDisplaced h.num → ∃ t, exec .releaseLinkedClaim s = .next t ∧ s'.freesAtOnce t h.num [] s.port) ∧
      (∀ u, s.Verifies h.num u → ∃ t, exec .releaseLinkedClaim s = .next t ∧ s'.endsVerifying t h.num u .verifyAborted none []) ∧
      ((s.recordOf h.num).st = .verifyWait → (s.recordOf h.num).partner = none →
        s.sw.list.length + (s.recordOf h.num).legs.length ≤ 96 → ∃ t, exec .releaseLinkedClaim s = .next t ∧ s'.endsWaiting t h.num [])) ∧
    (∀ h, s.wat.claims = .releaseLinked w h :: rest → (s.isCurrent h = false ∨ (s.recordOf h.num).cls = .test ∨
        (s.recordOf h.num).st = .free ∨ (s.recordOf h.num).st = .releasing ∨ (s.recordOf h.num).st = .breaking) →
      exec .releaseLinkedClaim s = .next (raised .refused)) ∧
    (∀ h confirmation, s.wat.claims = .holdLinked w h confirmation :: rest → s.isCurrent h = true → (s.recordOf h.num).cls ≠ .test →
      (s.recordOf h.num).partner ≠ some h.num →
      let ms := h.num :: (s.recordOf h.num).partner.toList
      let new : Target := if confirmation then .hold else .source
      let after (x : Rec) : Rec := { x with target := some new, st := if x.carrying = [] then (if confirmation then .held else .active) else x.st }
      (∀ m ∈ ms, (s.recordOf m).serving ∧ (s.recordOf m).target = some (if confirmation then .source else .hold)) →
      s.sw.list.length + (ms.flatMap fun m => (s.recordOf m).carrying).length ≤ 96 → ∃ t, exec .holdLinkedClaim s = .next t ∧
        s'.circuitClaim t (ms.flatMap fun m => s.changeEntries m (s.recordOf m) (if confirmation then .hold else .source) none) [] s.port ∧
        s.recordsBecome t ms (fun _ x => after x) ∧ s.fanStands t) ∧
    ∀ h confirmation, s.wat.claims = .holdLinked w h confirmation :: rest → (s.isCurrent h = false ∨ (s.recordOf h.num).cls = .test ∨
        ¬(s.recordOf h.num).serving ∨ (s.recordOf h.num).target ≠ some (if confirmation then .source else .hold)) →
      exec .holdLinkedClaim s = .next (raised .refused)

/-- An access claim that fits (R151-R157): the lowest FREE record of the test pool is made the TEST circuit of the access, CREATED is raised, the loop
slot's owner if any has its leg DISPLACED with DISPLACED raised, one entry gives the slot to the test circuit, the up watcher takes the link, and the
arming order for its partner is given.
An access claim that does not fit, by the judgements on its watchers (its up watcher an ACCESS_UP head, R156, table 8.1), its loop slot, its source's list or the test pool, raises REFUSED on its watcher
and nothing else (R151, R152, R169). That R151's judgements read the target that the claim carries is the model's reading (log 34), and so is that the test record
remembers the down watcher that the claim named (log 44). -/
def Obligations.AccessClaimMakesATestCircuitOrIsRefused : Prop :=
  (∀ (s : State) (a : AccessRequest) (rest : List ActionClaim) (t0 : Nat), s.Ready → s.wat.claims = .access a :: rest →
    s.WatchersFit a → 480 ≤ t0 → t0 < 512 → (s.recordOf t0).st = .free →
    (∀ m, 480 ≤ m → m < t0 → (s.recordOf m).st ≠ .free) → s.fanRoom (.inbound a.target) 1 → s.sw.list.length + 1 ≤ 96 →
    let s' : State := { s with wat := { s.wat with claims := rest } }
    let lease : Option Nat := if a.lease = 0 then none else some a.lease
    let x (displ : Option (Nat × Slot)) : Rec := { Rec.free (s.recordOf t0).gen with
      st := .making
      cls := .test
      source := some (.inbound a.target)
      legs := [⟨a.loop, .making, false, none⟩]
      cond := s.port.defaults.cond
      holdB := s.port.defaults.holdB
      rel := s.port.defaults.rel
      clearDown := s.port.defaults.clearDown
      lease := lease
      reload := lease
      fault := s.sourceFault (.inbound a.target)
      displ := displ
      watcher := some a.watcher
      down := some a.partner
      tag := BitVec.ofNat 16 a.watcher
      target := some .source }
    let linked (t : State) : Prop :=
      t.wat = { s.wat with table := t.wat.table, claims := rest, orders := s.wat.orders ++ [.arm a.partner a.watcher (s.handle t0)] } ∧
      (s.watchersBecome t [a.watcher] fun _ y => { y with run := { y.run with link := some (s.handle t0) } }) ∧
      s.fanJoins t t0 (.inbound a.target)
    (s.mgr.holder a.loop = none → ∃ t, exec .accessClaim s = .next t ∧ linked t ∧
      ({ s' with wat := t.wat } : State).circuitClaim t
        [⟨a.loop, legContent t0 (x none) .source none, s.kept [t0] a.loop ++ [⟨s.handle t0, .made⟩]⟩] [(81 + t0, .created)] s.port ∧
      s.recordBecomes t t0 (x none)) ∧
    ∀ o, s.mgr.holder a.loop = some o → (s.recordOf o).cls = .normal → (s.recordOf o).serving → o ≠ t0 →
      (∃ l ∈ (s.recordOf o).legs, l.holdsSlot a.loop = true ∧ l.carries = true) → ∃ t, exec .accessClaim s = .next t ∧ linked t ∧
        ({ s' with wat := t.wat } : State).circuitClaim t
          [⟨a.loop, legContent t0 (x (some (o, a.loop))) .source none,
            s.kept [o, t0] a.loop ++ [⟨s.handle o, .changed⟩, ⟨s.handle t0, .made⟩]⟩]
          [(81 + t0, .created), (81 + o, .displaced)] s.port ∧
        s.recordsBecome t [t0, o] fun m y => if m = t0 then x (some (o, a.loop)) else { y with
          legs := y.legs.map fun l => if l.slot = a.loop then { l with st := .displaced, link := some t0 } else l }) ∧
  (∀ (s : State) (a : AccessRequest) (rest : List ActionClaim), s.Ready → s.wat.claims = .access a :: rest →
    (¬s.WatchersFit a ∨ ¬s.mayLoop a.loop ∨ 8 ≤ (s.mgr.fanOf a.target).length ∨ ∀ m, 480 ≤ m → m < 512 → (s.recordOf m).st ≠ .free) →
    exec .accessClaim s = .next { s with
      wat := { s.wat with claims := rest }
      att := { s.att with raises := s.att.raises ++ [(.manager, [(17 + a.watcher, .refused)])] } })

/-- An end of access, by the down watcher's claim or by ACCESS_END (R162, R166, R167): the test circuit is BREAKING and its loop slot goes back to the
displaced owner or to idle; a circuit that is no test circuit in MAKING or ACTIVE is REFUSED or STATE_CONFLICT, and a claim with a stale handle or with
none is REFUSED. The report of the break frees the
test circuit, raises ACCESS_ENDED, removes the link and gives the disarming order, to the down watcher that the access claim named, and the return order
(R164, R165). With the owner's leg MADE it is LIVE again and RESTORED is raised; an owner that was released, or that dropped the leg, in the meantime raises
nothing: its leg on the slot is in BREAKING, and stays so, or is removed by its own BROKEN in the same report, and the owner stays in its state or, BREAKING
with no leg left, is FREE with its partner. An owner whose handle is stale raises nothing either. What the test record remembers of the restored owner and of the down watcher is the
model's (log 13, log 14, log 44), and so is the number that the return order carries (log 45). -/
def Obligations.EndOfAccessGivesTheSlotBack : Prop :=
  (∀ (s : State) (w n : Nat) (rest : List ActionClaim), s.Ready → n < 512 →
    s.wat.claims = .endOfAccess w (some (s.handle n)) :: rest → (∀ d, (s.recordOf n).displ = some d → d.1 ≠ n) →
    let s' : State := { s with wat := { s.wat with claims := rest } }
    let fits := (s.recordOf n).cls = .test ∧ ((s.recordOf n).st = .making ∨ (s.recordOf n).st = .active)
    (fits → s.sw.list.length + (s.recordOf n).legs.length + 1 ≤ 96 → ∃ t, exec .endOfAccessClaim s = .next t ∧
      s'.endsAccess t n none [] s.port) ∧
    (¬fits → exec .endOfAccessClaim s = .next { s' with
      att := { s.att with raises := s.att.raises ++ [(.manager, [(17 + w, .refused)])] } })) ∧
  (∀ (s : State) (w : Nat) (c : Option Handle) (rest : List ActionClaim), s.Ready → s.wat.claims = .endOfAccess w c :: rest →
    (∀ h, c = some h → s.isCurrent h = false) → exec .endOfAccessClaim s = .next { s with
      wat := { s.wat with claims := rest }
      att := { s.att with raises := s.att.raises ++ [(.manager, [(17 + w, .refused)])] } }) ∧
  (∀ (s : State) (r : Request) (p : Port) (n : Nat), s.TakesWhole 0x0D 4 r p → s.Names r n true →
    (∀ d, (s.recordOf n).displ = some d → d.1 ≠ n) →
    let fits := (s.recordOf n).cls = .test ∧ ((s.recordOf n).st = .making ∨ (s.recordOf n).st = .active)
    (fits → s.sw.list.length + (s.recordOf n).legs.length + 1 ≤ 96 → ∃ t, exec .accessEnd s = .next t ∧
      s.endsAccess t n (some ⟨r.slot, r.sub, r.handle, (s.recordOf n).legs.head?.map (·.slot),
        (s.recordOf n).displ.map fun d => s.handle d.1⟩) [] p) ∧
    (¬fits → exec .accessEnd s = .next { s with
      port := p.answerRequest r .stateConflict ([byteAt r.msg 4, byteAt r.msg 5, byteAt r.msg 6, byteAt r.msg 7, 0xFF, 0xFF]) })) ∧
  ∀ (s : State) (rest : List Report) (n w d : Nat) (k : Slot) (l : Leg), s.Ready → n < 512 →
    (s.recordOf n).st = .breaking → (s.recordOf n).cls = .test → (s.recordOf n).partner = none → (s.recordOf n).legs = [l] → l.slot = k →
    l.st = .breaking → (s.recordOf n).watcher = some w → (s.recordOf n).down = some d → (s.wat.watcher w).run.link = some (s.handle n) →
    let ends (freed : List Nat) (raises : Raise) (t : State) : Prop :=
      t.wat = { s.wat with
        table := t.wat.table, orders := s.wat.orders ++ [.disarm d (s.handle n), .giveBack w (s.handle n) s.mgr.resets] } ∧
      (s.watchersBecome t [w] fun _ y => { y with run := { y.run with link := none } }) ∧
      ({ s with wat := t.wat, sw := { s.sw with reports := rest } } : State).circuitClaim t [] (raises ++ [(81 + n, .accessEnded)])
        (s.answersReleases freed) ∧
      s.fanLeaves t freed
    (∀ more, s.sw.reports = [(k, ⟨s.handle n, .broken⟩ :: more)] :: rest → (∀ o ∈ more, s.isCurrent o.h = false) →
      (∀ h j, (s.recordOf n).restoring = some (h, j) → s.isCurrent h = false) → ∃ t, exec .boundaryReport s = .next t ∧
        ends [n] [] t ∧ s.recordBecomes t n (Rec.free ((s.recordOf n).gen + 1))) ∧
    ∀ o kind, s.sw.reports = [(k, [⟨s.handle n, .broken⟩, ⟨s.handle o, kind⟩])] :: rest → (s.recordOf n).restoring = some (s.handle o, k) →
      o ≠ n → o < 512 → (s.recordOf o).cls ≠ .test → (∀ q, (s.recordOf o).partner = some q → q ≠ n ∧ q ≠ o) →
      let y := s.recordOf o
      let legs := y.legsAfter [(k, kind)]
      let restored : Raise := if ∃ x ∈ legs, x.slot = k ∧ x.st = .live then [(81 + o, .restored)] else []
      let becomes (t : State) (y' : Rec) : Prop := s.recordsBecome t [n, o] fun m z => if m = n then Rec.free (z.gen + 1) else y'
      (∀ tg, y.serving → y.target = some tg → ∃ t, exec .boundaryReport s = .next t ∧ ends [n] restored t ∧
        becomes t { y with legs := legs, st := if tg = .hold then .held else .active }) ∧
      (y.st = .releasing ∨ (y.st = .breaking ∧ (legs ≠ [] ∨ ∃ q, y.partner = some q ∧ (s.recordOf q).legs ≠ [])) →
        ∃ t, exec .boundaryReport s = .next t ∧ ends [n] restored t ∧ becomes t { y with legs := legs }) ∧
      (y.st = .breaking → legs = [] → (∀ q, y.partner = some q → (s.recordOf q).legs = []) →
        let freed := n :: o :: y.partner.toList
        ∃ t, exec .boundaryReport s = .next t ∧ ends freed [] t ∧ s.recordsBecome t freed fun _ z => Rec.free (z.gen + 1))

/-! ### Invariants -/

/-- The invariants below hold right after reset. -/
def Obligations.InvariantsHoldAtReset : Prop :=
  State.reset.tablesCanonical = true ∧ State.reset.routed ∧ State.reset.listInRoom ∧ State.reset.timingLegal ∧ State.reset.banksLegal ∧
    State.reset.areasLegal ∧ State.reset.heldHasOffer ∧ State.reset.circuitsLegal ∧ State.reset.quietUntilRun

/-- Every step keeps every table in its canonical form, so that equal contents are equal data. -/
def Obligations.StepsKeepTablesCanonical : Prop :=
  ∀ s t : State, s.tablesCanonical = true → step s = .next t → t.tablesCanonical = true

/-- Every step keeps the routing queues and the QUEUED slots the same, each slot at most once and with its owner (R193); and it keeps the
pending-change list within 96 entries with one for each slot (R31, R32), and a held claim beside a kept offer (03 R69). -/
def Obligations.StepsKeepTheQueuesAndTheList : Prop :=
  (∀ s t : State, s.routed → step s = .next t → t.routed) ∧
    ∀ s t : State, s.listInRoom ∧ s.heldHasOffer → step s = .next t → t.listInRoom ∧ t.heldHasOffer

/-- Every step keeps the circuit table consistent, the tables being canonical: partners (01 R15), legs, displacement links (01 R7) and the wait list
(04 R77). -/
def Obligations.StepsKeepCircuitsLegal : Prop :=
  ∀ s t : State, s.tablesCanonical = true ∧ s.circuitsLegal → step s = .next t → t.tablesCanonical = true ∧ t.circuitsLegal

/-- Every step keeps the frame timing, the generators, the lanes, the watchers and the areas legal, the tables being canonical. -/
def Obligations.StepsKeepCountsInRange : Prop :=
  ∀ s t : State, s.tablesCanonical = true ∧ s.timingLegal ∧ s.banksLegal ∧ s.areasLegal → step s = .next t →
    t.tablesCanonical = true ∧ t.timingLegal ∧ t.banksLegal ∧ t.areasLegal

/-- Every step keeps the part at its hard-reset values until the end of tINIT, the port faults of tINIT apart (R203). -/
def Obligations.StepsKeepThePartQuietUntilItRuns : Prop :=
  ∀ s t : State, s.quietUntilRun → step s = .next t → t.quietUntilRun
end

