-- ==== Sys2Proof/Laws/Effects.lean ====
section
/-! SUPPORT. What the claims of the circuit manager can do, said once: every effect is built from the thirteen changes below, so a property of
an effect that each of them keeps is kept by every claim (`Eff.Closed.effect`). -/

namespace Sys2Proof.Machine

-- One proof after another: side by side, threads that wait for one another hold a stack each and run out of memory.
set_option Elab.async false

/-- A property of an effect that every change a claim can make keeps. A record is changed with its generation kept, or freed with its
generation stepped. -/
structure Eff.Closed (P : Eff → Prop) : Prop where
  updRec : ∀ e n f, (∀ r : Rec, (f r).gen = r.gen) → P e → P (e.updRec n f)
  free : ∀ e n, P e → P (e.updRec n fun r => Rec.free (r.gen + 1))
  answer : ∀ e n sub st res, P e → P { e with port := e.port.answer n sub st res }
  raise : ∀ e r, P e → P { e with raise := r }
  addEntry : ∀ e k c own, P e → P (e.addEntry k c own)
  fan : ∀ e k g, P e → P { e with mgr := { e.mgr with fan := Tbl.upd [] e.mgr.fan k g } }
  wait : ∀ e w, P e → P { e with mgr := { e.mgr with wait := w } }
  view : ∀ e l st, P e → P { e with mgr := { e.mgr with view := setView e.mgr.view l st } }
  unit : ∀ e u x, P e → P { e with ver := e.ver.setUnit u x }
  outcomes : ∀ e l, P e → P { e with ver := { e.ver with outcomes := l } }
  run : ∀ e w f, P e → P { e with wat := e.wat.updRun w f }
  orders : ∀ e l, P e → P { e with wat := { e.wat with orders := l } }
  order : ∀ e o, P e → P { e with order := o }

variable {P : Eff → Prop}

/-- A fold of changes that keep a property keeps it. -/
theorem foldl_keeps {β : Type} (f : Eff → β → Eff) (hf : ∀ e x, P e → P (f e x)) (l : List β) :
    ∀ e, P e → P (l.foldl f e) := by
  induction l with
  | nil => exact fun _ h => h
  | cons x l ih => exact fun e h => ih _ (hf e x h)

namespace Eff.Closed

variable (C : Eff.Closed P)
include C

/-! ### Parts -/

theorem upd {e : Eff} {n : Nat} {f : Rec → Rec} (h : P e) (hf : ∀ r : Rec, (f r).gen = r.gen := by intro _; rfl) : P (e.updRec n f) :=
  C.updRec e n f hf h

theorem foldUpd {f : Rec → Rec} {l : List Nat} {e : Eff} (h : P e) (hf : ∀ r : Rec, (f r).gen = r.gen := by intro _; rfl) :
    P (l.foldl (fun e m => e.updRec m f) e) :=
  foldl_keeps _ (fun e m he => C.updRec e m f hf he) l e h

omit C in
theorem chooseWatcher {c : Prop} [Decidable c] {e : Eff} {w : WatcherUnit} (h : P { e with wat := w }) (he : P e) :
    P { e with wat := if c then w else e.wat } := by
  split
  · exact h
  · exact he

omit C in
theorem choose {c : Prop} [Decidable c] {a b : Eff} (ha : P a) (hb : P b) : P (if c then a else b) := by
  split
  · exact ha
  · exact hb

theorem putOrders {e : Eff} {w : WatcherUnit} {l : List WatchOrder} (h : P { e with wat := w }) :
    P { e with wat := { w with orders := l } } := C.orders { e with wat := w } l h

theorem add {e : Eff} {k : Slot} {c : Content} {own : List LegOutcome} (h : P e) : P (e.addEntry k c own) := C.addEntry e k c own h

theorem raiseOn (e : Eff) (n : Nat) (c : Cause) (h : P e) : P (e.raiseOn n c) := C.raise e _ h

theorem raiseWatcher (e : Eff) (w : Nat) (c : Cause) (h : P e) : P (e.raiseWatcher w c) := C.raise e _ h

theorem setState (e : Eff) (n : Nat) (st : CircState) (h : P e) : P (e.setState n st) := C.upd h

theorem joinFan (e : Eff) (src : Option Source) (n : Nat) (h : P e) : P (e.joinFan src n) := by
  unfold Eff.joinFan; split
  · exact C.fan e _ _ h
  · exact h

theorem leaveFan (e : Eff) (src : Option Source) (n : Nat) (h : P e) : P (e.leaveFan src n) := by
  unfold Eff.leaveFan; split
  · exact C.fan e _ _ h
  · exact h

theorem answerOpen (e : Eff) (n : Nat) (st : Status) (res : List Byte) (h : P e) : P (e.answerOpen n st res) := by
  unfold Eff.answerOpen; split
  · exact h
  · exact C.answer _ _ _ _ _ (C.foldUpd h)

theorem offerLegs (e : Eff) (n : Nat) (d : Drive) (u : Option (Fin 4)) (h : P e) : P (e.offerLegs n d u) :=
  foldl_keeps _ (fun _ _ he => C.add he) _ e h

theorem breakLegs (e : Eff) (n : Nat) (p : Leg → Bool) (h : P e) : P (e.breakLegs n p) :=
  foldl_keeps _ (fun _ _ he => C.add he) _ _ (C.upd h)

theorem offerMakes (e : Eff) (n : Nat) (d : Drive) (u : Option (Fin 4)) (vs : List (Slot × Nat)) (ks : List Slot) (h : P e) :
    P (e.offerMakes n d u vs ks) :=
  foldl_keeps _ (fun _ _ he => C.add he) _ e h

theorem assign (e : Eff) (u : Fin 4) (hd : Handle) (f : VerifyField) (h : P e) : P { e with ver := e.ver.assign u hd f } := by
  unfold Verifier.assign; split
  · exact C.unit e _ _ h
  · exact C.outcomes _ _ (C.unit e u _ h)

theorem freeUnit (e : Eff) (u : Fin 4) (h : P e) : P (e.freeUnit u) := by
  unfold Eff.freeUnit
  have h1 := C.unit e u VerifyUnit.idle h
  simp only
  split
  · exact h1
  · apply C.offerLegs
    split
    · exact C.assign _ _ _ _ (C.upd (C.wait _ _ h1))
    · exact C.upd (C.wait _ _ h1)

theorem takeOut (e : Eff) (n : Nat) (h : P e) : P (e.takeOut n) :=
  C.upd (C.foldUpd h)

theorem enterFree (e : Eff) (n : Nat) (h : P e) : P (e.enterFree n) := by
  unfold Eff.enterFree
  have h1 := C.free _ n (C.leaveFan e (e.recOf n).source n h)
  simp only
  split
  · exact h1
  · exact C.answer _ _ _ _ _ h1

theorem releaseServing (e : Eff) (n clear : Nat) (ans : Option ReleaseAnswer) (h : P e) : P (e.releaseServing n clear ans) := by
  unfold Eff.releaseServing
  simp only
  have h1 := C.updRec _ n (fun r => { r with relAns := ans }) (fun _ => rfl) (foldl_keeps _ C.takeOut (e.members n) e h)
  split
  · apply C.order
    refine C.foldUpd ?_
    apply foldl_keeps _ fun e m he => C.offerLegs e m _ _ he
    exact foldl_keeps _ (fun e m he => C.breakLegs e m _ he) _ _ h1
  · have h2 := foldl_keeps _ (fun e m he => C.setState _ m .breaking (C.breakLegs e m Leg.carries he)) (e.members n) _ h1
    split <;> split
    · exact foldl_keeps _ C.enterFree _ _ (C.answerOpen _ _ _ _ h2)
    · exact C.answerOpen _ _ _ _ h2
    · exact foldl_keeps _ C.enterFree _ _ h2
    · exact h2

theorem releaseWaiting (e : Eff) (n : Nat) (ans : Option ReleaseAnswer) (h : P e) : P (e.releaseWaiting n ans) :=
  C.enterFree _ _ (C.answerOpen _ _ _ _ (C.breakLegs _ _ _ (C.upd (C.wait e _ h))))

theorem endVerifying (e : Eff) (n : Nat) (st : Status) (ans : Option ReleaseAnswer) (h : P e) : P (e.endVerifying n st ans) := by
  unfold Eff.endVerifying
  simp only
  have h1 := fun res => C.answerOpen _ n st res
    (C.breakLegs _ n (fun _ => true) (C.updRec e n (fun r => { r with
      st := .breaking, verify := none, lease := none, reload := none, target := none, relAns := ans }) (fun _ => rfl) h))
  cases hs : e.ver.serving (e.handleOf n) with
  | none => exact h1 _
  | some u => exact C.freeUnit _ _ (h1 _)

theorem releaseCircuit (e : Eff) (n clear : Nat) (ans : Option ReleaseAnswer) (h : P e) : P (e.releaseCircuit n clear ans) := by
  unfold Eff.releaseCircuit
  split
  · exact C.releaseWaiting e n ans h
  · exact C.endVerifying e n _ ans h
  all_goals first | exact C.releaseServing e n clear ans h | exact h

theorem tryFree (e : Eff) (n : Nat) (h : P e) : P (e.tryFree n) := by
  unfold Eff.tryFree; simp only
  split
  · exact foldl_keeps _ C.enterFree _ e h
  · exact h

theorem driveCircuit (e : Eff) (n : Nat) (t : Target) (h : P e) : P (e.driveCircuit n t) := by
  refine foldl_keeps _ (fun e m he => ?_) _ e h
  unfold Eff.driveRecord; simp only
  have h1 := C.updRec e m (fun r => { r with target := some t }) (fun _ => rfl) he
  split
  · exact C.offerLegs _ _ _ _ h1
  · exact C.setState _ _ _ h1

theorem preempt (e : Eff) (vs : List (Slot × Nat)) (h : P e) : P (e.preempt vs) := by
  refine foldl_keeps _ (fun e v he => ?_) _ _ (foldl_keeps _ (fun e p he => C.upd he) vs e h)
  simp only
  split
  · exact C.setState _ _ _ (C.takeOut _ _ (C.raiseOn _ _ _ he))
  · exact C.raiseOn _ _ _ he

theorem releasePartners (e : Eff) (ps : List Nat) (h : P e) : P (e.releasePartners ps) :=
  foldl_keeps _ (fun _ p he => C.raiseOn _ _ _ (C.setState _ _ _ (C.breakLegs _ p _ (C.takeOut _ p he)))) _ e h

theorem endAccess (e : Eff) (t : Nat) (ans : Option ReleaseAnswer) (h : P e) : P (e.endAccess t ans) := by
  unfold Eff.endAccess; simp only
  split
  · exact foldl_keeps _ (fun _ _ he => C.add he) _ _ (C.upd h)
  · exact C.addEntry _ _ _ _ (C.upd (C.upd h))

theorem freeTest (e : Eff) (t : Nat) (h : P e) : P (e.freeTest t) := by
  unfold Eff.freeTest; simp only
  have h1 : P (match (e.recOf t).restoring with
      | some (o, k) =>
        if (e.current o && (e.recOf o.num).legs.any fun (l : Leg) => decide (l.slot = k ∧ l.st = LegState.live)) = true
        then e.raiseOn o.num .restored else e
      | none => e) := by
    split
    · split
      · exact C.raiseOn _ _ _ h
      · exact h
    · exact h
  have h2 := C.raiseOn _ t .accessEnded (C.enterFree _ t h1)
  cases (e.recOf t).watcher with
  | none => exact h2
  | some w =>
    exact C.putOrders (chooseWatcher (C.run _ _ _ h2) h2)

/-! ### Requests -/

theorem refuse (e : Eff) (r : Request) (st : Status) (k : Option Slot) (h : P e) : P (e.refuse r st k) := C.answer e _ _ _ _ h

theorem ok (e : Eff) (r : Request) (res : List Byte) (h : P e) : P (e.ok r res) := C.answer e _ _ _ _ h

theorem checked {α : Type} (e : Eff) (r : Request) (len : Nat) (x : Option α) (f : α → Eff) (h : P e) (hf : ∀ a, P (f a)) :
    P (e.checked r len x f) := by
  unfold Eff.checked
  split
  · split
    · exact hf _
    · exact C.refuse _ _ _ _ h
  · exact C.refuse _ _ _ _ h

theorem onHandle (e : Eff) (r : Request) (test : Bool) (f : Nat → Eff) (h : P e) (hf : ∀ n, P (f n)) : P (e.onHandle r test f) := by
  unfold Eff.onHandle; simp only
  repeat' split
  all_goals first | exact C.refuse _ _ _ _ h | exact hf _

theorem onServing (e : Eff) (r : Request) (n : Nat) (f : Eff) (h : P e) (hf : P f) : P (e.onServing r n f) := by
  unfold Eff.onServing
  split
  · exact hf
  · exact C.refuse _ _ _ _ h

theorem startCircuit (e : Eff) (n : Nat) (f : OpenFields) (vs : List (Slot × Nat)) (h : P e) : P (e.startCircuit n f vs) := by
  unfold Eff.startCircuit
  split
  · exact C.offerMakes _ _ _ _ _ _ h
  · simp only
    have h1 := fun v : VerifyField => C.updRec e n (fun r => { r with verify := some v }) (fun _ => rfl) h
    split
    · exact C.offerMakes _ _ _ _ _ _ (C.assign _ _ _ _ (C.setState _ _ _ (h1 _)))
    · exact C.offerMakes _ _ _ _ _ _ (C.wait _ _ (C.setState _ _ _ (h1 _)))

theorem acceptOpen (e : Eff) (d : Defaults) (r : Request) (f : OpenFields) (n : Nat) (h : P e) : P (e.acceptOpen d r f n) :=
  C.releasePartners _ _ (C.startCircuit _ _ _ _ (C.joinFan _ _ _ (C.upd (C.preempt _ _ h))))

theorem refuseLimit (e : Eff) (r : Request) (vs : List (Slot × Nat)) (h : P e) : P (e.refuseLimit r vs) := C.refuse _ _ _ _ h

theorem effOpen (d : Defaults) (r : Request) (e : Eff) (h : P e) : P (effOpen d r e) := by
  refine C.checked _ _ _ _ _ h fun f => ?_
  unfold Eff.open
  split
  · exact C.refuse _ _ _ _ h
  · split
    · exact C.refuse _ _ _ _ h
    · repeat' split
      all_goals first
        | exact C.refuse _ _ _ _ h | exact C.refuseLimit _ _ _ h | exact C.acceptOpen _ _ _ _ _ h

theorem effOpenPair (d : Defaults) (r : Request) (e : Eff) (h : P e) : P (effOpenPair d r e) := by
  refine C.checked _ _ _ _ _ h fun f => ?_
  unfold Eff.openPair
  split
  · exact C.refuse _ _ _ _ h
  · split
    · exact C.refuse _ _ _ _ h
    · split
      · exact C.refuse _ _ _ _ h
      · split
        · exact C.refuseLimit _ _ _ h
        · exact C.releasePartners _ _ (C.offerMakes _ _ _ _ _ _ (C.offerMakes _ _ _ _ _ _ (C.joinFan _ _ _ (C.joinFan _ _ _
            (C.upd (C.upd (C.preempt _ _ h)))))))

theorem effAddLeg (r : Request) (e : Eff) (h : P e) : P (effAddLeg r e) := by
  refine C.checked _ _ _ _ _ h fun k => C.onHandle _ _ _ _ h fun n => C.onServing _ _ _ _ h ?_
  have ha : P (e.acceptLeg n k) :=
    C.releasePartners _ _ (C.offerMakes _ _ _ _ _ _ (C.upd (C.preempt _ _ h)))
  repeat' split
  all_goals first
    | exact C.refuse _ _ _ _ h | exact C.refuseLimit _ _ _ h | exact C.ok _ _ _ ha

theorem effDropLeg (r : Request) (e : Eff) (h : P e) : P (effDropLeg r e) := by
  refine C.checked _ _ _ _ _ h fun k => C.onHandle _ _ _ _ h fun n => C.onServing _ _ _ _ h ?_
  split
  · exact C.refuse _ _ _ _ h
  · repeat' split
    · exact C.refuse _ _ _ _ h
    · exact C.ok _ _ _ (C.upd (C.foldUpd h))
    · exact C.ok _ _ _ (C.breakLegs _ _ _ h)

theorem raiseOpt (e : Eff) (n : Nat) (c : Option Cause) (h : P e) : P (e.raiseOpt n c) := by
  unfold Eff.raiseOpt; split
  · exact C.raiseOn _ _ _ h
  · exact h

theorem effMoveSource (r : Request) (e : Eff) (h : P e) : P (effMoveSource r e) := by
  refine C.checked _ _ _ _ _ h fun src => C.onHandle _ _ _ _ h fun n => C.onServing _ _ _ _ h ?_
  repeat' split
  · exact C.ok _ _ _ h
  · exact C.refuse _ _ _ _ h
  · exact C.ok _ _ _ (C.raiseOpt _ _ _ (C.offerLegs _ _ _ _ (C.upd
      (C.joinFan _ _ _ (C.leaveFan _ _ _ h)))))

theorem driveRequest (e : Eff) (r : Request) (t : Target) (n : Nat) (h : P e) : P (e.driveRequest r t n) := by
  unfold Eff.driveRequest; split
  · exact C.ok _ _ _ (C.driveCircuit _ _ _ h)
  · exact C.refuse _ _ _ _ h

theorem effRelease (r : Request) (e : Eff) (h : P e) : P (effRelease r e) := by
  refine C.checked _ _ _ _ _ h fun c => C.onHandle _ _ _ _ h fun n => ?_
  unfold Eff.releaseRequest; split
  · exact C.releaseCircuit _ _ _ _ h
  · exact C.refuse _ _ _ _ h

theorem effTouch (r : Request) (e : Eff) (h : P e) : P (effTouch r e) := by
  refine C.checked _ _ _ _ _ h fun _ => C.onHandle _ _ _ _ h fun n => ?_
  unfold Eff.touch; simp only
  split
  · exact C.refuse _ _ _ _ h
  · split
    · exact C.refuse _ _ _ _ h
    · exact C.ok _ _ _ (C.foldUpd h)

theorem effQuery (r : Request) (e : Eff) (h : P e) : P (effQuery r e) := by
  refine C.checked _ _ _ _ _ h fun x => ?_
  obtain ⟨check, settings⟩ := x
  simp only
  repeat' split
  · exact C.onHandle _ _ _ _ h fun n => C.ok _ _ _ h
  · exact C.refuse _ _ _ _ h
  · exact C.ok _ _ _ h

theorem effAccessEnd (r : Request) (e : Eff) (h : P e) : P (effAccessEnd r e) := by
  refine C.checked _ _ _ _ _ h fun _ => C.onHandle _ _ _ _ h fun n => ?_
  unfold Eff.accessEnd; simp only; split
  · exact C.endAccess _ _ _ h
  · exact C.refuse _ _ _ _ h

theorem effRequest (d : Defaults) (r : Request) (e : Eff) (h : P e) : P (effRequest d r e) := by
  have hold : P (effHold r e) := C.checked _ _ _ _ _ h fun _ => C.onHandle _ _ _ _ h fun n => C.driveRequest _ _ _ _ h
  have resume : P (effResume r e) := C.checked _ _ _ _ _ h fun _ => C.onHandle _ _ _ _ h fun n => C.driveRequest _ _ _ _ h
  have fo : P (effFindOut r e) := C.checked _ _ _ _ _ h fun _ => C.ok _ _ _ h
  have fi : P (effFindIn r e) := C.checked _ _ _ _ _ h fun _ => C.ok _ _ _ h
  unfold Machine.effRequest
  exact choose (C.effOpen _ _ _ h) <| choose (C.effOpenPair _ _ _ h) <| choose (C.effAddLeg _ _ h) <|
    choose (C.effDropLeg _ _ h) <| choose (C.effMoveSource _ _ h) <| choose hold <| choose resume <|
    choose (C.effRelease _ _ h) <| choose (C.effTouch _ _ h) <| choose (C.effQuery _ _ h) <| choose fo <|
    choose fi <| choose (C.effAccessEnd _ _ h) h

/-! ### Claims from inside the part -/

theorem raiseFault (e : Eff) (n : Nat) (h : P e) : P (e.raiseFault n) := by
  unfold Eff.raiseFault; split
  · exact C.raiseOn _ _ _ h
  · exact h

theorem completeMake (e : Eff) (n : Nat) (h : P e) : P (e.completeMake n) := by
  unfold Eff.completeMake
  split
  · have h1 := C.setState e n .active h
    simp only
    split
    · exact foldl_keeps _ C.raiseFault _ _ (C.answerOpen _ _ _ _ h1)
    · exact h1
  · exact h

theorem completeDrive (e : Eff) (n : Nat) (h : P e) : P (e.completeDrive n) := by
  unfold Eff.completeDrive
  repeat' split
  · exact C.setState _ _ _ h
  · exact h
  · exact h

theorem completeVerify (e : Eff) (n : Nat) (h : P e) : P (e.completeVerify n) := by
  unfold Eff.completeVerify
  split
  · simp only
    have h1 := C.updRec e n (fun r => { r with st := .active, target := some .source, verify := none }) (fun _ => rfl) h
    cases hs : e.ver.serving (e.handleOf n) with
    | none => exact C.raiseFault _ _ (C.answerOpen _ _ _ _ h1)
    | some u => exact C.raiseFault _ _ (C.answerOpen _ _ _ _ (C.freeUnit _ u h1))
  · exact h

theorem completeTest (e : Eff) (n : Nat) (h : P e) : P (e.completeTest n) := by
  unfold Eff.completeTest; split
  · exact C.freeTest _ _ h
  · exact h

omit C in
theorem phase (e : Eff) (l : List Handle) (f : Eff → Nat → Eff) (hf : ∀ e n, P e → P (f e n)) (h : P e) : P (e.phase l f) := by
  refine foldl_keeps _ (fun e x he => ?_) _ e h
  split
  · exact hf _ _ he
  · exact he

theorem effReport (r : Report) (e : Eff) (h : P e) : P (effReport r e) := by
  refine phase _ _ _ C.tryFree (phase _ _ _ C.completeTest (phase _ _ _ C.completeVerify
    (phase _ _ _ C.completeDrive (phase _ _ _ C.completeMake ?_))))
  refine foldl_keeps _ (fun e x he => foldl_keeps _ (fun e o he => ?_) _ e he) _ e h
  unfold Eff.takeOutcome
  split
  · exact C.upd he
  · exact he

theorem effClearDownEnd (hd : Handle) (e : Eff) (h : P e) : P (effClearDownEnd hd e) := by
  unfold Machine.effClearDownEnd
  split
  · exact foldl_keeps _ (fun e m he => C.breakLegs _ m _ (C.upd he)) _ e h
  · exact h

theorem effExpiry (hd : Handle) (e : Eff) (h : P e) : P (effExpiry hd e) := by
  unfold Machine.effExpiry
  split
  · have h1 := foldl_keeps _ (fun e m he => C.raiseOn e m .expired he) (e.members hd.num) e h
    simp only
    split
    · exact C.endAccess _ _ _ h1
    · exact C.releaseCircuit _ _ _ _ h1
  · exact h

theorem effOutcome (o : OutcomeClaim) (e : Eff) (h : P e) : P (effOutcome o e) := by
  unfold Machine.effOutcome
  split
  · split
    · exact C.offerLegs _ _ _ _ (C.upd h)
    · exact C.endVerifying _ _ _ _ h
    · exact C.endVerifying _ _ _ _ h
  · exact h

theorem effLane (r : LaneReport) (e : Eff) (h : P e) : P (effLane r e) := by
  unfold Machine.effLane
  simp only
  have h1 := C.view e r.lane r.st h
  split
  · exact h1
  · exact foldl_keeps _ (fun e n he => C.raiseOpt _ _ _ (C.upd he)) _ _ h1

theorem makeAccess (e : Eff) (d : Defaults) (a : AccessRequest) (t : Nat) (h : P e) : P (e.makeAccess d a t) := by
  unfold Eff.makeAccess
  simp only
  have h1 := fun x => C.joinFan _ (some (.inbound a.target)) t (C.raiseOn _ t .created
    (C.updRec e t (testRecord d e.mgr a x) (fun _ => rfl) h))
  cases e.mgr.holder a.loop with
  | none => exact C.orders _ _ (C.run _ _ _ (C.addEntry _ _ _ _ (h1 _)))
  | some o =>
    exact C.orders _ _ (C.run _ _ _ (C.addEntry _ _ _ _ (C.raiseOn _ _ _ (C.upd (h1 _)))))

theorem effAction (d : Defaults) (a : ActionClaim) (e : Eff) (h : P e) : P (effAction d a e) := by
  cases a with
  | releaseLinked w hd =>
    show P (effReleaseLinked w hd e)
    unfold effReleaseLinked; split
    · exact C.releaseCircuit _ _ _ _ h
    · exact C.raiseWatcher _ _ _ h
  | holdLinked w hd c =>
    show P (effHoldLinked w hd c e)
    exact choose (C.driveCircuit _ _ _ h) (C.raiseWatcher _ _ _ h)
  | suppression w => exact C.raiseWatcher _ _ _ h
  | access a =>
    show P (effAccess d a e)
    unfold effAccess
    split
    · split
      · exact C.makeAccess _ _ _ _ h
      · exact C.raiseWatcher _ _ _ h
    · exact C.raiseWatcher _ _ _ h
  | endOfAccess w hd =>
    show P (effEndOfAccess w hd e)
    unfold effEndOfAccess
    split
    · split
      · exact C.endAccess _ _ _ h
      · exact C.raiseWatcher _ _ _ h
    · exact C.raiseWatcher _ _ _ h

/-- Every claim keeps what the thirteen changes keep. -/
theorem effect (d : Defaults) (c : Claim) (e : Eff) (h : P e) : P (effect d c e) := by
  cases c with
  | request r => exact C.effRequest d r e h
  | report r => exact C.effReport r e h
  | clearDownEnd hd => exact C.effClearDownEnd hd e h
  | expiry hd => exact C.effExpiry hd e h
  | outcome o => exact C.effOutcome o e h
  | action a => exact C.effAction d a e h
  | lane r => exact C.effLane r e h

end Eff.Closed

end Sys2Proof.Machine
end

