-- ==== Sys2Proof/Laws/State.lean ====
section
/-! SUPPORT. One lemma for each field that a named update of the state writes or leaves alone. -/

namespace Sys2Proof.Machine

-- One proof after another: side by side, threads that wait for one another hold a stack each and run out of memory.
set_option Elab.async false

/-! ### Transactions -/

section Transactions
variable (s : State) (mosi payload : List Byte) (f : PortFaults → PortFaults) (n : Fin 4) (v : PortSlot)

@[simp] theorem send_pending : (s.send mosi payload).pending = s.pending := rfl
@[simp] theorem send_phase : (s.send mosi payload).phase = s.phase := rfl
@[simp] theorem send_oeHigh : (s.send mosi payload).oeHigh = s.oeHigh := rfl
@[simp] theorem send_mgr : (s.send mosi payload).mgr = s.mgr := rfl
@[simp] theorem send_sw : (s.send mosi payload).sw = s.sw := rfl
@[simp] theorem send_gens : (s.send mosi payload).gens = s.gens := rfl
@[simp] theorem send_ver : (s.send mosi payload).ver = s.ver := rfl
@[simp] theorem send_lease : (s.send mosi payload).lease = s.lease := rfl
@[simp] theorem send_sup : (s.send mosi payload).sup = s.sup := rfl
@[simp] theorem send_wat : (s.send mosi payload).wat = s.wat := rfl
@[simp] theorem send_att : (s.send mosi payload).att = s.att := rfl
@[simp] theorem send_slots : (s.send mosi payload).port.slots = s.port.slots := rfl
@[simp] theorem send_slot : (s.send mosi payload).port.slot n = s.port.slot n := rfl
@[simp] theorem send_faults : (s.send mosi payload).port.faults = s.port.faults := rfl
@[simp] theorem send_queue : (s.send mosi payload).port.queue = s.port.queue := rfl

@[simp] theorem setFaults_pending : (s.setFaults f).pending = s.pending := rfl
@[simp] theorem setFaults_phase : (s.setFaults f).phase = s.phase := rfl
@[simp] theorem setFaults_mgr : (s.setFaults f).mgr = s.mgr := rfl
@[simp] theorem setFaults_sw : (s.setFaults f).sw = s.sw := rfl
@[simp] theorem setFaults_gens : (s.setFaults f).gens = s.gens := rfl
@[simp] theorem setFaults_ver : (s.setFaults f).ver = s.ver := rfl
@[simp] theorem setFaults_lease : (s.setFaults f).lease = s.lease := rfl
@[simp] theorem setFaults_sup : (s.setFaults f).sup = s.sup := rfl
@[simp] theorem setFaults_wat : (s.setFaults f).wat = s.wat := rfl
@[simp] theorem setFaults_att : (s.setFaults f).att = s.att := rfl
@[simp] theorem setFaults_faults : (s.setFaults f).port.faults = f s.port.faults := rfl
@[simp] theorem setFaults_slots : (s.setFaults f).port.slots = s.port.slots := rfl
@[simp] theorem setFaults_queue : (s.setFaults f).port.queue = s.port.queue := rfl

@[simp] theorem setSlot_pending : (s.setSlot n v).pending = s.pending := rfl
@[simp] theorem setSlot_phase : (s.setSlot n v).phase = s.phase := rfl
@[simp] theorem setSlot_mgr : (s.setSlot n v).mgr = s.mgr := rfl
@[simp] theorem setSlot_sw : (s.setSlot n v).sw = s.sw := rfl
@[simp] theorem setSlot_gens : (s.setSlot n v).gens = s.gens := rfl
@[simp] theorem setSlot_ver : (s.setSlot n v).ver = s.ver := rfl
@[simp] theorem setSlot_lease : (s.setSlot n v).lease = s.lease := rfl
@[simp] theorem setSlot_sup : (s.setSlot n v).sup = s.sup := rfl
@[simp] theorem setSlot_wat : (s.setSlot n v).wat = s.wat := rfl
@[simp] theorem setSlot_att : (s.setSlot n v).att = s.att := rfl
@[simp] theorem setSlot_port : (s.setSlot n v).port = s.port.setSlot n v := rfl

end Transactions

/-! ### The port -/

section Ports
variable (p : Port) (n : Fin 4) (v : PortSlot)

@[simp] theorem portSetSlot_faults : (p.setSlot n v).faults = p.faults := rfl
@[simp] theorem portSetSlot_queue : (p.setSlot n v).queue = p.queue := rfl
@[simp] theorem portSetSlot_defaults : (p.setSlot n v).defaults = p.defaults := rfl
@[simp] theorem portSetSlot_soft : (p.setSlot n v).soft = p.soft := rfl
@[simp] theorem portSetSlot_softId : (p.setSlot n v).softId = p.softId := rfl
@[simp] theorem portSetSlot_toSwitch : (p.setSlot n v).toSwitch = p.toSwitch := rfl
@[simp] theorem portSetSlot_toManager : (p.setSlot n v).toManager = p.toManager := rfl
@[simp] theorem portSetSlot_toWatchers : (p.setSlot n v).toWatchers = p.toWatchers := rfl
@[simp] theorem portSetSlot_toAttention : (p.setSlot n v).toAttention = p.toAttention := rfl
@[simp] theorem portSetSlot_acks : (p.setSlot n v).acks = p.acks := rfl
@[simp] theorem portSetSlot_miso : (p.setSlot n v).miso = p.miso := rfl

end Ports

/-! ### The watcher unit's messages, and raises -/

section Messages
variable (s : State) (w : Nat) (c : Cause) (l : List ActionClaim)

@[simp] theorem raiseWatch_wat : (s.raiseWatch w c).wat = s.wat := rfl
@[simp] theorem raiseWatch_sw : (s.raiseWatch w c).sw = s.sw := rfl
@[simp] theorem raiseWatch_mgr : (s.raiseWatch w c).mgr = s.mgr := rfl
@[simp] theorem raiseWatch_port : (s.raiseWatch w c).port = s.port := rfl
@[simp] theorem handClaims_wat : (s.handClaims l).wat = { s.wat with claims := s.wat.claims ++ l } := rfl
@[simp] theorem handClaims_sw : (s.handClaims l).sw = s.sw := rfl
@[simp] theorem handClaims_att : (s.handClaims l).att = s.att := rfl
@[simp] theorem handClaims_port : (s.handClaims l).port = s.port := rfl
@[simp] theorem raiseDevice_sw : (s.raiseDevice c).sw = s.sw := rfl
@[simp] theorem raiseDevice_mgr : (s.raiseDevice c).mgr = s.mgr := rfl
@[simp] theorem raiseDevice_port : (s.raiseDevice c).port = s.port := rfl
@[simp] theorem dropOrder_table : s.dropOrder.wat.table = s.wat.table := rfl
@[simp] theorem dropOrder_orders : s.dropOrder.wat.orders = s.wat.orders.tail := rfl
@[simp] theorem dropOrder_sw : s.dropOrder.sw = s.sw := rfl

end Messages

/-! ### Effects of the circuit manager -/

section Effects
variable (e : Eff) (n : Nat) (f : Rec → Rec) (c : Cause) (k : Slot) (x : Content) (own : List LegOutcome)

@[simp] theorem start_list (s : State) : (Eff.start s).list = s.sw.list := rfl
@[simp] theorem start_mgr (s : State) : (Eff.start s).mgr = s.mgr := rfl
@[simp] theorem start_ver (s : State) : (Eff.start s).ver = s.ver := rfl
@[simp] theorem start_wat (s : State) : (Eff.start s).wat = s.wat := rfl
@[simp] theorem start_port (s : State) : (Eff.start s).port = s.port := rfl
@[simp] theorem start_offer (s : State) : (Eff.start s).offer = [] := rfl
@[simp] theorem start_raise (s : State) : (Eff.start s).raise = [] := rfl
@[simp] theorem start_order (s : State) : (Eff.start s).order = none := rfl
@[simp] theorem start_recOf (s : State) : (Eff.start s).recOf n = s.mgr.recOf n := rfl

@[simp] theorem updRec_list : (e.updRec n f).list = e.list := rfl
@[simp] theorem updRec_fan : (e.updRec n f).mgr.fan = e.mgr.fan := rfl
@[simp] theorem updRec_wait : (e.updRec n f).mgr.wait = e.mgr.wait := rfl
@[simp] theorem updRec_view : (e.updRec n f).mgr.view = e.mgr.view := rfl
@[simp] theorem updRec_held : (e.updRec n f).mgr.held = e.mgr.held := rfl
@[simp] theorem updRec_resets : (e.updRec n f).mgr.resets = e.mgr.resets := rfl
@[simp] theorem updRec_ver : (e.updRec n f).ver = e.ver := rfl
@[simp] theorem updRec_wat : (e.updRec n f).wat = e.wat := rfl
@[simp] theorem updRec_port : (e.updRec n f).port = e.port := rfl
@[simp] theorem updRec_offer : (e.updRec n f).offer = e.offer := rfl
@[simp] theorem updRec_raise : (e.updRec n f).raise = e.raise := rfl
@[simp] theorem updRec_order : (e.updRec n f).order = e.order := rfl

@[simp] theorem raiseOn_list : (e.raiseOn n c).list = e.list := rfl
@[simp] theorem raiseOn_mgr : (e.raiseOn n c).mgr = e.mgr := rfl
@[simp] theorem raiseOn_ver : (e.raiseOn n c).ver = e.ver := rfl
@[simp] theorem raiseOn_wat : (e.raiseOn n c).wat = e.wat := rfl
@[simp] theorem raiseOn_port : (e.raiseOn n c).port = e.port := rfl
@[simp] theorem raiseOn_offer : (e.raiseOn n c).offer = e.offer := rfl
@[simp] theorem raiseOn_raise : (e.raiseOn n c).raise = e.raise ++ [(circuitEntity n, c)] := rfl
@[simp] theorem raiseOn_order : (e.raiseOn n c).order = e.order := rfl

@[simp] theorem addEntry_list : (e.addEntry k x own).list = e.list := rfl
@[simp] theorem addEntry_mgr : (e.addEntry k x own).mgr = e.mgr := rfl
@[simp] theorem addEntry_ver : (e.addEntry k x own).ver = e.ver := rfl
@[simp] theorem addEntry_wat : (e.addEntry k x own).wat = e.wat := rfl
@[simp] theorem addEntry_port : (e.addEntry k x own).port = e.port := rfl
@[simp] theorem addEntry_offer : (e.addEntry k x own).offer = e.offer ++ [⟨k, x, e.keptOutcomes k own ++ own⟩] := rfl
@[simp] theorem addEntry_raise : (e.addEntry k x own).raise = e.raise := rfl
@[simp] theorem addEntry_order : (e.addEntry k x own).order = e.order := rfl

end Effects

end Sys2Proof.Machine
end

