-- ==== Sys2Proof/Laws/Tables.lean ====
section
/-! SUPPORT. Read after write on the tables, and that every write keeps their canonical form (log 32). -/

namespace Sys2Proof.Machine

-- One proof after another: side by side, threads that wait for one another hold a stack each and run out of memory.
set_option Elab.async false

variable {α : Type}

theorem Tbl.get_insert_same (d : α) (t : Tbl α) (k : Nat) (v : α) : Tbl.get d (Tbl.insert t k v) k = v := by
  induction t with
  | nil => simp [Tbl.insert, Tbl.get]
  | cons e t ih =>
    obtain ⟨k', v'⟩ := e
    simp only [Tbl.insert]
    split
    · simp [Tbl.get]
    · split
      · simp [Tbl.get]
      · rename_i h; simp [Tbl.get, h, ih]

theorem Tbl.get_insert_other (d : α) (t : Tbl α) {k j : Nat} (v : α) (h : j ≠ k) :
    Tbl.get d (Tbl.insert t k v) j = Tbl.get d t j := by
  induction t with
  | nil => simp [Tbl.insert, Tbl.get, h]
  | cons e t ih =>
    obtain ⟨k', v'⟩ := e
    simp only [Tbl.insert]
    split
    · simp [Tbl.get, h]
    · split
      · rename_i hk; subst hk; simp [Tbl.get, h]
      · simp [Tbl.get, ih]

theorem Tbl.get_erase_same (d : α) (t : Tbl α) (k : Nat) : Tbl.get d (Tbl.erase t k) k = d := by
  induction t with
  | nil => rfl
  | cons e t ih =>
    obtain ⟨k', v'⟩ := e
    by_cases h : k' = k
    · subst h; simpa [Tbl.erase] using ih
    · have : Tbl.erase ((k', v') :: t) k = (k', v') :: Tbl.erase t k := by simp [Tbl.erase, h]
      rw [this]; simp [Tbl.get, Ne.symm h, ih]

theorem Tbl.get_erase_other (d : α) (t : Tbl α) {k j : Nat} (h : j ≠ k) :
    Tbl.get d (Tbl.erase t k) j = Tbl.get d t j := by
  induction t with
  | nil => rfl
  | cons e t ih =>
    obtain ⟨k', v'⟩ := e
    by_cases hk : k' = k
    · subst hk
      have : Tbl.erase ((k', v') :: t) k' = Tbl.erase t k' := by simp [Tbl.erase]
      rw [this]; simp [Tbl.get, h, ih]
    · have : Tbl.erase ((k', v') :: t) k = (k', v') :: Tbl.erase t k := by simp [Tbl.erase, hk]
      rw [this]; simp [Tbl.get, ih]

variable [DecidableEq α]

@[simp] theorem Tbl.get_set_same (d : α) (t : Tbl α) (k : Nat) (v : α) : Tbl.get d (Tbl.set d t k v) k = v := by
  unfold Tbl.set
  split
  · rename_i h; rw [h]; exact Tbl.get_erase_same d t k
  · exact Tbl.get_insert_same d t k v

theorem Tbl.get_set_other (d : α) (t : Tbl α) {k j : Nat} (v : α) (h : j ≠ k) :
    Tbl.get d (Tbl.set d t k v) j = Tbl.get d t j := by
  unfold Tbl.set
  split
  · exact Tbl.get_erase_other d t h
  · exact Tbl.get_insert_other d t v h

@[simp] theorem Tbl.get_upd_same (d : α) (t : Tbl α) (k : Nat) (f : α → α) :
    Tbl.get d (Tbl.upd d t k f) k = f (Tbl.get d t k) := Tbl.get_set_same d t k _

theorem Tbl.get_upd_other (d : α) (t : Tbl α) {k j : Nat} (f : α → α) (h : j ≠ k) :
    Tbl.get d (Tbl.upd d t k f) j = Tbl.get d t j := Tbl.get_set_other d t _ h

theorem Tbl.get_upd (d : α) (t : Tbl α) (k j : Nat) (f : α → α) :
    Tbl.get d (Tbl.upd d t k f) j = if j = k then f (Tbl.get d t j) else Tbl.get d t j := by
  split
  · rename_i h; subst h; exact Tbl.get_upd_same d t j f
  · rename_i h; exact Tbl.get_upd_other d t f h

theorem Tbl.wf_cons (d : α) (k : Nat) (v : α) (t : Tbl α) :
    Tbl.wf d ((k, v) :: t) = true ↔ v ≠ d ∧ (∀ e ∈ t, k < e.1) ∧ Tbl.wf d t = true := by
  simp [Tbl.wf, and_assoc]

theorem Tbl.wf_insert (d : α) (t : Tbl α) (k : Nat) (v : α) (hv : v ≠ d) (h : Tbl.wf d t = true) :
    Tbl.wf d (Tbl.insert t k v) = true ∧ ∀ e ∈ Tbl.insert t k v, e.1 = k ∨ e ∈ t := by
  induction t with
  | nil => simp [Tbl.insert, Tbl.wf, hv]
  | cons e t ih =>
    obtain ⟨k', v'⟩ := e
    obtain ⟨hv', hk, ht⟩ := (Tbl.wf_cons d k' v' t).1 h
    simp only [Tbl.insert]
    split
    · rename_i hlt
      refine ⟨(Tbl.wf_cons ..).2 ⟨hv, ?_, h⟩, ?_⟩
      · intro e he
        rcases List.mem_cons.1 he with rfl | he
        · exact hlt
        · exact Nat.lt_trans hlt (hk e he)
      · intro e he; simp at he ⊢; rcases he with rfl | he | he <;> simp [*]
    · split
      · rename_i _ heq; subst heq
        refine ⟨(Tbl.wf_cons ..).2 ⟨hv, hk, ht⟩, ?_⟩
        intro e he; simp at he ⊢; rcases he with rfl | he <;> simp [*]
      · rename_i h1 h2
        obtain ⟨hw, hm⟩ := ih ht
        refine ⟨(Tbl.wf_cons ..).2 ⟨hv', ?_, hw⟩, ?_⟩
        · intro e he
          rcases hm e he with he | he
          · omega
          · exact hk e he
        · intro e he
          rcases List.mem_cons.1 he with rfl | he
          · simp
          · rcases hm e he with he | he <;> simp [*]

theorem Tbl.wf_erase (d : α) (t : Tbl α) (k : Nat) (h : Tbl.wf d t = true) : Tbl.wf d (Tbl.erase t k) = true := by
  induction t with
  | nil => rfl
  | cons e t ih =>
    obtain ⟨k', v'⟩ := e
    obtain ⟨hv', hk, ht⟩ := (Tbl.wf_cons d k' v' t).1 h
    by_cases hk' : k' = k
    · subst hk'
      have : Tbl.erase ((k', v') :: t) k' = Tbl.erase t k' := by simp [Tbl.erase]
      rw [this]; exact ih ht
    · have : Tbl.erase ((k', v') :: t) k = (k', v') :: Tbl.erase t k := by simp [Tbl.erase, hk']
      rw [this]
      refine (Tbl.wf_cons ..).2 ⟨hv', ?_, ih ht⟩
      intro e he
      exact hk e (List.mem_filter.1 he).1

/-- Writing a table keeps its canonical form. -/
theorem Tbl.wf_set (d : α) (t : Tbl α) (k : Nat) (v : α) (h : Tbl.wf d t = true) : Tbl.wf d (Tbl.set d t k v) = true := by
  unfold Tbl.set
  split
  · exact Tbl.wf_erase d t k h
  · rename_i hv; exact (Tbl.wf_insert d t k v hv h).1

/-- Changing an entry keeps the canonical form. -/
theorem Tbl.wf_upd (d : α) (t : Tbl α) (k : Nat) (f : α → α) (h : Tbl.wf d t = true) : Tbl.wf d (Tbl.upd d t k f) = true :=
  Tbl.wf_set d t k _ h

/-- Changing a range of entries keeps the canonical form. -/
theorem Tbl.wf_updAll (d : α) (n : Nat) (f : Nat → α → α) (t : Tbl α) (h : Tbl.wf d t = true) :
    Tbl.wf d (Tbl.updAll d n f t) = true := by
  unfold Tbl.updAll
  generalize List.range n = l
  induction l generalizing t with
  | nil => exact h
  | cons k l ih => exact ih _ (Tbl.wf_upd d t k _ h)

/-- Changing every entry keeps the canonical form. -/
theorem Tbl.wf_mapAll (d : α) (f : Nat → α → α) (t : Tbl α) (h : Tbl.wf d t = true) : Tbl.wf d (Tbl.mapAll d f t) = true := by
  induction t with
  | nil => rfl
  | cons e t ih =>
    obtain ⟨k, v⟩ := e
    obtain ⟨_, hk, ht⟩ := (Tbl.wf_cons d k v t).1 h
    unfold Tbl.mapAll
    rw [List.filterMap_cons]
    by_cases hf : f k v = d
    · simp only [hf, if_true]; exact ih ht
    · simp only [hf, if_false]
      refine (Tbl.wf_cons ..).2 ⟨hf, ?_, ih ht⟩
      intro e he
      obtain ⟨x, hx, hxe⟩ := List.mem_filterMap.1 he
      by_cases hfx : f x.1 x.2 = d
      · simp [hfx] at hxe
      · simp [hfx] at hxe; subst hxe; exact hk x hx

omit [DecidableEq α] in
/-- What a table reads at a number is an entry of it, or the reset value. -/
theorem Tbl.get_mem_or (d : α) (t : Tbl α) (k : Nat) : (k, Tbl.get d t k) ∈ t ∨ Tbl.get d t k = d := by
  induction t with
  | nil => exact .inr rfl
  | cons e t ih =>
    by_cases h : k = e.1
    · exact .inl (by simp [Tbl.get, h])
    · simp only [Tbl.get, h, if_false]
      exact ih.imp_left (List.mem_cons_of_mem _)

omit [DecidableEq α] in
/-- A canonical table without the number k reads its reset value there. -/
theorem Tbl.get_of_forall_ne (d : α) (t : Tbl α) (k : Nat) (h : ∀ e ∈ t, e.1 ≠ k) : Tbl.get d t k = d := by
  induction t with
  | nil => rfl
  | cons e t ih =>
    have h1 : e.1 ≠ k := h e (by simp)
    simp [Tbl.get, Ne.symm h1]
    exact ih fun x hx => h x (by simp [hx])

/-- Reading a canonical table after changing every entry by an f that keeps the reset value. -/
theorem Tbl.get_mapAll (d : α) (f : Nat → α → α) (t : Tbl α) (k : Nat) (hf : ∀ j, f j d = d) (h : Tbl.wf d t = true) :
    Tbl.get d (Tbl.mapAll d f t) k = f k (Tbl.get d t k) := by
  induction t with
  | nil => simp [Tbl.mapAll, Tbl.get, hf]
  | cons e t ih =>
    obtain ⟨j, v⟩ := e
    obtain ⟨_, hj, ht⟩ := (Tbl.wf_cons d j v t).1 h
    unfold Tbl.mapAll
    rw [List.filterMap_cons]
    by_cases hk : k = j
    · subst hk
      have htail : ∀ e ∈ Tbl.mapAll d f t, e.1 ≠ k := by
        intro e he
        obtain ⟨x, hx, hxe⟩ := List.mem_filterMap.1 he
        by_cases hfx : f x.1 x.2 = d
        · simp [hfx] at hxe
        · simp [hfx] at hxe; subst hxe; exact Nat.ne_of_gt (hj x hx)
      by_cases hv : f k v = d
      · simp [hv, Tbl.get]
        exact Tbl.get_of_forall_ne d _ k htail
      · simp [hv, Tbl.get]
    · by_cases hv : f j v = d
      · simp [hv, Tbl.get, hk]; exact ih ht
      · simp [hv, Tbl.get, hk]; exact ih ht

/-! ### Lists -/

omit [DecidableEq α] in
theorem takeFirst_some {p : α → Bool} {l : List α} {x : α} {r : List α} (h : takeFirst p l = some (x, r)) :
    ∃ a b, l = a ++ x :: b ∧ r = a ++ b ∧ p x = true ∧ ∀ y ∈ a, p y = false := by
  induction l generalizing r with
  | nil => simp [takeFirst] at h
  | cons y ys ih =>
    unfold takeFirst at h
    by_cases hp : p y = true
    · simp [hp] at h
      obtain ⟨rfl, rfl⟩ := h
      exact ⟨[], ys, by simp [hp]⟩
    · simp [hp] at h
      cases ht : takeFirst p ys with
      | none => simp [ht] at h
      | some q =>
        obtain ⟨z, zs⟩ := q
        simp [ht] at h
        obtain ⟨rfl, rfl⟩ := h
        obtain ⟨a, b, h1, h2, h3, h4⟩ := ih ht
        refine ⟨y :: a, b, by simp [h1], by simp [h2], h3, ?_⟩
        intro w hw
        rcases List.mem_cons.1 hw with rfl | hw
        · simpa using hp
        · exact h4 w hw

theorem mem_firstOf {l : List α} {x : α} : x ∈ firstOf l ↔ x ∈ l := by
  induction l with
  | nil => rfl
  | cons y ys ih => by_cases h : x = y <;> simp [firstOf, ih, h]

theorem nodup_firstOf (l : List α) : (firstOf l).Nodup := by
  induction l with
  | nil => exact List.nodup_nil
  | cons x xs ih => exact List.nodup_cons.2 ⟨by simp, ih.filter _⟩

theorem firstOf_of_nodup {l : List α} (h : l.Nodup) : firstOf l = l := by
  induction l with
  | nil => rfl
  | cons x xs ih =>
    obtain ⟨hx, hxs⟩ := List.nodup_cons.1 h
    simp only [firstOf, ih hxs]
    congr 1
    exact List.filter_eq_self.2 fun y hy => by simp; rintro rfl; exact hx hy

end Sys2Proof.Machine
end

