-- ==== Sys2Proof/Laws/Operations.lean ====
section
/-! SUPPORT. What each shared operation does, said once: bits and bytes of the port, request slots, routing queues, records under a claim, and a claim's end. -/

namespace Sys2Proof.Machine

-- One proof after another: side by side, threads that wait for one another hold a stack each and run out of memory.
set_option Elab.async false

/-! ### Bits and bytes of the port (10 R185) -/

theorem byteOfBits_bitsOf (b : Byte) : byteOfBits (bitsOf b) = b := by
  obtain ⟨n⟩ := b
  revert n
  decide +kernel

/-- The bits of a byte make that byte (10 R185). -/
@[simp] theorem bytesOfBits_bitsOf_append (b : Byte) (rest : List Bool) : bytesOfBits (bitsOf b ++ rest) = b :: bytesOfBits rest :=
  congrArg (· :: bytesOfBits rest) (byteOfBits_bitsOf b)

/-- Fewer than eight bits make no byte (10 R185). -/
theorem bytesOfBits_short {part : List Bool} (h : part.length < 8) : bytesOfBits part = [] := by
  unfold bytesOfBits
  split
  · simp only [List.length_cons] at h; omega
  · rfl

/-- Whole bytes are read back, and a byte left incomplete after them is discarded (10 R185). -/
theorem bytesOfBits_flatMap (received : List Byte) {part : List Bool} (h : part.length < 8) :
    bytesOfBits (received.flatMap bitsOf ++ part) = received := by
  induction received with
  | nil => exact bytesOfBits_short h
  | cons b rest ih => rw [List.flatMap_cons, List.append_assoc, bytesOfBits_bitsOf_append, ih]

@[simp] theorem length_bitsOf (b : Byte) : (bitsOf b).length = 8 := rfl
@[simp] theorem misoPin_none (s : State) : s.misoPin none = none := rfl
theorem misoPin_reset {s : State} (h : s.phase = .reset) (sel : Option (List Bool)) : s.misoPin sel = none := by
  cases sel <;> simp [State.misoPin, h]

/-- MISO carries bit j of the byte sent while the byte after the whole bytes received is being received (10 R185). -/
theorem misoPin_bit {s : State} (h : s.phase ≠ .reset) (received : List Byte) {part : List Bool} (hp : part.length < 8) :
    s.misoPin (some (received.flatMap bitsOf ++ part)) =
      some (((status0 s :: s.reply received).getD received.length 0).getLsbD (7 - part.length)) := by
  have hl : (received.flatMap bitsOf ++ part).length = 8 * received.length + part.length := by
    simp [List.length_flatMap, Nat.mul_comm]
  simp only [State.misoPin, h, if_false, bytesOfBits_flatMap received hp, hl]
  rw [show (8 * received.length + part.length) / 8 = received.length by omega,
    show (8 * received.length + part.length) % 8 = part.length by omega]

/-! ### Request slots -/

@[simp] theorem slot_setSlot_same (p : Port) (n : Fin 4) (v : PortSlot) : (p.setSlot n v).slot n = v := by
  simp [Port.slot, Port.setSlot]

theorem slot_setSlot_other (p : Port) {n m : Fin 4} (v : PortSlot) (h : m ≠ n) : (p.setSlot n v).slot m = p.slot m := by
  simp only [Port.slot, Port.setSlot]
  exact Tbl.get_set_other _ _ _ (fun e => h (Fin.ext e))

theorem slot_setSlot (p : Port) (n m : Fin 4) (v : PortSlot) : (p.setSlot n v).slot m = if m = n then v else p.slot m := by
  by_cases h : m = n
  · subst h; simp
  · simp [h, slot_setSlot_other p v h]

@[simp] theorem length_area32 (l : List Byte) : (area32 l).length = 32 := by simp [area32]

@[simp] theorem length_responseOf (m : List Byte) (st : Status) (res : List Byte) : (responseOf m st res).length = 32 := by
  simp [responseOf]

/-- An answer to a submission that is WORKING completes it; any other is discarded (10 R192, R195, R200). -/
theorem answer_working {p : Port} {n : Fin 4} {sub : Nat} (st : Status) (res : List Byte) (h : (p.slot n).st = .working)
    (hs : (p.slot n).sub = sub) :
    p.answer n sub st res =
      p.setSlot n { p.slot n with st := .done, response := responseOf (p.slot n).request st res } := by
  simp [Port.answer, h, hs]

theorem answer_other {p : Port} {n : Fin 4} {sub : Nat} (st : Status) (res : List Byte)
    (h : ¬((p.slot n).st = .working ∧ (p.slot n).sub = sub)) : p.answer n sub st res = p := by
  simp only [Port.answer, if_neg h]

/-- An answer is one write of a slot, or none. -/
theorem answer_eq (p : Port) (n : Fin 4) (sub : Nat) (st : Status) (res : List Byte) :
    p.answer n sub st res = p ∨ ∃ v : PortSlot, (p.slot n).st = .working ∧ v.st = .done ∧ v.request = (p.slot n).request ∧
      v.sub = (p.slot n).sub ∧ v.response.length = 32 ∧ p.answer n sub st res = p.setSlot n v := by
  by_cases h : (p.slot n).st = .working ∧ (p.slot n).sub = sub
  · right
    refine ⟨{ p.slot n with st := .done, response := responseOf (p.slot n).request st res }, h.1, rfl, rfl, rfl, ?_, ?_⟩
    · simp
    · exact answer_working st res h.1 h.2
  · exact Or.inl (answer_other st res h)

section Answer
variable (p : Port) (n : Fin 4) (sub : Nat) (st : Status) (res : List Byte)

theorem answer_keeps {α : Type} (g : Port → α) (hg : ∀ (q : Port) m v, g (q.setSlot m v) = g q) : g (p.answer n sub st res) = g p := by
  rcases answer_eq p n sub st res with h | ⟨v, _, _, _, _, _, h⟩
  · rw [h]
  · rw [h, hg]

@[simp] theorem answer_queue : (p.answer n sub st res).queue = p.queue := answer_keeps p n sub st res (·.queue) fun _ _ _ => rfl
@[simp] theorem answer_faults : (p.answer n sub st res).faults = p.faults := answer_keeps p n sub st res (·.faults) fun _ _ _ => rfl
@[simp] theorem answer_defaults : (p.answer n sub st res).defaults = p.defaults := answer_keeps p n sub st res (·.defaults) fun _ _ _ => rfl
@[simp] theorem answer_soft : (p.answer n sub st res).soft = p.soft := answer_keeps p n sub st res (·.soft) fun _ _ _ => rfl
@[simp] theorem answer_softId : (p.answer n sub st res).softId = p.softId := answer_keeps p n sub st res (·.softId) fun _ _ _ => rfl
@[simp] theorem answer_toSwitch : (p.answer n sub st res).toSwitch = p.toSwitch := answer_keeps p n sub st res (·.toSwitch) fun _ _ _ => rfl
@[simp] theorem answer_toManager : (p.answer n sub st res).toManager = p.toManager :=
  answer_keeps p n sub st res (·.toManager) fun _ _ _ => rfl
@[simp] theorem answer_toWatchers : (p.answer n sub st res).toWatchers = p.toWatchers :=
  answer_keeps p n sub st res (·.toWatchers) fun _ _ _ => rfl
@[simp] theorem answer_toAttention : (p.answer n sub st res).toAttention = p.toAttention :=
  answer_keeps p n sub st res (·.toAttention) fun _ _ _ => rfl
@[simp] theorem answer_acks : (p.answer n sub st res).acks = p.acks := answer_keeps p n sub st res (·.acks) fun _ _ _ => rfl
@[simp] theorem answer_miso : (p.answer n sub st res).miso = p.miso := answer_keeps p n sub st res (·.miso) fun _ _ _ => rfl

end Answer

/-- The owner takes the first request of its own in the queue (10 R193). -/
theorem takeRequest_some {p q : Port} {o : Owner} {kind : Byte} {r : Request} (h : p.takeRequest o kind = some (r, q)) :
    ∃ pre post, p.queue = pre ++ (o, r.slot) :: post ∧ (∀ x ∈ pre, x.1 ≠ o) ∧ byteAt (p.slot r.slot).request 0 = kind ∧
      r.sub = (p.slot r.slot).sub ∧ r.msg = readable (p.slot r.slot).request ∧
      q = ({ p with queue := pre ++ post } : Port).setSlot r.slot { p.slot r.slot with st := .working } := by
  unfold Port.takeRequest at h
  split at h
  · cases h
  · rename_i o' n queue ht
    obtain ⟨pre, post, hq, hr, hx, hpre⟩ := takeFirst_some ht
    simp only at h
    split at h
    · rename_i hk
      cases h
      refine ⟨pre, post, ?_, ?_, hk, rfl, rfl, ?_⟩
      · have : o' = o := by simpa using hx
        rw [hq, this]
      · intro x hx'; simpa using hpre x hx'
      · rw [hr]
    · cases h

/-! ### Records under a claim -/

@[simp] theorem recOf_updRec_same (e : Eff) (n : Nat) (f : Rec → Rec) : (e.updRec n f).recOf n = f (e.recOf n) := by
  simp [Eff.recOf, Manager.recOf, Eff.updRec]

theorem recOf_updRec (e : Eff) (n m : Nat) (f : Rec → Rec) :
    (e.updRec n f).recOf m = if m = n then f (e.recOf n) else e.recOf m := by
  by_cases h : m = n
  · subst h; simp
  · simp only [h, if_false]
    exact Tbl.get_upd_other _ _ _ h

@[simp] theorem recOf_raiseOn (e : Eff) (n m : Nat) (c : Cause) : (e.raiseOn n c).recOf m = e.recOf m := rfl

@[simp] theorem recOf_addEntry (e : Eff) (k : Slot) (x : Content) (own : List LegOutcome) (m : Nat) :
    (e.addEntry k x own).recOf m = e.recOf m := rfl

/-- What an entry keeps depends on the list and on the generations of the records only (02 R32). -/
theorem keptOutcomes_congr {e e' : Eff} (hl : e'.list = e.list) (hg : ∀ n, (e'.recOf n).gen = (e.recOf n).gen) (k : Slot)
    (own : List LegOutcome) : e'.keptOutcomes k own = e.keptOutcomes k own := by
  have hc : e'.current = e.current := by
    funext h; simp [Eff.current, hg]
  simp [Eff.keptOutcomes, hl, hc]

/-! ### The end of a claim (01 R17, 03 R69) -/

/-- The claim is made if the switch takes its offer. -/
theorem settle_fits {c : Claim} {e : Eff} {s : State} (h : fits s.sw.list e.offer = true) :
    settle c e s = e.commit e.offer e.order s := by simp [settle, h]

/-- The claim waits if the switch declines its offer. -/
theorem settle_full {c : Claim} {e : Eff} {s : State} (h : fits s.sw.list e.offer = false) :
    settle c e s = holdClaim c e s := by simp [settle, h]

/-- An offer of nothing is always taken. -/
@[simp] theorem fits_nil (list : List Entry) : fits list [] = true := by simp [fits, offerSlots, firstOf]

/-- Taking a claim either makes its changes or holds it. -/
theorem takeClaim_cases (s : State) (c : Claim) :
    (∃ e, e = effect s.port.defaults c (Eff.start s) ∧ fits s.sw.list e.offer = true ∧ s.takeClaim c = e.commit e.offer e.order s) ∨
      ∃ e, e = effect s.port.defaults c (Eff.start s) ∧ fits s.sw.list e.offer = false ∧ s.takeClaim c = holdClaim c e s := by
  cases h : fits s.sw.list (effect s.port.defaults c (Eff.start s)).offer with
  | true => exact Or.inl ⟨_, rfl, h, settle_fits h⟩
  | false => exact Or.inr ⟨_, rfl, h, settle_full h⟩

end Sys2Proof.Machine
end

