-- ==== Sys2Proof/Laws/Claims.lean ====
section
/-! SUPPORT. How a claim of the circuit manager runs: from the command to its effect, and from the effect to the next state, in the words of
Safety.lean. -/

namespace Sys2Proof.Machine

-- One proof after another: side by side, threads that wait for one another hold a stack each and run out of memory.
set_option Elab.async false

/-! ### From the command to the effect -/

theorem byteAt_readable_zero (m : List Byte) : byteAt (readable m) 0 = byteAt m 0 := by
  unfold readable area32 byteAt
  cases m with
  | nil => simp [List.replicate]
  | cons x xs =>
    rw [Nat.add_comm 4]
    simp [List.take_succ_cons]

/-- The request that an owner takes is of the kind named. -/
theorem kind_of_takeRequest {p q : Port} {o : Owner} {kind : Byte} {r : Request} (h : p.takeRequest o kind = some (r, q)) :
    byteAt r.msg 0 = kind := by
  obtain ⟨_, _, _, _, hk, _, hm, _⟩ := takeRequest_some h
  rw [hm, byteAt_readable_zero, hk]

/-- Taking a request keeps everything of the port but the slot and the queue. -/
theorem takeRequest_defaults {p q : Port} {o : Owner} {kind : Byte} {r : Request} (h : p.takeRequest o kind = some (r, q)) :
    q.defaults = p.defaults := by
  obtain ⟨_, _, _, _, _, _, _, hq⟩ := takeRequest_some h
  rw [hq]; rfl

/-- No order of a SOFT_RESET stands, as the operations ask it and as the statements say it. -/
theorem ordersTaken_iff (s : State) : s.port.ordersTaken = true ↔ ¬s.orderOutstanding := by
  simp [Port.ordersTaken, State.orderOutstanding, and_assoc]

/-- A manager's request runs as a claim. -/
theorem managerRequest_takes {s : State} {kind : Byte} {r : Request} {p : Port} (h : s.Takes .manager kind r p) :
    s.managerRequest kind = ({ s with port := p } : State).takeClaim (.request r) := by
  obtain ⟨hr, ⟨hf, hm⟩, hh⟩ := h
  simp [State.managerRequest, State.managerFree, State.running, hr, (ordersTaken_iff s).2 hf, hm rfl, hh]

/-- A request of another owner runs through its own checks. -/
theorem ownerTakes_takes {s : State} {o : Owner} {kind : Byte} {r : Request} {p : Port} (len : Nat) (f : Request → State → State)
    (h : s.Takes o kind r p) :
    s.ownerTakes o kind len f =
      if messageOk len r.msg then f r { s with port := p } else { s with port := p.answerRequest r .badRequest [] } := by
  simp [State.ownerTakes, State.running, h.run, (ordersTaken_iff s).2 h.ready.1, h.head]

/-- No request is taken while an order of a SOFT_RESET stands. -/
theorem managerRequest_waits {s : State} (kind : Byte) (h : s.orderOutstanding) : s.managerRequest kind = s := by
  have hf : s.port.ordersTaken = false := Bool.eq_false_iff.2 fun hc => (ordersTaken_iff s).1 hc h
  simp [State.managerRequest, hf]

/-- No owner takes a request while an order of a SOFT_RESET stands. -/
theorem ownerTakes_waits {s : State} (o : Owner) (kind : Byte) (len : Nat) (f : Request → State → State) (h : s.orderOutstanding) :
    s.ownerTakes o kind len f = s := by
  have hf : s.port.ordersTaken = false := Bool.eq_false_iff.2 fun hc => (ordersTaken_iff s).1 hc h
  simp [State.ownerTakes, hf]

section Dispatch
variable (d : Defaults) (r : Request) (e : Eff)

theorem effRequest_open (h : byteAt r.msg 0 = 0x01) : effRequest d r e = effOpen d r e := by simp [effRequest, h]
theorem effRequest_openPair (h : byteAt r.msg 0 = 0x02) : effRequest d r e = effOpenPair d r e := by simp [effRequest, h]
theorem effRequest_addLeg (h : byteAt r.msg 0 = 0x03) : effRequest d r e = effAddLeg r e := by simp [effRequest, h]
theorem effRequest_dropLeg (h : byteAt r.msg 0 = 0x04) : effRequest d r e = effDropLeg r e := by simp [effRequest, h]
theorem effRequest_moveSource (h : byteAt r.msg 0 = 0x05) : effRequest d r e = effMoveSource r e := by simp [effRequest, h]
theorem effRequest_hold (h : byteAt r.msg 0 = 0x06) : effRequest d r e = effHold r e := by simp [effRequest, h]
theorem effRequest_resume (h : byteAt r.msg 0 = 0x07) : effRequest d r e = effResume r e := by simp [effRequest, h]
theorem effRequest_release (h : byteAt r.msg 0 = 0x08) : effRequest d r e = effRelease r e := by simp [effRequest, h]
theorem effRequest_touch (h : byteAt r.msg 0 = 0x09) : effRequest d r e = effTouch r e := by simp [effRequest, h]
theorem effRequest_query (h : byteAt r.msg 0 = 0x0A) : effRequest d r e = effQuery r e := by simp [effRequest, h]
theorem effRequest_findOut (h : byteAt r.msg 0 = 0x0B) : effRequest d r e = effFindOut r e := by simp [effRequest, h]
theorem effRequest_findIn (h : byteAt r.msg 0 = 0x0C) : effRequest d r e = effFindIn r e := by simp [effRequest, h]
theorem effRequest_accessEnd (h : byteAt r.msg 0 = 0x0D) : effRequest d r e = effAccessEnd r e := by simp [effRequest, h]

end Dispatch

/-- The message as a whole and the fields pass. -/
theorem checked_some {α : Type} {e : Eff} {r : Request} {len : Nat} {x : Option α} {a : α} {f : α → Eff}
    (hw : byteAt r.msg 1 = BitVec.ofNat 8 len) (hx : x = some a) : e.checked r len x f = f a := by
  simp [Eff.checked, messageOk, hw, hx]

/-- The range of a field fails: nothing after it is checked (03 R43). -/
theorem checked_none {α : Type} {e : Eff} {r : Request} {len : Nat} {x : Option α} {f : α → Eff}
    (hw : byteAt r.msg 1 = BitVec.ofNat 8 len) (hx : x = none) : e.checked r len x f = e.refuse r .badField none := by
  simp [Eff.checked, messageOk, hw, hx]

/-- The circuit fields of a refusal, for every request that names a circuit (10 R195). -/
theorem circuitFields_handle {m : List Byte} (h1 : byteAt m 0 ≠ 0x01) (h2 : byteAt m 0 ≠ 0x0B) (h3 : byteAt m 0 ≠ 0x0C) :
    circuitFields m = [byteAt m 4, byteAt m 5, byteAt m 6, byteAt m 7] := by
  rw [circuitFields, if_neg h1, if_neg (not_or.2 ⟨h2, h3⟩)]

/-- The handle and the class pass. -/
theorem onHandle_names {s : State} {e : Eff} {r : Request} {n : Nat} {test : Bool} {f : Nat → Eff} (hn : s.Names r n test)
    (he : e.mgr = s.mgr) : e.onHandle r test f = f n := by
  obtain ⟨hnum, hr, hc⟩ := hn
  have h1 : ¬Config.records ≤ n := by simp [Config.records]; omega
  have h2 : e.recOf n = s.recordOf n := by simp [Eff.recOf, State.recordOf, he]
  cases test with
  | true => simp [Eff.onHandle, hnum, h1, h2]
  | false => simp [Eff.onHandle, hnum, h1, h2, hc rfl]

/-! ### Reading a message (10.8) -/

/-- A slot reference is read exactly when its two bytes name a lane slot. -/
theorem parseSlot_iff (m : List Byte) (i : Nat) (k : Slot) : parseSlot m i = some k ↔ readsSlot m i k := by
  unfold parseSlot readsSlot
  obtain ⟨l, ts⟩ := k
  split
  · simp [Fin.ext_iff]
  · next h =>
    simp only [reduceCtorEq, false_iff]
    have := l.isLt
    have := ts.isLt
    omega

/-- A source is read exactly when its two bytes name a lane slot or a generator. -/
theorem parseSource_iff (m : List Byte) (i : Nat) (src : Source) : parseSource m i = some src ↔ readsSource m i src := by
  unfold parseSource
  cases hk : parseSlot m i with
  | some k =>
    have hr := (parseSlot_iff m i k).1 hk
    cases src with
    | inbound j =>
      simp only [Option.some.injEq, Source.inbound.injEq, readsSource]
      rw [← parseSlot_iff, hk, Option.some.injEq]
    | gen n =>
      simp only [Option.some.injEq, reduceCtorEq, readsSource, false_iff, not_and]
      intro h
      have := hr.1
      have := k.lane.isLt
      omega
  | none =>
    cases src with
    | inbound j =>
      simp only [readsSource, ← parseSlot_iff, hk, reduceCtorEq, iff_false]
      split <;> simp
    | gen n =>
      simp only [readsSource]
      have hn := n.isLt
      split
      · next h =>
        obtain ⟨h1, h2, h3⟩ := h
        simp only [Option.some.injEq, Source.gen.injEq, Fin.ext_iff, h3, and_true]
        omega
      · next h =>
        simp only [reduceCtorEq, false_iff]
        rintro ⟨h1, h2⟩
        exact h ⟨by omega, by omega, h2⟩

/-- A record field is read exactly when it names a record of the control pool, or is FFFFh. -/
theorem parseRecord_iff (m : List Byte) (i : Nat) (x : Option Nat) : parseRecord m i = some x ↔ readsRecord m i x := by
  unfold parseRecord Config.testPool
  cases x with
  | none => simp only [readsRecord]; split <;> [simp_all; (split <;> simp_all)]
  | some n =>
    simp only [readsRecord]
    split
    · simp only [Option.some.injEq, reduceCtorEq, false_iff]; omega
    · split
      · simp only [Option.some.injEq]; omega
      · simp only [reduceCtorEq, false_iff]; omega

/-! ### The checks of a claim, in the words of the statements -/

/-- A slot is given to a new circuit of a class exactly when it may take it (03 R45, R46). -/
theorem available_iff (s : State) (cls : CircClass) (k : Slot) : s.mgr.available cls none k = true ↔ s.mayTake cls k := by
  unfold Manager.available State.mayTake Manager.open
  cases s.mgr.holder k with
  | none => simp
  | some v => simp [State.recordOf, and_assoc, and_comm, and_left_comm]

/-- The loop slot is given to a test circuit exactly when it may be taken (08 R152). -/
theorem loopFree_iff (s : State) (k : Slot) : s.mgr.loopFree k = true ↔ s.mayLoop k := by
  unfold Manager.loopFree State.mayLoop Manager.displaceable Rec.serving
  cases s.mgr.holder k with
  | none => simp
  | some v => simp [State.recordOf, and_assoc]

/-- The judgements on watchers, as the manager makes them and as the statements say them (08 R151, R169). -/
theorem accessFits_iff (s : State) (a : AccessRequest) : (Eff.start s).accessFits a = true ↔ s.WatchersFit a := by
  have hu : (Eff.start s).partnerUnused a.partner = true ↔ ∀ t u f, 480 ≤ t → t < 512 → (s.recordOf t).st ≠ .free →
      (s.recordOf t).watcher = some u → (s.wat.watcher u).cfg.up = some f → f.partner ≠ a.partner := by
    simp only [Eff.partnerUnused, List.all_eq_true, List.mem_range', Config.testPool, Config.records]
    constructor
    · intro h t u f h1 h2 h3 h4 h5 h6
      have := h t ⟨t - 480, by omega, by omega⟩
      simp [Eff.recOf, Eff.start, State.recordOf, WatcherUnit.partnerOf] at this h3 h4
      simp_all
    · rintro h t ⟨i, hi, rfl⟩
      cases hw : ((Eff.start s).recOf (480 + 1 * i)).watcher with
      | none => rfl
      | some u =>
        simp only [decide_eq_true_eq]
        refine or_iff_not_imp_left.2 fun h3 h6 => ?_
        obtain ⟨f, hf, hp⟩ := Option.map_eq_some_iff.1 h6
        exact h _ u f (by omega) (by omega) h3 hw hf hp
  unfold Eff.accessFits
  rw [Bool.and_eq_true, hu, decide_eq_true_eq]
  constructor
  · rintro ⟨⟨h1, h2, h3, h4, h5, h6, h7, h8, h9⟩, h10⟩
    exact ⟨h1, h2, h3, h4, h5, h6, h7, h8, h9, h10⟩
  · rintro ⟨h1, h2, h3, h4, h5, h6, h7, h8, h9, h10⟩
    exact ⟨⟨h1, h2, h3, h4, h5, h6, h7, h8, h9⟩, h10⟩

/-- A command at which the manager takes a claim takes it: what comes next is the claim's effect or its wait for room. -/
theorem exec_of_hands {s s' : State} {c : Instr} {k : Claim} (h : s.Hands c k s') : exec c s = .next (s'.takeClaim k) := by
  cases h with
  | request _ kind len r p hx ht =>
    simp only [requestKinds, List.cons_append, List.nil_append, List.mem_cons, Prod.mk.injEq, reduceCtorEq, false_and, and_false, or_false,
      List.not_mem_nil] at hx
    iterate 12
      rcases hx with ⟨rfl, _, rfl, _⟩ | hx
      · exact congrArg Host.Outcome.next (managerRequest_takes ht)
    obtain ⟨rfl, _, rfl, _⟩ := hx
    exact congrArg Host.Outcome.next (managerRequest_takes ht)
  | report x rest hr hx => simp [exec, execBoundaryReport, State.claimReport, State.managerFree, State.running, hr.run, hr.free, hx]
  | clearDownEnd x rest hr hx => simp [exec, execClearDownEnd, State.claimClearDownEnd, State.managerFree, State.running, hr.run, hr.free, hx]
  | expiry x rest hr hx => simp [exec, execExpiryClaim, State.claimExpiry, State.managerFree, State.running, hr.run, hr.free, hx]
  | outcome o rest hr hx =>
    cases ho : o.outcome.isDetected <;>
      simp [exec, execDetectedOutcome, execVerifyFailureOutcome, State.claimOutcome, State.managerFree, State.running, hr.run, hr.free, hx, ho]
  | action a rest hr hx =>
    cases a <;>
      simp [ActionClaim.command, exec, execReleaseLinkedClaim, execHoldLinkedClaim, execSuppressionClaim, execAccessClaim, execEndOfAccessClaim,
        State.claimAction, ActionClaim.isRelease, ActionClaim.isHold, ActionClaim.isSuppression, ActionClaim.isAccess, ActionClaim.isEnd,
        State.managerFree, State.running, hr.run, hr.free, hx]

/-! ### From the effect to the next state -/

/-- What an entry of a claim keeps, in the words of the state it began in. -/
theorem keptOutcomes_eq {s : State} {e : Eff} (hl : e.list = s.sw.list) (hg : ∀ n, (e.recOf n).gen = (s.recordOf n).gen) (k : Slot)
    (own : List LegOutcome) : e.keptOutcomes k own = s.kept (own.map (·.h.num)) k := by
  have hc : e.current = s.isCurrent := by
    funext h; simp [Eff.current, State.isCurrent, hg]
  simp only [Eff.keptOutcomes, State.kept, hl, hc]
  cases s.sw.list.find? fun p => decide (p.slot = k) with
  | none => rfl
  | some x => simp [List.any_map, Function.comp_def]

/-- An offer with at most as many entries as there is room for is taken. -/
theorem length_firstOf_le {α : Type} [DecidableEq α] (l : List α) : (firstOf l).length ≤ l.length := by
  induction l with
  | nil => simp [firstOf]
  | cons x xs ih =>
    simp only [firstOf, List.length_cons]
    exact Nat.succ_le_succ (Nat.le_trans (List.length_filter_le _ _) ih)

theorem fits_of_room {list offer : List Entry} (h : list.length + offer.length ≤ 96) : fits list offer = true := by
  have h1 : ((offerSlots offer).filter fun k => !(list.any fun y => decide (y.slot = k))).length ≤ offer.length :=
    Nat.le_trans (List.length_filter_le _ _) (Nat.le_trans (length_firstOf_le _) (by simp))
  have h2 : offer.length ≤ Config.listRoom - list.length := by simp only [Config.listRoom]; omega
  exact decide_eq_true (Nat.le_trans h1 h2)

/-- The switch declines an offer, as the operations ask it and as the statements say it. -/
theorem declines_iff (s : State) (offer : List Entry) : s.declines offer ↔ fits s.sw.list offer = false := by
  have h : ((firstOf (offer.map (·.slot))).filter fun k => !(s.sw.list.any fun x => decide (x.slot = k))).length =
      ((offer.map (·.slot)).filter fun k => !(s.sw.list.any fun x => decide (x.slot = k))).dedup.length :=
    ((List.perm_ext_iff_of_nodup ((nodup_firstOf _).filter _) (List.nodup_dedup _)).2 fun x => by
      rw [List.mem_dedup, List.mem_filter, List.mem_filter, mem_firstOf]).length_eq
  simp only [State.declines, fits, offerSlots, h, Config.listRoom, decide_eq_false_iff_not, Nat.not_le]

/-- A claim that does nothing but answer leaves everything but the port. -/
theorem takeClaim_answers {s : State} {c : Claim} {p : Port} (h : effect s.port.defaults c (Eff.start s) = { Eff.start s with port := p }) :
    s.takeClaim c = { s with port := p } := by
  rw [State.takeClaim, h, settle_fits (fits_nil _)]
  simp [Eff.commit, Eff.start, placeOffer, Attention.hand]

/-- A request that the manager refuses changes nothing but its slot (03 R43, R44). -/
theorem managerRequest_refused {s : State} {kind : Byte} {r : Request} {p : Port} {st : Status} {k : Option Slot} (ht : s.Takes .manager kind r p)
    (he : ∀ e : Eff, e.mgr = s.mgr → ∀ d, effRequest d r e = e.refuse r st k) :
    s.managerRequest kind = { s with port := p.answerRequest r st (circuitFields r.msg ++ optSlotBytes k) } := by
  rw [managerRequest_takes ht, takeClaim_answers (p := p.answerRequest r st (circuitFields r.msg ++ optSlotBytes k))]
  exact he _ rfl _

/-- A claim whose offer has room, in the words of `State.circuitClaim`. -/
theorem commit_circuitClaim {s : State} {e : Eff} (hm : e.mgr = { s.mgr with recs := e.mgr.recs, fan := e.mgr.fan })
    (hv : e.ver = s.ver) (hw : e.wat = s.wat) (ho : e.order = none) :
    s.circuitClaim (e.commit e.offer e.order s) e.offer e.raise e.port := by
  have ha : s.att.hand .manager e.raise =
      { s.att with raises := s.att.raises ++ (if e.raise = [] then [] else [(.manager, e.raise)]) } := by
    unfold Attention.hand; split <;> simp
  simp only [State.circuitClaim, Eff.commit, hv, hw, ho, ha, Option.toList, List.append_nil]
  rw [hm]

end Sys2Proof.Machine
end

