-- ==== Sys2Proof/Laws/PerInstr.lean ====
section
/-! SUPPORT. Well-formedness, one lemma for each command. -/

namespace Sys2Proof.Laws.WellFormed

-- One proof after another: side by side, threads that wait for one another hold a stack each and run out of memory.
set_option Elab.async false

/-- The inbound data that a command carries. -/
def inbound : Instr → Option FrameIn
  | .fsyncInFreerun _ rx => some rx
  | .frameBoundary rx => some rx
  | _ => none

/-- A command is well formed exactly when an unknown code names no transaction and its inbound data has 48 bytes for each of 16 lanes. -/
def Statement (i : Instr) : Prop :=
  i.wellFormed = true ↔ (∀ code mosi, i = .unknownTransactionCode code mosi → knownCode code = false) ∧
    ∀ rx, inbound i = some rx → rx.length = 16 ∧ ∀ lane ∈ rx, lane.length = 48

/-- What a code byte names is a command that can reach the part. -/
theorem portCommand (code : Byte) (mosi : List Byte) : (Sys2Proof.portCommand code mosi).wellFormed = true := by
  unfold Sys2Proof.portCommand
  repeat' split
  all_goals first
    | rfl
    | simp_all [Instr.wellFormed, knownCode, Sys2Proof.portCommand, Nat.not_lt.2]

/-- A command without checks. -/
theorem free {i : Instr} (hw : i.wellFormed = true) (hc : ∀ code mosi, i ≠ .unknownTransactionCode code mosi) (hi : inbound i = none) :
    Statement i :=
  ⟨fun _ => ⟨fun c m h => absurd h (hc c m), fun rx h => by rw [hi] at h; cases h⟩, fun _ => hw⟩

/-- A command with inbound data. -/
theorem framed {i : Instr} (rx : FrameIn) (hw : i.wellFormed = FrameIn.wellFormed rx)
    (hc : ∀ code mosi, i ≠ .unknownTransactionCode code mosi) (hi : inbound i = some rx) : Statement i := by
  unfold Statement
  rw [hw, hi]
  constructor
  · intro h
    refine ⟨fun c m e => absurd e (hc c m), fun rx' e => ?_⟩
    cases e
    simpa [FrameIn.wellFormed, Config.lanes, Config.timeslots] using h
  · intro h
    simpa [FrameIn.wellFormed, Config.lanes, Config.timeslots] using h.2 rx rfl

theorem readStatus (mosi : List Byte) : Statement (.readStatus mosi) := free rfl (fun _ _ h => by cases h) rfl
theorem writeSlot (n : Fin 4) (mosi : List Byte) : Statement (.writeSlot n mosi) := free rfl (fun _ _ h => by cases h) rfl
theorem readSlot (n : Fin 4) (mosi : List Byte) : Statement (.readSlot n mosi) := free rfl (fun _ _ h => by cases h) rfl
theorem submit (n : Fin 4) (mosi : List Byte) : Statement (.submit n mosi) := free rfl (fun _ _ h => by cases h) rfl
theorem clearSlot (n : Fin 4) (mosi : List Byte) : Statement (.clearSlot n mosi) := free rfl (fun _ _ h => by cases h) rfl
theorem clearPortFaults (mosi : List Byte) : Statement (.clearPortFaults mosi) := free rfl (fun _ _ h => by cases h) rfl
theorem unknownTransactionCode (code : Byte) (mosi : List Byte) : Statement (.unknownTransactionCode code mosi) := by
  unfold Statement
  constructor
  · intro h
    refine ⟨fun c m e => ?_, fun rx e => by cases e⟩
    cases e
    simpa [Instr.wellFormed] using h
  · intro h
    simpa [Instr.wellFormed] using h.1 code mosi rfl
theorem openCircuit : Statement .openCircuit := free rfl (fun _ _ h => by cases h) rfl
theorem openPair : Statement .openPair := free rfl (fun _ _ h => by cases h) rfl
theorem addLeg : Statement .addLeg := free rfl (fun _ _ h => by cases h) rfl
theorem dropLeg : Statement .dropLeg := free rfl (fun _ _ h => by cases h) rfl
theorem moveSource : Statement .moveSource := free rfl (fun _ _ h => by cases h) rfl
theorem hold : Statement .hold := free rfl (fun _ _ h => by cases h) rfl
theorem resume : Statement .resume := free rfl (fun _ _ h => by cases h) rfl
theorem release : Statement .release := free rfl (fun _ _ h => by cases h) rfl
theorem touch : Statement .touch := free rfl (fun _ _ h => by cases h) rfl
theorem query : Statement .query := free rfl (fun _ _ h => by cases h) rfl
theorem findOut : Statement .findOut := free rfl (fun _ _ h => by cases h) rfl
theorem findIn : Statement .findIn := free rfl (fun _ _ h => by cases h) rfl
theorem accessEnd : Statement .accessEnd := free rfl (fun _ _ h => by cases h) rfl
theorem genSet : Statement .genSet := free rfl (fun _ _ h => by cases h) rfl
theorem laneSet : Statement .laneSet := free rfl (fun _ _ h => by cases h) rfl
theorem laneQuery : Statement .laneQuery := free rfl (fun _ _ h => by cases h) rfl
theorem watchSet : Statement .watchSet := free rfl (fun _ _ h => by cases h) rfl
theorem watchArm : Statement .watchArm := free rfl (fun _ _ h => by cases h) rfl
theorem watchDisarm : Statement .watchDisarm := free rfl (fun _ _ h => by cases h) rfl
theorem watchQuery : Statement .watchQuery := free rfl (fun _ _ h => by cases h) rfl
theorem collect : Statement .collect := free rfl (fun _ _ h => by cases h) rfl
theorem maskSet : Statement .maskSet := free rfl (fun _ _ h => by cases h) rfl
theorem config : Statement .config := free rfl (fun _ _ h => by cases h) rfl
theorem ident : Statement .ident := free rfl (fun _ _ h => by cases h) rfl
theorem softReset : Statement .softReset := free rfl (fun _ _ h => by cases h) rfl
theorem heldClaimTaken : Statement .heldClaimTaken := free rfl (fun _ _ h => by cases h) rfl
theorem hardReset : Statement .hardReset := free rfl (fun _ _ h => by cases h) rfl
theorem tinitEnd : Statement .tinitEnd := free rfl (fun _ _ h => by cases h) rfl
theorem oeNChange (high : Bool) : Statement (.oeNChange high) := free rfl (fun _ _ h => by cases h) rfl
theorem fsyncInLocked (t : Nat) : Statement (.fsyncInLocked t) := free rfl (fun _ _ h => by cases h) rfl
theorem fsyncMissed : Statement .fsyncMissed := free rfl (fun _ _ h => by cases h) rfl
theorem fsyncInFreerun (t : Nat) (rx : FrameIn) : Statement (.fsyncInFreerun t rx) := framed rx rfl (fun _ _ h => by cases h) rfl
theorem candidatePositionPassed : Statement .candidatePositionPassed := free rfl (fun _ _ h => by cases h) rfl
theorem frameBoundary (rx : FrameIn) : Statement (.frameBoundary rx) := framed rx rfl (fun _ _ h => by cases h) rfl
theorem clearDownRunOut : Statement .clearDownRunOut := free rfl (fun _ _ h => by cases h) rfl
theorem clearanceOrder : Statement .clearanceOrder := free rfl (fun _ _ h => by cases h) rfl
theorem boundaryReport : Statement .boundaryReport := free rfl (fun _ _ h => by cases h) rfl
theorem tokenNotice (u : Fin 4) (atBoundary : Bool) : Statement (.tokenNotice u atBoundary) := free rfl (fun _ _ h => by cases h) rfl
theorem clearDownEnd : Statement .clearDownEnd := free rfl (fun _ _ h => by cases h) rfl
theorem laneFrameJudgement (l : Fin 16) : Statement (.laneFrameJudgement l) := free rfl (fun _ _ h => by cases h) rfl
theorem laneChangeClaim (l : Fin 16) : Statement (.laneChangeClaim l) := free rfl (fun _ _ h => by cases h) rfl
theorem watcherLaneChangeReport (l : Fin 16) : Statement (.watcherLaneChangeReport l) := free rfl (fun _ _ h => by cases h) rfl
theorem verifierLaneChangeReport (l : Fin 16) : Statement (.verifierLaneChangeReport l) := free rfl (fun _ _ h => by cases h) rfl
theorem leaseEvent : Statement .leaseEvent := free rfl (fun _ _ h => by cases h) rfl
theorem expiryClaim : Statement .expiryClaim := free rfl (fun _ _ h => by cases h) rfl
theorem tokenFrameEnd (u : Fin 4) : Statement (.tokenFrameEnd u) := free rfl (fun _ _ h => by cases h) rfl
theorem verifyTimeout (u : Fin 4) : Statement (.verifyTimeout u) := free rfl (fun _ _ h => by cases h) rfl
theorem detectedOutcome : Statement .detectedOutcome := free rfl (fun _ _ h => by cases h) rfl
theorem verifyFailureOutcome : Statement .verifyFailureOutcome := free rfl (fun _ _ h => by cases h) rfl
theorem watcherSample (w : Fin 64) : Statement (.watcherSample w) := free rfl (fun _ _ h => by cases h) rfl
theorem intervalEnd (w : Fin 64) : Statement (.intervalEnd w) := free rfl (fun _ _ h => by cases h) rfl
theorem releaseLinkedClaim : Statement .releaseLinkedClaim := free rfl (fun _ _ h => by cases h) rfl
theorem holdLinkedClaim : Statement .holdLinkedClaim := free rfl (fun _ _ h => by cases h) rfl
theorem suppressionClaim : Statement .suppressionClaim := free rfl (fun _ _ h => by cases h) rfl
theorem accessClaim : Statement .accessClaim := free rfl (fun _ _ h => by cases h) rfl
theorem endOfAccessClaim : Statement .endOfAccessClaim := free rfl (fun _ _ h => by cases h) rfl
theorem armingOrder : Statement .armingOrder := free rfl (fun _ _ h => by cases h) rfl
theorem disarmingOrder : Statement .disarmingOrder := free rfl (fun _ _ h => by cases h) rfl
theorem returnOrder : Statement .returnOrder := free rfl (fun _ _ h => by cases h) rfl
theorem softResetClaim : Statement .softResetClaim := free rfl (fun _ _ h => by cases h) rfl
theorem watcherSoftResetOrder : Statement .watcherSoftResetOrder := free rfl (fun _ _ h => by cases h) rfl
theorem attentionSoftResetOrder : Statement .attentionSoftResetOrder := free rfl (fun _ _ h => by cases h) rfl
theorem softResetAcknowledgement (b : ResetBlock) : Statement (.softResetAcknowledgement b) := free rfl (fun _ _ h => by cases h) rfl
theorem clearanceDoneReport : Statement .clearanceDoneReport := free rfl (fun _ _ h => by cases h) rfl
theorem attentionRaise (b : RaiseBlock) : Statement (.attentionRaise b) := free rfl (fun _ _ h => by cases h) rfl
theorem rstNRelease : Statement .rstNRelease := free rfl (fun _ _ h => by cases h) rfl

end Sys2Proof.Laws.WellFormed
end

