-- ==== Sys2Proof/Laws/Watchers.lean ====
section
/-! SUPPORT. What the operations on the watcher table do: reading after a write, the members of a chain, the change of a whole chain. -/

namespace Sys2Proof.Machine

-- One proof after another: side by side, threads that wait for one another hold a stack each and run out of memory.
set_option Elab.async false

theorem watcher_setWatcher (u : WatcherUnit) (w m : Nat) (x : Watcher) :
    (u.setWatcher w x).watcher m = if m = w then x else u.watcher m := by
  unfold WatcherUnit.watcher WatcherUnit.setWatcher
  split
  · subst m; exact Tbl.get_set_same _ _ _ _
  · exact Tbl.get_set_other _ _ _ ‹_›

theorem watcher_updRun (u : WatcherUnit) (w m : Nat) (f : WatchRun → WatchRun) :
    (u.updRun w f).watcher m = if m = w then { u.watcher m with run := f (u.watcher m).run } else u.watcher m := by
  rw [WatcherUnit.updRun, watcher_setWatcher]
  split
  · subst m; rfl
  · rfl

/-- A follower stands above the head, and within the reach given. -/
theorem le_of_mem_followers (u : WatcherUnit) {m : Nat} : ∀ (n w : Nat), m ∈ u.followers w n → w ≤ m ∧ m < w + n
  | 0, w, h => by simp [WatcherUnit.followers] at h
  | n + 1, w, h => by
    unfold WatcherUnit.followers at h
    split at h
    · rcases List.mem_cons.1 h with rfl | h
      · omega
      · have := le_of_mem_followers u n (w + 1) h
        omega
    · simp at h

theorem nodup_followers (u : WatcherUnit) : ∀ (n w : Nat), (u.followers w n).Nodup
  | 0, w => by simp [WatcherUnit.followers]
  | n + 1, w => by
    unfold WatcherUnit.followers
    split
    · refine List.nodup_cons.2 ⟨fun h => ?_, nodup_followers u n (w + 1)⟩
      have := le_of_mem_followers u n (w + 1) h
      omega
    · simp

/-- No watcher stands twice in a chain (07 R124). -/
theorem nodup_members (u : WatcherUnit) (h : Nat) : (u.members h).Nodup := by
  refine List.nodup_cons.2 ⟨fun hm => ?_, nodup_followers u _ _⟩
  have := le_of_mem_followers u _ _ hm
  omega

theorem mem_members_self (u : WatcherUnit) (h : Nat) : h ∈ u.members h := List.mem_cons_self

/-- A change of each watcher of a list without repetition. -/
theorem watcher_foldl_updRun (f : Nat → WatchRun → WatchRun) : ∀ (l : List Nat) (u : WatcherUnit) (m : Nat), l.Nodup →
    (l.foldl (fun u m => u.updRun m (f m)) u).watcher m =
      if m ∈ l then { u.watcher m with run := f m (u.watcher m).run } else u.watcher m
  | [], u, m, _ => by simp
  | x :: l, u, m, h => by
    have hx := List.nodup_cons.1 h
    rw [List.foldl_cons, watcher_foldl_updRun f l _ m hx.2, watcher_updRun]
    by_cases hm : m = x
    · subst hm; simp [hx.1]
    · simp [hm]

/-- The change of a chain changes the run state of each member once and no other watcher (07 R123, R124). -/
theorem watcher_updChain (u : WatcherUnit) (h m : Nat) (f : Nat → WatchRun → WatchRun) :
    (u.updChain h f).watcher m = if m ∈ u.members h then { u.watcher m with run := f m (u.watcher m).run } else u.watcher m :=
  watcher_foldl_updRun f _ u m (nodup_members u h)

/-- The change of a chain leaves everything but the table. -/
theorem updChain_frame (u : WatcherUnit) (h : Nat) (f : Nat → WatchRun → WatchRun) :
    u.updChain h f = { u with table := (u.updChain h f).table } := by
  have key : ∀ (l : List Nat) (v : WatcherUnit),
      l.foldl (fun u m => u.updRun m (f m)) v = { v with table := (l.foldl (fun u m => u.updRun m (f m)) v).table } := by
    intro l
    induction l with
    | nil => intro v; rfl
    | cons x l ih => intro v; rw [List.foldl_cons, ih]; rfl
  exact key _ u

/-- The change of a chain keeps the canonical form of the table. -/
theorem wf_updChain (u : WatcherUnit) (h : Nat) (f : Nat → WatchRun → WatchRun) (hw : Tbl.wf Watcher.initial u.table = true) :
    Tbl.wf Watcher.initial (u.updChain h f).table = true := by
  have key : ∀ (l : List Nat) (v : WatcherUnit), Tbl.wf Watcher.initial v.table = true →
      Tbl.wf Watcher.initial (l.foldl (fun u m => u.updRun m (f m)) v).table = true := by
    intro l
    induction l with
    | nil => intro v hv; exact hv
    | cons x l ih => intro v hv; exact ih _ (Tbl.wf_set _ _ _ _ hv)
  exact key _ u hw

end Sys2Proof.Machine
end

