-- ==== Sys2Proof/Tests/Slice0.lean ====
section
/-! SUPPORT. Tests: the refusals of the well-formedness check, one step of each command on a small state against the manual's numbers, and for
each statement a state that meets its hypotheses. -/

namespace Sys2Proof.Tests

-- One proof after another: side by side, threads that wait for one another hold a stack each and run out of memory.
set_option Elab.async false

open Sys2Proof Sys2Proof.Machine

/-! ### Well-formedness refuses -/

theorem test_wellFormed_refuses_known_code : (Instr.unknownTransactionCode 0x5A []).wellFormed = false := by decide
theorem test_wellFormed_refuses_short_lane :
    (Instr.frameBoundary (List.replicate 15 (List.replicate 48 0) ++ [List.replicate 47 0])).wellFormed = false := by decide +kernel
theorem test_wellFormed_refuses_missing_lane : (Instr.fsyncInFreerun 0 (List.replicate 15 (List.replicate 48 0))).wellFormed = false := by
  decide +kernel
theorem test_wellFormed_accepts :
    (Instr.unknownTransactionCode 0x14 []).wellFormed = true ∧ (Instr.frameBoundary (List.replicate 16 (List.replicate 48 0))).wellFormed = true := by
  decide +kernel
theorem test_no_command_has_bits : decodeTableWord 8 0x5A = none := rfl

/-! ### Small states -/

/-- The part running, everything else at reset. -/
def run : State := { State.reset with phase := .run }

/-- The state after a command. -/
def after (s : State) (c : Instr) : State := match exec c s with | .next t => t | _ => s

def bytes (l : List Nat) : List Byte := l.map (BitVec.ofNat 8)

/-- Slot 0 in a state, with a request area and a response area. -/
def slotIn (st : SlotState) (area : List Nat) : State :=
  { run with port := { run.port with slots := [(0, ⟨st, area32 (bytes area), List.replicate 32 0x77, 3⟩)] } }

/-- Slot 0 QUEUED with a message, at the head of the routing queue of its owner. -/
def asks (s : State) (o : Owner) (msg : List Nat) : State :=
  { s with port := { s.port with slots := [(0, ⟨.queued, area32 (bytes msg), List.replicate 32 0, 1⟩)], queue := [(o, 0)] } }

/-- A circuit request of record 1, generation 0, with parameters after the handle. -/
def asksOn (s : State) (kind len : Nat) (more : List Nat) : State := asks s .manager ([kind, len, 0xAB, 0xCD, 0, 1, 0, 0] ++ more)

def k00 : Slot := ⟨0, 0⟩
def k01 : Slot := ⟨0, 1⟩
def k10 : Slot := ⟨1, 0⟩

def leg (k : Slot) (st : LegState) : Leg := ⟨k, st, false, none⟩

/-- A circuit fed from inbound slot 2/0. -/
def circuit (st : CircState) (legs : List Leg) : Rec :=
  { Rec.free 0 with st := st, source := some (.inbound ⟨2, 0⟩), legs := legs, target := some .source }

def withRecs (s : State) (l : List (Nat × Rec)) : State := { s with mgr := { s.mgr with recs := l } }

/-- Record 1 ACTIVE with a LIVE leg on 0/0. -/
def served : State := withRecs run [(1, circuit .active [leg k00 .live])]

/-- Records 1 and 2 a pair, ACTIVE. -/
def pair : State := withRecs run
  [(1, { circuit .active [leg k00 .live] with partner := some 2 }), (2, { circuit .active [leg k01 .live] with partner := some 1 })]

/-- What the owner takes. -/
def taken (s : State) (o : Owner) (kind : Byte) : Request × Port := (s.port.takeRequest o kind).getD (⟨0, 0, []⟩, s.port)

/-- The owner can take a request of the kind. -/
def takesB (s : State) (o : Owner) (kind : Byte) : Bool :=
  decide (s.phase = .run) && (s.port.takeRequest o kind).isSome && decide (s.mgr.held = none) && s.port.ordersTaken

theorem takes_of {s : State} {o : Owner} {kind : Byte} (h : takesB s o kind = true) :
    s.Takes o kind (taken s o kind).1 (taken s o kind).2 := by
  simp only [takesB, Bool.and_eq_true, decide_eq_true_eq] at h
  refine ⟨h.1.1.1, ⟨(ordersTaken_iff s).1 h.2, fun _ => h.1.2⟩, ?_⟩
  obtain ⟨x, hx⟩ := Option.isSome_iff_exists.1 h.1.1.2
  simp [taken, hx]

theorem exists_takes {s : State} {o : Owner} {kind : Byte} {P : Request → Port → Prop} (h : takesB s o kind = true)
    (hP : P (taken s o kind).1 (taken s o kind).2) : ∃ r p, s.Takes o kind r p ∧ P r p := ⟨_, _, takes_of h, hP⟩

theorem exists_whole {s : State} {kind : Byte} {len : Nat} {P : Request → Port → Prop}
    (h : takesB s .manager kind = true ∧ byteAt (taken s .manager kind).1.msg 1 = BitVec.ofNat 8 len)
    (hP : P (taken s .manager kind).1 (taken s .manager kind).2) : ∃ r p, s.TakesWhole kind len r p ∧ P r p :=
  ⟨_, _, ⟨takes_of h.1, h.2⟩, hP⟩

theorem names_of {s : State} {r : Request} {n : Nat} {test : Bool}
    (h : r.handle = ⟨n, (s.recordOf n).gen⟩ ∧ n < 512 ∧ (test = false → (s.recordOf n).cls ≠ .test)) : s.Names r n test := ⟨h.1, h.2.1, h.2.2⟩

theorem ready_of {s : State} (h : s.phase = .run ∧ s.mgr.held = none) : s.Ready := ⟨h.1, h.2⟩

theorem fanRoom_of {s : State} {src : Source} {more : Nat}
    (h : (match src with | .inbound k => decide ((s.mgr.fanOf k).length + more ≤ 8) | .gen _ => true) = true) : s.fanRoom src more := by
  intro k hk
  subst hk
  simpa using h

/-- Record n is the lowest FREE one but for `other`. -/
theorem allocates_any {s : State} {other : Option Nat} {n : Nat}
    (h : (s.recordOf n).st = .free ∧ n < 480 ∧ some n ≠ other ∧ ∀ m, m < n → some m ≠ other → (s.recordOf m).st ≠ .free) :
    s.allocates none other n := h

theorem allocates_named {s : State} {other : Option Nat} {n : Nat} (h : (s.recordOf n).st = .free) : s.allocates (some n) other n := ⟨h, rfl⟩

/-! ### One step of each command -/

/-- During tINIT status byte 0 shows NOT_READY; running, it shows ATTN_N released and no fault (10.8). -/
theorem test_readStatus : (after { run with phase := .init } (.readStatus (bytes [0, 0, 0]))).port.miso = bytes [0x80, 0x80, 0, 0] ∧
    (after (slotIn .done []) (.readStatus (bytes [0, 0, 0]))).port.miso = bytes [0, 0, 0x40, 0] := by decide +kernel

/-- Data past place 31 is discarded and BAD_TRANSACTION is set (10 R187). -/
theorem test_writeSlot : let t := after run (.writeSlot 0 (bytes [31, 0xAA, 0xBB]))
    (t.port.slot 0).st = .loaded ∧ (t.port.slot 0).request = List.replicate 31 0 ++ [0xAA] ∧ t.port.faults.badTransaction = true := by
  decide +kernel

theorem test_readSlot : (after (slotIn .done []) (.readSlot 0 (bytes [30, 0, 0, 0]))).port.miso = bytes [0, 0, 0x77, 0x77, 0] := by decide +kernel

/-- A kind that names no request completes with BAD_REQUEST (10 R193). -/
theorem test_submit : ((after (slotIn .loaded [0xEE, 0, 0x12, 0x34]) (.submit 0 [])).port.slot 0).response =
    bytes ([0xEE, 0x01, 0x12, 0x34] ++ List.replicate 28 0) ∧ (after (slotIn .loaded [0x31]) (.submit 0 [])).port.queue = [(.engine, 0)] := by
  decide +kernel

theorem test_clearSlot : ((after (slotIn .done [1]) (.clearSlot 0 [])).port.slot 0).st = .empty ∧
    (after (slotIn .working [1]) (.clearSlot 0 [])).port.faults.clearRefused = true := by decide +kernel

theorem test_clearPortFaults : (after (after run (.submit 0 [])) (.clearPortFaults [])).port.faults = ⟨false, false, false, false⟩ := by
  decide +kernel

/-- Code bytes at the edges of the table of transaction codes; a selection without a whole code byte is no transaction (10 R185). -/
theorem test_portCommand : portTransaction (bytes [0x13, 9]) = some (.writeSlot 3 (bytes [9])) ∧ portTransaction (bytes [0x20]) = some (.submit 0 []) ∧
    portTransaction (bytes [0x33, 1]) = some (.readSlot 3 [1]) ∧ portTransaction (bytes [0x40]) = some (.clearSlot 0 []) ∧
    portTransaction (bytes [0x14]) = some (.unknownTransactionCode 0x14 []) ∧ portTransaction (bytes [0x5B]) = some (.unknownTransactionCode 0x5B []) ∧
    portTransaction [] = none := by decide

/-- 5Ah as bits, the most significant first, then one byte and five bits that are discarded; seven bits alone are no transaction (10 R185). -/
theorem test_portSelection : let code := [false, true, false, true, true, false, true, false]
    portSelection (code ++ [true, false, false, false, false, false, true, false] ++ List.replicate 5 true) = some (.readStatus (bytes [0x82])) ∧
    portSelection (code.take 7) = none := by decide

/-- The first bit of the status byte during tINIT is NOT_READY; a byte A5h of a response area follows its offset byte; no bit is driven with CS_N high or
RST_N low (10 R185, R203). -/
theorem test_misoPin : let s : State := { run with port := { run.port with slots := [(0, ⟨.done, [], List.replicate 32 0xA5, 0⟩)] } }
    ({ run with phase := .init } : State).misoPin (some []) = some true ∧ run.misoPin (some []) = some false ∧ run.misoPin none = none ∧
    State.reset.misoPin (some []) = none ∧
    (List.range 8).map (fun i => s.misoPin (some ((bytes [0x30, 4]).flatMap bitsOf ++ List.replicate i false))) =
      [some true, some false, some true, some false, some false, some true, some false, some true] := by decide +kernel

theorem test_unknownTransactionCode : (after run (.unknownTransactionCode 0x14 [])).port.faults.badTransaction = true := by decide +kernel

/-- The token of unit 2 for record 300 (04 R73), and of unit 1 for record 41. -/
theorem test_token : token 2 300 = bytes [0x7E, 0x02, 0x01, 0x2C, 0xFD, 0xFE, 0xD3, 0x81] ∧
    token 1 41 = bytes [0x7E, 0x01, 0x00, 0x29, 0xFE, 0xFF, 0xD6, 0x81] := by decide +kernel

/-- The nine digits leave the CRC register at 29B1h (07 R128). -/
theorem test_crc : (bytes [0x31, 0x32, 0x33, 0x34, 0x35, 0x36, 0x37, 0x38, 0x39]).foldl crcByte 0xFFFF = 0x29B1 := by decide +kernel

/-- A code of length 3 and value 5 gives B6h, DBh, 6Dh and B6h again (02 R39). -/
theorem test_code_generator : let g : Generator := { Generator.initial with kind := .code, len := 3, value := 5 }
    let g1 := g.step 0xFF
    let g2 := g1.step 0xFF
    let g3 := g2.step 0xFF
    [g1.out, g2.out, g3.out, (g3.step 0xFF).out] = bytes [0xB6, 0xDB, 0x6D, 0xB6] := by decide +kernel

/-- A generator of kind PRBS from seed 7FFFh begins with fourteen 0 bits and a 1, stages 14 and 15 being equal till then (02 R38). -/
theorem test_prbs_generator : let g : Generator := { Generator.initial with kind := .prbs }
    [(g.step 0xFF).out, ((g.step 0xFF).step 0xFF).out] = bytes [0x00, 0x02] := by decide +kernel

theorem test_genSet : let t := after (asks run .generators [0x10, 8, 0, 0, 5, 3, 0, 0, 0, 3, 5, 1]) .genSet
    generatorOf t.gens 5 = { Generator.initial with kind := .code, len := 3, value := 5, flag := true } ∧
    ((t.port.slot 0).response.take 12) = bytes [0x10, 0, 0, 0, 5, 3, 0, 0x7F, 0xFF, 3, 5, 1] := by decide +kernel

theorem test_config : ((after (asks run .engine [0x30, 6, 0, 9, 0]) .config).port.slot 0).response.take 9 =
    bytes [0x30, 0, 0, 9, 0xFF, 0xFF, 0xD5, 0, 0] := by decide +kernel

theorem test_ident : ((after (asks run .engine [0x31, 0, 0, 9]) .ident).port.slot 0).response.take 7 = bytes [0x31, 0, 0, 9, 0x24, 0x16, 1] := by
  decide +kernel

theorem test_softReset : let t := after (asks run .engine [0x3F, 0, 0, 9]) .softReset
    t.port.toManager = [1] ∧ (t.port.slot 0).st = .working ∧ (after (after t .softResetClaim) (.softResetAcknowledgement .manager)).port.soft.isSome =
      true := by decide +kernel

/-- A request waits while the engine's clearance order stands, and is taken when it has been (10 R199, R201). -/
theorem test_request_waits_for_orders : let s := { asks run .generators [0x10, 8, 0, 9, 0, 1, 0x5A] with
      port := { (asks run .generators [0x10, 8, 0, 9, 0, 1, 0x5A]).port with toSwitch := [1] } }
    after s .genSet = s ∧ ((after (after s .clearanceOrder) .genSet).port.slot 0).st = .done := by decide +kernel

theorem test_collect : let s := { asks run .attention [0x28, 1, 0, 9, 7] with att := { run.att with flags := [(592, 1)], cursor := 592 } }
    ((after s .collect).port.slot 0).response.take 12 = bytes [0x28, 0, 0, 9, 0x02, 0x50, 0, 1, 0xFF, 0xFF, 0, 0] ∧ (after s .collect).att.cursor = 0 := by
  decide +kernel

theorem test_maskSet : (after (asks run .attention ([0x29, 17, 0, 9] ++ List.replicate 17 1)) .maskSet).att.enables = List.replicate 17 true := by
  decide +kernel

/-- An OPEN of record 1 with one leg: one entry in SOURCE drive, and no answer yet (03 R49, R50). -/
theorem test_openCircuit : let t := after (asks run .manager [1, 25, 0, 9, 0, 1, 0, 0, 2, 0, 1, 0, 0]) .openCircuit
    (t.recordOf 1).st = .making ∧ t.sw.list.map (fun e => (e.slot, e.content.drive, e.outcomes)) = [(k00, .source, [⟨⟨1, 0⟩, .made⟩])] ∧
    (t.port.slot 0).st = .working := by decide +kernel

theorem test_openPair : let t := after (asks run .manager [2, 20, 0, 9, 0, 3, 0, 4, 0, 0, 2, 0, 0, 0, 2, 1, 0, 1]) .openPair
    (t.recordOf 3).partner = some 4 ∧ (t.recordOf 4).partner = some 3 ∧ t.sw.list.map (·.slot) = [k01, k00] := by decide +kernel

theorem test_addLeg : ((after (asksOn served 3 6 [0, 1]) .addLeg).recordOf 1).legs = [leg k00 .live, leg k01 .making] := by decide +kernel

theorem test_dropLeg : let s := withRecs run [(1, circuit .active [leg k00 .live, leg k01 .live])]
    ((after (asksOn s 4 6 [0, 1]) .dropLeg).recordOf 1).legs = [leg k00 .live, leg k01 .breaking] ∧
    ((after (asksOn served 4 6 [0, 0]) .dropLeg).port.slot 0).response.take 2 = bytes [4, 8] := by decide +kernel

theorem test_moveSource : let t := after (asksOn served 5 6 [0x85, 0]) .moveSource
    (t.recordOf 1).source = some (.gen 5) ∧ t.sw.list.map (·.outcomes) = [[⟨⟨1, 0⟩, .changed⟩]] := by decide +kernel

theorem test_hold_resume : let t := after (asksOn served 6 4 []) .hold
    (t.recordOf 1).target = some .hold ∧ t.sw.list.map (·.content.drive) = [.hold] ∧
    ((after (asksOn t 7 4 []) .resume).sw.list.map (·.content.drive)) = [.source] := by decide +kernel

theorem test_release : let t := after (asksOn served 8 5 [200]) .release
    (t.recordOf 1).st = .releasing ∧ t.sw.list.map (·.content.drive) = [.release] ∧ t.sw.counts = [⟨⟨1, 0⟩, 16000, false, 0⟩] ∧
    ((after (asksOn served 8 5 [0]) .release).recordOf 1).st = .breaking := by decide +kernel

theorem test_touch : ((after (asksOn served 9 6 [1, 2]) .touch).recordOf 1).lease = some 0x102 := by decide +kernel

theorem test_query : ((after (asksOn served 10 6 [1, 0]) .query).port.slot 0).response.take 9 = bytes [10, 0, 0xAB, 0xCD, 0, 1, 0, 0, 4] := by
  decide +kernel

theorem test_findOut_findIn : ((after (asks served .manager [11, 2, 0, 9, 0, 0]) .findOut).port.slot 0).response.take 12 =
      bytes [11, 0, 0, 9, 1, 0, 1, 0, 0, 0, 0, 1] ∧
    ((after (asks served .manager [12, 3, 0, 9, 2, 0, 0]) .findIn).port.slot 0).response.take 6 = bytes [12, 0, 0, 9, 0, 0] := by decide +kernel

/-- Watcher 0: ACCESS_UP on 2/5 with partner 1 and loop slot 0/0, CONFIRMED. Watcher 1: its ACCESS_DOWN partner on 2/6, DISARMED. -/
def upWatcher : Watcher :=
  ⟨{ WatchConfig.initial with configured := true, target := ⟨2, 5⟩, code := some ⟨3, 5⟩, auto := true, action := .accessUp, up := some ⟨1, 9, k00⟩ },
    { WatchRun.initial with st := .confirmed }⟩

def downWatcher : Watcher :=
  ⟨{ WatchConfig.initial with configured := true, target := ⟨2, 6⟩, code := some ⟨3, 5⟩, auto := true, action := .accessDown }, WatchRun.initial⟩

/-- Watcher 0, disarmed after its claim, given another action and partner, armed again and CONFIRMED. -/
def otherAction : Watcher := { upWatcher with cfg := { upWatcher.cfg with action := .none, up := none } }

def otherPartner : Watcher := { upWatcher with cfg := { upWatcher.cfg with up := some ⟨2, 9, k00⟩ } }

def withWatchers (s : State) (l : List (Nat × Watcher)) : State := { s with wat := { s.wat with table := l, view := [(2, .up)] } }

/-- Watcher 0 armed in a state, on 2/5, MANUAL. -/
def armedWatcher (st : WatchState) : Watcher :=
  ⟨{ WatchConfig.initial with configured := true, target := ⟨2, 5⟩, code := some ⟨3, 5⟩, persistence := 2, dropout := 2 },
    { WatchRun.initial with st := st, pos := 800 }⟩

/-- An access claim of watcher 0 on its way, with the records given. -/
def accessing (l : List (Nat × Rec)) : State :=
  let s := withRecs (withWatchers run [(0, upWatcher), (1, downWatcher)]) l
  { s with wat := { s.wat with claims := [.access ⟨0, ⟨2, 5⟩, k00, 1, 9, 0⟩] } }

/-- Test record 480 ACTIVE for watcher 0, with owner 1 displaced on 0/0. -/
def accessed : State :=
  withRecs (withWatchers run [(0, { upWatcher with run := { upWatcher.run with link := some ⟨480, 0⟩ } }), (1, downWatcher)])
    [(1, { circuit .active [⟨k00, .displaced, false, some 480⟩, leg k01 .live] with source := some (.inbound ⟨3, 0⟩) }),
      (480, { circuit .active [leg k00 .live] with
        cls := .test, source := some (.inbound ⟨2, 5⟩), displ := some (1, k00), watcher := some 0, down := some 1, lease := some 0 })]

def withClaim (s : State) (a : ActionClaim) : State := { s with wat := { s.wat with claims := [a] } }

/-- Record 1 VERIFYING on unit 0. -/
def verifying : State :=
  { withRecs run [(1, { circuit .verifying [leg k00 .making] with target := none, verify := some ⟨k00, 2⟩, openAns := some ⟨0, 0, [⟨1, 0⟩]⟩ })] with
    ver := { run.ver with
      units := [(0, { VerifyUnit.idle with st := .sending, circuit := some ⟨1, 0⟩, ret := some k00, limit := 160, started := true, count := 32 })] } }

/-- Unit 0 SENDING with the token's bytes received but for the last, frame k having ended. -/
def tokenEnded (k limit : Nat) (last : Byte) : State :=
  { run with
    ver := { run.ver with units := [(0, { VerifyUnit.idle with
      st := .sending, circuit := some ⟨1, 0⟩, ret := some k00, limit := limit, started := true, count := k, due := some k
      rx := ((token 0 1) ++ (token 0 1) ++ (token 0 1) ++ (token 0 1)).take 31 })] }
    sw := { run.sw with stored := List.replicate 16 (List.replicate 48 last) } }

def laneAt (x : Lane) : State := { run with sup := { run.sup with lanes := [(2, x)] } }

/-- 96 entries, none on lanes 0 to 2. -/
def fullList : List Entry := (List.range 96).map fun i => ⟨⟨Fin.ofNat 16 (i / 48 + 3), Fin.ofNat 48 i⟩, Content.idle, []⟩

def frame (b : Byte) : FrameIn := List.replicate 16 (List.replicate 48 b)

theorem test_accessEnd : let t := after (asks accessed .manager [13, 4, 0, 9, 1, 0xE0, 0, 0]) .accessEnd
    (t.recordOf 480).st = .breaking ∧ (t.recordOf 1).legs = [leg k00 .making, leg k01 .live] ∧
    t.sw.list.map (·.outcomes) = [[⟨⟨480, 0⟩, .broken⟩, ⟨⟨1, 0⟩, .made⟩]] := by decide +kernel

theorem test_laneSet : ((after (asks run .supervisor [0x18, 3, 0, 9, 15, 8, 255]) .laneSet).sup.lane 15).tlos = 8 ∧
    ((after (asks run .supervisor [0x18, 3, 0, 9, 15, 7, 1]) .laneSet).port.slot 0).response.take 2 = bytes [0x18, 2] := by decide +kernel

theorem test_laneQuery : ((after (asks run .supervisor [0x19, 1, 0, 9, 0]) .laneQuery).port.slot 0).response.take 9 =
    bytes [0x19, 0, 0, 9, 0, 0, 32, 10, 0] := by decide +kernel

def watchMsg : List Nat := [0x20, 28, 0, 9, 3, 2, 5, 0, 3, 5, 0, 0, 0, 0, 0, 0, 0, 4, 1, 1, 0, 1, 0, 9, 0, 0, 0, 0, 0, 60, 0xFF, 0xFF]

/-- A DEFAULT loop slot takes the outbound pair of the target (07 R140). -/
theorem test_watchSet : ((after (asks run .watchers watchMsg) .watchSet).wat.watcher 3).cfg.up = some ⟨9, 60, ⟨2, 5⟩⟩ := by decide +kernel

theorem test_watchArm : let s := withWatchers run [(0, { upWatcher with run := WatchRun.initial })]
    ((after (asks s .watchers [0x21, 1, 0, 9, 0]) .watchArm).wat.watcher 0).run.st = .armed ∧
    ((after (asks s .watchers [0x21, 1, 0, 9, 0]) .watchArm).port.slot 0).response.take 8 = bytes [0x21, 0, 0, 9, 0, 1, 0, 1] := by decide +kernel

theorem test_watchDisarm : ((after (asks (withWatchers run [(0, upWatcher)]) .watchers [0x22, 1, 0, 9, 0]) .watchDisarm).wat.watcher 0).run.st = .disarmed := by
  decide +kernel

theorem test_watchQuery : ((after (asks run .watchers [0x23, 1, 0, 9, 64]) .watchQuery).port.slot 0).response.take 2 = bytes [0x23, 2] := by
  decide +kernel

theorem test_resets : after served .hardReset = State.reset ∧ (after State.reset .rstNRelease).phase = .init ∧
    (after { run with phase := .init } .tinitEnd).lease.nextAt = 24576000 ∧ (after run (.oeNChange true)).lout k00 = none := by decide +kernel

/-- An FSYNC one period late keeps the frame timing LOCKED; the eighth miss in a row unlocks it (02 R25). -/
theorem test_locked : let s := { run with sw := { run.sw with locked := true, missed := 7 } }
    (after s (.fsyncInLocked 3073)).sw.missed = 0 ∧ (after s (.fsyncInLocked 3074)) = s ∧ (after s .fsyncMissed).sw.locked = false := by decide +kernel

/-- The fourth FSYNC of a run locks (02 R26). -/
theorem test_freerun : let s := { run with sw := { run.sw with run := 3, cand := some 100 } }
    (after s (.fsyncInFreerun 101 (frame 0))).sw.locked = true ∧ (after s (.fsyncInFreerun 102 (frame 0))).sw.run = 1 ∧
    (after s .candidatePositionPassed).sw.run = 0 := by decide +kernel

/-- A relock one period before the internal boundary cuts the frame by its last bit; at the boundary's instant it does not (02 R26; log 37). -/
theorem test_relock : let s (c : Nat) : State := { run with sw := { run.sw with run := 3, cand := some c, inFrame := true } }
    ((after (s 3071) (.fsyncInFreerun 3071 (frame 9))).sw.storedByte ⟨4, 46⟩, (after (s 3071) (.fsyncInFreerun 3071 (frame 9))).sw.storedByte ⟨4, 47⟩) =
      (9, run.sw.storedByte ⟨4, 47⟩) ∧
    (after (s 3072) (.fsyncInFreerun 3072 (frame 9))).sw.storedByte ⟨4, 47⟩ = 9 ∧ (after (s 3071) (.fsyncInFreerun 3071 (frame 9))).sw.boundaryAt = 3071 ∧
    (after (s 1) (.fsyncInFreerun 0 (frame 9))).sw.boundaryAt = 0 ∧ (after (s 1) (.fsyncInFreerun 0 (frame 9))).sw.locked = true := by decide +kernel

theorem test_frameBoundary : let s := { run with sw := { run.sw with list := [⟨k00, { Content.idle with drive := .hold, holdB := 0xD5 }, [⟨⟨1, 0⟩, .made⟩]⟩] } }
    let t := after s (.frameBoundary (frame 0x0F))
    t.lout k00 = some 0xD5 ∧ t.lout k01 = some 0xFF ∧ t.sw.reports = [[(k00, [⟨⟨1, 0⟩, .made⟩])]] ∧ t.sw.list = [] := by decide +kernel

theorem test_clearDownRunOut : let s := { run with sw := { run.sw with counts := [⟨⟨1, 0⟩, 80, true, 80⟩] } }
    (after s .clearDownRunOut).sw.ends = [⟨1, 0⟩] := by decide +kernel

theorem test_clearanceOrder : (after { run with port := { run.port with toSwitch := [1] } } .clearanceOrder).sw.clearance = [.engine 1] := by
  decide +kernel

/-- The report of the last leg made takes the circuit to ACTIVE and answers its OPEN (03 R51). -/
theorem test_boundaryReport : let s := withRecs (slotIn .working [1, 25, 0, 9]) [(1, { circuit .making [leg k00 .making] with openAns := some ⟨0, 3, [⟨1, 0⟩]⟩ })]
    let t := after { s with sw := { s.sw with reports := [[(k00, [⟨⟨1, 0⟩, .made⟩])]] } } .boundaryReport
    (t.recordOf 1).st = .active ∧ (t.port.slot 0).response.take 9 = bytes [1, 0, 0, 9, 0, 1, 0, 0, 4] := by decide +kernel

theorem test_tokenNotice : let s := { verifying with
      ver := { verifying.ver with units := verifying.ver.units.map fun u => (u.1, { u.2 with started := false, count := 0 }) }
      sw := { run.sw with notices := [⟨0, k00, ⟨1, 0⟩, true⟩] } }
    ((after s (.tokenNotice 0 true)).ver.unit 0).shown = some 0x7E ∧ ((after s (.tokenNotice 0 false)).ver.unit 0).count = 0 := by decide +kernel

theorem test_clearDownEnd : let s := withRecs run [(1, { circuit .releasing [leg k00 .live] with target := none, clearOf := some 1 })]
    ((after { s with sw := { s.sw with ends := [⟨1, 0⟩] } } .clearDownEnd).recordOf 1).st = .breaking := by decide +kernel

/-- The tLOS-th absent frame takes an UP lane to LOST, and the presence that reaches tRSQ x 80 takes a RESTORING lane to UP (06 R110, R111). -/
theorem test_laneFrameJudgement :
    ((after (laneAt { Lane.initial with st := .up, absent := 31, ended := some false }) (.laneFrameJudgement 2)).sup.lane 2).st = .lost ∧
    ((after (laneAt { Lane.initial with st := .restoring, presence := 799, ended := some true }) (.laneFrameJudgement 2)).sup.lane 2).st = .up := by
  decide +kernel

theorem test_laneReports : let s := { withRecs run [(1, circuit .active [leg k00 .live])] with
      mgr := { (withRecs run [(1, circuit .active [leg k00 .live])]).mgr with fan := [((⟨2, 0⟩ : Slot).key, [1])], view := [(2, .up)] }
      sup := { run.sup with toManager := [⟨2, .lost⟩], toWatchers := [⟨2, .lost⟩], toVerifier := [⟨2, .lost⟩] } }
    ((after s (.laneChangeClaim 2)).recordOf 1).fault = true ∧ (after s (.laneChangeClaim 2)).att.raises = [(.manager, [(82, .sourceFault)])] ∧
    ((after (withWatchers s [(0, armedWatcher .candidate)]) (.watcherLaneChangeReport 2)).wat.watcher 0).run.st = .armed ∧
    viewOf (after s (.verifierLaneChangeReport 2)).ver.view 2 = .lost := by decide +kernel

theorem test_leases : let s := withRecs run [(1, { circuit .active [leg k00 .live] with lease := some 1 })]
    (after s .leaseEvent).lease.expiries = [⟨1, 0⟩] ∧ ((after (after s .leaseEvent) .expiryClaim).recordOf 1).st = .breaking := by decide +kernel

/-- Four whole tokens at frame 33: detected, with a round trip of 1 (04 R80); at the limit without them: timed out (04 R81). -/
theorem test_tokenFrameEnd : (after (tokenEnded 33 160 0x81) (.tokenFrameEnd 0)).ver.outcomes = [⟨0, ⟨1, 0⟩, .detected 1⟩] ∧
    (after (tokenEnded 160 160 0) (.verifyTimeout 0)).ver.outcomes = [⟨0, ⟨1, 0⟩, .timedOut⟩] := by decide +kernel

theorem test_outcomes : let s (o : VerifyOutcome) := { verifying with ver := { verifying.ver with outcomes := [⟨0, ⟨1, 0⟩, o⟩] } }
    ((after (s (.detected 5)) .detectedOutcome).recordOf 1).roundTrip = some 5 ∧ ((after (s .timedOut) .verifyFailureOutcome).recordOf 1).st = .breaking ∧
    ((after (s .timedOut) .verifyFailureOutcome).ver.unit 0).st = .idle := by decide +kernel

/-- A byte B6h fits the code 101 at phase 0, and the next phase is 2 (07 R126). -/
theorem test_watcherSample : let w := { armedWatcher .armed with run := { (armedWatcher .armed).run with due := true, pos := 0 } }
    let s := { withWatchers run [(0, w)] with sw := { run.sw with stored := frame 0xB6 } }
    ((after s (.watcherSample 0)).wat.watcher 0).run.phase = some 2 ∧ ((after s (.watcherSample 0)).wat.watcher 0).run.pos = 1 := by decide +kernel

/-- A code of length 8 has one phase: its value is a hit, a rotation of it is a miss (07 R126). -/
theorem test_codeOfLength8 : let w := { armedWatcher .armed with
      cfg := { (armedWatcher .armed).cfg with code := some ⟨8, 0x69⟩ }, run := { (armedWatcher .armed).run with due := true, pos := 0 } }
    let t (b : Byte) := after { withWatchers run [(0, w)] with sw := { run.sw with stored := frame b } } (.watcherSample 0)
    ((t 0x69).wat.watcher 0).run.phase = some 0 ∧ ((t 0x69).wat.watcher 0).run.misses = 0 ∧
    ((t 0xD2).wat.watcher 0).run.phase = none ∧ ((t 0xD2).wat.watcher 0).run.misses = 1 := by decide +kernel

theorem test_intervalEnd : let s := withWatchers run [(0, armedWatcher .armed)]
    ((after s (.intervalEnd 0)).wat.watcher 0).run.st = .candidate ∧ ((after s (.intervalEnd 0)).wat.watcher 0).run.pos = 0 := by decide +kernel

theorem test_linkedClaims : ((after (withClaim served (.releaseLinked 3 ⟨1, 0⟩)) .releaseLinkedClaim).recordOf 1).st = .breaking ∧
    ((after (withClaim served (.holdLinked 3 ⟨1, 0⟩ true)) .holdLinkedClaim).recordOf 1).target = some .hold ∧
    (after (withClaim served (.suppression 3)) .suppressionClaim).att.raises = [(.manager, [(20, .suppressed)])] := by decide +kernel

theorem test_accessClaim : let t := after (accessing [(1, circuit .active [leg k00 .live])]) .accessClaim
    (t.recordOf 480).cls = .test ∧ ((t.recordOf 1).legs.map (·.st)) = [.displaced] ∧ (t.wat.watcher 0).run.link = some ⟨480, 0⟩ ∧
    t.wat.orders = [.arm 1 0 ⟨480, 0⟩] := by decide +kernel

/-- The disarming order goes to the down watcher that the access claim named, whatever partner the up watcher's configuration names (08 R164). -/
theorem test_disarmingOrder_names_claimed :
    ((after (withWatchers (accessing []) [(0, otherPartner), (1, downWatcher)]) .accessClaim).recordOf 480).down = some 1 ∧
    (after { withRecs (withWatchers run [(0, otherPartner)])
        [(480, { Rec.free 0 with st := .breaking, cls := .test, legs := [leg k00 .breaking], watcher := some 0, down := some 1 })] with
      sw := { run.sw with reports := [[(k00, [⟨⟨480, 0⟩, .broken⟩])]] } } .boundaryReport).wat.orders =
      [.disarm 1 ⟨480, 0⟩, .giveBack 0 ⟨480, 0⟩ 0] := by decide +kernel

theorem test_endOfAccessClaim : ((after (withClaim accessed (.endOfAccess 1 (some ⟨480, 0⟩))) .endOfAccessClaim).recordOf 480).st = .breaking := by
  decide +kernel

theorem test_watchOrders : let s (o : WatchOrder) := { accessed with wat := { accessed.wat with orders := [o] } }
    ((after (s (.arm 1 0 ⟨480, 0⟩)) .armingOrder).wat.watcher 1).run.served = some ⟨480, 0⟩ ∧
    ((after (after (s (.arm 1 0 ⟨480, 0⟩)) .armingOrder) .disarmingOrder).wat.watcher 1).run.st = .armed ∧
    ((after { withWatchers run [(0, upWatcher)] with wat := { (withWatchers run [(0, upWatcher)]).wat with orders := [.giveBack 0 ⟨480, 0⟩ 0] } }
      .returnOrder).wat.watcher 0).run.st = .armed := by decide +kernel

/-- A return order from before the soft reset finds nothing to do on a chain armed since, and is taken all the same (08 R169). -/
theorem test_returnOrder_after_softReset : ∀ n ∈ [0, 1],
    let u := (withWatchers run [(0, armedWatcher .candidate)]).wat
    let t := after { run with wat := { u with orders := [.giveBack 0 ⟨480, 0⟩ n], resets := 1 } } .returnOrder
    t.wat.orders = [] ∧ (t.wat.watcher 0).run.st = (if n = 0 then .candidate else .armed) := by decide +kernel

theorem test_softResetOrders : let s := { accessed with port := { run.port with toManager := [1], toWatchers := [1], toAttention := [1] } }
    ((after s .softResetClaim).recordOf 480) = Rec.free 1 ∧ ((after s .watcherSoftResetOrder).wat.watcher 0).run.st = .disarmed ∧
    (after s .attentionSoftResetOrder).port.acks = [(.attention, 1)] := by decide +kernel

/-- The clearance-done report that names the manager's order completes a SOFT_RESET whose acknowledgements are in (10 R201). -/
theorem test_clearanceDoneReport : let s := slotIn .working [0x3F, 0, 0, 9]
    let t := after { s with
      port := { s.port with soft := some ⟨1, 0, 3, [.manager, .watcherUnit, .attention], []⟩ }
      sw := { s.sw with cleared := [[.engine 1, .manager 1]] } } .clearanceDoneReport
    t.port.soft = none ∧ (t.port.slot 0).st = .done := by decide +kernel

theorem test_attentionRaise : let s := { run with att := { run.att with raises := [(.switch, [(0, .frameLocked)])] } }
    (after s (.attentionRaise .switch)).att.flagsOf 0 = 2 := by decide +kernel

/-- A declined claim is taken when a boundary has made room (03 R69). -/
theorem test_heldClaimTaken : let s := asksOn served 3 6 [0, 1]
    let full := { s with sw := { s.sw with list := fullList } }
    (after full .addLeg).mgr.held.isSome = true ∧
    ((after (after (after full .addLeg) (.frameBoundary (frame 0))) .heldClaimTaken).mgr.held) = none := by decide +kernel

/-! ### Witnesses: for each statement, states and operands that meet its hypotheses -/

theorem witness_StepTakesFrontCommand : ({ run with pending := [.ident, .config] } : State).pending = .ident :: [.config] ∧ run.pending = [] := ⟨rfl, rfl⟩

theorem witness_PinEvents : State.reset.phase = .reset ∧ ({ run with phase := .init } : State).phase = .init ∧
    ({ run with oeHigh := true } : State).oeHigh = true ∧ State.reset.oeHigh = false ∧ State.reset.phase ≠ .run ∧
    transactionOf (.submit 3 []) = some [] ∧ (∀ m, Instr.submit 3 [] ≠ .readStatus m) ∧
    transactionOf (.unknownTransactionCode 0x14 []) = some [] ∧ transactionOf .collect = none ∧ isPinEvent .collect = false :=
  ⟨rfl, rfl, rfl, rfl, by decide, rfl, fun _ h => (nomatch h), rfl, rfl, rfl⟩

/-- Slot 0 in every state, with whole areas. -/
theorem witness_port_slots : ∀ st ∈ [SlotState.empty, .loaded, .queued, .working, .done], (slotIn st []).phase = .run ∧
    ((slotIn st []).port.slot 0).st = st ∧ ((slotIn st []).port.slot 0).request.length = 32 ∧ ((slotIn st []).port.slot 0).response.length = 32 := by
  decide +kernel

/-- Offsets at the edges: 0 and 31 in range, 32 out; data that just fits and data that runs past. -/
theorem witness_WriteSlot_offsets : (0x1F : Byte).toNat < 32 ∧ 32 ≤ (0x20 : Byte).toNat ∧ ¬32 < (0x1F : Byte).toNat + (bytes [1]).length ∧
    32 < (0x1F : Byte).toNat + (bytes [1, 2]).length ∧ knownCode 0x14 = false := by decide

theorem witness_Submit : ownerOf (byteAt ((slotIn .loaded [0x3F]).port.slot 0).request 0) = some .engine ∧
    ownerOf (byteAt ((slotIn .loaded [0x01]).port.slot 0).request 0) = some .manager ∧
    ownerOf (byteAt ((slotIn .loaded [0xEE]).port.slot 0).request 0) = none := by decide +kernel

theorem witness_RequestsAreTakenInOrder : let p : Port := { (asks run .manager [1]).port with queue := [(.engine, 1)] ++ (.manager, 0) :: [(.manager, 2)] }
    (∀ x ∈ [(Owner.engine, (1 : Fin 4))], x.1 ≠ Owner.manager) ∧ byteAt (p.slot 0).request 0 = 1 ∧ byteAt (p.slot 0).request 0 ≠ 2 ∧
    ((slotIn .working []).port.slot 0).st = .working ∧ ((slotIn .working []).port.slot 0).sub = 3 ∧ (List.replicate 28 (0 : Byte)).length ≤ 28 := by
  decide +kernel

/-- Every kind, with a parameter length one too high, and with a reserved bit. -/
theorem witness_MalformedMessage : ∀ x ∈ requestKinds, ∀ flags ∈ [x.2.2.2 + 1, x.2.2.2 + 0x20],
    takesB (asks run x.2.1 [x.2.2.1.toNat, flags]) x.2.1 x.2.2.1 = true ∧
    byteAt (taken (asks run x.2.1 [x.2.2.1.toNat, flags]) x.2.1 x.2.2.1).1.msg 1 ≠ BitVec.ofNat 8 x.2.2.2 := by decide +kernel

/-- Reading, writing with a clear-down of 200, writing 201, and a write flag of 02h. -/
theorem witness_ConfigAndIdent :
    (∃ r p, (asks run .engine [0x30, 6, 0, 9, 0]).Takes .engine 0x30 r p ∧ byteAt r.msg 1 = 6 ∧ byteAt r.msg 4 = 0) ∧
    (∃ r p, (asks run .engine [0x30, 6, 0, 9, 1, 1, 2, 3, 4, 200]).Takes .engine 0x30 r p ∧ byteAt r.msg 1 = 6 ∧ byteAt r.msg 4 = 1 ∧
      (byteAt r.msg 9).toNat ≤ 200) ∧
    (∃ r p, (asks run .engine [0x30, 6, 0, 9, 1, 1, 2, 3, 4, 201]).Takes .engine 0x30 r p ∧ byteAt r.msg 1 = 6 ∧ byteAt r.msg 4 = 1 ∧
      200 < (byteAt r.msg 9).toNat) ∧
    (∃ r p, (asks run .engine [0x30, 6, 0, 9, 2]).Takes .engine 0x30 r p ∧ byteAt r.msg 1 = 6 ∧ byteAt r.msg 4 ≠ 0 ∧ byteAt r.msg 4 ≠ 1) ∧
    (∃ r p, (asks run .engine [0x31, 0]).Takes .engine 0x31 r p ∧ byteAt r.msg 1 = 0) := by
  and_intros <;> exact exists_takes (by decide +kernel) (by decide +kernel)

theorem witness_SoftReset : let s := asks run .engine [0x3F, 0]
    let s := { s with port := { s.port with slots := s.port.slots ++ ([(1, ⟨.working, [], [], 0⟩), (2, ⟨.done, [], [], 0⟩)] : Tbl PortSlot) } }
    (∃ r p, s.Takes .engine 0x3F r p ∧ byteAt r.msg 1 = 0 ∧ r.slot = 0) ∧ (s.port.slot 1).st = .working ∧ (s.port.slot 2).st ≠ .queued ∧
    (s.port.slot 2).st ≠ .working ∧ ({ s with port := { s.port with toSwitch := [1] } } : State).orderOutstanding :=
  ⟨exists_takes (by decide +kernel) (by decide +kernel), by decide +kernel, by decide +kernel, by decide +kernel, .inl (by decide +kernel)⟩

/-- A soft reset complete but for the watcher unit's acknowledgement, one that lacks its clearance, an earlier number, and a clearance report. -/
theorem witness_SoftResetCompletes : let x (cl : List ClearanceName) : SoftReset := ⟨2, 0, 3, [.manager, .attention], cl⟩
    let s (y : Option SoftReset) : State := { slotIn .working [] with
      port := { (slotIn .working []).port with soft := y, acks := [] ++ (.watcherUnit, 2) :: [] }
      sw := { run.sw with cleared := [[.engine 2, .manager 2]] } }
    (∀ y, (s y).phase = .run ∧ (s y).port.acks = [] ++ (.watcherUnit, 2) :: [] ∧ (s y).port.soft = y ∧ (s y).sw.cleared = [.engine 2, .manager 2] :: []) ∧
    (∀ c : ResetBlock, c ∈ (x []).acks ∨ c = .watcherUnit) ∧ ClearanceName.manager 2 ∈ (x [.manager 2]).cleared ∧
    ¬(ClearanceName.manager 2 ∈ (x []).cleared) ∧ (∀ z, (s (some { x [] with id := 3 })).port.soft = some z → z.id ≠ 2) ∧
    (∀ c : ResetBlock, c ∈ ({ x [] with acks := [.manager, .watcherUnit, .attention] } : SoftReset).acks) ∧
    ¬(∀ c : ResetBlock, c ∈ (x []).acks) := by
  refine ⟨fun y => ⟨rfl, rfl, rfl, rfl⟩, ?_, by decide, by decide, ?_, ?_, ?_⟩
  · intro c; cases c <;> decide
  · intro z h; cases h; decide
  · intro c; cases c <;> decide
  · intro h; exact absurd (h .watcherUnit) (by decide)

theorem witness_Collect : ∀ limit ∈ [1, 7], (∃ r p, (asks run .attention [0x28, 1, 0, 9, limit]).Takes .attention 0x28 r p ∧ byteAt r.msg 1 = 1 ∧
      1 ≤ (byteAt r.msg 4).toNat ∧ (byteAt r.msg 4).toNat ≤ 7) ∧
    (∃ r p, (asks run .attention [0x28, 1, 0, 9, 0]).Takes .attention 0x28 r p ∧ byteAt r.msg 1 = 1 ∧ (byteAt r.msg 4).toNat = 0) ∧
    (∃ r p, (asks run .attention [0x28, 1, 0, 9, 8]).Takes .attention 0x28 r p ∧ byteAt r.msg 1 = 1 ∧ 7 < (byteAt r.msg 4).toNat) := by
  intro l hl
  simp only [List.mem_cons, List.not_mem_nil, or_false] at hl
  rcases hl with rfl | rfl <;> and_intros <;> exact exists_takes (by decide +kernel) (by decide +kernel)

theorem witness_Enables :
    (∃ r p, (asks run .attention ([0x29, 17, 0, 9, 1, 0] ++ List.replicate 15 1)).Takes .attention 0x29 r p ∧ byteAt r.msg 1 = 17 ∧
      ∀ i, i < 17 → byteAt r.msg (4 + i) = 0 ∨ byteAt r.msg (4 + i) = 1) ∧
    (∃ r p, (asks run .attention ([0x29, 17, 0, 9] ++ List.replicate 16 1 ++ [2])).Takes .attention 0x29 r p ∧ byteAt r.msg 1 = 17 ∧
      16 < 17 ∧ byteAt r.msg (4 + 16) ≠ 0 ∧ byteAt r.msg (4 + 16) ≠ 1) ∧
    (let s : State := { run with att := { run.att with raises := [(.switch, [])] ++ (.manager, [(81, .expired)]) :: [] } };
      s.phase = .run ∧ s.att.raises = [(.switch, [])] ++ (.manager, [(81, .expired)]) :: [] ∧
      ∀ y ∈ [((.switch, []) : RaiseBlock × Raise)], y.1 ≠ RaiseBlock.manager) ∧
    ({ run with port := { run.port with toAttention := [1] } } : State).port.toAttention = 1 :: [] :=
  ⟨exists_takes (by decide +kernel) (by decide +kernel), exists_takes (by decide +kernel) (by decide +kernel), by decide +kernel, rfl⟩

/-- ATTN_N in the worked order of 9.6: a pending SOURCE_OK, which shares SOURCE's enable, or a DONE slot, with and without their enables (09 R173, R174). -/
theorem test_attn : ∀ x ∈ ([([12, 16], true), ([12, 15], false), ([11, 13, 16], false)] : List (List Nat × Bool)),
    let s : State := { run with att := { run.att with flags := [(281, 0x40)], enables := (List.range 17).map fun i => decide (i ∈ x.1) } }
    Tbl.wf 0 s.att.flags = true ∧ attnLow s = x.2 ∧ attnLow { s with port := (slotIn .done []).port } = (x.2 || decide (15 ∈ x.1)) := by decide +kernel

/-- OFF, FIXED, PRBS with seeds 0 and 7FFFh, CODE with lengths 3 and 8; then generator 6, kind 4, seed 8000h, length 2, a value too large. -/
theorem witness_GenSet :
    (∀ m ∈ ([[5, 0], [5, 1, 9, 0, 0, 0, 0, 1], [5, 2, 0, 0, 0], [5, 2, 0, 0x7F, 0xFF], [5, 3, 0, 0, 0, 3, 7], [5, 3, 0, 0, 0, 8, 255],
        [6, 0], [5, 4], [5, 2, 0, 0x80, 0], [5, 3, 0, 0, 0, 2, 0], [5, 3, 0, 0, 0, 3, 8], [5, 0, 0, 0, 0, 0, 0, 2]] : List (List Nat)),
      ∃ r p, (asks run .generators ([0x10, 8, 0, 9] ++ m)).Takes .generators 0x10 r p ∧ byteAt r.msg 1 = 8 ∧
        ∀ i, i < m.length → byteAt r.msg (4 + i) = BitVec.ofNat 8 (m.getD i 0)) := by
  intro m hm
  simp only [List.mem_cons, List.not_mem_nil, or_false] at hm
  rcases hm with rfl | rfl | rfl | rfl | rfl | rfl | rfl | rfl | rfl | rfl | rfl | rfl <;>
    exact exists_takes (by decide +kernel) (by decide +kernel)

theorem witness_Generators : ∀ k ∈ [GenKind.off, .fixed, .code, .prbs], ({ Generator.initial with kind := k } : Generator).kind = k := by decide

/-- No kept offer, and one without room yet; a full list; units idle, sending and done with and without a byte shown; watchers in and out of an interval. -/
theorem witness_FrameBoundary : let s : State := { run with
      sw := { run.sw with list := fullList, inFrame := true, kept := some ⟨[], none, false⟩ }
      ver := { run.ver with units := [(0, { VerifyUnit.idle with st := .sending, circuit := some ⟨1, 0⟩, started := true, count := 7, pos := some 6 }),
        (1, { VerifyUnit.idle with st := .sending, circuit := some ⟨2, 0⟩ }), (2, { VerifyUnit.idle with st := .done, circuit := some ⟨3, 0⟩, pos := some 7 }),
        (3, { VerifyUnit.idle with st := .done, circuit := some ⟨4, 0⟩ })] }
      wat := { run.wat with table := [(0, ⟨WatchConfig.initial, { WatchRun.initial with st := .armed, pos := 799, inFrame := true }⟩)] } }
    run.phase = .run ∧ run.sw.kept = none ∧ run.sw.inFrame = false ∧ (s.sw.kept.all fun kp => decide (kp.room = false)) = true ∧
    s.sw.list.length = 96 ∧ (s.sw.list.map (·.slot)).Nodup ∧ FrameIn.wellFormed (frame 0) = true ∧ s.sw.inFrame = true ∧
    Tbl.wf VerifyUnit.idle s.ver.units = true ∧ Tbl.wf Watcher.initial s.wat.table = true ∧
    (∀ u ∈ [(0 : Fin 4), 1], (s.ver.unit u).st = .sending) ∧ (s.ver.unit 0).started = true ∧ (s.ver.unit 1).started = false ∧
    (∀ u ∈ [(2 : Fin 4), 3], (s.ver.unit u).st = .done) ∧ (s.ver.unit 2).pos = some 7 ∧ (s.ver.unit 3).pos = none := by
  decide +kernel

/-- Every drive of a slot in a frame in progress, with the source lane UP and LOST. -/
theorem witness_OutboundSlot : let s (c : Content) (st : LaneState) : State := { laneAt { Lane.initial with st := st } with
      sw := { run.sw with inFrame := true, map := [(k00.key, c)] } }
    let c : Content := { Content.idle with owner := some ⟨1, 0⟩, holdB := 0xD5 }
    (∀ d ∈ [Drive.idle, .hold, .release, .token, .source], ((s { c with drive := d, unit := some 3, source := some (.gen 5) } .up).sw.entry k00).drive = d) ∧
    ((s { c with drive := .token, unit := some 3 } .up).sw.entry k00).unit = some 3 ∧
    (∀ st ∈ [LaneState.up, .lost], let t := s { c with drive := .source, source := some (.inbound ⟨2, 47⟩) } st;
      t.phase = .run ∧ t.sw.inFrame = true ∧ t.oeHigh = false ∧ (t.sw.entry k00).source = some (.inbound ⟨2, 47⟩) ∧ (t.sup.lane 2).st = st) := by
  decide +kernel

/-- FSYNC at the expected position and one period off it, away from both boundaries, at the boundary just taken and one period after it; the seventh and the eighth miss; runs of 3 and 4. -/
theorem witness_FrameTiming : let l (m : Nat) : State := { run with sw := { run.sw with locked := true, missed := m } }
    (l 0).sw.locked = true ∧ near 3073 ((l 0).sw.boundaryAt + 3072) = true ∧ near 3074 ((l 0).sw.boundaryAt + 3072) = false ∧
    near 3074 (l 0).sw.boundaryAt = false ∧ (∀ t ∈ [0, 1], (l 3).sw.boundaryAt ≤ t ∧ t ≤ (l 3).sw.boundaryAt + 1) ∧ (l 6).sw.missed < 7 ∧ 7 ≤ (l 7).sw.missed ∧ run.sw.locked = false ∧
    ({ run with sw := { run.sw with cand := some 100, run := 3 } } : State).sw.cand = some 100 ∧ near 101 100 = true ∧ near 102 100 = false := by
  decide +kernel

/-- A run of 4 at the instant of the boundary last made, one period before the next, and at the next. -/
theorem witness_Relock : ∀ t ∈ [0, 3071, 3072],
    let s : State := { run with sw := { run.sw with cand := some t, run := 3, inFrame := true } }
    s.sw.locked = false ∧ s.sw.cand = some t ∧ near t t = true ∧ 4 ≤ s.sw.run + 1 ∧
    (t = s.sw.boundaryAt ∨ t = s.sw.boundaryAt + 3072 ∨ (s.sw.boundaryAt < t ∧ t < s.sw.boundaryAt + 3072)) ∧ s.sw.inFrame = true := by decide +kernel

theorem witness_ClearDownEnds : let c : ClearCount := ⟨⟨1, 0⟩, 80, true, 80⟩
    let early : ClearCount := ⟨⟨2, 0⟩, 80, true, 79⟩
    ({ run with sw := { run.sw with counts := [early] ++ c :: [] } } : State).sw.counts = [early] ++ c :: [] ∧
    (∀ x ∈ [early], x.started = true → x.done < x.n) ∧ c.started = true ∧ c.n ≤ c.done ∧
    (let s : State := { run with port := { run.port with toSwitch := [1] }, sw := { run.sw with counts := [early], kept := some ⟨[], none, false⟩ } };
      s.port.toSwitch = 1 :: [] ∧ (∀ kp, s.sw.kept = some kp → kp.room = false) ∧ ∀ x ∈ s.sw.counts, x.started = true → x.done < x.n) := by
  refine ⟨rfl, by decide, rfl, by decide, rfl, ?_, by decide⟩
  intro kp h
  cases h
  rfl

/-- A clearance order that finds a kept offer with room and a count that has run out: the ADD_LEG held is taken and answered, its entry is discarded with
the list, and the count is handed (03 R70, log 12, log 35). -/
theorem witness_ClearanceTakesTheKeptOffer : let s : State := { slotIn .working [3, 6, 0, 9, 0, 1, 0, 0, 0, 1] with
      mgr := { served.mgr with held := some ⟨.request ⟨0, 3, bytes [3, 6, 0, 9, 0, 1, 0, 0, 0, 1]⟩, Defaults.initial⟩ }
      sw := { run.sw with counts := [⟨⟨1, 0⟩, 80, true, 80⟩], kept := some ⟨[⟨k01, Content.idle, []⟩], none, true⟩ } }
    let s : State := { s with port := { s.port with toSwitch := 1 :: [] } }
    s.phase = .run ∧ s.port.toSwitch = 1 :: [] ∧ (s.sw.kept.map (·.room)) = some true ∧ (after s .clearanceOrder).mgr.held = none ∧
    ((after s .clearanceOrder).recordOf 1).legs.length = 2 ∧ ((after s .clearanceOrder).port.slot 0).st = .done ∧
    (after s .clearanceOrder).sw.list = [] ∧ (after s .clearanceOrder).sw.ends = [⟨1, 0⟩] := by decide +kernel

/-- Lane 15 with tLOS 8 and tRSQ 1; lane 16, tLOS 7, tRSQ 0; a query of lane 15, of ALL, of lane 16. -/
theorem witness_LaneSetAndLaneQuery :
    (∃ r p, (asks run .supervisor [0x18, 3, 0, 9, 15, 8, 1]).Takes .supervisor 0x18 r p ∧ byteAt r.msg 1 = 3 ∧ (byteAt r.msg 4).toNat = (15 : Fin 16).val ∧
      8 ≤ (byteAt r.msg 5).toNat ∧ 1 ≤ (byteAt r.msg 6).toNat) ∧
    (∃ r p, (asks run .supervisor [0x18, 3, 0, 9, 16, 8, 1]).Takes .supervisor 0x18 r p ∧ byteAt r.msg 1 = 3 ∧ 16 ≤ (byteAt r.msg 4).toNat) ∧
    (∃ r p, (asks run .supervisor [0x18, 3, 0, 9, 15, 7, 1]).Takes .supervisor 0x18 r p ∧ byteAt r.msg 1 = 3 ∧ (byteAt r.msg 5).toNat < 8) ∧
    (∃ r p, (asks run .supervisor [0x18, 3, 0, 9, 15, 8, 0]).Takes .supervisor 0x18 r p ∧ byteAt r.msg 1 = 3 ∧ byteAt r.msg 6 = 0) ∧
    (∃ r p, (asks run .supervisor [0x19, 1, 0, 9, 15]).Takes .supervisor 0x19 r p ∧ byteAt r.msg 1 = 1 ∧ (byteAt r.msg 4).toNat = (15 : Fin 16).val) ∧
    (∃ r p, (asks run .supervisor [0x19, 1, 0, 9, 255]).Takes .supervisor 0x19 r p ∧ byteAt r.msg 1 = 1 ∧ byteAt r.msg 4 = 0xFF) ∧
    (∃ r p, (asks run .supervisor [0x19, 1, 0, 9, 16]).Takes .supervisor 0x19 r p ∧ byteAt r.msg 1 = 1 ∧ 16 ≤ (byteAt r.msg 4).toNat ∧ byteAt r.msg 4 ≠ 0xFF) := by
  and_intros <;> exact exists_takes (by decide +kernel) (by decide +kernel)

/-- The three lane states with present and absent frames, at the last count below the threshold and at the threshold. -/
theorem witness_LaneFrameJudgement :
    (∀ st ∈ [LaneState.up, .lost, .restoring], ∀ present ∈ [true, false], let s := laneAt { Lane.initial with st := st, ended := some present };
      s.phase = .run ∧ (s.sup.lane 2).ended = some present ∧ (s.sup.lane 2).st = st) ∧
    ((laneAt { Lane.initial with absent := 30 }).sup.lane 2).absent + 1 < 32 ∧ 32 ≤ ((laneAt { Lane.initial with absent := 31 }).sup.lane 2).absent + 1 ∧
    ((laneAt { Lane.initial with presence := 798 }).sup.lane 2).presence + 1 < 10 * 80 ∧
    10 * 80 ≤ ((laneAt { Lane.initial with presence := 799 }).sup.lane 2).presence + 1 := by decide +kernel

theorem witness_LaneChangeClaim : let s := withRecs { run with sup := { run.sup with toManager := [⟨1, .up⟩] ++ ⟨2, .lost⟩ :: [] } } []
    let s : State := { s with mgr := { s.mgr with fan := [((⟨2, 0⟩ : Slot).key, [1, 3])], view := [(2, .up)] } }
    s.Ready ∧ s.sup.toManager = [⟨1, .up⟩] ++ ⟨2, .lost⟩ :: [] ∧ (∀ x ∈ [(⟨1, .up⟩ : LaneReport)], x.lane ≠ 2) ∧ s.mgr.fedFrom 2 = [1, 3] :=
  ⟨ready_of (by decide), rfl, by decide, by decide +kernel⟩

/-! Watchers. -/

/-- An ACCESS_UP REPEAT, a chained HOLD_LINKED SIGNATURE of 32 frames, an action NONE, and a message out of range. -/
theorem witness_WatchSet : (parseWatch (bytes watchMsg)).isSome = true ∧
    (parseWatch (bytes [0x20, 28, 0, 9, 3, 2, 5, 1, 0, 0, 32, 0x80, 0, 0, 1, 0x29, 0xB1, 4, 1, 1, 0, 4, 1, 0, 1, 0xDF, 0, 0])).isSome = true ∧
    (parseWatch (bytes [0x20, 28, 0, 9, 63, 15, 47, 0, 8, 255, 0, 0, 0, 0, 0, 0, 0, 0, 255, 255, 0, 0, 0])).isSome = true ∧
    (∃ r p, (asks run .watchers watchMsg).Takes .watchers 0x20 r p ∧ byteAt r.msg 1 = 28 ∧ (parseWatch r.msg).isSome = true ∧
      (run.wat.watcher 3).run.st = .disarmed) ∧
    (∃ r p, (asks (withWatchers run [(3, upWatcher)]) .watchers watchMsg).Takes .watchers 0x20 r p ∧ byteAt r.msg 1 = 28 ∧
      (parseWatch r.msg).isSome = true ∧ ((withWatchers run [(3, upWatcher)]).wat.watcher 3).run.st ≠ .disarmed) ∧
    (∃ r p, (asks run .watchers [0x20, 28, 0, 9, 64]).Takes .watchers 0x20 r p ∧ byteAt r.msg 1 = 28 ∧ parseWatch r.msg = none) ∧
    (∃ r p, (asks run .watchers [0x23, 1, 0, 9, 63]).Takes .watchers 0x23 r p ∧ byteAt r.msg 1 = 1 ∧ (byteAt r.msg 4).toNat < 64) ∧
    (∃ r p, (asks run .watchers [0x23, 1, 0, 9, 64]).Takes .watchers 0x23 r p ∧ byteAt r.msg 1 = 1 ∧ 64 ≤ (byteAt r.msg 4).toNat) := by
  and_intros
  all_goals first
    | decide +kernel
    | exact exists_takes (by decide +kernel) (by decide +kernel)

def disarmedWatcher (chain : Bool) : Watcher := ⟨{ upWatcher.cfg with action := .none, up := none, chain := chain }, WatchRun.initial⟩

/-- A chain of two that may be armed; a head armed already; a follower and a number above 63; heads that may and may not be disarmed. -/
theorem witness_WatchArmAndWatchDisarm :
    (let s := withWatchers run [(0, disarmedWatcher false), (1, disarmedWatcher true), (2, upWatcher)];
      (∀ n ∈ [0, 1, 64], ∀ k ∈ [0x21, 0x22], takesB (asks s .watchers [k, 1, 0, 9, n]) .watchers (BitVec.ofNat 8 k) = true) ∧
      (s.wat.watcher 0).cfg.chain = false ∧ (s.wat.watcher 0).run.st = .disarmed ∧ (s.wat.watcher 0).cfg.action ≠ .accessDown ∧
      s.wat.members 0 = [0, 1] ∧ (∀ m ∈ s.wat.members 0, (s.wat.watcher m).cfg.configured = true) ∧ (s.wat.watcher 1).cfg.chain = true ∧
      (s.wat.watcher 2).run.st ≠ .disarmed ∧ (s.wat.watcher 2).run.link.isSome = false ∧ (s.wat.watcher 2).cfg.action ≠ .accessDown) ∧
    ((accessed.wat.watcher 0).run.st ≠ .disarmed ∧ (accessed.wat.watcher 0).cfg.action = .accessUp ∧ (accessed.wat.watcher 0).run.link.isSome = true) :=
  by decide +kernel

/-- REPEAT with a held phase that fits, none held and phase 1 the lowest that fits, a held phase that does not fit, none fitting; SIGNATURE inside a
window, and at a window's end with the CRC right and wrong. -/
theorem witness_WatcherSample : let x (q : Option Nat) : Watcher :=
      ⟨(armedWatcher .armed).cfg, { (armedWatcher .armed).run with due := true, pos := 0, phase := q }⟩
    let s (b : Byte) (w : Watcher) : State := { withWatchers run [(0, w)] with sw := { run.sw with stored := frame b } }
    let g (n : Nat) (crc : BitVec 16) : Watcher :=
      ⟨{ (armedWatcher .armed).cfg with code := none, sig := some ⟨9, 0x100, crc⟩ }, { (armedWatcher .armed).run with due := true, wpos := n }⟩
    (∀ b ∈ [(0xB6 : Byte), 0x6D, 0], ∀ q ∈ [some 0, none], ((s b (x q)).wat.watcher 0).run.due = true ∧ ((s b (x q)).wat.watcher 0).run.phase = q ∧
      ((s b (x q)).wat.watcher 0).cfg.code = some ⟨3, 5⟩ ∧ (s b (x q)).sw.storedByte ⟨2, 5⟩ = b) ∧
    (RepeatCode.mk 3 5).phaseByte 0 = 0xB6 ∧ (RepeatCode.mk 3 5).phaseByte 1 = 0x6D ∧ (∀ j, j < 3 → (RepeatCode.mk 3 5).phaseByte j ≠ 0) ∧
    ((s 1 (g 7 0)).wat.watcher 0).run.wpos + 1 < 9 ∧ 9 ≤ ((s 1 (g 8 0)).wat.watcher 0).run.wpos + 1 ∧
    crcByte ((s 1 (g 8 0)).wat.watcher 0).run.crc 1 = crcByte 0xFFFF 1 ∧ crcByte 0xFFFF 1 ≠ 0 ∧
    ((s 1 (g 8 (crcByte 0xFFFF 1))).wat.watcher 0).cfg.sig = some ⟨9, 0x100, crcByte 0xFFFF 1⟩ := by decide +kernel

/-- Every armed state at an interval's end, present and absent, below and at persistence and dropout 2, and at 1; a linked head; and intervals that are not
over: 799 frames sampled, a frozen head, a sample still due, a DISARMED watcher. -/
theorem witness_IntervalEnd :
    (∀ r ∈ [{ (armedWatcher .armed).run with pos := 799 }, { (armedWatcher .armed).run with frozen := true }, { (armedWatcher .armed).run with due := true },
      (armedWatcher .disarmed).run], (withWatchers run [(0, ⟨(armedWatcher .armed).cfg, r⟩)]).wat.intervalOver 0 = false) ∧
    (∀ st ∈ [WatchState.armed, .candidate, .confirmed, .clearing], ∀ misses ∈ [0, 1], ∀ n ∈ [0, 1], ∀ p ∈ [1, 2],
      let s := withWatchers run [(0, ⟨{ (armedWatcher st).cfg with persistence := p, dropout := p },
        { (armedWatcher st).run with misses := misses, present := n, absent := n }⟩)];
      s.phase = .run ∧ s.wat.intervalOver 0 = true ∧ (s.wat.watcher 0).run.st = st ∧ (s.wat.watcher 0).run.link = none ∧
      ((s.wat.members 0).all fun m => decide ((s.wat.watcher m).run.misses ≤ (s.wat.watcher m).cfg.tolerance)) = decide (misses = 0)) ∧
    (let s := withWatchers run [(0, ⟨(armedWatcher .confirmed).cfg, { (armedWatcher .confirmed).run with link := some ⟨480, 0⟩ }⟩)];
      s.wat.intervalOver 0 = true ∧ (s.wat.watcher 0).run.link.isSome = true) ∧
    (∀ a ∈ [Action.none, .releaseLinked, .holdLinked, .accessUp, .accessDown], ∀ flag ∈ [true, false], let s : State :=
        { withWatchers run [(0, ⟨{ upWatcher.cfg with action := a, linked := some ⟨1, 0⟩ }, { WatchRun.initial with st := .armed, pos := 800 }⟩)] with
          sw := { run.sw with map := [((⟨2, 5⟩ : Slot).key, { Content.idle with drive := .source, source := some (.gen 5) })] }
          gens := [(5, { Generator.initial with flag := flag })] };
      s.wat.intervalOver 0 = true ∧ (s.wat.watcher 0).cfg.auto = true ∧ (s.sw.entry (s.wat.watcher 0).cfg.target).source = some (.gen 5) ∧
      (generatorOf s.gens 5).flag = flag) := by decide +kernel

/-- A lane goes down under a CANDIDATE, and comes back under a frozen head. -/
theorem witness_LaneChangeFreezes : ∀ st ∈ [LaneState.lost, .up],
    let w : Watcher := ⟨(armedWatcher .candidate).cfg, { (armedWatcher .candidate).run with frozen := decide (st = .up) }⟩
    let s : State := { withWatchers run [(0, w)] with sup := { run.sup with toWatchers := [⟨3, .up⟩] ++ ⟨2, st⟩ :: [] } }
    s.phase = .run ∧ s.sup.toWatchers = [⟨3, .up⟩] ++ ⟨2, st⟩ :: [] ∧ (∀ x ∈ [(⟨3, .up⟩ : LaneReport)], x.lane ≠ 2) ∧
    (∀ w, (s.wat.watcher w).run.st.armedHead = true → (s.wat.watcher w).cfg.chain = false) ∧ (s.wat.watcher 0).run.st.armedHead = true ∧
    0 ∈ s.wat.members 0 ∧ (s.wat.watcher 0).cfg.target.lane = 2 := by
  intro st hst w s
  refine ⟨rfl, rfl, by decide, ?_, rfl, List.mem_cons_self, rfl⟩
  intro n _
  by_cases hn : n = 0
  · subst hn; rfl
  · have : s.wat.watcher n = Watcher.initial := by
      simp [s, w, WatcherUnit.watcher, withWatchers, Tbl.get]
      omega
    rw [this]; rfl

/-- Arming a partner that fits, one that does not, an order without its link; disarming and returning with and without effect; a soft reset. -/
theorem witness_OrdersToTheWatcherUnit :
    (let s : State := { accessed with wat := { accessed.wat with orders := .arm 1 0 ⟨480, 0⟩ :: [] } };
      s.phase = .run ∧ (s.wat.watcher 0).run.link = some ⟨480, 0⟩ ∧ (s.wat.watcher 1).cfg.configured = true ∧
      (s.wat.watcher 1).run.st = .disarmed ∧ (s.wat.watcher 1).cfg.chain = false ∧ (s.wat.watcher 1).cfg.action = .accessDown ∧
      (s.wat.watcher 1).cfg.target.lane = (s.wat.watcher 0).cfg.target.lane ∧ (∀ m ∈ s.wat.members 1, (s.wat.watcher m).cfg.configured = true) ∧
      (s.wat.watcher 0).cfg.action ≠ .accessDown ∧
      (s.wat.watcher 1).run.link ≠ some ⟨480, 0⟩ ∧ Tbl.wf Watcher.initial s.wat.table = true) ∧
    (let s : State := withWatchers run [(1, { downWatcher with run := { downWatcher.run with st := .armed, served := some ⟨480, 0⟩ } })];
      (s.wat.watcher 1).run.st.armedHead = true ∧ (s.wat.watcher 1).cfg.action = .accessDown ∧ (s.wat.watcher 1).run.served = some ⟨480, 0⟩ ∧
      (s.wat.watcher 1).run.link = none ∧ (s.wat.watcher 0).run.st.armedHead = false) ∧
    (∀ n ∈ [0, 1], let s : State := { run with wat := { (withWatchers run [(0, armedWatcher .confirmed)]).wat with
        orders := .giveBack 0 ⟨480, 0⟩ n :: [], resets := 1 } };
      s.wat.orders = .giveBack 0 ⟨480, 0⟩ n :: [] ∧ (s.wat.watcher 0).run.st.armedHead = true ∧ (s.wat.watcher 0).run.link = none ∧
      (s.wat.resets ≤ n ↔ n = 1)) ∧
    ({ run with port := { run.port with toWatchers := [1] } } : State).port.toWatchers = 1 :: [] := by decide +kernel

/-! Verification. -/

theorem witness_Token : (511 : Nat) < 512 ∧ fourTokens 0 1 (token 0 1 ++ token 0 1 ++ token 0 1 ++ token 0 1) = true ∧
    fourTokens 0 1 (List.replicate 32 0) = false := by decide +kernel

theorem witness_Notices : let s (started : Bool) : State := { verifying with
      ver := { verifying.ver with units := verifying.ver.units.map fun u => (u.1, { u.2 with started := started }), view := [(0, .up)] }
      sw := { run.sw with notices := [⟨1, k01, ⟨2, 0⟩, true⟩] ++ ⟨0, k00, ⟨1, 0⟩, true⟩ :: [] }
      sup := { run.sup with toVerifier := [⟨1, .up⟩] ++ ⟨0, .lost⟩ :: [] } }
    (s false).phase = .run ∧ (∀ x ∈ [(⟨1, k01, ⟨2, 0⟩, true⟩ : Notice)], x.unit ≠ 0) ∧
    (((s false).ver.unit 0).st = .sending ∧ ((s false).ver.unit 0).started = false ∧ ((s false).ver.unit 0).circuit = some ⟨1, 0⟩) ∧
    ((s true).ver.unit 0).started ≠ false ∧ (∀ x ∈ [(⟨1, .up⟩ : LaneReport)], x.lane ≠ 0) ∧
    viewUp (s true).ver.view 0 = true ∧ ((s true).ver.unit 0).ret = some k00 := by decide +kernel

/-- Frame 32 with the tokens, at and below the limit; frame 31; the limit without them. -/
theorem witness_TokenFrameEnd : ∀ k ∈ [31, 32, 160], ∀ limit ∈ [32, 160], ∀ b ∈ [(0x81 : Byte), 0], let s := tokenEnded k limit b;
    s.phase = .run ∧ (s.ver.unit 0).due = some k ∧ (s.ver.unit 0).st = .sending ∧ (s.ver.unit 0).circuit = some ⟨1, 0⟩ ∧
    (s.ver.unit 0).ret = some k00 ∧ (s.ver.unit 0).limit = limit ∧
    fourTokens 0 1 (((s.ver.unit 0).rx ++ [s.sw.storedByte k00]).drop (((s.ver.unit 0).rx ++ [s.sw.storedByte k00]).length - 32)) = decide (b = 0x81) := by
  decide +kernel

/-! Opening. -/

theorem exists_some {α : Type} {x : Option α} {P : α → Prop} [DecidablePred P] (h : x.any (fun a => decide (P a)) = true) : ∃ a, x = some a ∧ P a := by
  cases x with
  | none => simp at h
  | some a => exact ⟨a, rfl, by simpa using h⟩

/-- The parameters of an OPEN of one leg on 0/0 fed from 2/0. -/
def openMsg (record : List Nat) (cls options : Nat) : List Nat :=
  [1, 25, 0, 9] ++ record ++ [cls, options, 2, 0, 1, 0, 0, 0, 0, 0, 0, 0, 0, 1, 2, 3, 4, 0, 7, 0xFF, 0xFF, 0, 2]

/-- Record 479 by number, and ANY. -/
theorem witness_Open : (∃ r p, (asks run .manager (openMsg [1, 0xDF] 0 0)).TakesWhole 0x01 25 r p ∧ ∃ f, parseOpen r.msg = some f ∧ f.verify = none ∧
      f.record = some 479) ∧ (∃ r p, (asks run .manager (openMsg [0xFF, 0xFF] 0 0)).TakesWhole 0x01 25 r p ∧ ∃ f, parseOpen r.msg = some f ∧
      f.verify = none ∧ f.record = none ∧ f.legs = [k00] ∧ f.source = .inbound ⟨2, 0⟩) ∧
    run.allocates (some 479) none 479 ∧ served.allocates none none 0 ∧ run.mgr.holder k00 = none ∧ run.fanRoom (.inbound ⟨2, 0⟩) 1 ∧
    run.sw.list.length + [k00].length ≤ 96 := by
  and_intros
  · exact exists_whole (by decide +kernel) (exists_some (by decide +kernel))
  · exact exists_whole (by decide +kernel) (exists_some (by decide +kernel))
  all_goals first
    | decide +kernel
    | exact fanRoom_of rfl

def busyUnits : State :=
  { run with ver := { run.ver with units := [0, 1, 2, 3].map fun u => (u, { VerifyUnit.idle with st := .sending }) } }

theorem witness_OpenWithVerify : (∃ r p, (asks run .manager (openMsg [0xFF, 0xFF] 0 2)).TakesWhole 0x01 25 r p ∧ ∃ f, parseOpen r.msg = some f ∧
      f.verify = some ⟨none, some 2⟩) ∧
    (∃ r p, (asks busyUnits .manager (openMsg [0xFF, 0xFF] 0 2)).TakesWhole 0x01 25 r p ∧ ∃ f, parseOpen r.msg = some f ∧ f.verify.isSome = true) ∧
    (run.ver.unit 0).st = .idle ∧ (∀ u : Fin 4, (busyUnits.ver.unit u).st ≠ .idle) ∧ busyUnits.mgr.wait.length < 8 := by
  and_intros
  all_goals first
    | decide +kernel
    | exact exists_whole (by decide +kernel) (exists_some (by decide +kernel))

/-- Record 0 FREE, every other control-pool record out of FREE. -/
def fullPool : State := withRecs run ((List.range 480).map fun n => (n, { Rec.free 0 with st := .active }))

theorem fullPool_taken : ∀ m, m < 480 → (fullPool.recordOf m).st ≠ .free := by
  have h : (List.range 480).all (fun m => decide ((fullPool.recordOf m).st ≠ .free)) = true := by decide +kernel
  intro m hm
  simpa using List.all_eq_true.1 h m (List.mem_range.2 hm)

theorem mayTake_of {s : State} {cls : CircClass} {ks : List Slot} (h : (ks.all fun k => s.mgr.available cls none k) = true) :
    ∀ k ∈ ks, s.mayTake cls k := fun k hk => (available_iff s cls k).1 (List.all_eq_true.1 h k hk)

theorem not_mayTake_of {s : State} {cls : CircClass} {k : Slot} (h : s.mgr.available cls none k = false) : ¬s.mayTake cls k := fun hm => by
  rw [(available_iff s cls k).2 hm] at h
  cases h

/-- The circuit table is consistent when each of its entries is. -/
theorem circuitsLegal_of {s : State} (h : (∀ e ∈ s.mgr.recs,
      (∀ q ∈ e.2.partner.toList, q ≠ e.1 ∧ e.1 < 480 ∧ (s.recordOf q).partner = some e.1 ∧ e.2.st ≠ .free ∧ e.2.st ≠ .verifyWait ∧ e.2.st ≠ .verifying) ∧
      (e.2.legs.map (·.slot)).Nodup ∧ (∀ l ∈ e.2.legs, l.st = .displaced → e.1 < 480 ∧ ∀ d ∈ l.link.toList, 480 ≤ d) ∧
      (∀ d ∈ e.2.displ.toList, 480 ≤ e.1 ∧ d.1 < 480) ∧ (480 ≤ e.1 → e.2.st ≠ .free → e.2.cls = .test) ∧
      (e.2.cls = .test → 480 ≤ e.1 ∧ e.2.st ≠ .verifyWait)) ∧
      (∀ h ∈ s.mgr.wait, (s.recordOf h.num).st = .verifyWait ∧ (s.recordOf h.num).gen = h.gen) ∧ (s.mgr.wait.map (·.num)).Nodup) : s.circuitsLegal := by
  have hr (n : Nat) : (n, s.recordOf n) ∈ s.mgr.recs ∨ s.recordOf n = Rec.free 0 := Tbl.get_mem_or _ _ _
  refine ⟨fun n q hq => ?_, fun n => ?_, fun n l hl hd => ?_, fun n d hd => ?_, fun n hn hs => ?_, fun n hc => ?_, h.2.1, h.2.2⟩ <;>
    rcases hr n with hm | hf
  · exact (h.1 _ hm).1 q (by simp [hq])
  · simp [hf, Rec.free] at hq
  · exact (h.1 _ hm).2.1
  · simp [hf, Rec.free]
  · exact ⟨((h.1 _ hm).2.2.1 l hl hd).1, fun d h' => ((h.1 _ hm).2.2.1 l hl hd).2 d (by simp [h'])⟩
  · simp [hf, Rec.free] at hl
  · exact (h.1 _ hm).2.2.2.1 d (by simp [hd])
  · simp [hf, Rec.free] at hd
  · exact (h.1 _ hm).2.2.2.2.1 hn hs
  · exact absurd (by simp [hf, Rec.free]) hs
  · exact (h.1 _ hm).2.2.2.2.2 hc
  · simp [hf, Rec.free] at hc

/-- Two pairs, 1 with 2 and 3 with 4: a PRIORITY claim on 0/0 and 0/1 takes the only legs of 1 and 3, and their partners hold four legs each. -/
def crowded : State :=
  let member (legs : List Leg) (q : Nat) : Rec := { circuit .active legs with preemptable := true, partner := some q }
  let four (l : Fin 16) : List Leg := [0, 1, 2, 3].map fun ts => leg ⟨l, ts⟩ .live
  withRecs run [(1, member [leg k00 .live] 2), (2, member (four 3) 1), (3, member [leg k01 .live] 4), (4, member (four 4) 3)]

/-- No leg; a record not FREE; the pool used up; a slot held by a circuit that is not preemptable, and by a leg in BREAKING; a list of eight; ten slots of
offer; no unit and eight waiting. -/
theorem witness_OpenIsRefused :
    (∃ r p, (asks run .manager ([1, 25, 0, 9, 0xFF, 0xFF, 0, 0, 2, 0, 0])).TakesWhole 0x01 25 r p ∧ parseOpen r.msg = none) ∧
    (∃ r p, (asks served .manager (openMsg [0, 1] 0 0)).TakesWhole 0x01 25 r p ∧ ∃ f, parseOpen r.msg = some f ∧ f.record = some 1) ∧
    (∃ r p, (asks crowded .manager ([1, 25, 0, 9, 0xFF, 0xFF, 1, 0, 2, 0, 2, 0, 0, 0, 1])).TakesWhole 0x01 25 r p ∧ ∃ f, parseOpen r.msg = some f ∧
      f.record = none ∧ f.common.cls = .priority ∧ f.legs = [k00, k01]) ∧
    (served.recordOf 1).st ≠ .free ∧ (∀ m, m < 480 → (fullPool.recordOf m).st ≠ .free) ∧ ¬served.mayTake .priority k00 ∧
    ¬(withRecs run [(1, { circuit .active [leg k00 .breaking, leg k01 .live] with preemptable := true })]).mayTake .priority k00 ∧
    (∀ k ∈ [k00, k01], crowded.mayTake .priority k) ∧ crowded.fanRoom (.inbound ⟨2, 0⟩) 1 ∧ 8 < (crowded.offerSlotsOf [k00, k01]).length ∧
    (∀ k ∈ [k00, k01], crowded.releasedBy [k00, k01] k ≠ none ∧ crowded.releasedBy [k00, k01] k ≠ some 0) ∧
    (busyUnits.offerSlotsOf [k00, k01]).length ≤ 8 ∧
    (let s : State := { run with mgr := { run.mgr with fan := [((⟨2, 0⟩ : Slot).key, List.range 8)] } }; 8 ≤ (s.mgr.fanOf ⟨2, 0⟩).length) ∧
    8 ≤ ({ busyUnits with mgr := { run.mgr with wait := List.replicate 8 ⟨3, 0⟩ } } : State).mgr.wait.length := by
  refine ⟨?_, ?_, ?_, ?_, fullPool_taken, ?_⟩
  · exact exists_whole (by decide +kernel) (by decide +kernel)
  · exact exists_whole (by decide +kernel) (exists_some (by decide +kernel))
  · exact exists_whole (by decide +kernel) (exists_some (by decide +kernel))
  · decide +kernel
  refine ⟨not_mayTake_of (by decide +kernel), not_mayTake_of (by decide +kernel), mayTake_of (by decide +kernel), fanRoom_of (by decide +kernel), ?_⟩
  decide +kernel

/-- Record 1 has its only leg on 0/0, and its partner 2 has one LIVE leg and one DISPLACED by test record 480; record 3 has a leg on 0/1 and another; record
4 is a PRIORITY circuit. -/
def contested : State :=
  let victim (legs : List Leg) (q : Option Nat) : Rec := { circuit .active legs with preemptable := true, partner := q }
  withRecs run [(1, victim [leg k00 .live] (some 2)), (2, victim [leg ⟨3, 0⟩ .live, ⟨⟨3, 1⟩, .displaced, false, some 480⟩] (some 1)),
    (3, victim [leg k01 .making, leg k10 .live] none), (4, { circuit .active [leg ⟨5, 5⟩ .live] with cls := .priority }),
    (480, { circuit .active [leg ⟨3, 1⟩ .live] with cls := .test, displ := some (2, ⟨3, 1⟩) })]

/-- What the preemptions do to each record: 1 and its partner fall, 3 keeps a leg, 480 loses its link (03 R55-R57). -/
theorem test_preempted : let t := after (asks contested .manager ([1, 25, 0, 9, 0xFF, 0xFF, 1, 0, 2, 0, 2, 0, 0, 0, 1])) .openCircuit
    (∀ m ∈ [1, 2, 3, 4, 480], t.recordOf m = contested.preempted [k00, k01] m) ∧ (t.recordOf 1).st = .breaking ∧ (t.recordOf 2).st = .breaking ∧
    (t.recordOf 3).st = .active ∧ (t.recordOf 480).displ = none ∧ (t.recordOf 0).legs = [leg k00 .making, leg k01 .making] ∧
    t.sw.list.map (·.slot) = [k00, k01, ⟨3, 0⟩] ∧
    t.att.raises = [(.manager, [(82, .preempted), (84, .preempted), (83, .partnerReleased)])] := by decide +kernel

/-- Slots held by a circuit that falls with its partner and by one that keeps a leg: an OPEN of two legs without and with verify, a unit IDLE or none; an
OPEN_PAIR; an ADD_LEG. -/
theorem witness_Preemption : contested.circuitsLegal ∧ (busyUnits.mgr.wait.length < 8 ∧ ∀ u : Fin 4, (busyUnits.ver.unit u).st ≠ .idle) ∧
    (∀ x ∈ [(0, false), (2, true)], ∃ r p, (asks contested .manager ([1, 25, 0, 9, 0xFF, 0xFF, 1, x.1, 2, 0, 2, 0, 0, 0, 1] ++ List.replicate 10 0 ++
        [0xFF, 0xFF, 0, 2])).TakesWhole 0x01 25 r p ∧ ∃ f, parseOpen r.msg = some f ∧ f.legs = [k00, k01] ∧ f.common.cls = .priority ∧ f.record = none ∧
        f.source = .inbound ⟨2, 0⟩ ∧ f.verify.isSome = x.2) ∧
    (∃ r p, (asks contested .manager [2, 20, 0, 9, 0, 5, 0xFF, 0xFF, 1, 0, 2, 0, 0, 0, 0x80, 0, 0, 1]).TakesWhole 0x02 20 r p ∧
      ∃ f, parsePair r.msg = some f ∧ f.x = some 5 ∧ f.y = none ∧ f.common.cls = .priority ∧ f.bOut = k01 ∧ f.aOut = k00) ∧
    (∃ r p, (asks contested .manager [3, 6, 0, 9, 0, 4, 0, 0, 0, 0]).TakesWhole 0x03 6 r p ∧ parseSlot r.msg 8 = some k00 ∧
      (asks contested .manager [3, 6, 0, 9, 0, 4, 0, 0, 0, 0]).Names r 4 false) ∧
    (contested.allocates none none 0 ∧ contested.allocates none (some 5) 0 ∧ (contested.recordOf 5).st = .free) ∧
    (∀ k ∈ [k00, k01], contested.mayTake .priority k) ∧ contested.fanRoom (.inbound ⟨2, 0⟩) 2 ∧
    (contested.offerFits [k00, k01] ∧ contested.offerFits [k01, k00] ∧ contested.offerFits [k00]) ∧
    (contested.victimsOf [k00, k01] = [1, 3] ∧ contested.releasedOf [k00, k01] = [2] ∧ contested.releasedBy [k00] k00 ≠ some 4) ∧
    (contested.recordOf 4).st = .active ∧ (contested.recordOf 4).cls = .priority ∧ ∀ l ∈ (contested.recordOf 4).legs, l.slot ≠ k00 := by
  refine ⟨circuitsLegal_of (by decide +kernel), by decide +kernel, fun x hx => ?_, ?_, ?_, ?_, mayTake_of (by decide +kernel),
    fanRoom_of (by decide +kernel), ⟨⟨?_, ?_⟩, ⟨?_, ?_⟩, ?_, ?_⟩, ?_⟩
  · simp only [List.mem_cons, List.not_mem_nil, or_false] at hx
    rcases hx with rfl | rfl <;> exact exists_whole (by decide +kernel) (exists_some (by decide +kernel))
  · exact exists_whole (by decide +kernel) (exists_some (by decide +kernel))
  · exact exists_whole (by decide +kernel) ⟨by decide +kernel, names_of (by decide +kernel)⟩
  · exact ⟨allocates_any (by decide +kernel), allocates_any (by decide +kernel), by decide +kernel⟩
  all_goals decide +kernel

/-- A victim that keeps a leg, one that does not, and one with a partner. -/
theorem witness_PriorityOpen : let victim (legs : List Leg) (q : Option Nat) : Rec := { circuit .active legs with preemptable := true, partner := q }
    let a := withRecs run [(1, victim [leg k00 .live, leg k01 .live] none)]
    let b := withRecs run [(1, victim [leg k00 .making] none)]
    let c := withRecs run [(1, victim [leg k00 .live] (some 2)), (2, victim [leg k01 .live] (some 1))]
    (∃ r p, (asks a .manager (openMsg [0, 3] 1 0)).TakesWhole 0x01 25 r p ∧ ∃ f, parseOpen r.msg = some f ∧ f.verify = none ∧ f.legs = [k00] ∧
      f.common.cls = .priority ∧ f.record = some 3) ∧
    (∀ s ∈ [a, b, c], s.mgr.holder k00 = some 1 ∧ (s.recordOf 1).cls = .normal ∧ (s.recordOf 1).preemptable = true ∧ (s.recordOf 1).st = .active ∧
      (s.recordOf 3).st = .free) ∧
    (a.recordOf 1).legs.filter (fun o => decide (o.slot = k00)) = [leg k00 .live] ∧ (leg k00 .live).carries = true ∧ (leg k00 .live).yielded = false ∧
    (∃ o ∈ (a.recordOf 1).legs, o.slot ≠ k00 ∧ o.st ≠ .breaking) ∧ ¬(∃ o ∈ (b.recordOf 1).legs, o.slot ≠ k00 ∧ o.st ≠ .breaking) ∧
    (b.recordOf 1).partner = none ∧ (c.recordOf 1).partner = some 2 ∧ (c.recordOf 2).legs ≠ [] ∧
    (∀ o ∈ (c.recordOf 2).legs, o.carries = true ∧ o.slot ≠ k00) ∧ c.sw.list.length + 1 + (c.recordOf 2).legs.length ≤ 96 := by
  refine ⟨exists_whole (by decide +kernel) (exists_some (by decide +kernel)), by decide +kernel⟩

/-- Both ANY; out of range; both named; the pool used up, and but for one record; a busy b_out, a busy a_out; lists of seven and eight; ten slots of offer. -/
theorem witness_OpenPair : let msg (x y : List Nat) (cls : Nat) : List Nat := [2, 20, 0, 9] ++ x ++ y ++ [cls, 0, 2, 0, 0, 0, 2, 0, 0, 1]
    (∃ r p, (asks run .manager (msg [0xFF, 0xFF] [0xFF, 0xFF] 0)).TakesWhole 0x02 20 r p ∧
      ∃ f, parsePair r.msg = some f ∧ f.x = none ∧ f.y = none ∧ f.aIn = f.bIn) ∧
    (∃ r p, (asks run .manager (msg [0, 7] [0, 7] 0)).TakesWhole 0x02 20 r p ∧ parsePair r.msg = none) ∧
    (∃ r p, (asks served .manager (msg [0, 1] [0, 0] 0)).TakesWhole 0x02 20 r p ∧ ∃ f, parsePair r.msg = some f ∧ f.x = some 1 ∧ f.y = some 0) ∧
    (∃ r p, (asks crowded .manager (msg [0, 5] [0xFF, 0xFF] 1)).TakesWhole 0x02 20 r p ∧ ∃ f, parsePair r.msg = some f ∧ f.x = some 5 ∧ f.y = none ∧
      f.common.cls = .priority ∧ f.bOut = k01 ∧ f.aOut = k00 ∧ f.aIn = .inbound ⟨2, 0⟩) ∧
    (run.allocates none none 0 ∧ run.allocates none (some 0) 1 ∧ run.mgr.holder k00 = none ∧ run.mgr.holder k01 = none ∧ run.sw.list.length + 2 ≤ 96) ∧
    run.fanRoom (.inbound ⟨2, 0⟩) 2 ∧ (served.recordOf 1).st ≠ .free ∧ (∀ m, m < 480 → (fullPool.recordOf m).st ≠ .free) ∧
    ((withRecs fullPool ((0, Rec.free 0) :: fullPool.mgr.recs.tail)).recordOf 0).st = .free ∧
    ¬served.mayTake .normal k00 ∧ (∀ k ∈ [k01], served.mayTake .normal k) ∧ (∀ k ∈ [k01, k00], crowded.mayTake .priority k) ∧
    (8 < (crowded.offerSlotsOf [k01, k00]).length ∧ (∀ k ∈ [k01, k00], crowded.releasedBy [k01, k00] k ≠ none ∧
      crowded.releasedBy [k01, k00] k ≠ some 5 ∧ crowded.releasedBy [k01, k00] k ≠ some 0)) ∧
    ∀ n ∈ [7, 8], let s : State := { run with mgr := { run.mgr with fan := [((⟨2, 0⟩ : Slot).key, List.range n)] } };
      8 < (s.mgr.fanOf ⟨2, 0⟩).length + (if n = 7 then 2 else 1) := by
  intro msg
  refine ⟨?_, ?_, ?_, ?_, ?_, fanRoom_of (by decide +kernel), ?_, fullPool_taken, ?_, not_mayTake_of (by decide +kernel), mayTake_of (by decide +kernel),
    mayTake_of (by decide +kernel), ?_⟩
  · exact exists_whole (by decide +kernel) (exists_some (by decide +kernel))
  · exact exists_whole (by decide +kernel) (by decide +kernel)
  · exact exists_whole (by decide +kernel) (exists_some (by decide +kernel))
  · exact exists_whole (by decide +kernel) (exists_some (by decide +kernel))
  all_goals first
    | decide +kernel
    | exact ⟨allocates_any (by decide +kernel), allocates_any (by decide +kernel), by decide +kernel⟩

/-! Changing. -/

/-- Record number 512, generation 1 for 0, and a TEST circuit, for each of the requests. -/
theorem witness_StaleHandles : ∀ x ∈ [(3, 6, [0, 1]), (4, 6, [0, 1]), (5, 6, [0, 1]), (6, 4, []), (7, 4, []), (8, 5, [200]), (9, 6, [0, 1]), (10, 6, [1, 0]),
      (13, 4, [])], ∀ h ∈ [[2, 0, 0, 0], [0, 1, 0, 1], [1, 0xE0, 0, 0]],
    let s := asks accessed .manager ([x.1, x.2.1, 0, 9] ++ h ++ x.2.2);
    let r := (taken s .manager (BitVec.ofNat 8 x.1)).1;
    takesB s .manager (BitVec.ofNat 8 x.1) = true ∧ byteAt r.msg 1 = BitVec.ofNat 8 x.2.1 ∧ (x.1 < 5 → (parseSlot r.msg 8).isSome = true) ∧
    (x.1 = 5 → (parseSource r.msg 8).isSome = true) ∧ (511 < r.handle.num ∨ (r.handle.num ≤ 511 ∧ (s.recordOf r.handle.num).gen ≠ r.handle.gen) ∨
      (r.handle.num = 480 ∧ (s.recordOf 480).gen = r.handle.gen ∧ (s.recordOf 480).cls = .test)) := by decide +kernel

/-- Lane 16 and timeslot 48 for ADD_LEG and DROP_LEG; sources of lane 16, timeslot 48, generator 6 and a generator with a timeslot; clear-downs 201 and 254; a
check of 2, a view of 2, and a check OFF with record 512: each with a stale handle too. -/
theorem witness_FieldsOutOfRange : ∀ g ∈ [0, 1],
    (∀ kind ∈ [3, 4], ∀ k ∈ [[16, 0], [0, 48]], let s := asks served .manager ([kind, 6, 0, 9, 0, 1, 0, g] ++ k);
      takesB s .manager (BitVec.ofNat 8 kind) = true ∧ byteAt (taken s .manager (BitVec.ofNat 8 kind)).1.msg 1 = 6 ∧
      (16 ≤ (byteAt (taken s .manager (BitVec.ofNat 8 kind)).1.msg 8).toNat ∨ 48 ≤ (byteAt (taken s .manager (BitVec.ofNat 8 kind)).1.msg 9).toNat)) ∧
    (∀ k ∈ [[16, 0], [0, 48], [0x86, 0], [0x80, 1]], ∃ r p, (asks served .manager ([5, 6, 0, 9, 0, 1, 0, g] ++ k)).TakesWhole 0x05 6 r p ∧
      ∀ src, ¬readsSource r.msg 8 src) ∧
    (∀ c ∈ [201, 254], let s := asks served .manager [8, 5, 0, 9, 0, 1, 0, g, c];
      takesB s .manager 8 = true ∧ 200 < (byteAt (taken s .manager 8).1.msg 8).toNat ∧ (byteAt (taken s .manager 8).1.msg 8).toNat < 255) ∧
    (∀ x ∈ [[0, 1, 0, g, 2, 0], [0, 1, 0, g, 0, 2], [2, 0, 0, g, 0, 1]], let s := asks served .manager ([10, 6, 0, 9] ++ x);
      let r := (taken s .manager 10).1;
      takesB s .manager 10 = true ∧ byteAt r.msg 1 = 6 ∧
      (1 < (byteAt r.msg 8).toNat ∨ 1 < (byteAt r.msg 9).toNat ∨ (byteAt r.msg 8 = 0 ∧ 511 < r.handle.num))) := by
  intro g hg
  refine ⟨?_, fun k hk => ?_, ?_, ?_⟩
  · revert g; decide +kernel
  · have h : ∀ g ∈ [0, 1], ∀ k ∈ [[16, 0], [0, 48], [0x86, 0], [0x80, 1]], let s := asks served .manager ([5, 6, 0, 9, 0, 1, 0, g] ++ k);
        (takesB s .manager 5 = true ∧ byteAt (taken s .manager 5).1.msg 1 = BitVec.ofNat 8 6) ∧ parseSource (taken s .manager 5).1.msg 8 = none := by
      decide +kernel
    refine exists_whole (h g hg k hk).1 fun src hs => ?_
    rw [← parseSource_iff, (h g hg k hk).2] at hs
    cases hs
  · revert g; decide +kernel
  · revert g; decide +kernel

/-- ADD_LEG, DROP_LEG and MOVE_SOURCE of a record in each state but ACTIVE and HELD. -/
theorem witness_NotServing : ∀ st ∈ [CircState.free, .making, .verifyWait, .verifying, .releasing, .breaking],
    let s := withRecs run [(1, circuit st [leg k00 .live, leg k01 .live])]
    ¬(s.recordOf 1).serving ∧ (∀ kind ∈ [3, 4], let r := (taken (asksOn s kind 6 [0, 1]) .manager (BitVec.ofNat 8 kind)).1;
      takesB (asksOn s kind 6 [0, 1]) .manager (BitVec.ofNat 8 kind) = true ∧ byteAt r.msg 1 = 6 ∧ parseSlot r.msg 8 = some k01 ∧
      r.handle = ⟨1, (s.recordOf 1).gen⟩ ∧ (s.recordOf 1).cls ≠ .test) ∧
    ∃ r p, (asksOn s 5 6 [0x85, 0]).TakesWhole 0x05 6 r p ∧ parseSource r.msg 8 = some (.gen 5) ∧ (asksOn s 5 6 [0x85, 0]).Names r 1 false := by
  intro st hst s
  have h : ∀ st ∈ [CircState.free, .making, .verifyWait, .verifying, .releasing, .breaking],
      let s := withRecs run [(1, circuit st [leg k00 .live, leg k01 .live])];
      let r := (taken (asksOn s 5 6 [0x85, 0]) .manager 5).1;
      ((s.recordOf 1).st ≠ .active ∧ (s.recordOf 1).st ≠ .held) ∧
      (∀ kind ∈ [3, 4], let r := (taken (asksOn s kind 6 [0, 1]) .manager (BitVec.ofNat 8 kind)).1;
        takesB (asksOn s kind 6 [0, 1]) .manager (BitVec.ofNat 8 kind) = true ∧ byteAt r.msg 1 = 6 ∧ parseSlot r.msg 8 = some k01 ∧
        r.handle = ⟨1, (s.recordOf 1).gen⟩ ∧ (s.recordOf 1).cls ≠ .test) ∧
      (takesB (asksOn s 5 6 [0x85, 0]) .manager 5 = true ∧ byteAt r.msg 1 = BitVec.ofNat 8 6) ∧ parseSource r.msg 8 = some (.gen 5) ∧
      r.handle = ⟨1, ((asksOn s 5 6 [0x85, 0]).recordOf 1).gen⟩ ∧ 1 < 512 ∧ (false = false → ((asksOn s 5 6 [0x85, 0]).recordOf 1).cls ≠ .test) := by
    decide +kernel
  obtain ⟨h1, h2, h3, h4, h5⟩ := h st hst
  exact ⟨not_or.2 h1, h2, exists_whole h3 ⟨h4, names_of h5⟩⟩

/-- Three legs and four, a leg of its own on the slot, a slot of another circuit; a LIVE, a DISPLACED and a BREAKING leg beside another; an only leg. -/
theorem witness_AddLegAndDropLeg :
    (∃ r p, (asksOn served 3 6 [0, 1]).TakesWhole 0x03 6 r p ∧ parseSlot r.msg 8 = some k01 ∧ (asksOn served 3 6 [0, 1]).Names r 1 false) ∧
    (∃ r p, (asksOn served 4 6 [0, 1]).TakesWhole 0x04 6 r p ∧ parseSlot r.msg 8 = some k01 ∧ (asksOn served 4 6 [0, 1]).Names r 1 false) ∧
    (served.recordOf 1).serving ∧ (served.recordOf 1).legs.length < 4 ∧ (∀ l ∈ (served.recordOf 1).legs, l.slot ≠ k01) ∧ served.mgr.holder k01 = none ∧
    (∃ l ∈ (served.recordOf 1).legs, l.slot = k00) ∧ ¬pair.mayTake .normal k01 ∧
    4 ≤ ((withRecs run [(1, circuit .held (List.replicate 4 (leg k10 .live)))]).recordOf 1).legs.length ∧
    (∀ st ∈ [LegState.live, .making, .displaced, .breaking], let x := circuit .active [leg k00 .live, ⟨k01, st, false, some 480⟩];
      x.legs.filter (fun o => decide (o.slot = k01)) = [⟨k01, st, false, some 480⟩] ∧ ∃ o ∈ x.legs, o.slot ≠ k01 ∧ o.st ≠ .breaking) ∧
    ¬∃ o ∈ (served.recordOf 1).legs, o.slot ≠ k00 ∧ o.st ≠ .breaking := by
  refine ⟨?_, ?_, .inl (by decide +kernel), by decide +kernel, by decide +kernel, by decide +kernel, by decide +kernel, not_mayTake_of (by decide +kernel), ?_⟩
  · exact exists_whole (by decide +kernel) ⟨by decide +kernel, names_of (by decide +kernel)⟩
  · exact exists_whole (by decide +kernel) ⟨by decide +kernel, names_of (by decide +kernel)⟩
  · decide +kernel

theorem witness_MoveSource :
    (∃ r p, (asksOn served 5 6 [0x85, 0]).TakesWhole 0x05 6 r p ∧ parseSource r.msg 8 = some (.gen 5) ∧ (asksOn served 5 6 [0x85, 0]).Names r 1 false) ∧
    (∃ r p, (asksOn served 5 6 [2, 0]).TakesWhole 0x05 6 r p ∧ parseSource r.msg 8 = some (.inbound ⟨2, 0⟩)) ∧ (served.recordOf 1).serving ∧
    (served.recordOf 1).source = some (.inbound ⟨2, 0⟩) ∧ served.fanRoom (.gen 5) 1 ∧ served.sw.list.length + (served.recordOf 1).carrying.length ≤ 96 := by
  refine ⟨?_, ?_, .inl (by decide +kernel), by decide +kernel, fanRoom_of rfl, by decide +kernel⟩
  · exact exists_whole (by decide +kernel) ⟨by decide +kernel, names_of (by decide +kernel)⟩
  · exact exists_whole (by decide +kernel) (by decide +kernel)

/-- HOLD of a pair in SOURCE target; RESUME of it is refused. -/
theorem witness_HoldAndResume : ∀ kind ∈ [6, 7],
    (∃ r p, (asksOn pair kind 4 []).TakesWhole (BitVec.ofNat 8 kind) 4 r p ∧ (asksOn pair kind 4 []).Names r 1 false) ∧
    (pair.recordOf 1).partner ≠ some 1 ∧ (∀ m ∈ 1 :: (pair.recordOf 1).partner.toList, (pair.recordOf m).st = .active ∧
      (pair.recordOf m).target = some .source ∧ (pair.recordOf m).target ≠ some .hold) ∧
    pair.sw.list.length + ((1 :: (pair.recordOf 1).partner.toList).flatMap fun m => (pair.recordOf m).carrying).length ≤ 96 := by
  intro kind hk
  simp only [List.mem_cons, List.not_mem_nil, or_false] at hk
  rcases hk with rfl | rfl <;>
    exact ⟨exists_whole (by decide +kernel) (names_of (by decide +kernel)), by decide +kernel⟩

theorem witness_TouchAndQueries :
    (∃ r p, (asksOn pair 9 6 [0, 5]).TakesWhole 0x09 6 r p ∧ (asksOn pair 9 6 [0, 5]).Names r 1 true ∧ wordAt r.msg 8 = 5) ∧
    (∃ r p, (asksOn pair 9 6 [0, 0]).TakesWhole 0x09 6 r p ∧ wordAt r.msg 8 = 0) ∧ (pair.recordOf 1).reload = none ∧
    (∀ m ∈ 1 :: (pair.recordOf 1).partner.toList, (pair.recordOf m).st.leaseRuns = true) ∧
    (∀ st ∈ [CircState.releasing, .breaking, .free], ((withRecs run [(1, circuit st [leg k00 .live])]).recordOf 1).st = st) ∧
    (∃ r p, (asksOn served 10 6 [1, 0]).TakesWhole 0x0A 6 r p ∧ parseQuery r.msg = some (true, false) ∧ r.handle = ⟨1, 0⟩) ∧
    (∃ r p, (asksOn served 10 6 [0, 1]).TakesWhole 0x0A 6 r p ∧ parseQuery r.msg = some (false, true) ∧ r.handle.num = 1) ∧
    (∃ r p, (asks served .manager [11, 2, 0, 9, 15, 47]).TakesWhole 0x0B 2 r p ∧ parseSlot r.msg 4 = some ⟨15, 47⟩) ∧
    (∃ r p, (asks served .manager [12, 3, 0, 9, 2, 0, 7]).TakesWhole 0x0C 3 r p ∧ parseSlot r.msg 4 = some ⟨2, 0⟩ ∧ (byteAt r.msg 6).toNat ≤ 7) ∧
    (∃ r p, (asks served .manager [11, 2, 0, 9, 16, 0]).TakesWhole 0x0B 2 r p ∧ 16 ≤ (byteAt r.msg 4).toNat) ∧
    (∃ r p, (asks served .manager [12, 3, 0, 9, 0, 48, 0]).TakesWhole 0x0C 3 r p ∧ 48 ≤ (byteAt r.msg 5).toNat) ∧
    (∃ r p, (asks served .manager [12, 3, 0, 9, 2, 0, 8]).TakesWhole 0x0C 3 r p ∧ 7 < (byteAt r.msg 6).toNat) := by
  and_intros
  all_goals first
    | decide +kernel
    | exact exists_whole (by decide +kernel) (by decide +kernel)
    | exact exists_whole (by decide +kernel) ⟨names_of (by decide +kernel), by decide +kernel⟩

/-- The views of a PRIORITY record with every optional field, and of a free test record: a byte of each field of 10.8. -/
theorem test_views : let x : Rec := { circuit .held [leg k00 .live, ⟨k01, .displaced, false, some 511⟩] with
      cls := .priority, preemptable := true, fault := true, partner := some 258, lease := some 3, reload := some 4, tag := 0xABCD, verify := some ⟨k10, 500⟩ }
    circuitView 1 x = bytes ([5, 0x3E, 2, 0, 2, 0, 0, 1, 0, 1, 3] ++ List.replicate 6 0 ++ [1, 2, 0, 3, 0xAB, 0xCD]) ∧
    settingsView x = bytes [0, 0, 0, 0, 7, 0, 4, 1, 0, 1, 0xF4, 0xFF, 0x1F, 0xFF, 0xFF, 0xFF] ∧
    circuitView 511 (Rec.free 0) = bytes ([0, 0x80, 0xFF, 0xFF, 0] ++ List.replicate 12 0 ++ [0xFF, 0xFF, 0, 0, 0, 0]) := by decide +kernel

/-! Taking down. -/

theorem releasable_of {s : State} {n : Nat}
    (h : ((∀ m ∈ n :: (s.recordOf n).partner.toList, (s.recordOf m).st = .active) ∨ ∀ m ∈ n :: (s.recordOf n).partner.toList, (s.recordOf m).st = .making) ∧
      (s.recordOf n).partner ≠ some n ∧ (∀ m ∈ n :: (s.recordOf n).partner.toList, ∀ o ∈ s.displacers m, o ∉ n :: (s.recordOf n).partner.toList) ∧
      (∃ m ∈ n :: (s.recordOf n).partner.toList, ∃ l ∈ (s.recordOf m).legs, l.st ≠ .displaced) ∧
      (s.sw.list.length + ((n :: (s.recordOf n).partner.toList).flatMap fun m => (s.recordOf m).carrying).length) ≤ 96) : s.Releasable n :=
  ⟨h.1.imp (fun g m hm => .inl (g m hm)) id, h.2.1, h.2.2.1, h.2.2.2.1, h.2.2.2.2⟩

theorem onlyDisplaced_of {s : State} {n : Nat}
    (h : (∀ m ∈ n :: (s.recordOf n).partner.toList, (s.recordOf m).st = .active ∧ (∀ l ∈ (s.recordOf m).legs, l.st = .displaced) ∧
      (s.recordOf m).partner ≠ some m ∧ (s.recordOf m).relAns = none ∧ ∀ o ∈ s.displacers m, o ∉ n :: (s.recordOf n).partner.toList)) :
    s.OnlyDisplaced n := by
  refine ⟨fun m hm => .inl (h m hm).1, fun m hm => (h m hm).2.1, fun q hq => ⟨fun he => ?_, (h q (by simp [hq])).2.2.2.1⟩, fun m hm => (h m hm).2.2.2.2⟩
  subst he
  exact (h q List.mem_cons_self).2.2.1 hq

/-- A pair whose legs are both DISPLACED by test circuits. -/
def displacedPair : State :=
  withRecs accessed [(1, { circuit .active [⟨k00, .displaced, false, some 480⟩] with partner := some 2 }),
    (2, { circuit .active [⟨k01, .displaced, false, some 481⟩] with partner := some 1 }),
    (480, { circuit .active [leg k00 .live] with cls := .test, displ := some (1, k00) }),
    (481, { circuit .active [leg k01 .live] with cls := .test, displ := some (2, k01) })]

/-- A pair in service, a circuit in MAKING, an owner with a DISPLACED leg beside another, a pair with no other legs; a RELEASE at 200, at FFh; a circuit already RELEASING. -/
theorem witness_Release : displacedPair.OnlyDisplaced 1 ∧ pair.Releasable 1 ∧ (withRecs run [(1, circuit .making [leg k00 .making])]).Releasable 1 ∧ accessed.Releasable 1 ∧
    (∀ clear ∈ [200, 255], ∃ r p, (asksOn pair 8 5 [clear]).TakesWhole 0x08 5 r p ∧ (asksOn pair 8 5 [clear]).Names r 1 false ∧
      ((byteAt r.msg 8).toNat ≤ 200 ∨ byteAt r.msg 8 = 0xFF)) ∧
    ∀ st ∈ [CircState.free, .releasing, .breaking], ((withRecs run [(1, circuit st [leg k00 .live])]).recordOf 1).st = st := by
  refine ⟨onlyDisplaced_of (by decide +kernel), ?_, ?_, ?_, ?_, by decide +kernel⟩
  iterate 3 exact releasable_of (by decide +kernel)
  intro c hc
  simp only [List.mem_cons, List.not_mem_nil, or_false] at hc
  rcases hc with rfl | rfl <;> exact exists_whole (by decide +kernel) ⟨names_of (by decide +kernel), by decide +kernel⟩

theorem verifies_of {s : State} {n : Nat} {u : Fin 4} (h : (s.recordOf n).st = .verifying ∧ (s.recordOf n).partner = none ∧ n < 512 ∧
    (s.ver.unit u).circuit = some (s.handle n) ∧ (∀ v : Fin 4, v < u → (s.ver.unit v).circuit ≠ some (s.handle n)) ∧
    s.sw.list.length + (s.recordOf n).legs.length + ((s.mgr.wait.map fun h => (s.recordOf h.num).legs.length).headD 0) ≤ 96) : s.Verifies n u :=
  ⟨h.1, h.2.1, h.2.2.1, h.2.2.2.1, h.2.2.2.2.1, h.2.2.2.2.2⟩

/-- Record 1 VERIFYING on unit 0, and record 2 on the wait list. -/
def waiting : State :=
  let s := withRecs verifying [(1, verifying.recordOf 1), (2, { circuit .verifyWait [leg k01 .making] with verify := some ⟨k01, 2⟩, lease := some 0 })]
  { s with mgr := { s.mgr with wait := ⟨2, 0⟩ :: [] } }

/-- The outcomes of a valid unit, with nothing and with a circuit on the wait list; an outcome of a unit that serves another; RELEASEs. -/
theorem witness_Verification : verifying.Verifies 1 0 ∧ waiting.Verifies 1 0 ∧ verifying.Ready ∧ verifying.mgr.wait = [] ∧
    waiting.mgr.wait = ⟨2, 0⟩ :: [] ∧ (waiting.recordOf 2).st = .verifyWait ∧
    (waiting.recordOf 2).verify = some ⟨k01, 2⟩ ∧ (waiting.recordOf 2).partner = none ∧
    (∀ o ∈ [VerifyOutcome.detected 5, .timedOut, .returnLost],
      ({ verifying with ver := { verifying.ver with outcomes := [⟨0, verifying.handle 1, o⟩] } } : State).ver.outcomes = ⟨0, verifying.handle 1, o⟩ :: []) ∧
    verifying.isCurrent ⟨1, 1⟩ = false ∧ (verifying.recordOf 3).st ≠ .verifying ∧
    (∃ r p, (asksOn verifying 8 5 [0]).TakesWhole 0x08 5 r p ∧ (asksOn verifying 8 5 [0]).Names r 1 false ∧ (asksOn verifying 8 5 [0]).Verifies 1 0) := by
  refine ⟨verifies_of (by decide +kernel), verifies_of (by decide +kernel), ready_of (by decide), rfl, rfl, ?_⟩
  and_intros
  all_goals first
    | decide +kernel
    | exact exists_whole (by decide +kernel) ⟨names_of (by decide +kernel), verifies_of (by decide +kernel)⟩

/-- The table of 03 R59: a leg in each state, after each outcome. -/
theorem test_legsAfter : let one (st : LegState) (k : OutcomeKind) : List LegState :=
      (({ Rec.free 0 with legs := [leg k00 st] } : Rec).legsAfter [(k00, k)]).map (·.st)
    ([LegState.making, .live, .breaking, .displaced].map fun st => one st .made) = [[.live], [.live], [.breaking], [.displaced]] ∧
    ([LegState.making, .live, .breaking, .displaced].map fun st => one st .changed) = [[.making], [.live], [.breaking], [.displaced]] ∧
    ([LegState.making, .live, .breaking, .displaced].map fun st => one st .broken) = [[.making], [.live], [], [.displaced]] ∧
    ({ Rec.free 0 with legs := [leg k01 .making] } : Rec).legsAfter [(k00, .made)] = [leg k01 .making] := by decide

/-- Reports of a circuit in MAKING with one and with two legs, alone and in a pair whose other is MAKING or ACTIVE; a leg made and a leg broken of one
in service with a drive change pending; VERIFY_WAIT, VERIFYING before DETECTED and RELEASING with each outcome; BREAKING alone and beside a partner with
legs, and a TEST circuit whose MADE finds its leg BREAKING; a verified circuit, with and without one waiting; both of a pair in one report; a stale
outcome. -/
theorem witness_BoundaryReport : let s (l : List (Nat × Rec)) (k : OutcomeKind) : State :=
      { withRecs verifying l with sw := { run.sw with reports := ([(k00, k)].map fun o => (o.1, [⟨⟨1, 0⟩, o.2⟩])) :: [] } }
    (∀ l k, (s l k).Ready ∧ (s l k).sw.reports = ([(k00, k)].map fun o => (o.1, [⟨⟨1, 0⟩, o.2⟩])) :: []) ∧
    (s [(1, { verifying.recordOf 1 with roundTrip := some 5 })] .changed).Verifies 1 0 ∧
    ({ s (waiting.mgr.recs.map fun x => (x.1, { x.2 with roundTrip := some 5 })) .changed with mgr := waiting.mgr } : State).Verifies 1 0 ∧
    (∀ st ∈ [CircState.verifyWait, .verifying, .releasing], ∀ k ∈ [OutcomeKind.made, .broken, .changed],
      let t := s [(1, circuit st [leg k00 .making, leg k01 .breaking])] k;
      (t.recordOf 1).st = st ∧ (t.recordOf 1).roundTrip = none ∧ (t.recordOf 1).partner ≠ some 1 ∧ t.handle 1 = ⟨1, 0⟩) ∧
    (let t := s [(1, { circuit .breaking [leg k00 .breaking] with cls := .test })] .made;
      (t.recordOf 1).st = .breaking ∧ (t.recordOf 1).legsAfter [(k00, .made)] ≠ []) ∧
    (∀ legs ∈ [[leg k00 .making], [leg k00 .making, leg k01 .making]], ∀ q ∈ [none, some 2], ∀ st ∈ [CircState.making, .active],
      let t := s [(1, { circuit .making legs with partner := q }), (2, { circuit st [leg k10 .making] with partner := some 1 })] .made;
      (t.recordOf 1).st = .making ∧ (t.recordOf 1).partner = q ∧ (t.recordOf 1).partner ≠ some 1 ∧ (t.recordOf 1).target = some .source ∧
      (t.recordOf 2).st = st ∧ t.handle 1 = ⟨1, 0⟩) ∧
    (∀ q ∈ [none, some 2], ∀ legs ∈ [[], [leg k01 .breaking]], let t := s [(1, { circuit .breaking [leg k00 .breaking] with partner := q }),
        (2, { circuit .breaking legs with partner := some 1 })] .broken;
      (t.recordOf 1).st = .breaking ∧ (t.recordOf 1).cls ≠ .test ∧ (t.recordOf 1).partner ≠ some 1 ∧ (t.recordOf 2).legs = legs ∧
      (t.recordOf 1).legsAfter [(k00, .broken)] = []) ∧
    (∀ g ∈ [Target.hold, .source], ∀ k ∈ [(OutcomeKind.changed, LegState.live), (.made, .making), (.broken, .breaking)],
      let t := s [(1, { circuit .active [leg k00 k.2, leg k01 .live] with target := some g })] k.1;
      (t.recordOf 1).st = .active ∧ (t.recordOf 1).target = some g) ∧
    (let p : State := { withRecs run [(1, { circuit .making [leg k00 .making] with partner := some 2 }),
          (2, { circuit .making [leg k01 .making] with partner := some 1 })] with
        sw := { run.sw with reports := [(k00, [⟨⟨1, 0⟩, .made⟩]), (k01, [⟨⟨2, 0⟩, .made⟩])] :: [] } };
      p.sw.reports = [(k00, [⟨p.handle 1, .made⟩]), (k01, [⟨p.handle 2, .made⟩])] :: [] ∧ (p.recordOf 1).partner = some 2 ∧
      (p.recordOf 2).partner = some 1 ∧ (∀ m ∈ [1, 2], (p.recordOf m).st = .making ∧ (p.recordOf m).target = some .source) ∧
      (∀ l ∈ (p.recordOf 1).legs, l.slot = k00) ∧ ∀ l ∈ (p.recordOf 2).legs, l.slot = k01) ∧
    served.isCurrent ⟨1, 1⟩ = false := by
  refine ⟨fun l k => ⟨ready_of ⟨rfl, rfl⟩, rfl⟩, verifies_of (by decide +kernel), verifies_of (by decide +kernel), ?_⟩
  decide +kernel

/-- Stale outcomes, ends and expiries; a RELEASING pair; expiries of a served, a verifying, a waiting and a TEST circuit, and of a pair with nothing but
DISPLACED legs. -/
theorem witness_ClearDownEndsAndExpiries : served.Ready ∧ displacedPair.OnlyDisplaced 1 ∧ displacedPair.isCurrent ⟨1, 0⟩ = true ∧
    served.isCurrent ⟨1, 1⟩ = false ∧ served.isCurrent ⟨1, 0⟩ = true ∧
    (served.recordOf 1).st ≠ .releasing ∧ (served.recordOf 1).lease ≠ some 0 ∧
    (let s : State := { served with sw := { run.sw with reports := [[(k00, [⟨⟨1, 1⟩, .made⟩])]], ends := [⟨1, 1⟩] }, lease := ⟨0, [⟨1, 1⟩]⟩ };
      s.sw.reports = [(k00, [⟨⟨1, 1⟩, .made⟩])] :: [] ∧ s.sw.ends = ⟨1, 1⟩ :: [] ∧ s.lease.expiries = ⟨1, 1⟩ :: []) ∧
    (let s := withRecs { run with sw := { run.sw with ends := [⟨1, 0⟩] } } [(1, { circuit .releasing [leg k00 .live] with partner := some 2 }),
        (2, { circuit .releasing [leg k01 .live] with partner := some 1 })];
      s.sw.ends = s.handle 1 :: [] ∧ (s.recordOf 1).st = .releasing ∧ (s.recordOf 1).partner ≠ some 1) ∧
    (let s := withRecs { run with lease := ⟨0, [⟨1, 0⟩]⟩ } [(1, { circuit .held [leg k00 .live] with lease := some 0 })];
      s.lease.expiries = s.handle 1 :: [] ∧ (s.recordOf 1).lease = some 0 ∧ (s.recordOf 1).cls ≠ .test) ∧
    ((waiting.recordOf 2).lease = some 0 ∧ (waiting.recordOf 2).cls ≠ .test ∧ (waiting.recordOf 2).partner = none) ∧
    ((accessed.recordOf 480).lease = some 0 ∧ (accessed.recordOf 480).cls = .test ∧ (accessed.recordOf 480).st ≠ .releasing ∧
      (accessed.recordOf 480).st ≠ .breaking ∧ ((accessed.recordOf 480).displ.all fun d => decide (d.1 ≠ 480)) = true ∧
      accessed.sw.list.length + (accessed.recordOf 480).legs.length + 1 ≤ 96) :=
  ⟨ready_of (by decide), onlyDisplaced_of (by decide +kernel), by decide +kernel⟩

theorem not_watchersFit_of {s : State} {a : AccessRequest} (h : (Eff.start s).accessFits a = false) : ¬s.WatchersFit a := fun hf => by
  rw [(accessFits_iff s a).2 hf] at h
  cases h

theorem witness_LeaseEvent : let s := withRecs run [(1, { circuit .active [leg k00 .live] with lease := some 1 })]
    s.phase = .run ∧ Tbl.wf (Rec.free 0) s.mgr.recs = true ∧ (s.recordOf 1).st.leaseRuns = true ∧ (s.recordOf 1).lease = some 1 := by decide +kernel

/-- A state with 96 entries in the list, none on the slots in question. -/
def full (s : State) : State := { s with sw := { s.sw with list := fullList } }

/-- A command takes a claim whose offer the switch declines. -/
def Declined (s : State) (c : Instr) : Prop := ∃ k s', s.Hands c k s' ∧ s'.declines (effect s'.port.defaults k (Eff.start s')).offer

theorem declined_of {s s' : State} {c : Instr} {k : Claim} (h : s.Hands c k s')
    (hd : fits s'.sw.list (effect s'.port.defaults k (Eff.start s')).offer = false) : Declined s c := ⟨k, s', h, (declines_iff _ _).2 hd⟩

theorem declined_request {s : State} {c : Instr} {kind : Byte} {len : Nat} (hc : (c, Owner.manager, kind, len) ∈ requestKinds)
    (ht : takesB s .manager kind = true) (hd : let x := taken s .manager kind
      fits s.sw.list (effect x.2.defaults (.request x.1) (Eff.start { s with port := x.2 })).offer = false) : Declined s c :=
  declined_of (.request c kind len _ _ hc (takes_of ht)) hd

/-- A verified circuit whose unit goes to the one that waits. -/
def verified : State :=
  let s := withRecs waiting (waiting.mgr.recs.map fun x => (x.1, { x.2 with roundTrip := some 5 }))
  { s with sw := { s.sw with reports := [[(k00, [⟨⟨1, 0⟩, .changed⟩])]] } }

/-- Every kind of claim that offers entries can be declined: the requests that change legs, a report that frees a unit for a circuit that waits, a clear-down
end, expiries, both kinds of verify outcome, and every watcher claim but a suppression. -/
theorem witness_Declined :
    (Declined (full (asks run .manager (openMsg [0xFF, 0xFF] 0 0))) .openCircuit ∧
      Declined (full (asks run .manager [2, 20, 0, 9, 0xFF, 0xFF, 0xFF, 0xFF, 0, 0, 2, 0, 0, 0, 2, 0, 0, 1])) .openPair ∧
      Declined (full (asksOn served 3 6 [0, 1])) .addLeg ∧ Declined (full (asks contested .manager [4, 6, 0, 9, 0, 3, 0, 0, 0, 1])) .dropLeg ∧
      Declined (full (asksOn served 5 6 [0x85, 0])) .moveSource ∧ Declined (full (asksOn pair 6 4 [])) .hold ∧
      Declined (full (asksOn (withRecs run [(1, { circuit .held [leg k00 .live] with target := some .hold })]) 7 4 [])) .resume ∧
      Declined (full (asksOn served 8 5 [0])) .release ∧ Declined (full (asks accessed .manager [13, 4, 0, 9, 1, 0xE0, 0, 0])) .accessEnd) ∧
    Declined (full verified) .boundaryReport ∧
    Declined (full (withRecs { run with sw := { run.sw with ends := [⟨1, 0⟩] } } [(1, circuit .releasing [leg k00 .live])])) .clearDownEnd ∧
    Declined (full (withRecs { run with lease := ⟨0, [⟨1, 0⟩]⟩ } [(1, { circuit .held [leg k00 .live] with lease := some 0 })])) .expiryClaim ∧
    (∀ o ∈ [VerifyOutcome.detected 5, .timedOut], Declined (full { verifying with ver := { verifying.ver with outcomes := [⟨0, ⟨1, 0⟩, o⟩] } })
      (if o.isDetected then .detectedOutcome else .verifyFailureOutcome)) ∧
    Declined (full (withClaim served (.releaseLinked 63 ⟨1, 0⟩))) .releaseLinkedClaim ∧ Declined (full (withClaim served (.holdLinked 63 ⟨1, 0⟩ true))) .holdLinkedClaim ∧
    Declined (full (accessing [])) .accessClaim ∧ Declined (full (withClaim accessed (.endOfAccess 1 (some ⟨480, 0⟩)))) .endOfAccessClaim := by
  refine ⟨⟨?_, ?_, ?_, ?_, ?_, ?_, ?_, ?_, ?_⟩, ?_, ?_, ?_, fun o ho => ?_, ?_, ?_, ?_, ?_⟩
  · exact declined_request (kind := 0x01) (len := 25) (by decide) (by decide +kernel) (by decide +kernel)
  · exact declined_request (kind := 0x02) (len := 20) (by decide) (by decide +kernel) (by decide +kernel)
  · exact declined_request (kind := 0x03) (len := 6) (by decide) (by decide +kernel) (by decide +kernel)
  · exact declined_request (kind := 0x04) (len := 6) (by decide) (by decide +kernel) (by decide +kernel)
  · exact declined_request (kind := 0x05) (len := 6) (by decide) (by decide +kernel) (by decide +kernel)
  · exact declined_request (kind := 0x06) (len := 4) (by decide) (by decide +kernel) (by decide +kernel)
  · exact declined_request (kind := 0x07) (len := 4) (by decide) (by decide +kernel) (by decide +kernel)
  · exact declined_request (kind := 0x08) (len := 5) (by decide) (by decide +kernel) (by decide +kernel)
  · exact declined_request (kind := 0x0D) (len := 4) (by decide) (by decide +kernel) (by decide +kernel)
  · exact declined_of (.report _ _ (ready_of (by decide +kernel)) rfl) (by decide +kernel)
  · exact declined_of (.clearDownEnd _ _ (ready_of (by decide +kernel)) rfl) (by decide +kernel)
  · exact declined_of (.expiry _ _ (ready_of (by decide +kernel)) rfl) (by decide +kernel)
  · simp only [List.mem_cons, List.not_mem_nil, or_false] at ho
    rcases ho with rfl | rfl
    · exact declined_of (.outcome ⟨0, ⟨1, 0⟩, .detected 5⟩ [] (ready_of (by decide +kernel)) rfl) (by decide +kernel)
    · exact declined_of (.outcome ⟨0, ⟨1, 0⟩, .timedOut⟩ [] (ready_of (by decide +kernel)) rfl) (by decide +kernel)
  · exact declined_of (.action (.releaseLinked 63 ⟨1, 0⟩) [] (ready_of (by decide +kernel)) rfl) (by decide +kernel)
  · exact declined_of (.action (.holdLinked 63 ⟨1, 0⟩ true) [] (ready_of (by decide +kernel)) rfl) (by decide +kernel)
  · exact declined_of (.action (.access ⟨0, ⟨2, 5⟩, k00, 1, 9, 0⟩) [] (ready_of (by decide +kernel)) rfl) (by decide +kernel)
  · exact declined_of (.action (.endOfAccess 1 (some ⟨480, 0⟩)) [] (ready_of (by decide +kernel)) rfl) (by decide +kernel)

/-- An ADD_LEG and a clear-down end that find 96 entries in the list; a held ADD_LEG whose offer has room, and one whose offer has none yet; a held access
claim whose watchers fit still, and one whose up watcher has gone. -/
theorem witness_DeclinedClaim : let s : State := { asksOn served 3 6 [0, 1] with sw := { run.sw with list := fullList } }
    (∃ r p, s.Takes .manager 0x03 r p ∧ byteAt r.msg 0 = 3 ∧ byteAt r.msg 1 = 6 ∧ parseSlot r.msg 8 = some k01 ∧ s.Names r 1 false) ∧
    s.sw.list.length = 96 ∧ (∀ e ∈ s.sw.list, e.slot ≠ k01) ∧ (s.recordOf 1).st = .active ∧ (s.recordOf 1).legs.length < 4 ∧
    (∀ l ∈ (s.recordOf 1).legs, l.slot ≠ k01) ∧ s.mgr.holder k01 = none ∧
    (∀ room ∈ [true, false], let t : State := { served with
        mgr := { served.mgr with held := some ⟨.request ⟨0, 1, bytes [3, 6, 0, 9, 0, 1, 0, 0, 0, 1]⟩, Defaults.initial⟩ }
        sw := { run.sw with kept := some ⟨[⟨k01, Content.idle, []⟩], none, room⟩ } };
      t.phase = .run ∧ t.mgr.held = some ⟨.request ⟨0, 1, bytes [3, 6, 0, 9, 0, 1, 0, 0, 0, 1]⟩, Defaults.initial⟩ ∧
      t.sw.kept = some ⟨[⟨k01, Content.idle, []⟩], none, room⟩ ∧ t.sw.list.length + 1 ≤ 96) ∧
    (let t : State := { withRecs run [(1, circuit .releasing [leg k00 .live, leg k01 .breaking])] with sw := { run.sw with list := fullList, ends := [⟨1, 0⟩] } };
      t.mgr.held = none ∧ t.sw.ends = t.handle 1 :: [] ∧ (t.recordOf 1).st = .releasing ∧ (t.recordOf 1).partner = none ∧ t.sw.list.length = 96 ∧
      (t.recordOf 1).legs.filter (fun l => decide (l.st = .live)) = [⟨k00, .live, false, none⟩] ∧ ∀ e ∈ t.sw.list, e.slot ≠ k00) ∧
    (let a : AccessRequest := ⟨0, ⟨2, 5⟩, k00, 1, 9, 0⟩
      let t (l : List (Nat × Watcher)) : State := { withWatchers run l with
        mgr := { run.mgr with held := some ⟨.action (.access a), Defaults.initial⟩ }
        sw := { run.sw with kept := some ⟨[⟨k00, Content.idle, []⟩], none, true⟩ } };
      (t [(0, upWatcher), (1, downWatcher)]).WatchersFit a ∧ ¬(t [(1, downWatcher)]).WatchersFit a ∧
      (t [(0, upWatcher), (1, downWatcher)]).mayLoop k00 ∧ ((t []).recordOf 480).st = .free) := by
  intro s
  refine ⟨exists_takes (by decide +kernel) ⟨by decide +kernel, by decide +kernel, by decide +kernel, names_of (by decide +kernel)⟩, ?_⟩
  and_intros
  all_goals first
    | decide +kernel
    | exact (accessFits_iff _ _).1 (by decide +kernel)
    | exact not_watchersFit_of (by decide +kernel)
    | exact (loopFree_iff _ _).1 (by decide +kernel)

theorem witness_SoftResetClaim : let s : State := { served with port := { run.port with toManager := [2] }, sw := { run.sw with counts := [⟨⟨1, 0⟩, 80, true, 79⟩] } }
    s.Ready ∧ s.port.toManager = 2 :: [] ∧ Tbl.wf VerifyUnit.idle s.ver.units = true ∧ ∀ x ∈ s.sw.counts, x.started = true → x.done < x.n :=
  ⟨ready_of (by decide), rfl, by decide +kernel, by decide⟩

/-! Watcher actions and test access. -/

theorem witness_LinkedActions : (served.Ready ∧ pair.Ready ∧ served.Releasable 1 ∧ displacedPair.OnlyDisplaced 1 ∧ verifying.Verifies 1 0) ∧
    (waiting.recordOf 2).st = .verifyWait ∧ (waiting.recordOf 2).partner = none ∧ served.isCurrent ⟨1, 0⟩ = true ∧ served.isCurrent ⟨1, 1⟩ = false ∧
    (served.recordOf 1).cls ≠ .test ∧ (pair.recordOf 1).partner ≠ some 1 ∧
    (∀ m ∈ 1 :: (pair.recordOf 1).partner.toList, (pair.recordOf m).st = .active ∧ (pair.recordOf m).target = some .source) ∧
    (served.recordOf 1).target ≠ some .hold ∧ (accessed.recordOf 480).cls = .test ∧
    ∀ a ∈ [ActionClaim.suppression 63, .releaseLinked 63 ⟨1, 0⟩, .holdLinked 63 ⟨1, 0⟩ true, .holdLinked 63 ⟨1, 0⟩ false],
      (withClaim served a).wat.claims = a :: [] :=
  ⟨⟨ready_of (by decide), ready_of (by decide), releasable_of (by decide +kernel), onlyDisplaced_of (by decide +kernel), verifies_of (by decide +kernel)⟩,
    by decide +kernel⟩

/-- A free loop slot, and one whose owner is in service; a loop slot of an owner that is not, and one whose leg is BREAKING; watchers that do not fit,
one by one. -/
theorem witness_AccessClaim : let a : AccessRequest := ⟨0, ⟨2, 5⟩, k00, 1, 9, 0⟩
    let owner := circuit .active [leg k00 .live]
    (∀ l ∈ [[], [(1, owner)]], (accessing l).WatchersFit a) ∧ (accessing []).Ready ∧ (accessing []).fanRoom (.inbound ⟨2, 5⟩) 1 ∧
    ((accessing [(1, owner)]).recordOf 1).serving ∧
    (∀ x ∈ [circuit .releasing [leg k00 .live], circuit .active [leg k00 .breaking, leg k01 .live], { owner with cls := .priority }],
      ¬(accessing [(1, x)]).mayLoop k00) ∧
    (∀ l ∈ [[(1, downWatcher)], [(0, upWatcher)], [(0, { upWatcher with cfg := { upWatcher.cfg with chain := true } }), (1, downWatcher)],
        [(0, upWatcher), (1, { downWatcher with cfg := { downWatcher.cfg with chain := true } })],
        [(0, otherAction), (1, downWatcher)]],
      ¬(withWatchers (accessing []) l).WatchersFit a) ∧
    ¬(accessing [(483, { circuit .making [leg k01 .making] with cls := .test, watcher := some 0 })]).WatchersFit a ∧
    (∀ l ∈ [[], [(1, owner)]], (accessing l).mgr.held = none ∧ (accessing l).wat.claims = .access a :: [] ∧
      ((accessing l).recordOf 480).st = .free ∧ (accessing l).sw.list.length + 1 ≤ 96) ∧
    (accessing []).mgr.holder k00 = none ∧ (accessing [(1, owner)]).mgr.holder k00 = some 1 ∧
    ∃ l ∈ ((accessing [(1, owner)]).recordOf 1).legs, l.holdsSlot k00 = true ∧ l.carries = true := by
  intro a owner
  have fit : ∀ l ∈ [[], [(1, owner)]], (Eff.start (accessing l)).accessFits a = true := by decide +kernel
  have loop : ∀ x ∈ [circuit .releasing [leg k00 .live], circuit .active [leg k00 .breaking, leg k01 .live], { owner with cls := .priority }],
      (accessing [(1, x)]).mgr.loopFree k00 = false := by decide +kernel
  have unfit : ∀ l ∈ [[(1, downWatcher)], [(0, upWatcher)], [(0, { upWatcher with cfg := { upWatcher.cfg with chain := true } }), (1, downWatcher)],
      [(0, upWatcher), (1, { downWatcher with cfg := { downWatcher.cfg with chain := true } })],
        [(0, otherAction), (1, downWatcher)]],
      (Eff.start (withWatchers (accessing []) l)).accessFits a = false := by decide +kernel
  refine ⟨fun l hl => (accessFits_iff _ _).1 (fit l hl), ready_of (by decide +kernel), fanRoom_of (by decide +kernel), .inl (by decide +kernel),
    fun x hx hm => ?_, fun l hl => not_watchersFit_of (unfit l hl), not_watchersFit_of (by decide +kernel), by decide +kernel⟩
  rw [← loopFree_iff, loop x hx] at hm
  cases hm

/-- A TEST circuit whose access has ended, its break not yet reported. -/
def endedAccess : Rec :=
  { Rec.free 0 with st := .breaking, cls := .test, legs := [leg k00 .breaking], watcher := some 0, down := some 1 }

/-- Owners at the report of a restoration: the outcome for their leg on the loop slot, and their legs after it. In service with the leg made, and with
the leg dropped; RELEASING and BREAKING with the leg's make applied, or replaced by its break. -/
def endedOwners : List (Rec × OutcomeKind × List Leg) :=
  [(circuit .held [leg k00 .making, leg k01 .live], .made, [leg k00 .live, leg k01 .live]),
    (circuit .active [leg k00 .breaking, leg k01 .live], .broken, [leg k01 .live]),
    (circuit .releasing [leg k00 .breaking, leg k01 .live], .broken, [leg k01 .live]),
    (circuit .breaking [leg k00 .breaking], .made, [leg k00 .breaking]), (circuit .breaking [leg k00 .breaking], .broken, [])]

/-- The report of the restoration raises RESTORED on an owner that has its leg again, and nothing on one that dropped it or was released (08 R164). -/
theorem test_restored : endedOwners.map (fun o =>
      (after { withRecs accessed [(1, o.1), (480, { endedAccess with restoring := some (⟨1, 0⟩, k00) })] with
        sw := { run.sw with reports := [[(k00, [⟨⟨480, 0⟩, .broken⟩, ⟨⟨1, 0⟩, o.2.1⟩])]] } } .boundaryReport).att.raises) =
    [(.manager, [(82, .restored), (561, .accessEnded)])] :: List.replicate 4 [(.manager, [(561, .accessEnded)])] := by decide +kernel

/-- A claim and an ACCESS_END of a test circuit with a displaced owner, of a circuit that is none, and the report of the break: with no owner, with a stale
one, and with an owner in service, RELEASING or BREAKING whose leg is made, broken or left in BREAKING. -/
theorem witness_EndOfAccess : accessed.Ready ∧ (∀ c ∈ [none, some (⟨480, 1⟩ : Handle)], (withClaim accessed (.endOfAccess 1 c)).wat.claims =
      .endOfAccess 1 c :: [] ∧ (c.all fun h => !(accessed.isCurrent h)) = true) ∧ (∀ n ∈ [1, 480], (withClaim accessed (.endOfAccess 1 (some (accessed.handle n)))).wat.claims =
      .endOfAccess 1 (some (accessed.handle n)) :: []) ∧ (accessed.recordOf 480).cls = .test ∧ (accessed.recordOf 480).st = .active ∧
    (accessed.recordOf 480).displ = some (1, k00) ∧ (accessed.recordOf 1).cls ≠ .test ∧
    (∃ r p, (asks accessed .manager [13, 4, 0, 9, 1, 0xE0, 0, 0]).TakesWhole 0x0D 4 r p ∧ (asks accessed .manager [13, 4, 0, 9, 1, 0xE0, 0, 0]).Names r 480 true) ∧
    (∀ owner ∈ [none, some (⟨1, 7⟩, k00)], ∀ more ∈ [[], [(⟨⟨1, 7⟩, .broken⟩ : LegOutcome)]],
      let s : State := { withRecs accessed [(480, { endedAccess with restoring := owner })] with
        sw := { run.sw with reports := [(k00, ⟨⟨480, 0⟩, .broken⟩ :: more)] :: [] } };
      s.sw.reports = [(k00, ⟨s.handle 480, .broken⟩ :: more)] :: [] ∧ (s.recordOf 480).st = .breaking ∧ (s.recordOf 480).legs = [leg k00 .breaking] ∧
      (s.recordOf 480).watcher = some 0 ∧ (s.recordOf 480).down = some 1 ∧ (s.wat.watcher 0).run.link = some (s.handle 480) ∧
      (more.all fun o => !s.isCurrent o.h) = true ∧ ((s.recordOf 480).restoring.all fun x => !s.isCurrent x.1) = true) ∧
    (∀ o ∈ endedOwners, let s : State := { withRecs accessed [(1, o.1), (480, { endedAccess with restoring := some (⟨1, 0⟩, k00) })] with
        sw := { run.sw with reports := [(k00, [⟨⟨480, 0⟩, .broken⟩, ⟨⟨1, 0⟩, o.2.1⟩])] :: [] } };
      s.sw.reports = [(k00, [⟨s.handle 480, .broken⟩, ⟨s.handle 1, o.2.1⟩])] :: [] ∧ (s.recordOf 480).restoring = some (s.handle 1, k00) ∧
      (s.recordOf 1).cls ≠ .test ∧ (s.recordOf 1).partner = none ∧ (s.recordOf 1).target = some .source ∧
      (s.recordOf 1).legsAfter [(k00, o.2.1)] = o.2.2) := by
  refine ⟨ready_of (by decide +kernel), ?_⟩
  and_intros
  all_goals first
    | decide +kernel
    | exact exists_whole (by decide +kernel) (names_of (by decide +kernel))

/-! Invariants: a state that is not the reset state meets them, and steps. -/

theorem witness_invariants : let s := { asksOn served 3 6 [0, 1] with pending := [.addLeg] }
    s.tablesCanonical = true ∧ (s.port.queue.map (·.2)).Nodup ∧ (s.port.slot 0).st = .queued ∧
    (∀ q ∈ s.port.queue, ownerOf (byteAt (s.port.slot q.2).request 0) = some q.1) ∧ s.sw.list.length ≤ 96 ∧ s.mgr.held.isSome = s.sw.kept.isSome ∧
    s.sw.missed < 8 ∧ s.sw.run < 4 ∧ s.att.cursor < 593 ∧ ((after s .addLeg).recordOf 1).legs.length = 2 ∧
    State.reset.phase ≠ .run := by decide +kernel

end Sys2Proof.Tests
end

/-! SUPPORT. One step of the machine, as its front command or its claim takes it (00, 01 R17). -/

/-! ### The step (00, 01 R17) -/

namespace Sys2Proof.Machine

set_option Elab.async false

theorem step_cons {s : State} {c : Instr} {rest : List Instr} (h : s.pending = c :: rest) : step s = exec c { s with pending := rest } := by
  simp only [step, h]

theorem step_nil {s : State} (h : s.pending = []) : step s = .next s := by
  simp only [step, h]

/-- Settles O1: the two equations of the step, one for each form of the queue. -/
theorem stepTakesFrontCommand : Obligations.StepTakesFrontCommand :=
  ⟨fun _ _ _ h => step_cons h, fun _ h => step_nil h⟩

end Sys2Proof.Machine

/-! SUPPORT. The circuit table (01), said once as a property of the manager, and the tables of the whole part beside it: what every command keeps. -/

namespace Sys2Proof.Machine

set_option Elab.async false

/-! ### The two invariants, with a name for each part -/

/-- The circuit table is consistent (01 R1, R7, R15, 04 R77): the parts of `State.circuitsLegal`, which speaks of the manager alone. -/
structure Manager.Legal (m : Manager) : Prop where
  partner : ∀ n q, (m.recOf n).partner = some q → q ≠ n ∧ n < 480 ∧ (m.recOf q).partner = some n ∧ (m.recOf n).st ≠ .free ∧
    (m.recOf n).st ≠ .verifyWait ∧ (m.recOf n).st ≠ .verifying
  slots : ∀ n, ((m.recOf n).legs.map (·.slot)).Nodup
  displaced : ∀ n, ∀ l ∈ (m.recOf n).legs, l.st = .displaced → n < 480 ∧ ∀ d, l.link = some d → 480 ≤ d
  displ : ∀ n d, (m.recOf n).displ = some d → 480 ≤ n ∧ d.1 < 480
  pool : ∀ n, 480 ≤ n → (m.recOf n).st ≠ .free → (m.recOf n).cls = .test
  test : ∀ n, (m.recOf n).cls = .test → 480 ≤ n ∧ (m.recOf n).st ≠ .verifyWait
  waiting : ∀ h ∈ m.wait, (m.recOf h.num).st = .verifyWait ∧ (m.recOf h.num).gen = h.gen
  once : (m.wait.map (·.num)).Nodup

theorem circuitsLegal_iff (s : State) : s.circuitsLegal ↔ s.mgr.Legal :=
  ⟨fun ⟨h1, h2, h3, h4, h5, h6, h7, h8⟩ => ⟨h1, h2, h3, h4, h5, h6, h7, h8⟩,
    fun ⟨h1, h2, h3, h4, h5, h6, h7, h8⟩ => ⟨h1, h2, h3, h4, h5, h6, h7, h8⟩⟩

/-- Every table is canonical (log 32), and the circuit table is consistent: what `Obligations.StepsKeepCircuitsLegal` keeps. -/
structure State.Tidy (s : State) : Prop where
  recs : Tbl.wf (Rec.free 0) s.mgr.recs = true
  fan : Tbl.wf [] s.mgr.fan = true
  view : Tbl.wf .lost s.mgr.view = true
  map : Tbl.wf Content.idle s.sw.map = true
  gens : Tbl.wf Generator.initial s.gens = true
  units : Tbl.wf VerifyUnit.idle s.ver.units = true
  verView : Tbl.wf .lost s.ver.view = true
  lanes : Tbl.wf Lane.initial s.sup.lanes = true
  watchers : Tbl.wf Watcher.initial s.wat.table = true
  watView : Tbl.wf .lost s.wat.view = true
  flags : Tbl.wf 0 s.att.flags = true
  slots : Tbl.wf PortSlot.initial s.port.slots = true
  legal : s.mgr.Legal

theorem tidy_iff (s : State) : s.Tidy ↔ s.tablesCanonical = true ∧ s.circuitsLegal := by
  rw [circuitsLegal_iff]
  simp only [State.tablesCanonical, Bool.and_eq_true]
  exact ⟨fun h => ⟨⟨⟨⟨⟨⟨⟨⟨⟨⟨⟨⟨h.recs, h.fan⟩, h.view⟩, h.map⟩, h.gens⟩, h.units⟩, h.verView⟩, h.lanes⟩, h.watchers⟩, h.watView⟩, h.flags⟩, h.slots⟩, h.legal⟩,
    fun ⟨⟨⟨⟨⟨⟨⟨⟨⟨⟨⟨⟨h1, h2⟩, h3⟩, h4⟩, h5⟩, h6⟩, h7⟩, h8⟩, h9⟩, h10⟩, h11⟩, h12⟩, h13⟩ =>
      ⟨h1, h2, h3, h4, h5, h6, h7, h8, h9, h10, h11, h12, h13⟩⟩


/-! ### Parts of the state that keep a canonical table -/

/-- The slots of a port are canonical. -/
def Port.Canonical (p : Port) : Prop := Tbl.wf PortSlot.initial p.slots = true

namespace Port.Canonical

variable {p : Port} (h : p.Canonical)
include h

theorem setSlot (n : Fin 4) (v : PortSlot) : (p.setSlot n v).Canonical := Tbl.wf_set _ _ _ _ h

theorem answer (n : Fin 4) (sub : Nat) (st : Status) (res : List Byte) : (p.answer n sub st res).Canonical := by
  rcases answer_eq p n sub st res with e | ⟨v, _, _, _, _, _, e⟩
  · rw [e]; exact h
  · rw [e]; exact h.setSlot n v

theorem takeRequest {q : Port} {o : Owner} {kind : Byte} {r : Request} (ht : p.takeRequest o kind = some (r, q)) : q.Canonical := by
  obtain ⟨pre, post, _, _, _, _, _, hq⟩ := takeRequest_some ht
  rw [hq]
  exact setSlot (p := { p with queue := pre ++ post }) h _ _

theorem abort (n : Fin 4) : (p.abort n).Canonical := by
  unfold Port.abort
  simp only
  split
  · exact h.setSlot _ _
  · exact h

theorem softReset (r : Request) : (p.softReset r).Canonical := by
  have key : ∀ (l : List (Fin 4)) (q : Port), q.Canonical → (l.foldl Port.abort q).Canonical := by
    intro l
    induction l with
    | nil => exact fun _ hq => hq
    | cons n l ih => exact fun q hq => ih _ (hq.abort n)
  exact key _ _ h

theorem record (x : SoftReset) : (p.record x).Canonical := by
  unfold Port.record
  split
  · exact answer (p := { p with soft := none }) h _ _ _ _
  · exact h

theorem takeAck (b : ResetBlock) : (p.takeAck b).Canonical := by
  unfold Port.takeAck
  split
  · exact h
  · next rest _ =>
    simp only
    split
    · split
      · exact record (p := { p with acks := rest }) h _
      · exact h
    · exact h

end Port.Canonical

@[simp] theorem hand_flags (a : Attention) (b : RaiseBlock) (r : Raise) : (a.hand b r).flags = a.flags := by
  unfold Attention.hand
  split <;> rfl

theorem wf_takeRaise (r : Raise) : ∀ a : Attention, Tbl.wf 0 a.flags = true → Tbl.wf 0 (a.takeRaise r).flags = true := by
  induction r with
  | nil => exact fun _ h => h
  | cons x r ih => exact fun a h => ih _ (Tbl.wf_upd 0 a.flags x.1 (· ||| x.2.mask) h)

theorem wf_cleared (l : List Nat) : ∀ t : Tbl (BitVec 16), Tbl.wf 0 t = true → Tbl.wf 0 (l.foldl (fun t e => Tbl.set 0 t e 0) t) = true := by
  induction l with
  | nil => exact fun _ h => h
  | cons e l ih => exact fun t h => ih _ (Tbl.wf_set _ _ _ _ h)

/-- The watcher unit's tables are canonical. -/
structure WatcherUnit.Canonical (u : WatcherUnit) : Prop where
  table : Tbl.wf Watcher.initial u.table = true
  view : Tbl.wf .lost u.view = true

/-- The path verifier's tables are canonical. -/
structure Verifier.Canonical (v : Verifier) : Prop where
  units : Tbl.wf VerifyUnit.idle v.units = true
  view : Tbl.wf .lost v.view = true

@[simp] theorem updChain_view (u : WatcherUnit) (h : Nat) (f : Nat → WatchRun → WatchRun) : (u.updChain h f).view = u.view := by
  rw [updChain_frame]

theorem WatcherUnit.Canonical.updChain {u : WatcherUnit} (h : u.Canonical) (w : Nat) (f : Nat → WatchRun → WatchRun) : (u.updChain w f).Canonical :=
  ⟨wf_updChain u w f h.table, by rw [updChain_view]; exact h.view⟩

theorem WatcherUnit.Canonical.takeLane {u : WatcherUnit} (h : u.Canonical) (r : LaneReport) : (u.takeLane r).Canonical := by
  have key : ∀ (l : List Nat) (v : WatcherUnit), v.Canonical → (l.foldl WatcherUnit.refreeze v).Canonical := by
    intro l
    induction l with
    | nil => exact fun _ hv => hv
    | cons w l ih =>
      intro v hv
      refine ih _ ?_
      unfold WatcherUnit.refreeze
      split
      · exact hv.updChain _ _
      · exact hv.updChain _ _
      · exact hv
  exact key _ _ ⟨h.table, Tbl.wf_set _ _ _ _ h.view⟩

theorem WatcherUnit.Canonical.softReset {u : WatcherUnit} (h : u.Canonical) : u.softReset.Canonical := by
  refine ⟨?_, h.view⟩
  simp only [WatcherUnit.softReset]
  exact Tbl.wf_mapAll _ _ _ h.table

theorem WatcherUnit.Canonical.endFrame {u : WatcherUnit} (h : u.Canonical) : u.endFrame.Canonical := by
  refine ⟨?_, h.view⟩
  simp only [WatcherUnit.endFrame]
  exact Tbl.wf_mapAll _ _ _ h.table

theorem WatcherUnit.Canonical.startFrame {u : WatcherUnit} (h : u.Canonical) : u.startFrame.Canonical := by
  refine ⟨?_, h.view⟩
  simp only [WatcherUnit.startFrame]
  exact Tbl.wf_mapAll _ _ _ h.table

theorem Verifier.Canonical.withOutcomes {v : Verifier} (h : v.Canonical) (l : List OutcomeClaim) : ({ v with outcomes := l } : Verifier).Canonical :=
  ⟨h.units, h.view⟩

theorem Verifier.Canonical.withUnits {v : Verifier} (h : v.Canonical) {t : Tbl VerifyUnit} (ht : Tbl.wf VerifyUnit.idle t = true) :
    ({ v with units := t } : Verifier).Canonical := ⟨ht, h.view⟩

theorem Verifier.Canonical.setUnit {v : Verifier} (h : v.Canonical) (u : Nat) (x : VerifyUnit) : (v.setUnit u x).Canonical :=
  ⟨Tbl.wf_set _ _ _ _ h.units, h.view⟩

theorem Verifier.Canonical.takeLane {v : Verifier} (h : v.Canonical) (r : LaneReport) : (v.takeLane r).Canonical := by
  have key : ∀ (l : List (Fin 4)) (v : Verifier), v.Canonical → (l.foldl (Verifier.loseReturn r.lane) v).Canonical := by
    intro l
    induction l with
    | nil => exact fun _ hv => hv
    | cons u l ih =>
      intro v hv
      refine ih _ ?_
      unfold Verifier.loseReturn
      simp only
      split
      · exact (hv.setUnit _ _).withOutcomes _
      · exact hv
  have hview : Verifier.Canonical { v with view := setView v.view r.lane r.st } := ⟨h.units, Tbl.wf_set _ _ _ _ h.view⟩
  unfold Verifier.takeLane
  simp only
  split
  · exact key _ _ hview
  · exact hview

theorem Verifier.Canonical.takeNotice {v : Verifier} (h : v.Canonical) (n : Notice) (b : Bool) : (v.takeNotice n b).Canonical := by
  unfold Verifier.takeNotice
  simp only
  split
  · exact h.setUnit _ _
  · exact h

namespace State.Tidy

variable {s : State} (h : s.Tidy)
include h

/-! ### Replacing one block -/

theorem port : s.port.Canonical := h.slots
theorem wat : s.wat.Canonical := ⟨h.watchers, h.watView⟩
theorem ver : s.ver.Canonical := ⟨h.units, h.verView⟩

theorem withPort {p : Port} (hp : p.Canonical) : ({ s with port := p } : State).Tidy := { h with slots := hp }

theorem withWat {u : WatcherUnit} (hu : u.Canonical) : ({ s with wat := u } : State).Tidy := { h with watchers := hu.table, watView := hu.view }

theorem withSup {u : Supervisor} (hu : Tbl.wf Lane.initial u.lanes = true) : ({ s with sup := u } : State).Tidy := { h with lanes := hu }

theorem withBlocks {w : Switch} {g : Tbl Generator} {v : Verifier} {l : Supervisor} {u : WatcherUnit} (hw : w.map = s.sw.map)
    (hg : Tbl.wf Generator.initial g = true) (hv : v.Canonical) (hl : Tbl.wf Lane.initial l.lanes = true) (hu : u.Canonical) :
    ({ s with sw := w, gens := g, ver := v, sup := l, wat := u } : State).Tidy :=
  { h with map := by rw [hw]; exact h.map, gens := hg, units := hv.units, verView := hv.view, lanes := hl, watchers := hu.table, watView := hu.view }

theorem withVer {v : Verifier} (hv : v.Canonical) : ({ s with ver := v } : State).Tidy := { h with units := hv.units, verView := hv.view }

theorem hand (b : RaiseBlock) (r : Raise) : ({ s with att := s.att.hand b r } : State).Tidy :=
  { h with flags := by rw [hand_flags]; exact h.flags }

/-! ### The control port and request engine -/

theorem setSlot (n : Fin 4) (v : PortSlot) : (s.setSlot n v).Tidy := h.withPort (h.port.setSlot n v)

theorem withQueue (q : List (Owner × Fin 4)) : ({ s with port := { s.port with queue := q } } : State).Tidy := { h with }

theorem withDefaults (d : Defaults) : ({ s with port := { s.port with defaults := d } } : State).Tidy := { h with }

theorem setFaults (f : PortFaults → PortFaults) : (s.setFaults f).Tidy := { h with }

theorem send (mosi payload : List Byte) : (s.send mosi payload).Tidy := { h with }

theorem transact (mosi payload : List Byte) {f : State → State} (hf : ∀ s : State, s.Tidy → (f s).Tidy) : (s.transact mosi payload f).Tidy := by
  unfold State.transact
  split
  · exact h
  · exact (h.send _ _).setFaults _
  · exact hf _ (h.send _ _)

theorem writeSlot (n : Fin 4) (off : Nat) (data : List Byte) : (s.writeSlot n off data).Tidy := by
  have hst : ∀ (c : Prop) [Decidable c] (v : PortSlot), (if c then s.setSlot n v else s).Tidy := by
    intro c _ v
    split
    · exact h.setSlot n v
    · exact h
  unfold State.writeSlot
  simp only
  split
  · split
    · exact hst _ _
    · exact (hst _ _).setFaults _
  · exact h.setFaults _

theorem submitSlot (n : Fin 4) : (s.submitSlot n).Tidy := by
  unfold State.submitSlot
  simp only
  split
  · split
    · exact (h.setSlot n _).withQueue _
    · exact h.setSlot n _
  · exact h.setFaults _

theorem emptySlot (n : Fin 4) : (s.emptySlot n).Tidy := by
  unfold State.emptySlot
  simp only
  split
  · exact h.setFaults _
  · exact h.setSlot _ _

theorem whenRunning {f : State → State} (hf : (f s).Tidy) : (s.whenRunning f).Tidy := by
  unfold State.whenRunning
  split
  · exact hf
  · exact h

theorem ownerTakes (o : Owner) (kind : Byte) (len : Nat) {f : Request → State → State} (hf : ∀ r (s : State), s.Tidy → (f r s).Tidy) :
    (s.ownerTakes o kind len f).Tidy := by
  unfold State.ownerTakes
  split
  · split
    · exact h
    · next ht =>
      have hp := h.port.takeRequest ht
      simp only
      split
      · exact hf _ _ (h.withPort hp)
      · exact h.withPort (hp.answer _ _ _ _)
  · exact h

theorem answerRequest (r : Request) (st : Status) (res : List Byte) : ({ s with port := s.port.answerRequest r st res } : State).Tidy :=
  h.withPort (h.port.answer _ _ _ _)

theorem configure (r : Request) : (s.configure r).Tidy := by
  unfold State.configure
  split
  · exact h.answerRequest _ _ _
  · exact h.answerRequest _ _ _
  · split
    · exact h.answerRequest _ _ _
    · exact (h.withDefaults ⟨byteAt r.msg 5, byteAt r.msg 6, byteAt r.msg 7, byteAt r.msg 8, (byteAt r.msg 9).toNat⟩).answerRequest r .ok _

theorem takeCleared : s.takeCleared.Tidy := by
  unfold State.takeCleared
  split
  · exact h
  · simp only
    split
    · exact { h with slots := h.port.record _ }
    · exact { h with }

/-! ### The attention unit, the generators, the lanes -/

theorem collect (r : Request) : (s.collect r).Tidy := by
  unfold State.collect
  simp only
  split
  · exact h.answerRequest _ _ _
  · exact { h.answerRequest r .ok _ with flags := wf_cleared _ _ h.flags }

theorem maskSet (r : Request) : (s.maskSet r).Tidy := by
  unfold State.maskSet
  split
  · exact h.answerRequest _ _ _
  · exact { h.answerRequest r .ok _ with }

theorem takeRaise (b : RaiseBlock) : (s.takeRaise b).Tidy := by
  unfold State.takeRaise
  split
  · exact { h with flags := wf_takeRaise _ _ h.flags }
  · exact h

theorem attentionReset : s.attentionReset.Tidy := by
  unfold State.attentionReset
  split
  · exact h
  · exact { h with flags := rfl }

theorem genSet (r : Request) : (s.genSet r).Tidy := by
  unfold State.genSet
  split
  · exact h.answerRequest _ _ _
  · exact { h.answerRequest r .ok _ with gens := Tbl.wf_set _ _ _ _ h.gens }

theorem laneSet (r : Request) : (s.laneSet r).Tidy := by
  unfold State.laneSet
  simp only
  split
  · split
    · exact { h.answerRequest r .ok _ with lanes := Tbl.wf_set _ _ _ _ h.lanes }
    · exact h.answerRequest _ _ _
  · exact h.answerRequest _ _ _

theorem laneQuery (r : Request) : (s.laneQuery r).Tidy := by
  unfold State.laneQuery
  split
  · exact h.answerRequest _ _ _
  · split <;> exact h.answerRequest _ _ _

theorem judgeLane (l : Fin 16) : (s.judgeLane l).Tidy := by
  have hl : ∀ x, ({ s with sup := s.sup.setLane l x } : State).Tidy := fun x => { h with lanes := Tbl.wf_set _ _ _ _ h.lanes }
  unfold State.judgeLane
  simp only
  split
  · exact h
  · split
    · exact hl _
    · exact { (hl _).hand .supervisor _ with }

/-! ### The path verifier and the watcher unit -/

theorem takeNotice (u : Fin 4) (b : Bool) : (s.takeNotice u b).Tidy := by
  unfold State.takeNotice
  split
  · exact { h.withVer (h.ver.takeNotice _ b) with }
  · exact h

theorem judgeUnit (u : Fin 4) (k : Nat) : (s.judgeUnit u k).Tidy := by
  unfold State.judgeUnit
  simp only
  split
  · exact h.withVer ((h.ver.setUnit _ _).withOutcomes _)
  · exact h

theorem tokenFrameEnd (u : Fin 4) : (s.tokenFrameEnd u).Tidy := by
  unfold State.tokenFrameEnd
  split
  · exact h.judgeUnit _ _
  · exact h

theorem verifyTimeout (u : Fin 4) : (s.verifyTimeout u).Tidy := by
  unfold State.verifyTimeout
  split
  · split
    · exact h.judgeUnit _ _
    · exact h
  · exact h

theorem verifierLane (l : Fin 16) : (s.verifierLane l).Tidy := by
  unfold State.verifierLane
  split
  · exact { h.withVer (h.ver.takeLane _) with }
  · exact h

theorem setWatcher (w : Nat) (x : Watcher) : ({ s with wat := s.wat.setWatcher w x } : State).Tidy :=
  { h with watchers := Tbl.wf_set _ _ _ _ h.watchers }

theorem updRun (w : Nat) (f : WatchRun → WatchRun) : ({ s with wat := s.wat.updRun w f } : State).Tidy := h.setWatcher _ _

theorem updChain (w : Nat) (f : Nat → WatchRun → WatchRun) : ({ s with wat := s.wat.updChain w f } : State).Tidy := h.withWat (h.wat.updChain _ _)

theorem raiseWatch (w : Nat) (c : Cause) : (s.raiseWatch w c).Tidy := h.hand _ _

theorem handClaims (l : List ActionClaim) : (s.handClaims l).Tidy := { h with }

theorem sampleWatcher (w : Nat) : (s.sampleWatcher w).Tidy := by
  unfold State.sampleWatcher
  simp only
  split
  · exact h.setWatcher _ _
  · exact h

theorem watchEvent (w : Nat) (e : IntervalEvent) : (s.watchEvent w e).Tidy := by
  unfold State.watchEvent
  simp only
  split
  · exact h
  · split
    · exact ((h.updRun _ _).raiseWatch _ _).handClaims _
    · exact (h.updRun _ _).raiseWatch _ _
  · split
    · exact (h.raiseWatch _ _).handClaims _
    · exact h.raiseWatch _ _

theorem endInterval (w : Nat) : (s.endInterval w).Tidy := by
  unfold State.endInterval
  simp only
  split
  · split
    · exact h.updChain _ _
    · exact ((h.updChain _ _).updRun _ _).watchEvent _ _
  · exact h

theorem watcherLane (l : Fin 16) : (s.watcherLane l).Tidy := by
  unfold State.watcherLane
  split
  · exact { h.withWat (h.wat.takeLane _) with }
  · exact h

theorem watchAnswer (r : Request) (st : Status) (res : List Byte) : (s.watchAnswer r st res).Tidy := h.answerRequest _ _ _

theorem watchSet (r : Request) : (s.watchSet r).Tidy := by
  unfold State.watchSet
  split
  · exact h.watchAnswer _ _ _
  · split
    · exact h.watchAnswer _ _ _
    · exact (h.setWatcher _ _).watchAnswer _ _ _

theorem watchArm (r : Request) : (s.watchArm r).Tidy := by
  unfold State.watchArm
  split
  · exact h.watchAnswer _ _ _
  · split
    · exact h.watchAnswer _ _ _
    · exact (h.updChain _ _).watchAnswer _ _ _

theorem watchDisarm (r : Request) : (s.watchDisarm r).Tidy := by
  unfold State.watchDisarm
  split
  · exact h.watchAnswer _ _ _
  · simp only
    split
    · exact h.watchAnswer _ _ _
    · split
      · exact h.watchAnswer _ _ _
      · exact (h.updChain _ _).watchAnswer _ _ _

theorem watchQuery (r : Request) : (s.watchQuery r).Tidy := by
  unfold State.watchQuery
  split <;> exact h.watchAnswer _ _ _

theorem dropOrder : s.dropOrder.Tidy := { h with }

theorem takeArm : s.takeArm.Tidy := by
  unfold State.takeArm
  split
  · unfold State.orderArm
    split
    · split
      · exact h.dropOrder.updChain _ _
      · exact h.dropOrder.raiseWatch _ _
    · exact h.dropOrder
  · exact h

theorem takeDisarm : s.takeDisarm.Tidy := by
  unfold State.takeDisarm
  split
  · unfold State.orderDisarm
    simp only
    split
    · exact h.dropOrder.updChain _ _
    · exact h.dropOrder
  · exact h

theorem takeReturn : s.takeReturn.Tidy := by
  unfold State.takeReturn
  split
  · unfold State.orderReturn
    simp only
    split
    · exact h.dropOrder.updChain _ _
    · exact h.dropOrder
  · exact h

theorem watcherReset : s.watcherReset.Tidy := by
  unfold State.watcherReset
  split
  · exact h
  · exact { h.withWat h.wat.softReset with }

/-! ### The switch -/

theorem withSwitch {w : Switch} (hw : w.map = s.sw.map) : ({ s with sw := w } : State).Tidy :=
  { h with map := by rw [hw]; exact h.map }

theorem endFrame (rx : FrameIn) (bits : Nat) : (s.endFrame rx bits).Tidy := by
  have hl (b : Bool) : Tbl.wf Lane.initial (s.sup.endFrame rx bits b).lanes = true := by
    simp only [Supervisor.endFrame]
    exact Tbl.wf_updAll _ _ _ _ h.lanes
  unfold State.endFrame
  split
  · exact h.withBlocks rfl h.gens (h.ver.withUnits (Tbl.wf_mapAll _ _ _ h.units)) (hl true) h.wat.endFrame
  · exact h.withSup (hl false)

theorem startFrame (t : Nat) : (s.startFrame t).Tidy := by
  unfold State.startFrame
  exact h.withBlocks rfl (Tbl.wf_updAll _ _ _ _ h.gens) (h.ver.withUnits (Tbl.wf_updAll _ _ _ _ h.units)) h.lanes h.wat.startFrame

theorem switchBoundary : ({ s with sw := s.sw.boundary } : State).Tidy := by
  have hc : Tbl.wf Content.idle s.sw.clear.map = true := by
    unfold Switch.clear
    split
    · exact h.map
    · rfl
  have key : ∀ (l : List Entry) (m : Tbl Content), Tbl.wf Content.idle m = true →
      Tbl.wf Content.idle (l.foldl (fun m x => Tbl.set Content.idle m x.slot.key x.content) m) = true := by
    intro l
    induction l with
    | nil => exact fun _ hm => hm
    | cons x l ih => exact fun m hm => ih _ (Tbl.wf_set _ _ _ _ hm)
  exact { h with map := key _ _ hc }

theorem raiseDevice (c : Cause) : (s.raiseDevice c).Tidy := h.hand _ _

theorem fsyncMissed : s.fsyncMissed.Tidy := by
  unfold State.fsyncMissed
  split
  · split
    · refine raiseDevice ?_ _
      exact { h with }
    · exact { h with }
  · exact h

theorem candidatePassed : s.candidatePassed.Tidy := by
  unfold State.candidatePassed
  split
  · exact { h with }
  · exact h

end State.Tidy
end Sys2Proof.Machine

/-! SUPPORT. What a claim does to the circuit table: most changes keep a record's partner, class and generation and only thin out its legs
(`Rec.Goes`); what does more is an opening, a return to FREE, a leg that joins, or a move on the wait list. -/

namespace Sys2Proof.Machine

set_option Elab.async false

/-! ### A record under a claim -/

/-- A record that a claim may take to a state of a made circuit: not on the wait list, and FREE only in the test pool. -/
def Rec.InService (r : Rec) : Prop := r.st ≠ .verifyWait ∧ (r.st = .free → r.cls = .test)

/-- A state that a record of either pool, with or without a partner, may be taken to. -/
def CircState.made (st : CircState) : Prop := st ≠ .free ∧ st ≠ .verifyWait ∧ st ≠ .verifying

/-- What a change within a claim leaves of a record: partner, class and generation stand; no leg joins; a leg that becomes DISPLACED belongs to
the control pool and is linked to the test pool; and the state stands, or goes from one in service to that of a made circuit. -/
structure Rec.Goes (r r' : Rec) : Prop where
  partner : r'.partner = r.partner
  cls : r'.cls = r.cls
  gen : r'.gen = r.gen
  slots : (r'.legs.map (·.slot)).Sublist (r.legs.map (·.slot))
  displaced : ∀ l' ∈ r'.legs, l'.st = .displaced → (∃ l ∈ r.legs, l.st = .displaced ∧ l.link = l'.link) ∨
    (r.cls ≠ .test ∧ r.st ≠ .free ∧ ∀ d, l'.link = some d → 480 ≤ d)
  displ : ∀ d, r'.displ = some d → r.displ = some d
  st : r'.st = r.st ∨ (r.InService ∧ r'.st.made)

namespace Rec.Goes

/-- The legs, the displacement and the state stand. -/
theorem of_same {r r' : Rec} (hp : r'.partner = r.partner := by rfl) (hc : r'.cls = r.cls := by rfl) (hg : r'.gen = r.gen := by rfl)
    (hl : r'.legs = r.legs := by rfl) (hd : r'.displ = r.displ := by rfl) (hs : r'.st = r.st := by rfl) : r.Goes r' where
  partner := hp
  cls := hc
  gen := hg
  slots := by rw [hl]
  displaced := fun l h hst => .inl ⟨l, hl ▸ h, hst, rfl⟩
  displ := fun d h => hd ▸ h
  st := .inl hs

theorem inService {r r' : Rec} (h : r.Goes r') (hr : r.InService) : r'.InService := by
  rcases h.st with hs | ⟨_, hm⟩
  · exact ⟨by rw [hs]; exact hr.1, fun hf => by rw [h.cls]; exact hr.2 (hs ▸ hf)⟩
  · exact ⟨hm.2.1, fun hf => absurd hf hm.1⟩

/-- A FREE record of the control pool stays FREE. -/
theorem stays {r r' : Rec} (h : r.Goes r') (hr : ¬r.InService) : r'.st = r.st := h.st.resolve_right fun hs => hr hs.1

theorem trans {a b c : Rec} (h : a.Goes b) (h' : b.Goes c) : a.Goes c where
  partner := h'.partner.trans h.partner
  cls := h'.cls.trans h.cls
  gen := h'.gen.trans h.gen
  slots := h'.slots.trans h.slots
  displ := fun d hd => h.displ d (h'.displ d hd)
  displaced := by
    intro l hl hst
    rcases h'.displaced l hl hst with ⟨l', hl', hst', hlink⟩ | ⟨hc, hf, hlink⟩
    · rw [← hlink]
      exact h.displaced l' hl' hst'
    · refine .inr ⟨by rw [← h.cls]; exact hc, fun ha => ?_, hlink⟩
      rcases h.st with hs | ⟨hin, _⟩
      · exact hf (hs.trans ha)
      · exact hc (h.cls.trans (hin.2 ha))
  st := by
    rcases h'.st with hs' | ⟨hin, hm⟩
    · rw [hs']
      exact h.st
    · rcases h.st with hs | ⟨hin, _⟩
      · exact .inr ⟨⟨by rw [← hs]; exact hin.1, fun ha => h.cls ▸ hin.2 (hs.trans ha)⟩, hm⟩
      · exact .inr ⟨hin, hm⟩

/-- A change of the legs that keeps their slots, or drops some, and displaces none. -/
theorem of_legs {r r' : Rec} (hslots : (r'.legs.map (·.slot)).Sublist (r.legs.map (·.slot)))
    (hdisp : ∀ l' ∈ r'.legs, l'.st = .displaced → l' ∈ r.legs) (hp : r'.partner = r.partner := by rfl) (hc : r'.cls = r.cls := by rfl)
    (hg : r'.gen = r.gen := by rfl) (hd : ∀ d, r'.displ = some d → r.displ = some d := by exact fun _ h => h)
    (hs : r'.st = r.st ∨ (r.InService ∧ r'.st.made) := by exact .inl rfl) : r.Goes r' where
  partner := hp
  cls := hc
  gen := hg
  slots := hslots
  displaced := fun l h hst => .inl ⟨l, hdisp l h hst, hst, rfl⟩
  displ := hd
  st := hs

theorem setState {r : Rec} {st : CircState} (hr : r.InService) (hst : st.made) : r.Goes { r with st := st } :=
  of_legs (List.Sublist.refl _) (fun _ h _ => h) (hs := .inr ⟨hr, hst⟩)

/-- Legs that satisfy p are changed by f, which keeps the slot and displaces none. -/
theorem mapLegs (r : Rec) (p : Leg → Bool) (f : Leg → Leg) (hslot : ∀ l, (f l).slot = l.slot) (hst : ∀ l, (f l).st ≠ .displaced) :
    r.Goes { r with legs := r.legs.map fun l => if p l then f l else l } := by
  have hslots : (r.legs.map fun l => if p l then f l else l).map (·.slot) = r.legs.map (·.slot) := by
    rw [List.map_map]
    refine List.map_congr_left fun l _ => ?_
    simp only [Function.comp_apply]
    split
    · exact hslot l
    · rfl
  refine of_legs (by rw [hslots]) ?_
  intro l' hl' hd
  obtain ⟨l, hl, rfl⟩ := List.mem_map.1 hl'
  by_cases hp : p l = true
  · rw [if_pos hp] at hd
    exact absurd hd (hst l)
  · rw [if_neg hp]
    exact hl

theorem filterLegs (r : Rec) (p : Leg → Bool) : r.Goes { r with legs := r.legs.filter p } :=
  of_legs (List.filter_sublist.map _) fun _ h _ => List.mem_of_mem_filter h

theorem updLeg (r : Rec) (k : Slot) (f : Leg → Leg) (hslot : ∀ l, (f l).slot = l.slot) (hst : ∀ l, (f l).st ≠ .displaced) :
    r.Goes (r.updLeg k f) := by
  have h := mapLegs r (fun l => decide (l.slot = k)) f hslot hst
  simp only [decide_eq_true_eq] at h
  exact h

end Rec.Goes

/-! ### The table under a claim -/

/-- The circuit table of an effect is legal. -/
def Eff.Legal (e : Eff) : Prop := e.mgr.Legal

/-- Every record goes on as `Rec.Goes` says, and the wait list stands. -/
structure Eff.Goes (e e' : Eff) : Prop where
  recs : ∀ n, (e.recOf n).Goes (e'.recOf n)
  wait : e'.mgr.wait = e.mgr.wait

/-- A made circuit, or one with a partner, is in service. -/
theorem Manager.Legal.inService_of_partner {m : Manager} (h : m.Legal) {n : Nat} (hp : (m.recOf n).partner ≠ none) : (m.recOf n).InService := by
  obtain ⟨q, hq⟩ := Option.ne_none_iff_exists'.1 hp
  obtain ⟨_, _, _, hf, hw, _⟩ := h.partner n q hq
  exact ⟨hw, fun hfree => absurd hfree hf⟩

theorem inService_of_serving {r : Rec} (h : r.st = .active ∨ r.st = .held) : r.InService := by
  rcases h with h | h <;> exact ⟨by simp [h], by simp [h]⟩

namespace Eff.Goes

variable {e₀ e : Eff}

theorem refl (e : Eff) : e.Goes e := ⟨fun _ => .of_same, rfl⟩

theorem trans {e₁ e₂ : Eff} (h : e₀.Goes e₁) (h' : e₁.Goes e₂) : e₀.Goes e₂ := ⟨fun n => (h.recs n).trans (h'.recs n), h'.wait.trans h.wait⟩

theorem inService (h : e₀.Goes e) {n : Nat} (hn : (e₀.recOf n).InService) : (e.recOf n).InService := (h.recs n).inService hn

theorem members (h : e₀.Goes e) (n : Nat) : e.members n = e₀.members n := by simp only [Eff.members, (h.recs n).partner]

/-- A legal table stays legal. -/
theorem legal (h : e₀.Goes e) (hl : e₀.Legal) : e.Legal where
  partner := by
    intro n q hq
    obtain ⟨hne, hn, hqn, h1, h2, h3⟩ := hl.partner n q ((h.recs n).partner ▸ hq)
    refine ⟨hne, hn, (h.recs q).partner.trans hqn, ?_⟩
    rcases (h.recs n).st with hs | ⟨_, hm⟩
    · rw [show e.mgr.recOf n = e.recOf n from rfl, hs]
      exact ⟨h1, h2, h3⟩
    · exact hm
  slots := fun n => (hl.slots n).sublist (h.recs n).slots
  displaced := by
    intro n l hmem hst
    rcases (h.recs n).displaced l hmem hst with ⟨l', hl', hst', hlink⟩ | ⟨hc, hf, hlink⟩
    · rw [← hlink]
      exact hl.displaced n l' hl' hst'
    · exact ⟨Nat.lt_of_not_le fun hn => hc (hl.pool n hn hf), hlink⟩
  displ := fun n d hd => hl.displ n d ((h.recs n).displ d hd)
  pool := by
    intro n hn hf
    rw [show e.mgr.recOf n = e.recOf n from rfl, (h.recs n).cls]
    by_cases hz : (e₀.recOf n).st = .free
    · rcases (h.recs n).st with hs | ⟨hin, _⟩
      · exact absurd (hs.trans hz) hf
      · exact hin.2 hz
    · exact hl.pool n hn hz
  test := by
    intro n hc
    obtain ⟨hn, hw⟩ := hl.test n ((h.recs n).cls ▸ hc)
    refine ⟨hn, ?_⟩
    rcases (h.recs n).st with hs | ⟨_, hm⟩
    · rw [show e.mgr.recOf n = e.recOf n from rfl, hs]
      exact hw
    · exact hm.2.1
  waiting := by
    intro x hx
    obtain ⟨hst, hg⟩ := hl.waiting x (h.wait ▸ hx)
    refine ⟨((h.recs x.num).stays fun hin => hin.1 hst).trans hst, (h.recs x.num).gen.trans hg⟩
  once := h.wait ▸ hl.once

/-! ### Changes -/

/-- A change of an effect beside the records and the wait list. -/
theorem beside {e' : Eff} (h : e₀.Goes e) (hr : e'.mgr.recs = e.mgr.recs := by rfl) (hw : e'.mgr.wait = e.mgr.wait := by rfl) : e₀.Goes e' where
  recs := fun n => by
    have : e'.recOf n = e.recOf n := by simp only [Eff.recOf, Manager.recOf, hr]
    rw [this]
    exact h.recs n
  wait := hw.trans h.wait

theorem upd (h : e₀.Goes e) {n : Nat} {f : Rec → Rec} (hf : (e.recOf n).Goes (f (e.recOf n))) : e₀.Goes (e.updRec n f) where
  recs := fun k => by
    rw [recOf_updRec]
    split
    · next hk => subst hk; exact (h.recs _).trans hf
    · exact h.recs k
  wait := h.wait

/-- A fold over a list of changes, each of which goes on from any effect so far. -/
theorem foldl {β : Type} {f : Eff → β → Eff} (l : List β) (hf : ∀ x ∈ l, ∀ e, e₀.Goes e → e₀.Goes (f e x)) (h : e₀.Goes e) :
    e₀.Goes (l.foldl f e) := by
  induction l generalizing e with
  | nil => exact h
  | cons x l ih => exact ih (fun y hy => hf y (List.mem_cons_of_mem _ hy)) (hf x List.mem_cons_self e h)

theorem foldlUpd (h : e₀.Goes e) (l : List Nat) {f : Rec → Rec} (hf : ∀ r : Rec, r.Goes (f r)) : e₀.Goes (l.foldl (fun e m => e.updRec m f) e) :=
  h.foldl l fun _ _ _ he => he.upd (hf _)

theorem setState (h : e₀.Goes e) {n : Nat} {st : CircState} (hn : (e₀.recOf n).InService) (hst : st.made) : e₀.Goes (e.setState n st) :=
  h.upd (.setState (h.inService hn) hst)

theorem joinFan (h : e₀.Goes e) (src : Option Source) (n : Nat) : e₀.Goes (e.joinFan src n) := by
  unfold Eff.joinFan
  split
  · exact h.beside
  · exact h

theorem leaveFan (h : e₀.Goes e) (src : Option Source) (n : Nat) : e₀.Goes (e.leaveFan src n) := by
  unfold Eff.leaveFan
  split
  · exact h.beside
  · exact h

theorem answerOpen (h : e₀.Goes e) (n : Nat) (st : Status) (res : List Byte) : e₀.Goes (e.answerOpen n st res) := by
  unfold Eff.answerOpen
  split
  · exact h
  · exact (h.foldlUpd (e.members n) (f := fun r => { r with openAns := none, roundTrip := none }) fun _ => .of_same).beside

theorem offerLegs (h : e₀.Goes e) (n : Nat) (d : Drive) (u : Option (Fin 4)) : e₀.Goes (e.offerLegs n d u) := h.foldl _ fun _ _ _ he => he.beside

theorem offerMakes (h : e₀.Goes e) (n : Nat) (d : Drive) (u : Option (Fin 4)) (vs : List (Slot × Nat)) (ks : List Slot) :
    e₀.Goes (e.offerMakes n d u vs ks) := h.foldl _ fun _ _ _ he => he.beside

theorem breakLegs (h : e₀.Goes e) (n : Nat) (p : Leg → Bool) : e₀.Goes (e.breakLegs n p) :=
  foldl _ (fun _ _ _ he => he.beside) (h.upd (.mapLegs _ p _ (fun _ => rfl) fun _ => by simp))

theorem takeOut (h : e₀.Goes e) (n : Nat) : e₀.Goes (e.takeOut n) := by
  refine (h.foldlUpd _ fun r => ?_).upd ?_
  · exact .of_legs (List.Sublist.refl _) (fun _ hm _ => hm) (hd := fun d hd => by cases hd)
  · exact (Rec.Goes.filterLegs _ _).trans .of_same

theorem raiseOpt (h : e₀.Goes e) (n : Nat) (c : Option Cause) : e₀.Goes (e.raiseOpt n c) := by
  unfold Eff.raiseOpt
  split
  · exact h.beside
  · exact h

theorem raiseFault (h : e₀.Goes e) (n : Nat) : e₀.Goes (e.raiseFault n) := by
  unfold Eff.raiseFault
  split
  · exact h.beside
  · exact h

end Eff.Goes

end Sys2Proof.Machine

/-! SUPPORT. What the changes that open or join a circuit do to the table: a record made anew, a leg more, the wait list (03). -/

namespace Sys2Proof.Machine

set_option Elab.async false

/-! ### What does more than `Eff.Goes`: FREE, made anew, a leg more, the wait list -/

/-- What an opening, by a request or by an access, makes of a FREE record n. -/
structure Rec.Opens (n : Nat) (r : Rec) : Prop where
  st : r.st = .making
  slots : (r.legs.map (·.slot)).Nodup
  legs : ∀ l ∈ r.legs, l.st ≠ .displaced
  displ : ∀ d, r.displ = some d → 480 ≤ n ∧ d.1 < 480
  pool : r.cls = .test ↔ 480 ≤ n

namespace Manager.Legal

variable {m m' : Manager} (h : m.Legal)
include h

/-- A record whose partner is named back. -/
theorem partner_back {n q : Nat} (hq : (m.recOf n).partner = some q) : (m.recOf q).partner = some n := (h.partner n q hq).2.2.1

theorem partner_none_of_waiting {n : Nat} (hn : (m.recOf n).st = .verifyWait) : (m.recOf n).partner = none := by
  cases hp : (m.recOf n).partner with
  | none => rfl
  | some q => exact absurd hn (h.partner n q hp).2.2.2.2.1

theorem partner_none_of_verifying {n : Nat} (hn : (m.recOf n).st = .verifying) : (m.recOf n).partner = none := by
  cases hp : (m.recOf n).partner with
  | none => rfl
  | some q => exact absurd hn (h.partner n q hp).2.2.2.2.2

theorem partner_none_of_free {n : Nat} (hn : (m.recOf n).st = .free) : (m.recOf n).partner = none := by
  cases hp : (m.recOf n).partner with
  | none => rfl
  | some q => exact absurd hn (h.partner n q hp).2.2.2.1

theorem partner_none_of_test {n : Nat} (hn : (m.recOf n).cls = .test) : (m.recOf n).partner = none := by
  cases hp : (m.recOf n).partner with
  | none => rfl
  | some q => exact absurd (h.partner n q hp).2.1 (Nat.not_lt_of_le (h.test n hn).1)

/-- A record of the control pool that is FREE is no test circuit, so it is not in service. -/
theorem not_inService_of_free {n : Nat} (hn : n < 480) (hf : (m.recOf n).st = .free) : ¬(m.recOf n).InService :=
  fun hin => Nat.not_lt_of_le (h.test n (hin.2 hf)).1 hn

/-- Circuits leave the wait list. -/
theorem subwait (hr : m'.recs = m.recs) (hw : m'.wait.Sublist m.wait) : m'.Legal := by
  have e : m'.recOf = m.recOf := by
    funext n
    simp only [Manager.recOf, hr]
  obtain ⟨h1, h2, h3, h4, h5, h6, h7, h8⟩ := h
  refine ⟨?_, ?_, ?_, ?_, ?_, ?_, fun x hx => ?_, h8.sublist (hw.map _)⟩ <;> rw [e]
  exacts [h1, h2, h3, h4, h5, h6, h7 x (hw.subset hx)]

/-- A record and its partner return to FREE; it is on the wait list no more. -/
theorem freed {n : Nat} (hfree : ∀ k, k = n ∨ (m.recOf n).partner = some k → ∃ g, m'.recOf k = Rec.free g)
    (hother : ∀ k, k ≠ n → (m.recOf n).partner ≠ some k → m'.recOf k = m.recOf k) (hw : m'.wait = m.wait) (hno : ∀ x ∈ m.wait, x.num ≠ n) :
    m'.Legal := by
  have hcases : ∀ k, (∃ g, m'.recOf k = Rec.free g) ∨ (m'.recOf k = m.recOf k ∧ k ≠ n ∧ (m.recOf n).partner ≠ some k) := by
    intro k
    by_cases hk : k = n ∨ (m.recOf n).partner = some k
    · exact .inl (hfree k hk)
    · obtain ⟨h1, h2⟩ := not_or.1 hk
      exact .inr ⟨hother k h1 h2, h1, h2⟩
  refine ⟨?_, ?_, ?_, ?_, ?_, ?_, ?_, hw ▸ h.once⟩
  · intro k q hq
    rcases hcases k with ⟨g, hk⟩ | ⟨hk, hkn, hkp⟩
    · rw [hk] at hq
      cases hq
    · rw [hk] at hq ⊢
      obtain ⟨hne, hlt, hback, hst⟩ := h.partner k q hq
      have hqn : q ≠ n := fun e => hkp (e ▸ hback)
      have hqp : (m.recOf n).partner ≠ some q := fun e => hkn (Option.some.inj (hback.symm.trans (h.partner_back e)))
      exact ⟨hne, hlt, by rw [hother q hqn hqp]; exact hback, hst⟩
  · intro k
    rcases hcases k with ⟨g, hk⟩ | ⟨hk, _⟩ <;> rw [hk]
    · exact List.nodup_nil
    · exact h.slots k
  · intro k l hl
    rcases hcases k with ⟨g, hk⟩ | ⟨hk, _⟩ <;> rw [hk] at hl
    · cases hl
    · exact h.displaced k l hl
  · intro k d hd
    rcases hcases k with ⟨g, hk⟩ | ⟨hk, _⟩ <;> rw [hk] at hd
    · cases hd
    · exact h.displ k d hd
  · intro k hk480 hst
    rcases hcases k with ⟨g, hk⟩ | ⟨hk, _⟩ <;> rw [hk] at hst ⊢
    · exact absurd rfl hst
    · exact h.pool k hk480 hst
  · intro k hc
    rcases hcases k with ⟨g, hk⟩ | ⟨hk, _⟩ <;> rw [hk] at hc ⊢
    · cases hc
    · exact h.test k hc
  · intro x hx
    rw [hw] at hx
    obtain ⟨hst, hg⟩ := h.waiting x hx
    have hp : (m.recOf n).partner ≠ some x.num := fun e => (h.partner x.num n (h.partner_back e)).2.2.2.2.1 hst
    rw [hother x.num (hno x hx) hp]
    exact ⟨hst, hg⟩


/-- FREE records are filled by an opening; the new circuits' partners name each other. -/
theorem opened (new : Nat → Option Rec) (hrec : ∀ k, m'.recOf k = (new k).getD (m.recOf k)) (hw : m'.wait = m.wait)
    (hnew : ∀ k r, new k = some r → (m.recOf k).st = .free ∧ r.Opens k ∧
      ∀ q, r.partner = some q → q ≠ k ∧ k < 480 ∧ ∃ r', new q = some r' ∧ r'.partner = some k) : m'.Legal := by
  have hcases : ∀ k, (∃ r, new k = some r ∧ m'.recOf k = r) ∨ (new k = none ∧ m'.recOf k = m.recOf k) := by
    intro k
    rw [hrec k]
    cases new k with
    | none => exact .inr ⟨rfl, rfl⟩
    | some r => exact .inl ⟨r, rfl, rfl⟩
  have hold : ∀ k, (m.recOf k).st ≠ .free → m'.recOf k = m.recOf k := by
    intro k hk
    rcases hcases k with ⟨r, hr, _⟩ | ⟨_, hk'⟩
    · exact absurd (hnew k r hr).1 hk
    · exact hk'
  refine ⟨?_, ?_, ?_, ?_, ?_, ?_, ?_, hw ▸ h.once⟩
  · intro k q hq
    rcases hcases k with ⟨r, hr, hk⟩ | ⟨_, hk⟩ <;> rw [hk] at hq ⊢
    · obtain ⟨_, ho, hp⟩ := hnew k r hr
      obtain ⟨hne, hlt, r', hr', hback⟩ := hp q hq
      exact ⟨hne, hlt, by rw [hrec q, hr']; exact hback, by simp [ho.st]⟩
    · obtain ⟨hne, hlt, hback, hst⟩ := h.partner k q hq
      exact ⟨hne, hlt, by rw [hold q (h.partner q k hback).2.2.2.1]; exact hback, hst⟩
  · intro k
    rcases hcases k with ⟨r, hr, hk⟩ | ⟨_, hk⟩ <;> rw [hk]
    · exact (hnew k r hr).2.1.slots
    · exact h.slots k
  · intro k l hl
    rcases hcases k with ⟨r, hr, hk⟩ | ⟨_, hk⟩ <;> rw [hk] at hl
    · exact fun hd => absurd hd ((hnew k r hr).2.1.legs l hl)
    · exact h.displaced k l hl
  · intro k d hd
    rcases hcases k with ⟨r, hr, hk⟩ | ⟨_, hk⟩ <;> rw [hk] at hd
    · exact (hnew k r hr).2.1.displ d hd
    · exact h.displ k d hd
  · intro k hk480 hst
    rcases hcases k with ⟨r, hr, hk⟩ | ⟨_, hk⟩ <;> rw [hk] at hst ⊢
    · exact (hnew k r hr).2.1.pool.2 hk480
    · exact h.pool k hk480 hst
  · intro k hc
    rcases hcases k with ⟨r, hr, hk⟩ | ⟨_, hk⟩ <;> rw [hk] at hc ⊢
    · have ho := (hnew k r hr).2.1
      exact ⟨ho.pool.1 hc, by simp [ho.st]⟩
    · exact h.test k hc
  · intro x hx
    rw [hw] at hx
    obtain ⟨hst, hg⟩ := h.waiting x hx
    rw [hold x.num (by simp [hst])]
    exact ⟨hst, hg⟩

/-- A record of the control pool without a partner changes its state, as the wait list does. -/
theorem restated {n : Nat} {st : CircState} (hf : (m.recOf n).st ≠ .free) (hp : (m.recOf n).partner = none) (hc : (m.recOf n).cls ≠ .test)
    (hrec : ∀ k, m'.recOf k = if k = n then { m.recOf n with st := st } else m.recOf k)
    (hw : ∀ x ∈ m'.wait, (x ∈ m.wait ∧ x.num ≠ n) ∨ (st = .verifyWait ∧ x = ⟨n, (m.recOf n).gen⟩)) (hnd : (m'.wait.map (·.num)).Nodup) :
    m'.Legal := by
  have hfield : ∀ {α : Type} (g : Rec → α), (∀ r : Rec, g { r with st := st } = g r) → ∀ k, g (m'.recOf k) = g (m.recOf k) := by
    intro α g hg k
    rw [hrec k]
    split
    · next hk => rw [hk, hg]
    · rfl
  have hst : ∀ k, k ≠ n → m'.recOf k = m.recOf k := fun k hk => by rw [hrec k, if_neg hk]
  refine ⟨?_, ?_, ?_, ?_, ?_, ?_, ?_, hnd⟩
  · intro k q hq
    rw [hfield Rec.partner fun _ => rfl] at hq ⊢
    obtain ⟨hne, hlt, hback, h1⟩ := h.partner k q hq
    have hkn : k ≠ n := by
      rintro rfl
      rw [hp] at hq
      cases hq
    refine ⟨hne, hlt, hback, ?_⟩
    rw [hst k hkn]
    exact h1
  · intro k
    rw [hfield Rec.legs fun _ => rfl]
    exact h.slots k
  · intro k l hl
    rw [hfield Rec.legs fun _ => rfl] at hl
    exact h.displaced k l hl
  · intro k d hd
    rw [hfield Rec.displ fun _ => rfl] at hd
    exact h.displ k d hd
  · intro k hk480 hk
    rw [hfield Rec.cls fun _ => rfl]
    by_cases hkn : k = n
    · rw [hkn]
      exact h.pool n (hkn ▸ hk480) hf
    · rw [hst k hkn] at hk
      exact h.pool k hk480 hk
  · intro k hk
    rw [hfield Rec.cls fun _ => rfl] at hk
    have hkn : k ≠ n := fun e => hc (e ▸ hk)
    rw [hst k hkn]
    exact h.test k hk
  · intro x hx
    rcases hw x hx with ⟨hx, hxn⟩ | ⟨rfl, rfl⟩
    · rw [hst _ hxn]
      exact h.waiting x hx
    · rw [hrec, if_pos rfl]
      exact ⟨rfl, rfl⟩

/-- A leg in MAKING joins the legs of a record, none of which is on its slot. -/
theorem legAdded {n : Nat} {k : Slot} (hk : ∀ l ∈ (m.recOf n).legs, l.slot ≠ k)
    (hrec : ∀ j, m'.recOf j = if j = n then { m.recOf n with legs := (m.recOf n).legs ++ [⟨k, .making, false, none⟩] } else m.recOf j)
    (hw : m'.wait = m.wait) : m'.Legal := by
  have hfield : ∀ {α : Type} (g : Rec → α), (∀ (r : Rec) l, g { r with legs := l } = g r) → ∀ j, g (m'.recOf j) = g (m.recOf j) := by
    intro α g hg j
    rw [hrec j]
    split
    · next hj => rw [hj, hg]
    · rfl
  have hpartner := hfield Rec.partner fun _ _ => rfl
  have hst := hfield Rec.st fun _ _ => rfl
  have hcls := hfield Rec.cls fun _ _ => rfl
  refine ⟨?_, ?_, ?_, ?_, ?_, ?_, ?_, hw ▸ h.once⟩
  · intro j q hq
    rw [hpartner] at hq
    rw [hpartner, hst]
    exact h.partner j q hq
  · intro j
    rw [hrec j]
    split
    · simp only [List.map_append, List.map_cons, List.map_nil]
      refine List.nodup_append'.2 ⟨h.slots n, List.nodup_singleton _, ?_⟩
      rw [List.disjoint_singleton]
      intro hmem
      obtain ⟨l, hl, hlk⟩ := List.mem_map.1 hmem
      exact hk l hl hlk
    · exact h.slots j
  · intro j l hl hd
    rw [hrec j] at hl
    split at hl
    · next hj =>
      rcases List.mem_append.1 hl with hl | hl
      · exact hj ▸ h.displaced n l hl hd
      · rw [List.mem_singleton.1 hl] at hd
        cases hd
    · exact h.displaced j l hl hd
  · intro j d hd
    rw [hfield Rec.displ fun _ _ => rfl] at hd
    exact h.displ j d hd
  · intro j
    rw [hst, hcls]
    exact h.pool j
  · intro j
    rw [hst, hcls]
    exact h.test j
  · intro x hx
    rw [hw] at hx
    rw [hst, hfield Rec.gen fun _ _ => rfl]
    exact h.waiting x hx

end Manager.Legal
end Sys2Proof.Machine

/-! SUPPORT. The shared operations of a claim, releases and drive changes among them, keep the table legal (05, 03 3.12, 08 8.5). -/

namespace Sys2Proof.Machine

set_option Elab.async false

/-! ### Records under the shared operations of a claim -/

@[simp] theorem recOf_joinFan (e : Eff) (src : Option Source) (n m : Nat) : (e.joinFan src n).recOf m = e.recOf m := by
  unfold Eff.joinFan
  split <;> rfl

@[simp] theorem recOf_leaveFan (e : Eff) (src : Option Source) (n m : Nat) : (e.leaveFan src n).recOf m = e.recOf m := by
  unfold Eff.leaveFan
  split <;> rfl

@[simp] theorem wait_joinFan (e : Eff) (src : Option Source) (n : Nat) : (e.joinFan src n).mgr.wait = e.mgr.wait := by
  unfold Eff.joinFan
  split <;> rfl

@[simp] theorem wait_leaveFan (e : Eff) (src : Option Source) (n : Nat) : (e.leaveFan src n).mgr.wait = e.mgr.wait := by
  unfold Eff.leaveFan
  split <;> rfl

theorem recOf_enterFree (e : Eff) (n m : Nat) :
    (e.enterFree n).recOf m = if m = n then Rec.free ((e.recOf n).gen + 1) else e.recOf m := by
  have h : ∀ p : Port, ({ (e.leaveFan (e.recOf n).source n).updRec n (fun r => Rec.free (r.gen + 1)) with port := p } : Eff).recOf m =
      if m = n then Rec.free ((e.recOf n).gen + 1) else e.recOf m := by
    intro p
    refine (recOf_updRec _ n m _).trans ?_
    simp only [recOf_leaveFan]
  unfold Eff.enterFree
  simp only
  split
  · exact h (e.leaveFan (e.recOf n).source n).port
  · exact h _

@[simp] theorem wait_enterFree (e : Eff) (n : Nat) : (e.enterFree n).mgr.wait = e.mgr.wait := by
  unfold Eff.enterFree
  simp only
  split <;> simp

/-- Each record of a list returns to FREE with its generation stepped, the others stand (05 R101). -/
theorem recOf_foldl_enterFree : ∀ (ms : List Nat) (e : Eff) (k : Nat), ms.Nodup →
    (ms.foldl Eff.enterFree e).recOf k = if k ∈ ms then Rec.free ((e.recOf k).gen + 1) else e.recOf k
  | [], e, k, _ => by simp
  | n :: ms, e, k, h => by
    obtain ⟨hn, hms⟩ := List.nodup_cons.1 h
    rw [List.foldl_cons, recOf_foldl_enterFree ms _ k hms, recOf_enterFree]
    by_cases hk : k = n
    · subst hk; simp [hn]
    · simp [hk]

@[simp] theorem wait_foldl_enterFree (ms : List Nat) : ∀ e : Eff, (ms.foldl Eff.enterFree e).mgr.wait = e.mgr.wait := by
  induction ms with
  | nil => exact fun _ => rfl
  | cons n ms ih => exact fun e => (ih _).trans (wait_enterFree e n)

theorem mem_members {e : Eff} {n m : Nat} : m ∈ e.members n ↔ m = n ∨ (e.recOf n).partner = some m := by
  simp [Eff.members]

theorem nodup_members_of {e : Eff} {n : Nat} (h : (e.recOf n).partner ≠ some n) : (e.members n).Nodup := by
  unfold Eff.members
  cases hp : (e.recOf n).partner with
  | none => simp
  | some q =>
    have : n ≠ q := fun hq => h (hq ▸ hp)
    simpa using this

/-! ### What keeps the table legal -/

namespace Eff.Legal

variable {e : Eff} (h : e.Legal)
include h

theorem beside {e' : Eff} (hr : e'.mgr.recs = e.mgr.recs := by rfl) (hw : e'.mgr.wait = e.mgr.wait := by rfl) : e'.Legal :=
  ((Goes.refl e).beside hr hw).legal h

theorem partner_ne (n : Nat) : (e.recOf n).partner ≠ some n := fun hp => (h.partner n n hp).1 rfl

theorem members_inService {n : Nat} (hn : (e.recOf n).InService) : ∀ m ∈ e.members n, (e.recOf m).InService := by
  intro m hm
  rcases mem_members.1 hm with rfl | hp
  · exact hn
  · exact Manager.Legal.inService_of_partner h (by rw [h.partner_back hp]; simp)

/-- A record that is not on the wait list returns to FREE with its partner. -/
theorem freeMembers {n : Nat} (hn : ∀ x ∈ e.mgr.wait, x.num ≠ n) : Eff.Legal ((e.members n).foldl Eff.enterFree e) := by
  have hnd := nodup_members_of (h.partner_ne n)
  refine Manager.Legal.freed (n := n) h ?_ ?_ (wait_foldl_enterFree _ e) hn
  · intro k hk
    exact ⟨_, (recOf_foldl_enterFree _ e k hnd).trans (if_pos (mem_members.2 hk))⟩
  · intro k hk hp
    exact (recOf_foldl_enterFree _ e k hnd).trans (if_neg fun hm => (mem_members.1 hm).elim hk hp)

theorem not_waiting {n : Nat} (hn : (e.recOf n).st ≠ .verifyWait) : ∀ x ∈ e.mgr.wait, x.num ≠ n :=
  fun x hx he => hn (he ▸ (h.waiting x hx).1)

/-- A unit is freed, and the head of the wait list becomes VERIFYING (04 R78). -/
theorem freeUnit (u : Fin 4) : (e.freeUnit u).Legal := by
  unfold Eff.freeUnit
  simp only
  cases hw : e.mgr.wait with
  | nil => exact h.beside
  | cons x rest =>
    have hx : x ∈ e.mgr.wait := by rw [hw]; exact List.mem_cons_self
    obtain ⟨hst, _⟩ := h.waiting x hx
    have honce := h.once
    rw [hw, List.map_cons] at honce
    obtain ⟨hnot, hnd⟩ := List.nodup_cons.1 honce
    have hc : (e.mgr.recOf x.num).cls ≠ .test := fun hc => (h.test _ hc).2 hst
    have hl : Eff.Legal (({ e with mgr := { e.mgr with wait := rest } } : Eff).updRec x.num fun r => { r with st := .verifying }) := by
      refine Manager.Legal.restated (n := x.num) (st := .verifying) h (by simp [hst]) (h.partner_none_of_waiting hst) hc
        (fun k => recOf_updRec _ _ _ _) (fun y hy => .inl ⟨?_, ?_⟩) hnd
      · rw [hw]
        exact List.mem_cons_of_mem _ hy
      · exact fun hy' => hnot (hy' ▸ List.mem_map_of_mem hy)
    simp only
    refine ((Goes.refl _).offerLegs _ _ _).legal ?_
    split
    · exact hl.beside
    · exact hl.beside

/-! ### Releases (05) -/

theorem releaseServing (n clear : Nat) (ans : Option ReleaseAnswer) (hn : (e.recOf n).InService) : (e.releaseServing n clear ans).Legal := by
  have hms := h.members_inService hn
  have h1 : e.Goes (((e.members n).foldl Eff.takeOut e).updRec n fun r => { r with relAns := ans }) :=
    ((Goes.refl e).foldl _ fun m _ _ he => he.takeOut m).upd .of_same
  unfold Eff.releaseServing
  simp only
  split
  · have h2 := h1.foldl (e.members n) (f := fun e m => e.breakLegs m fun l => decide (l.st = .making)) fun m _ _ he => he.breakLegs m _
    have h3 := h2.foldl (e.members n) (f := fun e m => e.offerLegs m .release none) fun m _ _ he => he.offerLegs m _ _
    have h4 := h3.foldl (e.members n) (f := fun e m => e.updRec m fun r => { r with st := .releasing, clearOf := some clear })
      fun m hm e' he => he.upd (.of_legs (List.Sublist.refl _) (fun _ hl _ => hl) (hs := .inr ⟨he.inService (hms m hm), by simp [CircState.made]⟩))
    exact h4.beside.legal h
  · have h2 := h1.foldl (e.members n) (f := fun e m => (e.breakLegs m Leg.carries).setState m .breaking)
      fun m hm e' he => (he.breakLegs m _).setState (hms m hm) (by simp [CircState.made])
    have key : ∀ e' : Eff, e.Goes e' → Eff.Legal
        (if ((e.members n).all fun m => (e'.recOf m).legs.isEmpty) = true then (e.members n).foldl Eff.enterFree e' else e') := by
      intro e' he
      split
      · rw [← he.members]
        exact freeMembers (he.legal h) ((he.legal h).not_waiting (he.inService hn).1)
      · exact he.legal h
    split
    · exact key _ (h2.answerOpen _ _ _)
    · exact key _ h2

theorem releaseWaiting (n : Nat) (ans : Option ReleaseAnswer) (hn : (e.recOf n).st = .verifyWait) : (e.releaseWaiting n ans).Legal := by
  have hp := h.partner_none_of_waiting hn
  have h0 : Eff.Legal { e with mgr := { e.mgr with wait := e.mgr.wait.filter (· ≠ e.handleOf n) } } :=
    Manager.Legal.subwait h rfl List.filter_sublist
  have hno : ∀ x ∈ e.mgr.wait.filter (· ≠ e.handleOf n), x.num ≠ n := by
    intro x hx hxn
    obtain ⟨hx, hne⟩ := List.mem_filter.1 hx
    have hg := (h.waiting x hx).2
    refine (of_decide_eq_true hne) ?_
    subst hxn
    exact congrArg (Handle.mk x.num) hg.symm
  unfold Eff.releaseWaiting
  simp only
  generalize hz : ({ e with mgr := { e.mgr with wait := e.mgr.wait.filter (· ≠ e.handleOf n) } } : Eff) = z at h0 ⊢
  have hzw : z.mgr.wait = e.mgr.wait.filter (· ≠ e.handleOf n) := by rw [← hz]
  have hzp : (z.recOf n).partner = none := by rw [← hz]; exact hp
  generalize failureResults (e.handleOf n) none 0 = res
  have hg : z.Goes (((z.updRec n fun r => { r with relAns := ans }).breakLegs n fun _ => true).answerOpen n .verifyAborted res) :=
    (((Goes.refl z).upd .of_same).breakLegs _ _).answerOpen _ _ _
  have hmem : Eff.members _ n = [n] := (hg.members n).trans (by simp [Eff.members, hzp])
  have hfree := freeMembers (hg.legal h0) (n := n) (by rw [hg.wait, hzw]; exact hno)
  rw [hmem] at hfree
  exact hfree

theorem endVerifying (n : Nat) (st : Status) (ans : Option ReleaseAnswer) (hn : (e.recOf n).st = .verifying) : (e.endVerifying n st ans).Legal := by
  have hin : (e.recOf n).InService := ⟨by simp [hn], by simp [hn]⟩
  have h1 : e.Goes (e.updRec n fun r => { r with
      st := .breaking, verify := none, lease := none, reload := none, target := none, relAns := ans }) :=
    (Goes.refl e).upd (.of_legs (List.Sublist.refl _) (fun _ hl _ => hl) (hs := .inr ⟨hin, by simp [CircState.made]⟩))
  unfold Eff.endVerifying
  simp only
  cases e.ver.serving (e.handleOf n) with
  | none => exact ((h1.breakLegs _ _).answerOpen _ _ _).legal h
  | some u => exact freeUnit (((h1.breakLegs _ _).answerOpen _ _ _).legal h) u

theorem releaseCircuit (n clear : Nat) (ans : Option ReleaseAnswer) : (e.releaseCircuit n clear ans).Legal := by
  unfold Eff.releaseCircuit
  split
  · next hst => exact h.releaseWaiting n ans hst
  · next hst => exact h.endVerifying n _ ans hst
  all_goals first
    | exact h
    | next hst => exact h.releaseServing n clear ans ⟨by simp [hst], by simp [hst]⟩

theorem tryFree (n : Nat) : (e.tryFree n).Legal := by
  unfold Eff.tryFree
  simp only
  split
  · next hc => exact h.freeMembers (h.not_waiting (by simp [hc.1]))
  · exact h

/-! ### Drive changes and the end of a test access (03 3.12, 08 8.5) -/

theorem driveCircuit (n : Nat) (t : Target) (hs : ∀ m ∈ e.members n, (e.recOf m).InService) : (e.driveCircuit n t).Legal := by
  refine Goes.legal ((Goes.refl e).foldl _ fun m hm e' he => ?_) h
  have h1 : e.Goes (e'.updRec m fun r => { r with target := some t }) := he.upd .of_same
  unfold Eff.driveRecord
  simp only
  split
  · exact h1.offerLegs _ _ _
  · exact h1.setState (hs m hm) (by cases t <;> simp [CircState.made, Target.state])

theorem endAccess (t : Nat) (ans : Option ReleaseAnswer) (ht : (e.recOf t).InService) : (e.endAccess t ans).Legal := by
  unfold Eff.endAccess
  simp only
  have h1 (own : Option (Handle × Slot)) : e.Goes (e.updRec t fun r => { r with
      st := .breaking, lease := none, reload := none, target := none, displ := none, restoring := own, relAns := ans,
      legs := r.legs.map fun l => { l with st := .breaking, yielded := r.displ.isSome } }) := by
    refine (Goes.refl e).upd (.of_legs ?_ ?_ (hd := fun d hd => by cases hd) (hs := .inr ⟨ht, by simp [CircState.made]⟩))
    · rw [List.map_map]
      exact List.Sublist.refl _
    · intro l hl hd
      obtain ⟨x, _, rfl⟩ := List.mem_map.1 hl
      cases hd
  split
  · exact Goes.legal (Goes.foldl (f := fun e (l : Leg) => e.addEntry l.slot Content.idle _) _ (fun _ _ _ he => he.beside) (h1 _)) h
  · next o k _ =>
    exact Goes.legal (Goes.beside ((h1 _).upd (.updLeg _ k (fun l => { l with st := .making, link := none }) (fun _ => rfl) fun _ => by simp))) h

theorem freeTest (t : Nat) (hc : (e.recOf t).cls = .test) (hst : (e.recOf t).st ≠ .verifyWait) : (e.freeTest t).Legal := by
  have key : ∀ e' : Eff, e.Goes e' → ((e'.enterFree t).raiseOn t .accessEnded).Legal := by
    intro e' he
    have hl := he.legal h
    have hp : (e'.recOf t).partner = none := (he.recs t).partner.trans (h.partner_none_of_test hc)
    have hnot : ∀ x ∈ e'.mgr.wait, x.num ≠ t := by rw [he.wait]; exact h.not_waiting hst
    have hmem : e'.members t = [t] := by simp [Eff.members, hp]
    have hfree := freeMembers hl hnot
    rw [hmem] at hfree
    exact hfree.beside
  unfold Eff.freeTest
  simp only
  have h1 : e.Goes (match (e.recOf t).restoring with
      | some (o, k) =>
        if (e.current o && (e.recOf o.num).legs.any fun (l : Leg) => decide (l.slot = k ∧ l.st = LegState.live)) = true
        then e.raiseOn o.num .restored else e
      | none => e) := by
    split
    · split
      · exact (Goes.refl e).beside
      · exact Goes.refl e
    · exact Goes.refl e
  have h2 := key _ h1
  cases (e.recOf t).watcher with
  | none => exact h2
  | some w => exact h2.beside

end Eff.Legal
end Sys2Proof.Machine

/-! SUPPORT. Preemption and openings keep the table legal (03 3.3-3.7, 08 R153). -/

namespace Sys2Proof.Machine

set_option Elab.async false

/-! ### Preemption (03 3.3, 3.7) -/

/-- The partners named are still partners of some record. -/
def Eff.Paired (e : Eff) (ps : List Nat) : Prop := ∀ p ∈ ps, (e.recOf p).partner ≠ none

theorem Eff.Goes.paired {e e' : Eff} (h : e.Goes e') {ps : List Nat} (hp : e.Paired ps) : e'.Paired ps :=
  fun p hm => by rw [(h.recs p).partner]; exact hp p hm

/-- Slots that are available are held, if at all, by circuits in ACTIVE or HELD (03 R46). -/
theorem victims_inService {m : Manager} {cls : CircClass} {self : Option Nat} {ks : List Slot} (h : ∀ k ∈ ks, m.available cls self k = true) :
    ∀ p ∈ m.victims ks, (m.recOf p.2).InService := by
  intro p hp
  obtain ⟨k, hk, hv⟩ := List.mem_filterMap.1 hp
  obtain ⟨v, hholder, rfl⟩ := Option.map_eq_some_iff.1 hv
  have ha := h k hk
  unfold Manager.available at ha
  rw [hholder] at ha
  simp only [Bool.and_eq_true, Manager.open, decide_eq_true_eq] at ha
  exact inService_of_serving ha.2.1.1.2.2

theorem available_of_firstBusy {e : Eff} {cls : CircClass} {self : Option Nat} {ks : List Slot} (h : e.firstBusy cls self ks = none) :
    ∀ k ∈ ks, e.mgr.available cls self k = true := by
  intro k hk
  simpa using List.find?_eq_none.1 h k hk

namespace Eff.Goes

variable {e₀ e : Eff}

theorem takeLegs (h : e₀.Goes e) (vs : List (Slot × Nat)) : e₀.Goes (vs.foldl Eff.takeLeg e) :=
  h.foldl vs fun p _ _ he => he.upd (.updLeg _ p.1 (fun l => { l with st := .breaking, yielded := true }) (fun _ => rfl) fun _ => by simp)

theorem preempt (h : e₀.Goes e) (vs : List (Slot × Nat)) (hv : ∀ p ∈ vs, (e₀.recOf p.2).InService) : e₀.Goes (e.preempt vs) := by
  unfold Eff.preempt
  refine (h.takeLegs vs).foldl _ fun v hm e' he => ?_
  have hr : e₀.Goes (e'.raiseOn v .preempted) := he.beside
  simp only
  split
  · obtain ⟨p, hp, rfl⟩ := List.mem_map.1 (mem_firstOf.1 hm)
    exact (hr.takeOut _).setState (hv p hp) (by simp [CircState.made])
  · exact hr

end Eff.Goes

namespace Eff.Legal

variable {e : Eff} (h : e.Legal)
include h

/-- The partners that a claim releases are partners (03 R57). -/
theorem paired_partnersOf (vs : List (Slot × Nat)) : e.Paired (e.partnersOf vs) := by
  intro p hp
  have hg := (Goes.refl e).takeLegs vs
  obtain ⟨v, _, hv⟩ := List.mem_filterMap.1 hp
  have hvp : (e.recOf v).partner = some p := by
    rw [← (hg.recs v).partner]
    split at hv
    · next q hq =>
      split at hv
      · cases hv
      · rw [hq, hv]
    · cases hv
  have hback : (e.recOf p).partner = some v := h.partner_back hvp
  simp [hback]

theorem releasePartners {ps : List Nat} (hp : e.Paired ps) : (e.releasePartners ps).Legal := by
  unfold Eff.releasePartners
  refine Goes.legal ((Goes.refl e).foldl ps fun p hm e' he => ?_) h
  have hb : CircState.breaking.made := by simp [CircState.made]
  exact (((he.takeOut p).breakLegs p Leg.carries).setState (Manager.Legal.inService_of_partner h (hp p hm)) hb).beside

/-! ### Openings (03 3.5, 3.6, 08 R153) -/

/-- A FREE record is filled. -/
theorem opens {n : Nat} {f : Rec → Rec} (hf : (e.recOf n).st = .free) (ho : (f (e.recOf n)).Opens n) (hp : (f (e.recOf n)).partner = none) :
    (e.updRec n f).Legal := by
  refine Manager.Legal.opened h (fun k => if k = n then some (f (e.recOf n)) else none) (fun k => ?_) rfl fun k r hr => ?_
  · refine (recOf_updRec e n k f).trans ?_
    split <;> rfl
  · split at hr
    · next hk =>
      subst hk
      cases hr
      exact ⟨hf, ho, fun q hq => by rw [hp] at hq; cases hq⟩
    · cases hr

/-- Two FREE records are filled, each the other's partner. -/
theorem opensPair {x y : Nat} {f g : Rec → Rec} (hne : x ≠ y) (hx480 : x < 480) (hy480 : y < 480) (hx : (e.recOf x).st = .free)
    (hy : (e.recOf y).st = .free) (hox : (f (e.recOf x)).Opens x) (hoy : (g (e.recOf y)).Opens y) (hpx : (f (e.recOf x)).partner = some y)
    (hpy : (g (e.recOf y)).partner = some x) : ((e.updRec x f).updRec y g).Legal := by
  have hy' : (e.updRec x f).recOf y = e.recOf y := by rw [recOf_updRec, if_neg hne.symm]
  refine Manager.Legal.opened h
    (fun k => if k = y then some (g (e.recOf y)) else if k = x then some (f (e.recOf x)) else none) (fun k => ?_) rfl fun k r hr => ?_
  · refine (recOf_updRec _ y k g).trans ?_
    rw [hy', recOf_updRec]
    split
    · rfl
    · split <;> rfl
  · split at hr
    · next hk =>
      subst hk
      cases hr
      refine ⟨hy, hoy, fun q hq => ?_⟩
      rw [hpy] at hq
      cases hq
      exact ⟨hne, hy480, _, by rw [if_neg hne, if_pos rfl], hpx⟩
    · split at hr
      · next hk =>
        subst hk
        cases hr
        refine ⟨hx, hox, fun q hq => ?_⟩
        rw [hpx] at hq
        cases hq
        exact ⟨hne.symm, hx480, _, by rw [if_pos rfl], hpy⟩
      · cases hr

end Eff.Legal

/-- The fields of an opening request make no TEST circuit. -/
theorem parseCommon_cls {m : List Byte} {i j k : Nat} {c : CommonFields} (h : parseCommon m i j k = some c) : c.cls ≠ .test := by
  unfold parseCommon at h
  simp only at h
  split at h
  · cases h
  · next cls hc =>
    split at h
    · cases h
    · cases h
      unfold parseClass at hc
      repeat' split at hc
      all_goals cases hc
      all_goals simp

theorem parseRecord_lt {m : List Byte} {i n : Nat} (h : parseRecord m i = some (some n)) : n < 480 := ((parseRecord_iff m i (some n)).1 h).2

/-- What a well-formed OPEN names. -/
theorem parseOpen_some {m : List Byte} {f : OpenFields} (h : parseOpen m = some f) :
    (∀ n, f.record = some n → n < 480) ∧ f.common.cls ≠ .test ∧ f.legs.Nodup := by
  unfold parseOpen at h
  split at h
  · next r c src legs v hr hc _ hl _ =>
    cases h
    refine ⟨fun n hn => parseRecord_lt (hr.trans (congrArg some hn)), parseCommon_cls hc, ?_⟩
    unfold parseLegs at hl
    simp only at hl
    split at hl
    · cases hl
    · split at hl
      · cases hl
      · split at hl
        · next hnd => cases hl; exact hnd
        · cases hl
  · cases h

/-- What a well-formed OPEN_PAIR names. -/
theorem parsePair_some {m : List Byte} {f : PairFields} (h : parsePair m = some f) :
    (∀ n, f.x = some n → n < 480) ∧ (∀ n, f.y = some n → n < 480) ∧ f.common.cls ≠ .test ∧ (f.x = f.y → f.x = none) := by
  unfold parsePair at h
  split at h
  · next x y c aIn aOut bIn bOut hx hy hc _ _ _ _ =>
    split at h
    · cases h
    · next hno =>
      cases h
      refine ⟨fun n hn => parseRecord_lt (hx.trans (congrArg some hn)), fun n hn => parseRecord_lt (hy.trans (congrArg some hn)), parseCommon_cls hc, fun he => ?_⟩
      by_contra hne
      exact hno (.inr (.inr ⟨he, hne⟩))
  · cases h

theorem lowestFree_some {e : Eff} {lo count : Nat} {other : Option Nat} {n : Nat} (h : e.lowestFree lo count other = some n) :
    (e.recOf n).st = .free ∧ lo ≤ n ∧ n < lo + count ∧ some n ≠ other := by
  have hp := List.find?_some h
  have hm := List.mem_range'_1.1 (List.mem_of_find?_eq_some h)
  simp only [Eff.isFree, Bool.and_eq_true, decide_eq_true_eq] at hp
  exact ⟨hp.1, hm.1, hm.2, hp.2⟩

/-- The record that an opening request is given is FREE and of the control pool. -/
theorem allocate_ok {e : Eff} {want other : Option Nat} {n : Nat} (h : e.allocate want other = .ok n) (hw : ∀ k, want = some k → k < 480) :
    (e.recOf n).st = .free ∧ n < 480 ∧ (want = none → some n ≠ other) ∧ (∀ k, want = some k → n = k) := by
  cases want with
  | some k =>
    simp only [Eff.allocate] at h
    split at h
    · next hf =>
      cases h
      exact ⟨of_decide_eq_true hf, hw _ rfl, (by simp), (by simp)⟩
    · cases h
  | none =>
    simp only [Eff.allocate] at h
    split at h
    · next k hk =>
      cases h
      obtain ⟨h1, _, h3, h4⟩ := lowestFree_some hk
      exact ⟨h1, by simpa [Config.testPool] using h3, fun _ => h4, (by simp)⟩
    · cases h

/-- The record that an opening request fills. -/
theorem fillRecord_opens (d : Defaults) (m : Manager) {c : CommonFields} (tag : BitVec 16) (src : Source) {legs : List Slot} (partner : Option Nat)
    (ans : OpenAnswer) (r : Rec) {n : Nat} (hn : n < 480) (hc : c.cls ≠ .test) (hl : legs.Nodup) :
    (fillRecord d m c tag src legs partner ans r).Opens n where
  st := rfl
  slots := by
    simp only [fillRecord, List.map_map, Function.comp_def, List.map_id']
    exact hl
  legs := by
    intro l hl
    obtain ⟨k, _, rfl⟩ := List.mem_map.1 hl
    simp
  displ := fun d hd => by cases hd
  pool := ⟨fun h => absurd h hc, fun h => absurd hn (Nat.not_lt_of_le h)⟩

/-- The test record of an access. -/
theorem testRecord_opens (d : Defaults) (m : Manager) (a : AccessRequest) {displ : Option (Nat × Slot)} (r : Rec) {t : Nat} (ht : 480 ≤ t)
    (hd : ∀ x, displ = some x → x.1 < 480) : (testRecord d m a displ r).Opens t where
  st := rfl
  slots := List.nodup_singleton _
  legs := by
    intro l hl
    rw [List.mem_singleton.1 hl]
    simp
  displ := fun x hx => ⟨ht, hd x hx⟩
  pool := ⟨fun _ => ht, fun _ => rfl⟩

namespace Eff.Legal

variable {e : Eff} (h : e.Legal)
include h

/-- The verification of the circuit opened begins, or waits for a unit (04 R75, R76). -/
theorem startCircuit {n : Nat} (f : OpenFields) (vs : List (Slot × Nat)) (hst : (e.recOf n).st = .making) (hp : (e.recOf n).partner = none)
    (hc : (e.recOf n).cls ≠ .test) : (e.startCircuit n f vs).Legal := by
  unfold Eff.startCircuit
  split
  · exact Goes.legal ((Goes.refl e).offerMakes _ _ _ _ _) h
  · next v _ =>
    simp only
    generalize hz : (e.updRec n fun r => { r with verify := some (v.field f.legs) }) = z
    have hg : e.Goes z := by
      rw [← hz]
      exact (Goes.refl e).upd .of_same
    have hl := hg.legal h
    have hzst : (z.recOf n).st = .making := by rw [← hz, recOf_updRec_same]; exact hst
    have hzp := (hg.recs n).partner.trans hp
    have hzc : (z.recOf n).cls ≠ .test := by rw [(hg.recs n).cls]; exact hc
    have hno := hl.not_waiting (n := n) (by simp [hzst])
    split
    · have hv : (z.setState n .verifying).Legal :=
        Manager.Legal.restated hl (by rw [show z.mgr.recOf n = z.recOf n from rfl, hzst]; simp) hzp hzc
          (fun k => recOf_updRec z n k fun r => { r with st := .verifying }) (fun x hx => .inl ⟨hx, hno x hx⟩) hl.once
      exact Goes.legal (((Goes.refl _).beside).offerMakes _ _ _ _ _) hv
    · have hg' : (z.setState n .verifyWait).handleOf n = ⟨n, (z.recOf n).gen⟩ := by
        simp only [Eff.handleOf, Eff.setState, recOf_updRec_same]
      have hv : Eff.Legal { z.setState n .verifyWait with mgr := { (z.setState n .verifyWait).mgr with
          wait := (z.setState n .verifyWait).mgr.wait ++ [(z.setState n .verifyWait).handleOf n] } } := by
        refine Manager.Legal.restated hl (by rw [show z.mgr.recOf n = z.recOf n from rfl, hzst]; simp) hzp hzc
          (fun k => recOf_updRec z n k fun r => { r with st := .verifyWait }) (fun x hx => ?_) ?_
        · rcases List.mem_append.1 hx with hx | hx
          · exact .inl ⟨hx, hno x hx⟩
          · rw [hg'] at hx
            exact .inr ⟨rfl, List.mem_singleton.1 hx⟩
        · simp only [List.map_append, List.map_cons, List.map_nil]
          refine List.nodup_append'.2 ⟨hl.once, List.nodup_singleton _, ?_⟩
          rw [List.disjoint_singleton]
          intro hm
          obtain ⟨x, hx, hxn⟩ := List.mem_map.1 hm
          exact hno x hx hxn
      exact Goes.legal ((Goes.refl _).offerMakes _ _ _ _ _) hv

end Eff.Legal

@[simp] theorem recOf_foldl_addEntry {β : Type} (k : Eff → β → Slot) (c : Eff → β → Content) (o : Eff → β → List LegOutcome) (l : List β) (m : Nat) :
    ∀ e : Eff, (l.foldl (fun e x => e.addEntry (k e x) (c e x) (o e x)) e).recOf m = e.recOf m := by
  induction l with
  | nil => exact fun _ => rfl
  | cons x l ih => exact fun e => ih _

@[simp] theorem recOf_offerMakes (e : Eff) (n : Nat) (d : Drive) (u : Option (Fin 4)) (vs : List (Slot × Nat)) (ks : List Slot) (m : Nat) :
    (e.offerMakes n d u vs ks).recOf m = e.recOf m := recOf_foldl_addEntry (fun _ k => k) _ _ ks m e

/-- The beginning of a circuit leaves every partner. -/
theorem partner_startCircuit (e : Eff) (n : Nat) (f : OpenFields) (vs : List (Slot × Nat)) (m : Nat) :
    ((e.startCircuit n f vs).recOf m).partner = (e.recOf m).partner := by
  have hu : ∀ (e : Eff) (g : Rec → Rec), (∀ r, (g r).partner = r.partner) → ((e.updRec n g).recOf m).partner = (e.recOf m).partner := by
    intro e g hg
    rw [recOf_updRec]
    split
    · next hm => rw [hm, hg]
    · rfl
  have h2 (v : Option VerifyField) (st : CircState) :
      (((e.updRec n fun r => { r with verify := v }).setState n st).recOf m).partner = (e.recOf m).partner :=
    (hu _ (fun r => { r with st := st }) fun _ => rfl).trans (hu e (fun r => { r with verify := v }) fun _ => rfl)
  unfold Eff.startCircuit
  split
  · rw [recOf_offerMakes]
  · simp only
    split
    · rw [recOf_offerMakes]
      exact h2 _ _
    · rw [recOf_offerMakes]
      exact h2 _ _

namespace Eff.Legal

variable {e : Eff} (h : e.Legal)
include h

theorem acceptOpen (d : Defaults) (r : Request) (f : OpenFields) {n : Nat} (hf : (e.recOf n).st = .free) (hn : n < 480) (hc : f.common.cls ≠ .test)
    (hl : f.legs.Nodup) (ha : ∀ k ∈ f.legs, e.mgr.available f.common.cls none k = true) : (e.acceptOpen d r f n).Legal := by
  have hg := (Goes.refl e).preempt _ (victims_inService ha)
  have hps := hg.paired (h.paired_partnersOf (e.mgr.victims f.legs))
  have hfree := ((hg.recs n).stays (h.not_inService_of_free hn hf)).trans hf
  unfold Eff.acceptOpen
  simp only
  generalize e.partnersOf (e.mgr.victims f.legs) = ps at hps ⊢
  generalize e.mgr.victims f.legs = vs at hg hps hfree ⊢
  generalize (⟨r.slot, r.sub, [(e.preempt vs).handleOf n]⟩ : OpenAnswer) = ans
  generalize (e.preempt vs).mgr = m
  generalize e.preempt vs = z at *
  have hl' := opens (hg.legal h) (f := fillRecord d m f.common (tagOf r.msg) f.source f.legs none ans) hfree
    (fillRecord_opens _ _ _ _ _ _ _ hn hc hl) rfl
  have hj := (Goes.refl (z.updRec n (fillRecord d m f.common (tagOf r.msg) f.source f.legs none ans))).joinFan (some f.source) n
  have hs := startCircuit (hj.legal hl') (n := n) f vs (by simp [fillRecord]) (by simp [fillRecord]) (by simpa [fillRecord] using hc)
  refine hs.releasePartners fun p hp => ?_
  rw [partner_startCircuit, recOf_joinFan, recOf_updRec]
  split
  · next hpn => exact absurd (Manager.Legal.partner_none_of_free (hg.legal h) hfree) (hpn ▸ hps p hp)
  · exact hps p hp

theorem acceptPair (d : Defaults) (r : Request) (f : PairFields) {x y : Nat} (hne : x ≠ y) (hx : (e.recOf x).st = .free) (hy : (e.recOf y).st = .free)
    (hx480 : x < 480) (hy480 : y < 480) (hc : f.common.cls ≠ .test)
    (ha : ∀ k ∈ [f.bOut, f.aOut], e.mgr.available f.common.cls none k = true) : (e.acceptPair d r f x y).Legal := by
  have hg := (Goes.refl e).preempt _ (victims_inService ha)
  have hps := hg.paired (h.paired_partnersOf (e.mgr.victims [f.bOut, f.aOut]))
  have hfx := ((hg.recs x).stays (h.not_inService_of_free hx480 hx)).trans hx
  have hfy := ((hg.recs y).stays (h.not_inService_of_free hy480 hy)).trans hy
  unfold Eff.acceptPair
  simp only
  generalize e.partnersOf (e.mgr.victims [f.bOut, f.aOut]) = ps at hps ⊢
  generalize e.mgr.victims [f.bOut, f.aOut] = vs at hg hps hfx hfy ⊢
  generalize (⟨r.slot, r.sub, [(e.preempt vs).handleOf x, (e.preempt vs).handleOf y]⟩ : OpenAnswer) = ans
  generalize hm : (e.preempt vs).mgr = m
  generalize e.preempt vs = z at *
  have hl := opensPair (hg.legal h) (f := fillRecord d m f.common (tagOf r.msg) f.aIn [f.bOut] (some y) ans)
    (g := fillRecord d m f.common (tagOf r.msg) f.bIn [f.aOut] (some x) ans) hne hx480 hy480 hfx hfy
    (fillRecord_opens _ _ _ _ _ _ _ hx480 hc (List.nodup_singleton _)) (fillRecord_opens _ _ _ _ _ _ _ hy480 hc (List.nodup_singleton _)) rfl rfl
  have hg2 := ((((Goes.refl ((z.updRec x (fillRecord d m f.common (tagOf r.msg) f.aIn [f.bOut] (some y) ans)).updRec y
    (fillRecord d m f.common (tagOf r.msg) f.bIn [f.aOut] (some x) ans))).joinFan (some f.aIn) x).joinFan (some f.bIn) y).offerMakes x .source none vs [f.bOut]).offerMakes y .source none vs
    [f.aOut]
  refine (hg2.legal hl).releasePartners (hg2.paired fun p hp => ?_)
  rw [recOf_updRec]
  split
  · simp [fillRecord]
  · rw [recOf_updRec]
    split
    · simp [fillRecord]
    · exact hps p hp

theorem acceptLeg {n : Nat} {k : Slot} {cls : CircClass} (ha : e.mgr.available cls (some n) k = true) : (e.acceptLeg n k).Legal := by
  have hg := (Goes.refl e).preempt _ (victims_inService (ks := [k]) fun j hj => by rw [List.mem_singleton.1 hj]; exact ha)
  have hps := hg.paired (h.paired_partnersOf (e.mgr.victims [k]))
  have hfree : ∀ l ∈ ((e.preempt (e.mgr.victims [k])).recOf n).legs, l.slot ≠ k := by
    intro l hl hlk
    obtain ⟨l', hl', he⟩ := List.mem_map.1 ((hg.recs n).slots.subset (List.mem_map_of_mem hl))
    simp only [Manager.available, Bool.and_eq_true, List.all_eq_true, decide_eq_true_eq] at ha
    exact ha.1 l' hl' (he.trans hlk)
  unfold Eff.acceptLeg
  simp only
  generalize e.partnersOf (e.mgr.victims [k]) = ps at hps ⊢
  generalize e.mgr.victims [k] = vs at hg hps hfree ⊢
  generalize e.preempt vs = z at *
  have hl : (z.updRec n fun r => { r with legs := r.legs ++ [⟨k, .making, false, none⟩] }).Legal :=
    Manager.Legal.legAdded (hg.legal h) hfree (fun j => recOf_updRec _ _ _ _) rfl
  have hg2 := (Goes.refl (z.updRec n fun r => { r with legs := r.legs ++ [⟨k, .making, false, none⟩] })).offerMakes n
    ((z.updRec n fun r => { r with legs := r.legs ++ [⟨k, .making, false, none⟩] }).recOf n).drive none vs [k]
  refine (hg2.legal hl).releasePartners (hg2.paired fun p hp => ?_)
  rw [recOf_updRec]
  split
  · next hpn => exact hpn ▸ hps p hp
  · exact hps p hp

end Eff.Legal
end Sys2Proof.Machine

/-! SUPPORT. The requests, and the claims from inside the part, keep the table legal. -/

namespace Sys2Proof.Machine

set_option Elab.async false

/-! ### Legs after an outcome, and a leg displaced -/

/-- An outcome keeps the slot of a leg that it does not remove. -/
theorem slot_of_after {l l' : Leg} {k : OutcomeKind} (h : l.after k = some l') : l'.slot = l.slot := by
  unfold Leg.after at h
  split at h <;> cases h <;> rfl

/-- An outcome displaces no leg. -/
theorem eq_of_after_displaced {l l' : Leg} {k : OutcomeKind} (h : l.after k = some l') (hd : l'.st = .displaced) : l' = l := by
  unfold Leg.after at h
  split at h <;> cases h
  · cases hd
  · rfl

/-- The slots of legs that are dropped or changed on their slots. -/
theorem slots_filterMap (g : Leg → Option Leg) (hg : ∀ l l', g l = some l' → l'.slot = l.slot) (legs : List Leg) :
    ((legs.filterMap g).map (·.slot)).Sublist (legs.map (·.slot)) := by
  induction legs with
  | nil => exact List.Sublist.refl _
  | cons l legs ih =>
    rw [List.filterMap_cons]
    split
    · exact ih.cons _
    · next l' hl =>
      rw [List.map_cons, List.map_cons, hg l l' hl]
      exact ih.cons_cons _

theorem Rec.Goes.outcome (r : Rec) (k : Slot) (o : OutcomeKind) :
    r.Goes { r with legs := r.legs.filterMap fun l => if l.slot = k then l.after o else some l } := by
  refine of_legs (slots_filterMap _ (fun l l' hl => ?_) r.legs) fun l' hl' hd => ?_
  · split at hl
    · exact slot_of_after hl
    · cases hl; rfl
  · obtain ⟨l, hl, he⟩ := List.mem_filterMap.1 hl'
    split at he
    · exact eq_of_after_displaced he hd ▸ hl
    · cases he; exact hl

/-- A leg of a circuit of the control pool is displaced by a test record (08 R154). -/
theorem Rec.Goes.displaceLeg (r : Rec) (k : Slot) {t : Nat} (hc : r.cls ≠ .test) (hf : r.st ≠ .free) (ht : 480 ≤ t) :
    r.Goes (r.updLeg k fun l => { l with st := .displaced, link := some t }) where
  partner := rfl
  cls := rfl
  gen := rfl
  slots := by
    have hs : ((r.updLeg k fun l => { l with st := .displaced, link := some t }).legs.map (·.slot)) = r.legs.map (·.slot) := by
      simp only [Rec.updLeg, List.map_map]
      refine List.map_congr_left fun l _ => ?_
      simp only [Function.comp_apply]
      split <;> rfl
    rw [hs]
  displaced := by
    intro l' hl' hd
    obtain ⟨l, hl, rfl⟩ := List.mem_map.1 hl'
    by_cases hk : l.slot = k
    · refine .inr ⟨hc, hf, fun d hlink => ?_⟩
      rw [if_pos hk] at hlink
      cases hlink
      exact ht
    · rw [if_neg hk] at hd ⊢
      exact .inl ⟨l, hl, hd, rfl⟩
  displ := fun _ h => h
  st := .inl rfl

namespace Eff.Legal

variable {e : Eff} (h : e.Legal)
include h

/-! ### Requests -/

theorem refuse (r : Request) (st : Status) (k : Option Slot) : (e.refuse r st k).Legal := h.beside

theorem ok (r : Request) (res : List Byte) : (e.ok r res).Legal := h.beside

theorem checked {α : Type} (r : Request) (len : Nat) {x : Option α} {f : α → Eff} (hf : ∀ a, x = some a → (f a).Legal) :
    (e.checked r len x f).Legal := by
  unfold Eff.checked
  split
  · split
    · exact hf _ rfl
    · exact h.refuse _ _ _
  · exact h.refuse _ _ _

theorem onHandle (r : Request) (test : Bool) {f : Nat → Eff} (hf : ∀ n, (f n).Legal) : (e.onHandle r test f).Legal := by
  unfold Eff.onHandle
  simp only
  split
  · exact h.refuse _ _ _
  · split
    · exact h.refuse _ _ _
    · split
      · exact h.refuse _ _ _
      · exact hf _

theorem onServing (r : Request) (n : Nat) {f : Eff} (hf : f.Legal) : (e.onServing r n f).Legal := by
  unfold Eff.onServing
  split
  · exact hf
  · exact h.refuse _ _ _

theorem effOpen (d : Defaults) (r : Request) : (effOpen d r e).Legal := by
  refine h.checked _ _ fun f hf => ?_
  obtain ⟨hrec, hc, hl⟩ := parseOpen_some hf
  unfold Eff.open
  split
  · exact h.refuse _ _ _
  · next n hn =>
    obtain ⟨hfree, hlt, _⟩ := allocate_ok hn hrec
    split
    · exact h.refuse _ _ _
    · next hb =>
      have ha := h.acceptOpen d r f hfree hlt hc hl (available_of_firstBusy hb)
      split
      · exact h.refuse _ _ _
      · split
        · exact h.refuse _ _ _
        · split
          · exact h.refuse _ _ _
          · exact ha

theorem effOpenPair (d : Defaults) (r : Request) : (effOpenPair d r e).Legal := by
  refine h.checked _ _ fun f hf => ?_
  obtain ⟨hfx, hfy, hc, hxy⟩ := parsePair_some hf
  unfold Eff.openPair
  split
  · exact h.refuse _ _ _
  · next x y hp =>
    obtain ⟨hx, hy⟩ : e.allocate f.x f.y = .ok x ∧ e.allocate f.y (some x) = .ok y := by
      unfold Eff.allocatePair at hp
      split at hp
      · cases hp
      · next hx =>
        split at hp
        · cases hp
        · next hy => cases hp; exact ⟨hx, hy⟩
    obtain ⟨hfreex, hltx, hnx, hsx⟩ := allocate_ok hx hfx
    obtain ⟨hfreey, hlty, hny, hsy⟩ := allocate_ok hy hfy
    have hne : x ≠ y := by
      rintro rfl
      cases hwy : f.y with
      | none => exact hny hwy rfl
      | some k =>
        cases hwx : f.x with
        | none => exact hnx hwx (by rw [hwy, hsy k hwy])
        | some j =>
          have hjk : j = k := (hsx j hwx).symm.trans (hsy k hwy)
          have := hxy (by rw [hwx, hwy, hjk])
          rw [hwx] at this
          cases this
    split
    · exact h.refuse _ _ _
    · next hb =>
      split
      · exact h.refuse _ _ _
      · split
        · exact h.refuse _ _ _
        · exact h.acceptPair d r f hne hfreex hfreey hltx hlty hc (available_of_firstBusy hb)

theorem effAddLeg (r : Request) : (effAddLeg r e).Legal := by
  refine h.checked _ _ fun k _ => h.onHandle _ _ fun n => h.onServing _ _ ?_
  split
  · exact h.refuse _ _ _
  · split
    · exact h.refuse _ _ _
    · next ha =>
      split
      · exact h.refuse _ _ _
      · exact (h.acceptLeg (by simpa using ha)).ok _ _

theorem dropDisplaced (n : Nat) (k : Slot) (link : Option Nat) : (e.dropDisplaced n k link).Legal := by
  refine Goes.legal (Goes.upd ((Goes.refl e).foldlUpd link.toList (f := fun r => { r with displ := none }) fun r => ?_) (.filterLegs _ _)) h
  exact .of_legs (List.Sublist.refl _) (fun _ hm _ => hm) (hd := fun d hd => by cases hd)

theorem effDropLeg (r : Request) : (effDropLeg r e).Legal := by
  refine h.checked _ _ fun k _ => h.onHandle _ _ fun n => h.onServing _ _ ?_
  split
  · exact h.refuse _ _ _
  · split
    · exact h.refuse _ _ _
    · split
      · exact (h.dropDisplaced _ _ _).ok _ _
      · exact (((Goes.refl e).breakLegs _ _).legal h).ok _ _

theorem effMoveSource (r : Request) : (effMoveSource r e).Legal := by
  refine h.checked _ _ fun src _ => h.onHandle _ _ fun n => h.onServing _ _ ?_
  split
  · exact h.ok _ _
  · split
    · exact h.refuse _ _ _
    · have hg := ((Goes.refl e).leaveFan (e.recOf n).source n).joinFan (some src) n
      have hu := hg.upd (n := n) (f := fun r =>
        { r with source := some src, fault := ((e.leaveFan (e.recOf n).source n).joinFan (some src) n).mgr.faultOf src }) .of_same
      exact (((hu.offerLegs n _ none).raiseOpt n _).legal h).ok _ _

theorem driveRequest (r : Request) (t : Target) (n : Nat) : (e.driveRequest r t n).Legal := by
  unfold Eff.driveRequest
  split
  · next hm =>
    refine (h.driveCircuit n t fun m hmem => ?_).ok _ _
    have := List.all_eq_true.1 hm m hmem
    exact inService_of_serving (of_decide_eq_true this).1
  · exact h.refuse _ _ _

theorem effRelease (r : Request) : (effRelease r e).Legal := by
  refine h.checked _ _ fun c _ => h.onHandle _ _ fun n => ?_
  unfold Eff.releaseRequest
  split
  · exact h.releaseCircuit _ _ _
  · exact h.refuse _ _ _

theorem effTouch (r : Request) : (effTouch r e).Legal := by
  refine h.checked _ _ fun _ _ => h.onHandle _ _ fun n => ?_
  unfold Eff.touch
  simp only
  split
  · exact h.refuse _ _ _
  · split
    · exact h.refuse _ _ _
    · next l _ =>
      exact (((Goes.refl e).foldlUpd (e.members n) (f := fun x => { x with lease := some l, reload := some l }) fun _ => .of_same).legal h).ok _ _

theorem effQuery (r : Request) : (effQuery r e).Legal := by
  refine h.checked _ _ fun x _ => ?_
  obtain ⟨check, settings⟩ := x
  simp only
  split
  · exact h.onHandle _ _ fun n => h.ok _ _
  · split
    · exact h.refuse _ _ _
    · exact h.ok _ _

theorem inService_of_mayEndAccess {n : Nat} (hm : (e.recOf n).mayEndAccess = true) : (e.recOf n).InService := by
  obtain ⟨hc, _⟩ := of_decide_eq_true hm
  exact ⟨(h.test n hc).2, fun _ => hc⟩

theorem effAccessEnd (r : Request) : (effAccessEnd r e).Legal := by
  refine h.checked _ _ fun _ _ => h.onHandle _ _ fun n => ?_
  unfold Eff.accessEnd
  simp only
  split
  · next hm => exact h.endAccess _ _ (h.inService_of_mayEndAccess hm)
  · exact h.refuse _ _ _

omit h in
theorem choose {c : Prop} [Decidable c] {a b : Eff} (ha : a.Legal) (hb : b.Legal) : Eff.Legal (if c then a else b) := by
  split
  · exact ha
  · exact hb

theorem effRequest (d : Defaults) (r : Request) : (effRequest d r e).Legal := by
  have hold : (effHold r e).Legal := h.checked _ _ fun _ _ => h.onHandle _ _ fun n => h.driveRequest _ _ _
  have resume : (effResume r e).Legal := h.checked _ _ fun _ _ => h.onHandle _ _ fun n => h.driveRequest _ _ _
  have fo : (effFindOut r e).Legal := h.checked _ _ fun _ _ => h.ok _ _
  have fi : (effFindIn r e).Legal := h.checked _ _ fun _ _ => h.ok _ _
  unfold Machine.effRequest
  exact choose (h.effOpen _ _) <| choose (h.effOpenPair _ _) <| choose (h.effAddLeg _) <| choose (h.effDropLeg _) <|
    choose (h.effMoveSource _) <| choose hold <| choose resume <| choose (h.effRelease _) <| choose (h.effTouch _) <|
    choose (h.effQuery _) <| choose fo <| choose fi <| choose (h.effAccessEnd _) h

/-! ### Claims from inside the part -/

theorem completeMake (n : Nat) : (e.completeMake n).Legal := by
  unfold Eff.completeMake
  split
  · next hm =>
    have h1 : e.Goes (e.setState n .active) := (Goes.refl e).setState ⟨by simp [hm.1], by simp [hm.1]⟩ (by simp [CircState.made])
    simp only
    split
    · exact Goes.legal ((h1.answerOpen _ _ _).foldl _ fun m _ _ he => he.raiseFault m) h
    · exact h1.legal h
  · exact h

theorem completeDrive (n : Nat) : (e.completeDrive n).Legal := by
  unfold Eff.completeDrive
  split
  · next t _ =>
    split
    · next hs => exact ((Goes.refl e).setState (inService_of_serving hs) (by cases t <;> simp [CircState.made, Target.state])).legal h
    · exact h
  · exact h

theorem completeVerify (n : Nat) : (e.completeVerify n).Legal := by
  unfold Eff.completeVerify
  split
  · next hm =>
    have h1 : e.Goes (e.updRec n fun r => { r with st := .active, target := some .source, verify := none }) :=
      (Goes.refl e).upd (.of_legs (List.Sublist.refl _) (fun _ hl _ => hl) (hs := .inr ⟨⟨by simp [hm.1], by simp [hm.1]⟩, by simp [CircState.made]⟩))
    simp only
    have key : ∀ e' : Eff, e'.Legal → ∀ res, ((e'.answerOpen n .ok res).raiseFault n).Legal :=
      fun e' he res => (((Goes.refl e').answerOpen _ _ _).raiseFault _).legal he
    split
    · exact key _ (freeUnit (h1.legal h) _) _
    · exact key _ (h1.legal h) _
  · exact h

theorem completeTest (n : Nat) : (e.completeTest n).Legal := by
  unfold Eff.completeTest
  split
  · next hm => exact h.freeTest n hm.1 (by simp [hm.2.1])
  · exact h

theorem effReport (r : Report) : (effReport r e).Legal := by
  have hlegs : e.Goes (r.foldl (fun e x => x.2.foldl (fun e o => e.takeOutcome x.1 o) e) e) := by
    refine (Goes.refl e).foldl r fun x _ e' he => he.foldl x.2 fun o _ e' he => ?_
    unfold Eff.takeOutcome
    split
    · exact he.upd (.outcome _ _ _)
    · exact he
  have key : ∀ (f : Eff → Nat → Eff), (∀ (e : Eff) n, e.Legal → (f e n).Legal) → ∀ (named : List Handle) (e : Eff), e.Legal → (e.phase named f).Legal :=
    fun f hf named e he => Eff.Closed.phase e named f hf he
  exact key _ (fun _ n he => he.tryFree n) _ _ (key _ (fun _ n he => he.completeTest n) _ _ (key _ (fun _ n he => he.completeVerify n) _ _
    (key _ (fun _ n he => he.completeDrive n) _ _ (key _ (fun _ n he => he.completeMake n) _ _ (hlegs.legal h)))))

theorem effClearDownEnd (hd : Handle) : (effClearDownEnd hd e).Legal := by
  unfold Machine.effClearDownEnd
  split
  · next hc =>
    have hs := h.members_inService (n := hd.num) ⟨by simp [hc.2], by simp [hc.2]⟩
    refine Goes.legal ((Goes.refl e).foldl _ fun m hm e' he => Goes.breakLegs (he.upd ?_) _ _) h
    exact .of_legs (List.Sublist.refl _) (fun _ hl _ => hl) (hs := .inr ⟨he.inService (hs m hm), by simp [CircState.made]⟩)
  · exact h

theorem effExpiry (hd : Handle) : (effExpiry hd e).Legal := by
  unfold Machine.effExpiry
  split
  · have h1 : Eff.Legal ((e.members hd.num).foldl (fun e m => e.raiseOn m .expired) e) :=
      Goes.legal ((Goes.refl e).foldl _ fun m _ _ he => he.beside) h
    simp only
    split
    · next hc => exact h1.endAccess _ _ ⟨(h1.test _ hc).2, fun _ => hc⟩
    · exact h1.releaseCircuit _ _ _
  · exact h

theorem effOutcome (o : OutcomeClaim) : (effOutcome o e).Legal := by
  unfold Machine.effOutcome
  split
  · next hv =>
    simp only [Eff.outcomeValid, Bool.and_eq_true, decide_eq_true_eq] at hv
    split
    · next k _ =>
      have h1 := (Goes.refl e).upd (n := o.h.num) (f := fun r => { r with roundTrip := some k, target := some .source }) .of_same
      exact (h1.offerLegs _ _ _).legal h
    · exact h.endVerifying _ _ _ hv.2.1
    · exact h.endVerifying _ _ _ hv.2.1
  · exact h

theorem effLane (r : LaneReport) : (effLane r e).Legal := by
  have h1 : Eff.Legal { e with mgr := { e.mgr with view := setView e.mgr.view r.lane r.st } } := h.beside
  unfold Machine.effLane
  simp only
  split
  · exact h1
  · refine Goes.legal ((Goes.refl _).foldl _ fun n _ e' he => ?_) h1
    exact (he.upd (n := n) (f := fun r' => { r' with fault := !decide (r.st = .up) }) .of_same).raiseOpt n _

theorem makeAccess (d : Defaults) (a : AccessRequest) {t : Nat} (ht : 480 ≤ t) (hf : (e.recOf t).st = .free)
    (ho : ∀ o, e.mgr.holder a.loop = some o → (e.recOf o).cls ≠ .test ∧ (e.recOf o).st ≠ .free) : (e.makeAccess d a t).Legal := by
  have hdispl : ∀ x, (e.mgr.holder a.loop).map (fun o => (o, a.loop)) = some x → x.1 < 480 := by
    intro x hx
    obtain ⟨o, ho', rfl⟩ := Option.map_eq_some_iff.1 hx
    obtain ⟨hc, hfo⟩ := ho o ho'
    exact Nat.lt_of_not_le fun hle => hc (h.pool o hle hfo)
  unfold Eff.makeAccess
  simp only
  generalize hz : e.updRec t (testRecord d e.mgr a ((e.mgr.holder a.loop).map fun o => (o, a.loop))) = z
  have hl : z.Legal := by
    rw [← hz]
    exact h.opens hf (testRecord_opens _ _ _ _ ht hdispl) rfl
  have hj : z.Goes ((z.raiseOn t .created).joinFan (some (.inbound a.target)) t) := (Goes.refl z).beside.joinFan _ _
  cases hh : e.mgr.holder a.loop with
  | none => exact hj.beside.legal hl
  | some o =>
    obtain ⟨hc, hfo⟩ := ho o hh
    have hot : o ≠ t := fun he => hfo (he ▸ hf)
    have hzo : ((z.raiseOn t .created).joinFan (some (.inbound a.target)) t).recOf o = e.recOf o := by
      rw [recOf_joinFan, recOf_raiseOn, ← hz, recOf_updRec, if_neg hot]
    have hd := hj.upd (n := o) (f := fun r => r.updLeg a.loop fun l => { l with st := .displaced, link := some t })
      (.displaceLeg _ _ (by rw [hzo]; exact hc) (by rw [hzo]; exact hfo) ht)
    exact hd.beside.legal hl

theorem effAccess (d : Defaults) (a : AccessRequest) : (effAccess d a e).Legal := by
  unfold Machine.effAccess
  split
  · next hc =>
    split
    · next t ht =>
      obtain ⟨hf, hle, _⟩ := lowestFree_some ht
      simp only [Bool.and_eq_true] at hc
      refine h.makeAccess d a hle hf fun o ho => ?_
      have hl := hc.1.2
      unfold Manager.loopFree at hl
      rw [ho] at hl
      simp only [Manager.displaceable, Bool.and_eq_true, decide_eq_true_eq] at hl
      obtain ⟨⟨hn, hst⟩, _⟩ := hl
      refine ⟨by rw [show e.recOf o = e.mgr.recOf o from rfl, hn]; simp, ?_⟩
      rcases hst with hst | hst <;> rw [show e.recOf o = e.mgr.recOf o from rfl, hst] <;> simp
    · exact h.beside
  · exact h.beside

theorem effAction (d : Defaults) (a : ActionClaim) : (effAction d a e).Legal := by
  cases a with
  | releaseLinked w hd => exact choose (h.releaseCircuit _ _ _) h.beside
  | holdLinked w hd c =>
    show (effHoldLinked w hd c e).Legal
    unfold effHoldLinked
    simp only
    generalize (if c = true then Target.hold else Target.source) = t
    split
    · next hm =>
      refine h.driveCircuit _ _ fun m hmem => ?_
      have := List.all_eq_true.1 (Bool.and_eq_true_iff.1 hm).2 m hmem
      exact inService_of_serving (of_decide_eq_true this).1
    · exact h.beside
  | suppression w => exact h.beside
  | access a => exact h.effAccess d a
  | endOfAccess w hd =>
    show (effEndOfAccess w hd e).Legal
    unfold effEndOfAccess
    split
    · split
      · next hm => exact h.endAccess _ _ (h.inService_of_mayEndAccess (Bool.and_eq_true_iff.1 hm).2)
      · exact h.beside
    · exact h.beside

/-- Every claim keeps the circuit table consistent. -/
theorem effect (d : Defaults) (c : Claim) : (effect d c e).Legal := by
  cases c with
  | request r => exact h.effRequest d r
  | report r => exact h.effReport r
  | clearDownEnd hd => exact h.effClearDownEnd hd
  | expiry hd => exact h.effExpiry hd
  | outcome o => exact h.effOutcome o
  | action a => exact h.effAction d a
  | lane r => exact h.effLane r

end Eff.Legal
end Sys2Proof.Machine

/-! SUPPORT. What every step keeps: the claims, committed and waiting, and the commands one by one. -/

namespace Sys2Proof.Machine

set_option Elab.async false

/-! ### The tables under a claim (log 32) -/

/-- The tables that a claim writes are canonical. -/
structure Eff.Canonical (e : Eff) : Prop where
  recs : Tbl.wf (Rec.free 0) e.mgr.recs = true
  fan : Tbl.wf [] e.mgr.fan = true
  view : Tbl.wf .lost e.mgr.view = true
  ver : e.ver.Canonical
  wat : e.wat.Canonical
  port : e.port.Canonical

theorem Eff.canonical_closed : Eff.Closed Eff.Canonical where
  updRec _ _ _ _ h := { h with recs := Tbl.wf_upd _ _ _ _ h.recs }
  free e n h := { h with recs := Tbl.wf_upd (Rec.free 0) e.mgr.recs n (fun r => Rec.free (r.gen + 1)) h.recs }
  answer _ _ _ _ _ h := { h with port := h.port.answer _ _ _ _ }
  raise _ _ h := { h with }
  addEntry _ _ _ _ h := { h with }
  fan _ _ _ h := { h with fan := Tbl.wf_upd _ _ _ _ h.fan }
  wait _ _ h := { h with }
  view _ _ _ h := { h with view := Tbl.wf_set _ _ _ _ h.view }
  unit _ _ _ h := { h with ver := h.ver.setUnit _ _ }
  outcomes _ _ h := { h with ver := h.ver.withOutcomes _ }
  run _ _ _ h := { h with wat := ⟨Tbl.wf_set _ _ _ _ h.wat.table, h.wat.view⟩ }
  orders _ _ h := { h with wat := ⟨h.wat.table, h.wat.view⟩ }
  order _ _ h := { h with }

/-- The circuit table is read from the records and the wait list alone. -/
theorem Manager.Legal.of_same {m m' : Manager} (h : m.Legal) (hr : m'.recs = m.recs := by rfl) (hw : m'.wait = m.wait := by rfl) : m'.Legal := by
  obtain ⟨recs, fan, wait, view, held, resets⟩ := m
  obtain ⟨recs', fan', wait', view', held', resets'⟩ := m'
  subst hr
  subst hw
  exact { h with }

/-! ### Whole-table changes of the records -/

/-- A lease event changes nothing of a record but its lease (05 R103). -/
theorem leaseTick_eq (r : Rec) : r.leaseTick = { r with lease := r.leaseTick.lease } := by
  unfold Rec.leaseTick
  split <;> rfl

theorem Manager.Legal.leaseTick {m : Manager} (h : m.Legal) (hw : Tbl.wf (Rec.free 0) m.recs = true) :
    ({ m with recs := Tbl.mapAll (Rec.free 0) (fun _ r => r.leaseTick) m.recs } : Manager).Legal := by
  generalize hm : ({ m with recs := Tbl.mapAll (Rec.free 0) (fun _ r => r.leaseTick) m.recs } : Manager) = m'
  have hwait : m'.wait = m.wait := by rw [← hm]
  have hrec (n : Nat) : m'.recOf n = { m.recOf n with lease := (m.recOf n).leaseTick.lease } := by
    rw [← leaseTick_eq, ← hm]
    exact Tbl.get_mapAll (Rec.free 0) (fun _ r => r.leaseTick) m.recs n (fun _ => rfl) hw
  constructor <;> simp only [hrec, hwait]
  case partner => exact h.partner
  case slots => exact h.slots
  case displaced => exact h.displaced
  case displ => exact h.displ
  case pool => exact h.pool
  case test => exact h.test
  case waiting => exact h.waiting
  case once => exact h.once

/-- A manager whose records are all FREE, with no circuit on its wait list. -/
theorem Manager.Legal.of_free {m : Manager} (hr : ∀ n, ∃ g, m.recOf n = Rec.free g) (hw : m.wait = []) : m.Legal := by
  choose g hg using hr
  constructor <;> simp [hg, hw, Rec.free]

/-- The numbers of a table made from a list of numbers rising. -/
theorem wf_filterMap_pairs {α : Type} [DecidableEq α] (d : α) (f : Nat → α) (l : List Nat) (hl : l.Pairwise (· < ·)) :
    Tbl.wf d (l.filterMap fun n => if f n = d then none else some (n, f n)) = true := by
  induction l with
  | nil => rfl
  | cons n l ih =>
    obtain ⟨hn, hl⟩ := List.pairwise_cons.1 hl
    rw [List.filterMap_cons]
    split
    · exact ih hl
    · next x hx =>
      split at hx
      · cases hx
      · next hd =>
        cases hx
        refine (Tbl.wf_cons _ _ _ _).2 ⟨hd, fun e he => ?_, ih hl⟩
        obtain ⟨k, hk, hke⟩ := List.mem_filterMap.1 he
        split at hke
        · cases hke
        · cases hke; exact hn k hk

/-- What a table made from a list of numbers holds. -/
theorem get_filterMap_pairs {α : Type} [DecidableEq α] (d : α) (f : Nat → α) (l : List Nat) (k : Nat) :
    Tbl.get d (l.filterMap fun n => if f n = d then none else some (n, f n)) k = if k ∈ l then f k else d := by
  induction l with
  | nil => rfl
  | cons n l ih =>
    rw [List.filterMap_cons]
    by_cases hk : k = n
    · subst hk
      by_cases hd : f k = d
      · simp only [hd, if_true, ih, List.mem_cons, true_or]
        split <;> rfl
      · simp [hd, Tbl.get]
    · by_cases hd : f n = d
      · simp only [hd, if_true, ih, List.mem_cons, hk, false_or]
      · simp only [hd, if_false, Tbl.get, hk, ih, List.mem_cons, false_or]

theorem wf_freedRecords (m : Manager) : Tbl.wf (Rec.free 0) (freedRecords m) = true :=
  wf_filterMap_pairs _ (fun n => Rec.free ((m.recOf n).gen + 1)) _ List.pairwise_lt_range

/-- The soft reset claim frees every record and steps its generation (01 R22). -/
theorem get_freedRecords (m : Manager) (n : Nat) :
    Tbl.get (Rec.free 0) (freedRecords m) n = if n < 512 then Rec.free ((m.recOf n).gen + 1) else Rec.free 0 := by
  refine (get_filterMap_pairs (Rec.free 0) (fun n => Rec.free ((m.recOf n).gen + 1)) (List.range Config.records) n).trans ?_
  simp only [List.mem_range, Config.records]

theorem recOf_softReset (m : Manager) (n : Nat) :
    m.softReset.recOf n = if n < 512 then Rec.free ((m.recOf n).gen + 1) else Rec.free 0 := by
  rw [← get_freedRecords]
  simp only [Manager.recOf, Manager.softReset]

theorem Manager.softReset_legal (m : Manager) : m.softReset.Legal := by
  have hw : m.softReset.wait = [] := by simp only [Manager.softReset]
  refine .of_free (fun n => ?_) hw
  rw [recOf_softReset]
  split <;> exact ⟨_, rfl⟩

namespace State.Tidy

variable {s : State} (h : s.Tidy)
include h

/-! ### Claims -/

theorem start : (Eff.start s).Canonical ∧ (Eff.start s).Legal := ⟨⟨h.recs, h.fan, h.view, h.ver, h.wat, h.port⟩, h.legal⟩

/-- A claim's changes are made. -/
theorem commit {e : Eff} (hc : e.Canonical) (hl : e.Legal) (offer : List Entry) (order : Option ClearCount) : (e.commit offer order s).Tidy where
  recs := hc.recs
  fan := hc.fan
  view := hc.view
  map := h.map
  gens := h.gens
  units := hc.ver.units
  verView := hc.ver.view
  lanes := h.lanes
  watchers := hc.wat.table
  watView := hc.wat.view
  flags := by rw [show (e.commit offer order s).att = s.att.hand .manager e.raise from rfl, hand_flags]; exact h.flags
  slots := hc.port
  legal := hl

theorem withManager {m : Manager} {w : Switch} {v : Verifier} {p : Port} (hr : Tbl.wf (Rec.free 0) m.recs = true) (hf : Tbl.wf [] m.fan = true)
    (hv : m.view = s.mgr.view) (hl : m.Legal) (hw : w.map = s.sw.map) (hver : v.Canonical) (hp : p.Canonical) :
    ({ s with mgr := m, sw := w, ver := v, port := p } : State).Tidy :=
  { h with
    recs := hr, fan := hf, view := by rw [hv]; exact h.view, map := by rw [hw]; exact h.map, units := hver.units, verView := hver.view
    slots := hp, legal := hl }

theorem withHeld (hd : Option Held) {w : Switch} (hw : w.map = s.sw.map) : ({ s with mgr := { s.mgr with held := hd }, sw := w } : State).Tidy :=
  h.withManager h.recs h.fan rfl h.legal.of_same hw h.ver h.port

theorem effect_commit (d : Defaults) (c : Claim) (offer : List Entry) (order : Option ClearCount) :
    ((effect d c (Eff.start s)).commit offer order s).Tidy :=
  h.commit (Eff.canonical_closed.effect d c _ h.start.1) (h.start.2.effect d c) _ _

/-- A claim is taken, with its changes made or its offer kept (03 R69). -/
theorem takeClaim (c : Claim) : (s.takeClaim c).Tidy := by
  obtain ⟨e, rfl, _, he⟩ | ⟨e, _, _, he⟩ := takeClaim_cases s c
  · rw [he]
    exact h.effect_commit _ _ _ _
  · rw [he]
    exact h.withHeld _ rfl

theorem managerRequest (kind : Byte) : (s.managerRequest kind).Tidy := by
  unfold State.managerRequest
  split
  · split
    · next ht => exact (h.withPort (h.port.takeRequest ht)).takeClaim _
    · exact h
  · exact h

theorem claimReport : s.claimReport.Tidy := by
  unfold State.claimReport
  split
  · next r rest _ _ => exact (h.withSwitch (w := { s.sw with reports := rest }) rfl).takeClaim _
  · exact h

theorem claimClearDownEnd : s.claimClearDownEnd.Tidy := by
  unfold State.claimClearDownEnd
  split
  · next hd rest _ _ => exact (h.withSwitch (w := { s.sw with ends := rest }) rfl).takeClaim _
  · exact h

theorem withLease (l : LeaseClock) : ({ s with lease := l } : State).Tidy := { h with }

theorem claimExpiry : s.claimExpiry.Tidy := by
  unfold State.claimExpiry
  split
  · exact (h.withLease _).takeClaim _
  · exact h

theorem claimOutcome (b : Bool) : (s.claimOutcome b).Tidy := by
  unfold State.claimOutcome
  split
  · split
    · exact (h.withVer (h.ver.withOutcomes _)).takeClaim _
    · exact h
  · exact h

theorem claimAction (p : ActionClaim → Bool) : (s.claimAction p).Tidy := by
  unfold State.claimAction
  split
  · next a rest _ _ =>
    split
    · exact (h.withWat (u := { s.wat with claims := rest }) ⟨h.watchers, h.watView⟩).takeClaim _
    · exact h
  · exact h

theorem claimLane (l : Fin 16) : (s.claimLane l).Tidy := by
  unfold State.claimLane
  split
  · split
    · next r rest _ => exact (h.withSup (u := { s.sup with toManager := rest }) h.lanes).takeClaim _
    · exact h
  · exact h

/-- The held claim is taken, or refused on its second judgement (03 R69, 08 R152). -/
theorem takeHeld : s.takeHeld.Tidy := by
  unfold State.takeHeld
  split
  · split
    · have h1 := h.withHeld none (w := { s.sw with kept := none }) rfl
      simp only
      split
      · split
        · exact h1.effect_commit _ _ _ _
        · exact h1.hand _ _
      · exact h1.effect_commit _ _ _ _
    · exact h
  · exact h

/-! ### The lease clock and the soft reset -/

theorem leaseEvent : s.leaseEvent.Tidy := by
  unfold State.leaseEvent
  refine withLease (s := { s with mgr := { s.mgr with recs := Tbl.mapAll (Rec.free 0) (fun _ r => r.leaseTick) s.mgr.recs } }) ?_ _
  exact h.withManager (m := { s.mgr with recs := Tbl.mapAll (Rec.free 0) (fun _ r => r.leaseTick) s.mgr.recs })
    (Tbl.wf_mapAll (Rec.free 0) (fun _ r => r.leaseTick) _ h.recs) h.fan rfl (h.legal.leaseTick h.recs) (w := s.sw) rfl h.ver h.port

theorem softResetClaim : s.softResetClaim.Tidy := by
  unfold State.softResetClaim
  split
  · have hr : Tbl.wf (Rec.free 0) s.mgr.softReset.recs = true := by simp only [Manager.softReset, wf_freedRecords]
    have hf : Tbl.wf [] s.mgr.softReset.fan = true := by simp only [Manager.softReset, Tbl.wf]
    have hv : s.mgr.softReset.view = s.mgr.view := by simp only [Manager.softReset]
    exact h.withManager hr hf hv s.mgr.softReset_legal (by simp only [Switch.takeClearance])
      (h.ver.withUnits (Tbl.wf_mapAll VerifyUnit.idle (fun _ x => x.reset) _ h.units)) h.port
  · exact h

theorem clearanceOrder : s.clearanceOrder.Tidy := by
  unfold State.clearanceOrder
  split
  · exact h
  · next id rest _ =>
    have h1 := (h.withPort (p := { s.port with toSwitch := rest }) h.slots).takeHeld
    exact h1.withHeld none rfl

/-! ### Boundaries -/

theorem boundary (rx : FrameIn) (bits t : Nat) : (s.boundary rx bits t).Tidy := ((h.takeHeld.endFrame rx bits).switchBoundary).startFrame t

theorem enterLocked : s.enterLocked.Tidy := (h.withSwitch (w := { s.sw with locked := true, run := 0, cand := none }) rfl).raiseDevice _

theorem fsyncFreerun (t : Nat) (rx : FrameIn) : (s.fsyncFreerun t rx).Tidy := by
  unfold State.fsyncFreerun
  split
  · exact h
  · split
    · unfold State.relock
      simp only
      split
      · exact h.enterLocked
      · exact h.enterLocked.boundary _ _ _
    · exact h.withSwitch rfl

theorem fsyncInLocked (t : Nat) : (if s.sw.locked then { s with sw := s.sw.fsyncLocked t } else s : State).Tidy := by
  split
  · refine h.withSwitch ?_
    unfold Switch.fsyncLocked
    split
    · rfl
    · split <;> rfl
  · exact h

theorem runOut : ({ s with sw := s.sw.runOut } : State).Tidy := by
  refine h.withSwitch ?_
  unfold Switch.runOut
  split <;> rfl

end State.Tidy

/-! ### The commands -/

theorem tidy_reset : State.reset.Tidy where
  recs := rfl
  fan := rfl
  view := rfl
  map := rfl
  gens := rfl
  units := rfl
  verView := rfl
  lanes := rfl
  watchers := rfl
  watView := rfl
  flags := rfl
  slots := rfl
  legal := .of_free (fun _ => ⟨0, rfl⟩) rfl

namespace State.Tidy

variable {s : State} (h : s.Tidy)
include h

/-- The phase, the pin and the queue of commands are no table's. -/
theorem withOutside (q : List Instr) (p : Phase) (b : Bool) : ({ s with pending := q, phase := p, oeHigh := b } : State).Tidy := { h with }

theorem softReset : (s.ownerTakes .engine 0x3F 0 fun r s => { s with port := s.port.softReset r }).Tidy :=
  h.ownerTakes _ _ _ fun r _ ht => ht.withPort (ht.port.softReset r)

theorem readSlot (n : Fin 4) (mosi : List Byte) :
    (s.transact mosi (readBytes (s.port.slot n).response mosi) fun s => match mosi with
      | [] => s
      | off :: _ => if off.toNat < 32 then s else s.badTransaction).Tidy := by
  refine h.transact _ _ fun t ht => ?_
  split
  · exact ht
  · split
    · exact ht
    · exact ht.setFaults _

theorem writeTransaction (n : Fin 4) (mosi : List Byte) :
    (s.transact mosi [] fun s => match mosi with
      | [] => s
      | off :: data => s.writeSlot n off.toNat data).Tidy := by
  refine h.transact _ _ fun t ht => ?_
  split
  · exact ht
  · exact ht.writeSlot _ _ _

theorem choose {c : Prop} [Decidable c] {t : State} (ht : t.Tidy) : (if c then s else t).Tidy := by
  split
  · exact h
  · exact ht

/-- Every command has a next state, and it is tidy. -/
theorem exec (i : Instr) : ∃ t, exec i s = .next t ∧ t.Tidy := by
  cases i with
  | readStatus mosi => exact ⟨_, rfl, h.choose (h.send _ _)⟩
  | writeSlot n mosi => exact ⟨_, rfl, h.writeTransaction n mosi⟩
  | readSlot n mosi => exact ⟨_, rfl, h.readSlot n mosi⟩
  | submit n mosi => exact ⟨_, rfl, h.transact _ _ fun _ ht => ht.submitSlot n⟩
  | clearSlot n mosi => exact ⟨_, rfl, h.transact _ _ fun _ ht => ht.emptySlot n⟩
  | clearPortFaults mosi => exact ⟨_, rfl, h.transact _ _ fun _ ht => ht.setFaults _⟩
  | unknownTransactionCode code mosi => exact ⟨_, rfl, h.choose (h.transact _ _ fun _ ht => ht.setFaults _)⟩
  | openCircuit => exact ⟨_, rfl, h.managerRequest _⟩
  | openPair => exact ⟨_, rfl, h.managerRequest _⟩
  | addLeg => exact ⟨_, rfl, h.managerRequest _⟩
  | dropLeg => exact ⟨_, rfl, h.managerRequest _⟩
  | moveSource => exact ⟨_, rfl, h.managerRequest _⟩
  | hold => exact ⟨_, rfl, h.managerRequest _⟩
  | resume => exact ⟨_, rfl, h.managerRequest _⟩
  | release => exact ⟨_, rfl, h.managerRequest _⟩
  | touch => exact ⟨_, rfl, h.managerRequest _⟩
  | query => exact ⟨_, rfl, h.managerRequest _⟩
  | findOut => exact ⟨_, rfl, h.managerRequest _⟩
  | findIn => exact ⟨_, rfl, h.managerRequest _⟩
  | accessEnd => exact ⟨_, rfl, h.managerRequest _⟩
  | genSet => exact ⟨_, rfl, h.ownerTakes _ _ _ fun r _ ht => ht.genSet r⟩
  | laneSet => exact ⟨_, rfl, h.ownerTakes _ _ _ fun r _ ht => ht.laneSet r⟩
  | laneQuery => exact ⟨_, rfl, h.ownerTakes _ _ _ fun r _ ht => ht.laneQuery r⟩
  | watchSet => exact ⟨_, rfl, h.ownerTakes _ _ _ fun r _ ht => ht.watchSet r⟩
  | watchArm => exact ⟨_, rfl, h.ownerTakes _ _ _ fun r _ ht => ht.watchArm r⟩
  | watchDisarm => exact ⟨_, rfl, h.ownerTakes _ _ _ fun r _ ht => ht.watchDisarm r⟩
  | watchQuery => exact ⟨_, rfl, h.ownerTakes _ _ _ fun r _ ht => ht.watchQuery r⟩
  | collect => exact ⟨_, rfl, h.ownerTakes _ _ _ fun r _ ht => ht.collect r⟩
  | maskSet => exact ⟨_, rfl, h.ownerTakes _ _ _ fun r _ ht => ht.maskSet r⟩
  | config => exact ⟨_, rfl, h.ownerTakes _ _ _ fun r _ ht => ht.configure r⟩
  | ident => exact ⟨_, rfl, h.ownerTakes _ _ _ fun r _ ht => ht.answerRequest r _ _⟩
  | softReset => exact ⟨_, rfl, h.softReset⟩
  | heldClaimTaken => exact ⟨_, rfl, h.whenRunning h.takeHeld⟩
  | hardReset => exact ⟨_, rfl, tidy_reset.withOutside _ _ _⟩
  | tinitEnd => exact ⟨_, rfl, choose ((h.withLease { s.lease with nextAt := Config.secondPeriods }).withOutside s.pending .run s.oeHigh) h⟩
  | oeNChange high => exact ⟨_, rfl, h.withOutside s.pending s.phase high⟩
  | fsyncInLocked t => exact ⟨_, rfl, h.whenRunning (h.fsyncInLocked t)⟩
  | fsyncMissed => exact ⟨_, rfl, h.whenRunning h.fsyncMissed⟩
  | fsyncInFreerun t rx => exact ⟨_, rfl, h.whenRunning (h.fsyncFreerun t rx)⟩
  | candidatePositionPassed => exact ⟨_, rfl, h.whenRunning h.candidatePassed⟩
  | frameBoundary rx => exact ⟨_, rfl, h.whenRunning (h.boundary _ _ _)⟩
  | clearDownRunOut => exact ⟨_, rfl, h.whenRunning h.runOut⟩
  | clearanceOrder => exact ⟨_, rfl, h.whenRunning h.clearanceOrder⟩
  | boundaryReport => exact ⟨_, rfl, h.claimReport⟩
  | tokenNotice u b => exact ⟨_, rfl, h.whenRunning (h.takeNotice u b)⟩
  | clearDownEnd => exact ⟨_, rfl, h.claimClearDownEnd⟩
  | laneFrameJudgement l => exact ⟨_, rfl, h.whenRunning (h.judgeLane l)⟩
  | laneChangeClaim l => exact ⟨_, rfl, h.claimLane l⟩
  | watcherLaneChangeReport l => exact ⟨_, rfl, h.whenRunning (h.watcherLane l)⟩
  | verifierLaneChangeReport l => exact ⟨_, rfl, h.whenRunning (h.verifierLane l)⟩
  | leaseEvent => exact ⟨_, rfl, h.whenRunning h.leaseEvent⟩
  | expiryClaim => exact ⟨_, rfl, h.claimExpiry⟩
  | tokenFrameEnd u => exact ⟨_, rfl, h.whenRunning (h.tokenFrameEnd u)⟩
  | verifyTimeout u => exact ⟨_, rfl, h.whenRunning (h.verifyTimeout u)⟩
  | detectedOutcome => exact ⟨_, rfl, h.claimOutcome true⟩
  | verifyFailureOutcome => exact ⟨_, rfl, h.claimOutcome false⟩
  | watcherSample w => exact ⟨_, rfl, h.whenRunning (h.sampleWatcher _)⟩
  | intervalEnd w => exact ⟨_, rfl, h.whenRunning (h.endInterval _)⟩
  | releaseLinkedClaim => exact ⟨_, rfl, h.claimAction _⟩
  | holdLinkedClaim => exact ⟨_, rfl, h.claimAction _⟩
  | suppressionClaim => exact ⟨_, rfl, h.claimAction _⟩
  | accessClaim => exact ⟨_, rfl, h.claimAction _⟩
  | endOfAccessClaim => exact ⟨_, rfl, h.claimAction _⟩
  | armingOrder => exact ⟨_, rfl, h.whenRunning h.takeArm⟩
  | disarmingOrder => exact ⟨_, rfl, h.whenRunning h.takeDisarm⟩
  | returnOrder => exact ⟨_, rfl, h.whenRunning h.takeReturn⟩
  | softResetClaim => exact ⟨_, rfl, h.softResetClaim⟩
  | watcherSoftResetOrder => exact ⟨_, rfl, h.whenRunning h.watcherReset⟩
  | attentionSoftResetOrder => exact ⟨_, rfl, h.whenRunning h.attentionReset⟩
  | softResetAcknowledgement b => exact ⟨_, rfl, h.whenRunning (h.withPort (h.port.takeAck b))⟩
  | clearanceDoneReport => exact ⟨_, rfl, h.whenRunning h.takeCleared⟩
  | attentionRaise b => exact ⟨_, rfl, h.whenRunning (h.takeRaise b)⟩
  | rstNRelease => exact ⟨_, rfl, choose (h.withOutside s.pending .init s.oeHigh) h⟩

/-- Every step has a next state, and it is tidy. -/
theorem step : ∃ t, Machine.step s = .next t ∧ t.Tidy := by
  cases hp : s.pending with
  | nil => exact ⟨s, step_nil hp, h⟩
  | cons c rest => rw [step_cons hp]; exact (h.withOutside rest s.phase s.oeHigh).exec c

end State.Tidy

/-- Settles O58: canonical tables and a consistent circuit table are kept together, command by command; the circuit claims keep both because
each of the changes they are built from does. -/
theorem stepsKeepCircuitsLegal : Obligations.StepsKeepCircuitsLegal := by
  intro s t hs hstep
  obtain ⟨t', ht', htidy⟩ := ((tidy_iff s).2 hs).step
  rw [ht'] at hstep
  cases hstep
  exact (tidy_iff t).1 htidy

end Sys2Proof.Machine

/-! SUPPORT. The soft reset claim (01 R22, 04 R89), and the checks of the requests that name a circuit by its handle (01 R10, 03 R43). -/

namespace Sys2Proof.Machine

set_option Elab.async false

/-! ### The soft reset claim -/

/-- The manager takes the soft reset order at the head of its queue. -/
theorem softResetClaim_ready {s : State} {id : Nat} {rest : List Nat} (hr : s.Ready) (h : s.port.toManager = id :: rest) :
    s.softResetClaim = { s with
      mgr := s.mgr.softReset
      ver := { s.ver with units := Tbl.mapAll VerifyUnit.idle (fun _ x => x.reset) s.ver.units }
      sw := s.sw.takeClearance (.manager id)
      port := { s.port with toManager := rest, acks := s.port.acks ++ [(.manager, id)] } } := by
  simp [State.softResetClaim, State.managerFree, State.running, hr.run, hr.free, h]

/-- A clearance order with no clear-down count run out hands no clear-down end (05 R97). -/
theorem takeClearance_running {w : Switch} (n : ClearanceName) (h : ∀ x ∈ w.counts, x.started = true → x.done < x.n) :
    w.takeClearance n = { w with list := [], kept := none, counts := [], clearance := w.clearance ++ [n] } := by
  have hf : w.counts.filter ClearCount.over = [] := by
    refine List.filter_eq_nil_iff.2 fun x hx ho => ?_
    simp only [ClearCount.over, Bool.and_eq_true, decide_eq_true_eq] at ho
    exact absurd (h x hx ho.1) (Nat.not_lt.2 ho.2)
  simp only [Switch.takeClearance, hf, List.map_nil, List.append_nil]

/-- The units are IDLE after the soft reset claim, each with the byte it presents (04 R89). -/
theorem unit_reset {t : Tbl VerifyUnit} (hw : Tbl.wf VerifyUnit.idle t = true) (u : Nat) :
    Tbl.get VerifyUnit.idle (Tbl.mapAll VerifyUnit.idle (fun _ x => x.reset) t) u =
      { VerifyUnit.idle with shown := (Tbl.get VerifyUnit.idle t u).shown } :=
  Tbl.get_mapAll VerifyUnit.idle (fun _ x => x.reset) t u (fun _ => rfl) hw

/-- Settles O51: the claim writes each part once, and a clearance with no count run out hands no end. -/
theorem softResetClaimFreesEveryRecord : Obligations.SoftResetClaimFreesEveryRecord := by
  intro s id rest hr hm hw hc
  refine ⟨_, congrArg Host.Outcome.next (softResetClaim_ready hr hm), ?_, fun n hn => ?_, fun u => unit_reset hw u⟩
  · rw [takeClearance_running _ hc]
    simp only [Manager.softReset, hr.free]
  · exact (recOf_softReset s.mgr n).trans (if_pos hn)

/-! ### The checks of a handle (01 R10, 03 R43) -/

theorem not_records_le {n : Nat} (h : n ≤ 511) : ¬Config.records ≤ n := Nat.not_le.2 (Nat.lt_succ_of_le h)

section Handle
variable {e : Eff} {r : Request} {test : Bool} {f : Nat → Eff}

/-- A record number above 511. -/
theorem onHandle_badField (h : 511 < r.handle.num) : e.onHandle r test f = e.refuse r .badField none := by
  unfold Eff.onHandle
  exact if_pos h

/-- A generation that is not the record's. -/
theorem onHandle_stale (hn : r.handle.num ≤ 511) (hg : (e.recOf r.handle.num).gen ≠ r.handle.gen) :
    e.onHandle r test f = e.refuse r .staleHandle none := by
  unfold Eff.onHandle
  exact (if_neg (not_records_le hn)).trans (if_pos hg)

/-- A TEST circuit, for a request that may not name one. -/
theorem onHandle_test (hn : r.handle.num ≤ 511) (hg : (e.recOf r.handle.num).gen = r.handle.gen) (hc : (e.recOf r.handle.num).cls = .test) :
    e.onHandle r false f = e.refuse r .notPermitted none := by
  unfold Eff.onHandle
  exact (if_neg (not_records_le hn)).trans ((if_neg (not_not.2 hg)).trans (if_pos (by simp [hc])))

end Handle

/-! ### The requests that name a circuit by its handle -/

/-- The command of each such request, its kind and length, and whether it may name a TEST circuit. -/
def handleRequests : List (Instr × Byte × Nat × Bool) :=
  [(.addLeg, 0x03, 6, false), (.dropLeg, 0x04, 6, false), (.moveSource, 0x05, 6, false), (.hold, 0x06, 4, false), (.resume, 0x07, 4, false),
    (.release, 0x08, 5, false), (.touch, 0x09, 6, true), (.query, 0x0A, 6, true), (.accessEnd, 0x0D, 4, true)]

/-- The fields of such a request, the handle apart, are in range. -/
structure Request.InRange (r : Request) (kind : Byte) : Prop where
  slot : kind = 0x03 ∨ kind = 0x04 → (parseSlot r.msg 8).isSome = true
  source : kind = 0x05 → (parseSource r.msg 8).isSome = true
  clear : kind = 0x08 → (byteAt r.msg 8).toNat ≤ 200 ∨ byteAt r.msg 8 = 0xFF
  query : kind = 0x0A → byteAt r.msg 8 = 1 ∧ (byteAt r.msg 9).toNat < 2

/-- The clear-down of a RELEASE in range (05 R91). -/
theorem parseReleaseClear_isSome {m : List Byte} (h : (byteAt m 8).toNat ≤ 200 ∨ byteAt m 8 = 0xFF) : ∃ c, parseReleaseClear m = some c := by
  unfold parseReleaseClear
  rcases h with h | h
  · exact ⟨some (byteAt m 8).toNat, by simp only; rw [if_neg (by omega), if_pos h]⟩
  · exact ⟨none, by simp [h]⟩

/-- The clear-down of a RELEASE out of range (05 R91). -/
theorem parseReleaseClear_none {m : List Byte} (h1 : 200 < (byteAt m 8).toNat) (h2 : (byteAt m 8).toNat < 255) : parseReleaseClear m = none := by
  unfold parseReleaseClear
  simp only
  rw [if_neg (by omega), if_neg (by omega)]

/-- A flag byte is 00h or 01h. -/
theorem parseFlag_none {b : Byte} (h : 1 < b.toNat) : parseFlag b = none := by
  unfold parseFlag
  rw [if_neg (by rintro rfl; simp at h), if_neg (by rintro rfl; simp at h)]

theorem parseFlag_isSome {b : Byte} (h : b.toNat < 2) : ∃ x, parseFlag b = some x := by
  unfold parseFlag
  split
  · exact ⟨_, rfl⟩
  · next h0 =>
    refine ⟨true, if_pos (BitVec.eq_of_toNat_eq ?_)⟩
    have : b.toNat ≠ 0 := fun hb => h0 (BitVec.eq_of_toNat_eq (by simpa using hb))
    show b.toNat = 1
    omega

theorem parseQuery_check {m : List Byte} (h8 : byteAt m 8 = 1) (h9 : (byteAt m 9).toNat < 2) : ∃ v, parseQuery m = some (true, v) := by
  obtain ⟨v, hv⟩ := parseFlag_isSome h9
  have hc : parseFlag (byteAt m 8) = some true := by rw [h8]; rfl
  exact ⟨v, by simp only [parseQuery, hv, hc]⟩

theorem parseQuery_none {m : List Byte} (h : 1 < (byteAt m 8).toNat ∨ 1 < (byteAt m 9).toNat) : parseQuery m = none := by
  unfold parseQuery
  rcases h with h | h
  · simp [parseFlag_none h]
  · cases parseFlag (byteAt m 8) <;> simp [parseFlag_none h]

/-- A request that names a circuit by its handle goes on to the check of the handle when its other fields are in range. -/
theorem effRequest_onHandle {c : Instr} {kind : Byte} {len : Nat} {test : Bool} {r : Request} (hm : (c, kind, len, test) ∈ handleRequests)
    (hk : byteAt r.msg 0 = kind) (hw : byteAt r.msg 1 = BitVec.ofNat 8 len) (hr : r.InRange kind) (d : Defaults) (e : Eff) :
    ∃ f, effRequest d r e = e.onHandle r test f := by
  simp only [handleRequests, List.mem_cons, List.not_mem_nil, or_false, Prod.mk.injEq] at hm
  rcases hm with ⟨_, rfl, rfl, rfl⟩ | ⟨_, rfl, rfl, rfl⟩ | ⟨_, rfl, rfl, rfl⟩ | ⟨_, rfl, rfl, rfl⟩ | ⟨_, rfl, rfl, rfl⟩ | ⟨_, rfl, rfl, rfl⟩ |
    ⟨_, rfl, rfl, rfl⟩ | ⟨_, rfl, rfl, rfl⟩ | ⟨_, rfl, rfl, rfl⟩
  · obtain ⟨k, hx⟩ := Option.isSome_iff_exists.1 (hr.slot (.inl rfl))
    exact ⟨_, (effRequest_addLeg d r e hk).trans (checked_some hw hx)⟩
  · obtain ⟨k, hx⟩ := Option.isSome_iff_exists.1 (hr.slot (.inr rfl))
    exact ⟨_, (effRequest_dropLeg d r e hk).trans (checked_some hw hx)⟩
  · obtain ⟨src, hx⟩ := Option.isSome_iff_exists.1 (hr.source rfl)
    exact ⟨_, (effRequest_moveSource d r e hk).trans (checked_some hw hx)⟩
  · exact ⟨_, (effRequest_hold d r e hk).trans (checked_some hw rfl)⟩
  · exact ⟨_, (effRequest_resume d r e hk).trans (checked_some hw rfl)⟩
  · obtain ⟨clear, hx⟩ := parseReleaseClear_isSome (hr.clear rfl)
    exact ⟨_, (effRequest_release d r e hk).trans (checked_some hw hx)⟩
  · exact ⟨_, (effRequest_touch d r e hk).trans (checked_some hw rfl)⟩
  · obtain ⟨h8, h9⟩ := hr.query rfl
    obtain ⟨v, hx⟩ := parseQuery_check h8 h9
    exact ⟨e.queryAnswer r v, (effRequest_query d r e hk).trans ((checked_some hw hx).trans (if_pos rfl))⟩
  · exact ⟨_, (effRequest_accessEnd d r e hk).trans (checked_some hw rfl)⟩

/-- The command takes the request of its kind; no such kind is OPEN, FIND_OUT or FIND_IN. -/
theorem exec_handleRequest {c : Instr} {kind : Byte} {len : Nat} {test : Bool} (hm : (c, kind, len, test) ∈ handleRequests) (s : State) :
    exec c s = .next (s.managerRequest kind) ∧ kind ≠ 0x01 ∧ kind ≠ 0x0B ∧ kind ≠ 0x0C := by
  simp only [handleRequests, List.mem_cons, List.not_mem_nil, or_false, Prod.mk.injEq] at hm
  rcases hm with ⟨rfl, rfl, _⟩ | ⟨rfl, rfl, _⟩ | ⟨rfl, rfl, _⟩ | ⟨rfl, rfl, _⟩ | ⟨rfl, rfl, _⟩ | ⟨rfl, rfl, _⟩ | ⟨rfl, rfl, _⟩ | ⟨rfl, rfl, _⟩ |
    ⟨rfl, rfl, _⟩
  all_goals exact ⟨rfl, by decide, by decide, by decide⟩

/-- The state after a request that names a circuit by its handle has been refused with no slot named: nothing but its slot changes. -/
def State.handleRefused (s : State) (r : Request) (p : Port) (st : Status) : State :=
  { s with port := p.answerRequest r st ([byteAt r.msg 4, byteAt r.msg 5, byteAt r.msg 6, byteAt r.msg 7, 0xFF, 0xFF]) }

/-- A request whose effect is a refusal. -/
theorem exec_refused {c : Instr} {kind : Byte} {len len' : Nat} {test : Bool} {s : State} {r : Request} {p : Port} {st : Status}
    (hm : (c, kind, len, test) ∈ handleRequests) (ht : s.TakesWhole kind len' r p)
    (he : byteAt r.msg 0 = kind → ∀ e : Eff, e.mgr = s.mgr → ∀ d, effRequest d r e = e.refuse r st none) :
    exec c s = .next (s.handleRefused r p st) := by
  obtain ⟨hx, h1, h2, h3⟩ := exec_handleRequest hm s
  have hk := kind_of_takeRequest ht.takes.head
  have hf : circuitFields r.msg = [byteAt r.msg 4, byteAt r.msg 5, byteAt r.msg 6, byteAt r.msg 7] :=
    circuitFields_handle (by rw [hk]; exact h1) (by rw [hk]; exact h2) (by rw [hk]; exact h3)
  rw [hx, managerRequest_refused ht.takes (he hk), hf]
  rfl

/-- A request in range that its handle does not let pass. -/
theorem exec_handle_refused {c : Instr} {kind : Byte} {len : Nat} {test : Bool} {s : State} {r : Request} {p : Port} {st : Status}
    (hm : (c, kind, len, test) ∈ handleRequests) (ht : s.TakesWhole kind len r p) (hr : r.InRange kind)
    (he : ∀ (e : Eff) f, e.mgr = s.mgr → e.onHandle r test f = e.refuse r st none) : exec c s = .next (s.handleRefused r p st) := by
  refine exec_refused hm ht fun hk e hmgr d => ?_
  obtain ⟨f, hf⟩ := effRequest_onHandle hm hk ht.whole hr d e
  exact hf.trans (he e f hmgr)

theorem parseSlot_none {m : List Byte} {i : Nat} (h : 16 ≤ (byteAt m i).toNat ∨ 48 ≤ (byteAt m (i + 1)).toNat) : parseSlot m i = none :=
  dif_neg (by omega)

theorem parseSource_none {m : List Byte} {i : Nat} (h : ∀ src, ¬readsSource m i src) : parseSource m i = none :=
  Option.eq_none_iff_forall_ne_some.2 fun src hs => h src ((parseSource_iff m i src).1 hs)

/-- QUERY with its check OFF is refused for a record number above 511 alone (01 R19). -/
theorem effQuery_unchecked {e : Eff} {r : Request} (hw : byteAt r.msg 1 = BitVec.ofNat 8 6) (h8 : byteAt r.msg 8 = 0) (hn : 511 < r.handle.num) :
    effQuery r e = e.refuse r .badField none := by
  have h8f : parseFlag (byteAt r.msg 8) = some false := by rw [h8]; rfl
  unfold effQuery
  cases hv : parseFlag (byteAt r.msg 9) with
  | none => exact checked_none hw (by simp only [parseQuery, hv]; rw [h8f])
  | some v =>
    refine (checked_some hw (a := (false, v)) (by simp only [parseQuery, hv, h8f])).trans ?_
    simp only [Bool.false_eq_true, if_false]
    exact if_pos hn

/-- Settles O40: the checks of each request are read off in their order, and a refusal writes nothing but the slot. -/
theorem staleHandlesAndTestCircuitsAreRefused : Obligations.StaleHandlesAndTestCircuitsAreRefused := by
  refine ⟨fun c kind len test hm s r p ht h1 h2 h3 h4 => ?_, fun s r p => ⟨fun c kind hm ht hb => ?_, fun ht hb => ?_, fun ht hlo hhi => ?_,
    fun ht => ⟨fun hb => ?_, fun h8 hn => ?_⟩⟩⟩
  · have hr : r.InRange kind := ⟨h1, h2, h3, h4⟩
    refine ⟨fun hn => ?_, fun hn hg => ?_, fun hn hg hc htest => ?_⟩
    · exact exec_handle_refused hm ht hr fun e f _ => onHandle_badField hn
    · exact exec_handle_refused hm ht hr fun e f he => onHandle_stale hn (by rw [Eff.recOf, he]; exact hg)
    · subst htest
      exact exec_handle_refused hm ht hr fun e f he => onHandle_test hn (by rw [Eff.recOf, he]; exact hg) (by rw [Eff.recOf, he]; exact hc)
  · simp only [List.mem_cons, List.not_mem_nil, or_false, Prod.mk.injEq] at hm
    rcases hm with ⟨rfl, rfl⟩ | ⟨rfl, rfl⟩
    · exact exec_refused (len := 6) (test := false) (by simp [handleRequests]) ht fun hk e _ d =>
        (effRequest_addLeg d r e hk).trans (checked_none ht.whole (parseSlot_none hb))
    · exact exec_refused (len := 6) (test := false) (by simp [handleRequests]) ht fun hk e _ d =>
        (effRequest_dropLeg d r e hk).trans (checked_none ht.whole (parseSlot_none hb))
  · exact exec_refused (len := 6) (test := false) (by simp [handleRequests]) ht fun hk e _ d =>
      (effRequest_moveSource d r e hk).trans (checked_none ht.whole (parseSource_none hb))
  · exact exec_refused (len := 5) (test := false) (by simp [handleRequests]) ht fun hk e _ d =>
      (effRequest_release d r e hk).trans (checked_none ht.whole (parseReleaseClear_none hlo hhi))
  · exact exec_refused (len := 6) (test := true) (by simp [handleRequests]) ht fun hk e _ d =>
      (effRequest_query d r e hk).trans (checked_none ht.whole (parseQuery_none hb))
  · exact exec_refused (len := 6) (test := true) (by simp [handleRequests]) ht fun hk e _ d =>
      (effRequest_query d r e hk).trans (effQuery_unchecked ht.whole h8 hn)

end Sys2Proof.Machine

/-! SUPPORT. A claim of the circuit manager, computed: an effect under construction in the words of the statements (what each record is, the entries
offered, the raises, the port), one rule for each operation a claim is made of, and the claim once its effect is known. -/

namespace Sys2Proof.Machine

set_option Elab.async false

/-! ### An effect in the words of the statements -/

/-- The records named are changed by f. -/
def changeOn (ms : List Nat) (f : Rec → Rec) (recs : Nat → Rec) (m : Nat) : Rec := if m ∈ ms then f (recs m) else recs m

/-- An effect under construction in a claim made in state s: what each record is, the entries offered, what is raised and the port. No
generation and no fan-out list has changed, nor has any other part. -/
structure Eff.Reads (s : State) (e : Eff) (recs : Nat → Rec) (offer : List Entry) (raise : Raise) (port : Port) : Prop where
  list : e.list = s.sw.list
  mgr : e.mgr = { s.mgr with recs := e.mgr.recs }
  ver : e.ver = s.ver
  wat : e.wat = s.wat
  order : e.order = none
  gens : ∀ m, (recs m).gen = (s.recordOf m).gen
  recs : ∀ m, e.recOf m = recs m
  offer : e.offer = offer
  raise : e.raise = raise
  port : e.port = port

@[simp] theorem changeOn_nil (f : Rec → Rec) (recs : Nat → Rec) : changeOn [] f recs = recs := rfl

theorem changeOn_single (n : Nat) (f : Rec → Rec) (recs : Nat → Rec) (m : Nat) : changeOn [n] f recs m = if m = n then f (recs m) else recs m := by
  simp only [changeOn, List.mem_singleton]

theorem changeOn_of_mem {ms : List Nat} {m : Nat} (h : m ∈ ms) (f : Rec → Rec) (recs : Nat → Rec) : changeOn ms f recs m = f (recs m) := if_pos h

theorem changeOn_of_not_mem {ms : List Nat} {m : Nat} (h : m ∉ ms) (f : Rec → Rec) (recs : Nat → Rec) : changeOn ms f recs m = recs m := if_neg h

/-- Two changes of the same records, one after the other. -/
theorem changeOn_changeOn (ms : List Nat) (f g : Rec → Rec) (recs : Nat → Rec) (m : Nat) :
    changeOn ms g (changeOn ms f recs) m = changeOn ms (fun r => g (f r)) recs m := by
  unfold changeOn
  split <;> rfl

@[simp] theorem changeOn_self (n : Nat) (f : Rec → Rec) (recs : Nat → Rec) : changeOn [n] f recs n = f (recs n) := if_pos List.mem_cons_self

namespace Eff.Reads

variable {s : State} {e : Eff} {recs : Nat → Rec} {offer : List Entry} {raise : Raise} {port : Port}

/-- A claim that has changed nothing yet. -/
theorem start (s : State) : (Eff.start s).Reads s s.recordOf [] [] s.port := ⟨rfl, rfl, rfl, rfl, rfl, fun _ => rfl, fun _ => rfl, rfl, rfl, rfl⟩

variable (h : e.Reads s recs offer raise port)
include h

/-- The same effect with its records said in another way. -/
theorem of_recs {recs' : Nat → Rec} (hr : ∀ m, recs m = recs' m) : e.Reads s recs' offer raise port :=
  { h with recs := fun m => (h.recs m).trans (hr m), gens := fun m => hr m ▸ h.gens m }

theorem handleOf (n : Nat) : e.handleOf n = s.handle n := by
  simp only [Eff.handleOf, State.handle, h.recs, h.gens]

theorem current (hd : Handle) : e.current hd = s.isCurrent hd := by
  simp only [Eff.current, State.isCurrent, h.recs, h.gens]

theorem content (n : Nat) (d : Drive) (u : Option (Fin 4)) : e.content n d u = legContent n (recs n) d u := by
  simp only [Eff.content, legContent, Eff.handleOf, h.recs]

theorem members (n : Nat) : e.members n = n :: (recs n).partner.toList := by simp only [Eff.members, h.recs]

theorem keptOutcomes (k : Slot) (own : List LegOutcome) : e.keptOutcomes k own = s.kept (own.map (·.h.num)) k :=
  keptOutcomes_eq h.list (fun n => by rw [h.recs, h.gens]) k own

/-! ### One rule for each change -/

theorem upd (n : Nat) (f : Rec → Rec) (hg : ∀ r : Rec, (f r).gen = r.gen := by intro _; rfl) :
    (e.updRec n f).Reads s (changeOn [n] f recs) offer raise port :=
  { h with
    mgr := by rw [Eff.updRec, h.mgr]
    recs := fun m => by
      rw [recOf_updRec, changeOn_single]
      split
      · next hm => rw [hm, h.recs]
      · exact h.recs m
    gens := fun m => by
      rw [changeOn_single]
      split
      · rw [hg, h.gens]
      · exact h.gens m }

theorem raiseOn (n : Nat) (c : Cause) : (e.raiseOn n c).Reads s recs offer (raise ++ [(81 + n, c)]) port :=
  { h with raise := by rw [raiseOn_raise, h.raise]; rfl }

theorem addEntry (k : Slot) (c : Content) (own : List LegOutcome) :
    (e.addEntry k c own).Reads s recs (offer ++ [⟨k, c, s.kept (own.map (·.h.num)) k ++ own⟩]) raise port :=
  { h with offer := by rw [addEntry_offer, h.keptOutcomes, h.offer] }

theorem answer (n : Fin 4) (sub : Nat) (st : Status) (res : List Byte) :
    ({ e with port := e.port.answer n sub st res } : Eff).Reads s recs offer raise (port.answer n sub st res) := { h with port := by rw [h.port] }

/-- One entry for each element of a list. -/
theorem addEntries {β : Type} (l : List β) (k : β → Slot) (c : Eff → Content) (own : Eff → β → List LegOutcome) (x : β → Entry)
    (hx : ∀ e' offer', e'.Reads s recs offer' raise port → ∀ b, x b = ⟨k b, c e', s.kept ((own e' b).map (·.h.num)) (k b) ++ own e' b⟩) :
    (l.foldl (fun e b => e.addEntry (k b) (c e) (own e b)) e).Reads s recs (offer ++ l.map x) raise port := by
  induction l generalizing e offer with
  | nil => simpa using h
  | cons b l ih =>
    have h1 := h.addEntry (k b) (c e) (own e b)
    rw [← hx e offer h b] at h1
    simpa using ih h1

/-- A change made to each record of a list in turn, each of its own record alone. -/
theorem each {op : Eff → Nat → Eff} {f : Rec → Rec} {ent : Nat → Rec → List Entry}
    (hop : ∀ (e : Eff) recs offer, e.Reads s recs offer raise port → ∀ m, (op e m).Reads s (changeOn [m] f recs) (offer ++ ent m (recs m)) raise port)
    {ms : List Nat} (hms : ms.Nodup) : (ms.foldl op e).Reads s (changeOn ms f recs) (offer ++ ms.flatMap fun m => ent m (recs m)) raise port := by
  induction ms generalizing e recs offer with
  | nil => simpa [changeOn] using h
  | cons m ms ih =>
    obtain ⟨hm, hms⟩ := List.nodup_cons.1 hms
    have h1 := ih (hop e recs offer h m) hms
    have hent : (ms.flatMap fun j => ent j (changeOn [m] f recs j)) = ms.flatMap fun j => ent j (recs j) :=
      List.flatMap_congr fun j hj => by rw [changeOn_single, if_neg fun (hjm : j = m) => hm (hjm ▸ hj)]
    rw [hent, List.append_assoc] at h1
    refine h1.of_recs fun j => ?_
    simp only [changeOn, List.mem_cons, List.not_mem_nil, or_false]
    by_cases hj : j = m
    · subst hj; simp [hm]
    · simp [hj]

/-- A change of records, repeats in the list making no difference. -/
theorem updEach (ms : List Nat) (f : Rec → Rec) (hf : ∀ r, f (f r) = f r) (hg : ∀ r : Rec, (f r).gen = r.gen := by intro _; rfl) :
    (ms.foldl (fun e m => e.updRec m f) e).Reads s (changeOn ms f recs) offer raise port := by
  induction ms generalizing e recs with
  | nil => simpa [changeOn] using h
  | cons m ms ih =>
    refine (ih (h.upd m f hg)).of_recs fun j => ?_
    simp only [changeOn, List.mem_cons, List.not_mem_nil, or_false]
    by_cases hj : j = m
    · subst hj; simp [hf]
    · simp [hj]

theorem raiseEach (ms : List Nat) (c : Cause) :
    (ms.foldl (fun e m => e.raiseOn m c) e).Reads s recs offer (raise ++ ms.map fun m => (81 + m, c)) port := by
  induction ms generalizing e raise with
  | nil => simpa using h
  | cons m ms ih => simpa using ih (h.raiseOn m c)

/-! ### Legs and their entries -/

theorem offerLegs (n : Nat) (d : Drive) (u : Option (Fin 4)) :
    (e.offerLegs n d u).Reads s recs (offer ++ ((recs n).legs.filter Leg.carries).map fun l => s.legEntry n (recs n) d u l.changeKind l.slot)
      raise port := by
  unfold Eff.offerLegs
  rw [h.recs]
  refine h.addEntries (β := Leg) _ (·.slot) (fun e => e.content n d u) (fun e l => [⟨e.handleOf n, l.changeKind⟩]) _ fun e' offer' h' l => ?_
  rw [h'.content, h'.handleOf]
  rfl

theorem breakLegs (n : Nat) (p : Leg → Bool) :
    (e.breakLegs n p).Reads s (changeOn [n] (·.breaking p) recs) (offer ++ ((recs n).legs.filter p).map fun l => s.breakEntry n l.slot) raise port := by
  unfold Eff.breakLegs
  rw [h.recs]
  refine (h.upd n (·.breaking p)).addEntries (β := Leg) _ (·.slot) (fun _ => Content.idle) (fun e _ => [⟨e.handleOf n, .broken⟩]) _ fun e' offer' h' l => ?_
  rw [h'.handleOf]
  rfl

end Eff.Reads

/-! ### Answers -/

/-- A record whose opening answer, if there is one, has been written (03 R44). -/
def Rec.answered (a : Option OpenAnswer) (r : Rec) : Rec := if a.isSome then { r with openAns := none, roundTrip := none } else r

@[simp] theorem answered_gen (a : Option OpenAnswer) (r : Rec) : (r.answered a).gen = r.gen := by
  unfold Rec.answered
  split <;> rfl

namespace Eff.Reads

variable {s : State} {e : Eff} {recs : Nat → Rec} {offer : List Entry} {raise : Raise} {port : Port} (h : e.Reads s recs offer raise port)
include h

theorem answerOpen (n : Nat) (st : Status) (res : List Byte) :
    (e.answerOpen n st res).Reads s (changeOn (n :: (recs n).partner.toList) (·.answered (recs n).openAns) recs) offer raise
      (port.answerOpening (recs n).openAns st res) := by
  unfold Eff.answerOpen
  rw [h.recs]
  cases ha : (recs n).openAns with
  | none => exact h.of_recs fun m => by simp [changeOn, Rec.answered]
  | some a =>
    have h1 := (h.updEach (n :: (recs n).partner.toList) (fun r => { r with openAns := none, roundTrip := none }) fun _ => rfl).answer a.slot a.sub st res
    simp only [h.members]
    exact h1

end Eff.Reads

/-! ### Taking out of service (05 R92) -/

/-- The test records that displace a leg of a record (01 R7). -/
def Rec.links (r : Rec) : List Nat := r.legs.filterMap fun l => if l.st = .displaced then l.link else none

/-- Records with those named out of service, and their displacers' links gone. -/
def takenOut (ms : List Nat) (recs : Nat → Rec) (m : Nat) : Rec :=
  if m ∈ ms then (recs m).outOfService else if m ∈ ms.flatMap fun j => (recs j).links then { recs m with displ := none } else recs m

theorem takenOut_of_mem {ms : List Nat} {m : Nat} (h : m ∈ ms) (recs : Nat → Rec) : takenOut ms recs m = (recs m).outOfService := if_pos h

theorem takenOut_stands {n m : Nat} {recs : Nat → Rec} (hm : m ≠ n) (hl : m ∉ (recs n).links) : takenOut [n] recs m = recs m := by
  simp [takenOut, hm, hl]

/-- One record after another, none of them a displacer of another. -/
theorem takenOut_cons {n : Nat} {ms : List Nat} {recs : Nat → Rec} (hn : n ∉ ms) (hap : ∀ m ∈ n :: ms, ∀ o ∈ (recs m).links, o ∉ n :: ms) (m : Nat) :
    takenOut ms (takenOut [n] recs) m = takenOut (n :: ms) recs m := by
  have hstand (j : Nat) (hj : j ∈ ms) : takenOut [n] recs j = recs j :=
    takenOut_stands (fun hjn => hn (hjn ▸ hj)) fun hl => hap n List.mem_cons_self j hl (List.mem_cons_of_mem _ hj)
  have hlinks : (ms.flatMap fun j => (takenOut [n] recs j).links) = ms.flatMap fun j => (recs j).links :=
    List.flatMap_congr fun j hj => by rw [hstand j hj]
  by_cases hm : m ∈ ms
  · rw [takenOut_of_mem hm, hstand m hm, takenOut_of_mem (List.mem_cons_of_mem _ hm)]
  · conv_lhs => rw [takenOut, if_neg hm, hlinks]
    by_cases hmn : m = n
    · subst hmn
      have hnl : m ∉ ms.flatMap fun j => (recs j).links := fun hl => by
        obtain ⟨j, hj, hl⟩ := List.mem_flatMap.1 hl
        exact hap j (List.mem_cons_of_mem _ hj) m hl List.mem_cons_self
      rw [if_neg hnl, takenOut_of_mem List.mem_cons_self, takenOut_of_mem List.mem_cons_self]
    · by_cases h1 : m ∈ (recs n).links <;> by_cases h2 : m ∈ ms.flatMap fun j => (recs j).links <;> simp [takenOut, hmn, hm, h1, h2]

namespace Eff.Reads

variable {s : State} {e : Eff} {recs : Nat → Rec} {offer : List Entry} {raise : Raise} {port : Port} (h : e.Reads s recs offer raise port)
include h

theorem takeOut (n : Nat) (hn : ∀ o ∈ (recs n).links, o ≠ n) : (e.takeOut n).Reads s (takenOut [n] recs) offer raise port := by
  unfold Eff.takeOut
  rw [h.recs]
  refine ((h.updEach (recs n).links (fun r => { r with displ := none }) fun _ => rfl).upd n Rec.outOfService).of_recs fun m => ?_
  rw [changeOn_single]
  by_cases hm : m = n
  · subst hm
    rw [if_pos rfl, takenOut_of_mem List.mem_cons_self, changeOn_of_not_mem fun hc => hn m hc rfl]
  · simp [takenOut, changeOn, hm]

theorem takeOutEach {ms : List Nat} (hms : ms.Nodup) (hap : ∀ m ∈ ms, ∀ o ∈ (recs m).links, o ∉ ms) :
    (ms.foldl Eff.takeOut e).Reads s (takenOut ms recs) offer raise port := by
  induction ms generalizing e recs with
  | nil => exact h.of_recs fun m => by simp [takenOut]
  | cons n ms ih =>
    obtain ⟨hn, hms⟩ := List.nodup_cons.1 hms
    have h1 := h.takeOut n fun o ho he => hap n List.mem_cons_self o ho (he ▸ List.mem_cons_self)
    refine (ih h1 hms fun m hm o ho hmem => ?_).of_recs (takenOut_cons hn hap)
    have hstand : takenOut [n] recs m = recs m :=
      takenOut_stands (fun hmn => hn (hmn ▸ hm)) fun hl => hap n List.mem_cons_self m hl (List.mem_cons_of_mem _ hm)
    exact hap m (List.mem_cons_of_mem _ hm) o (hstand ▸ ho) (List.mem_cons_of_mem _ hmem)

end Eff.Reads
end Sys2Proof.Machine

/-! SUPPORT. Records that enter FREE at the end of a claim (05 R101), and the next state of a claim whose effect is known. -/

namespace Sys2Proof.Machine

set_option Elab.async false

/-! ### Entering FREE -/

theorem slot_key_inj {j k : Slot} (h : j.key = k.key) : j = k := by
  obtain ⟨jl, jt⟩ := j
  obtain ⟨kl, kt⟩ := k
  simp only [Slot.key] at h
  have := jt.isLt
  have := kt.isLt
  simp only [Slot.mk.injEq, Fin.ext_iff]
  omega

/-- A record leaves the list of its source, and no other (01 R18). -/
theorem fanOf_leaveFan (e : Eff) (src : Option Source) (n : Nat) (k : Slot) :
    (e.leaveFan src n).mgr.fanOf k = (e.mgr.fanOf k).filter fun m => !decide (m = n ∧ src = some (.inbound k)) := by
  have stands (hs : src ≠ some (.inbound k)) : e.mgr.fanOf k = (e.mgr.fanOf k).filter fun m => !decide (m = n ∧ src = some (.inbound k)) := by
    simp [hs]
  cases src with
  | none => exact stands nofun
  | some src =>
    cases src with
    | gen g => exact stands nofun
    | inbound j =>
      show Tbl.get [] (Tbl.upd [] e.mgr.fan j.key (·.filter (· ≠ n))) k.key = _
      rw [Tbl.get_upd]
      by_cases hk : k.key = j.key
      · obtain rfl := slot_key_inj hk
        simp [Manager.fanOf]
      · rw [if_neg hk]
        exact stands fun hs => hk (by cases hs; rfl)

/-- The release answer of a record, written as it enters FREE (05 R101). -/
def Port.answerRelease (p : Port) : Option ReleaseAnswer → Port
  | none => p
  | some a => p.answer a.slot a.sub .ok (releaseResults a)

theorem answersReleases_eq (s : State) (ms : List Nat) : s.answersReleases ms = ms.foldl (fun p m => p.answerRelease (s.recordOf m).relAns) s.port := by
  unfold State.answersReleases
  congr 1

/-- Effect e' is effect e with the records named FREE: what else has changed is the fan-out lists and the release answers. -/
structure Eff.Freed (e e' : Eff) (ms : List Nat) : Prop where
  list : e'.list = e.list
  mgr : e'.mgr = { e.mgr with recs := e'.mgr.recs, fan := e'.mgr.fan }
  ver : e'.ver = e.ver
  wat : e'.wat = e.wat
  order : e'.order = e.order
  offer : e'.offer = e.offer
  raise : e'.raise = e.raise
  port : e'.port = ms.foldl (fun p m => p.answerRelease (e.recOf m).relAns) e.port
  fan : ∀ k, e'.mgr.fanOf k = (e.mgr.fanOf k).filter fun m => !decide (m ∈ ms ∧ (e.recOf m).source = some (.inbound k))

theorem enterFree_eq (e : Eff) (n : Nat) :
    e.enterFree n = { (e.leaveFan (e.recOf n).source n).updRec n (fun r => Rec.free (r.gen + 1)) with
      port := e.port.answerRelease (e.recOf n).relAns } := by
  have hp : (e.leaveFan (e.recOf n).source n).port = e.port := by
    unfold Eff.leaveFan
    split <;> rfl
  unfold Eff.enterFree
  simp only
  split
  · next hr => rw [hr, ← hp]; rfl
  · next a hr => rw [hr, ← hp]; rfl

theorem freed_enterFree (e : Eff) (n : Nat) : e.Freed (e.enterFree n) [n] := by
  have hf (k : Slot) := fanOf_leaveFan e (e.recOf n).source n k
  have hl : (e.leaveFan (e.recOf n).source n) = { e with mgr := { e.mgr with fan := (e.leaveFan (e.recOf n).source n).mgr.fan } } := by
    unfold Eff.leaveFan
    split <;> rfl
  rw [enterFree_eq]
  generalize e.leaveFan (e.recOf n).source n = z at hf hl
  refine ⟨by rw [hl]; rfl, by rw [hl]; rfl, by rw [hl]; rfl, by rw [hl]; rfl, by rw [hl]; rfl, by rw [hl]; rfl, by rw [hl]; rfl, rfl, fun k => ?_⟩
  refine (hf k).trans (List.filter_congr fun m _ => ?_)
  refine congrArg (!·) (decide_eq_decide.2 ?_)
  rw [List.mem_singleton]
  exact and_congr_right fun hm => by rw [hm]

theorem freed_foldl_enterFree {ms : List Nat} (hms : ms.Nodup) (e : Eff) : e.Freed (ms.foldl Eff.enterFree e) ms := by
  induction ms generalizing e with
  | nil => exact ⟨rfl, rfl, rfl, rfl, rfl, rfl, rfl, rfl, fun k => by simp⟩
  | cons n ms ih =>
    obtain ⟨hn, hms⟩ := List.nodup_cons.1 hms
    have h1 := freed_enterFree e n
    have h2 := ih hms (e.enterFree n)
    have hr (m : Nat) (hm : m ∈ ms) : (e.enterFree n).recOf m = e.recOf m := by
      rw [recOf_enterFree, if_neg fun (hmn : m = n) => hn (hmn ▸ hm)]
    rw [List.foldl_cons]
    refine ⟨h2.list.trans h1.list, ?_, h2.ver.trans h1.ver, h2.wat.trans h1.wat, h2.order.trans h1.order, h2.offer.trans h1.offer,
      h2.raise.trans h1.raise, ?_, fun k => ?_⟩
    · rw [h2.mgr, h1.mgr]
    · rw [h2.port, h1.port, List.foldl_cons]
      exact List.foldl_ext _ _ _ fun p m hm => by rw [hr m hm]
    · rw [h2.fan, h1.fan, List.filter_filter]
      refine List.filter_congr fun m _ => ?_
      simp only [List.mem_cons]
      by_cases hmn : m = n
      · subst hmn; simp [hn]
      · by_cases hm : m ∈ ms
        · rw [hr m hm]; simp [hmn, hm]
        · simp [hmn, hm]

/-! ### The next state of a claim -/

/-- A claim that the switch takes, at the command at which the manager takes it. -/
theorem exec_of_fits {s s' : State} {c : Instr} {k : Claim} (hh : s.Hands c k s') {e : Eff} (he : effect s'.port.defaults k (Eff.start s') = e)
    (hfit : fits s'.sw.list e.offer = true) : exec c s = .next (e.commit e.offer e.order s') := by
  rw [exec_of_hands hh, State.takeClaim, he, settle_fits hfit]

/-- A claim with the wait list and the verifier as it leaves them: its effect says what its next state is. -/
theorem exec_of_reads {s s' : State} {c : Instr} {k : Claim} (hh : s.Hands c k s') {v : Verifier} {w : List Handle} {recs : Nat → Rec}
    {offer : List Entry} {raise : Raise} {port : Port}
    (h : (effect s'.port.defaults k (Eff.start s')).Reads { s' with ver := v, mgr := { s'.mgr with wait := w } } recs offer raise port)
    (hfit : fits s'.sw.list offer = true) :
    ∃ t, exec c s = .next t ∧ ({ s' with ver := v, mgr := { s'.mgr with wait := w } } : State).circuitClaim t offer raise port ∧
      (∀ m, t.recordOf m = recs m) ∧ s'.fanStands t ∧ t.ver = v := by
  generalize he : effect s'.port.defaults k (Eff.start s') = e at h
  have hc : ({ s' with ver := v, mgr := { s'.mgr with wait := w } } : State).circuitClaim (e.commit e.offer e.order s') e.offer e.raise e.port :=
    commit_circuitClaim (by rw [h.mgr]) h.ver h.wat h.order
  rw [h.offer, h.raise, h.port] at hc
  refine ⟨_, exec_of_fits hh he (by rw [h.offer]; exact hfit), by rw [h.offer]; exact hc, h.recs, fun j => ?_, h.ver⟩
  show e.mgr.fanOf j = s'.mgr.fanOf j
  rw [h.mgr]
  rfl

/-- A claim that ends with records entering FREE. -/
theorem exec_of_freed {s s' : State} {c : Instr} {k : Claim} (hh : s.Hands c k s') {w : List Handle} {e : Eff} {recs : Nat → Rec} {offer : List Entry}
    {raise : Raise} {port : Port} {ms : List Nat} (hms : ms.Nodup) (he : effect s'.port.defaults k (Eff.start s') = ms.foldl Eff.enterFree e)
    (h : e.Reads { s' with mgr := { s'.mgr with wait := w } } recs offer raise port) (hsrc : ∀ m, (recs m).source = (s'.recordOf m).source)
    (hfit : fits s'.sw.list offer = true) :
    ∃ t, exec c s = .next t ∧
      ({ s' with mgr := { s'.mgr with wait := w } } : State).circuitClaim t offer raise (ms.foldl (fun p m => p.answerRelease (recs m).relAns) port) ∧
      (∀ m, t.recordOf m = if m ∈ ms then Rec.free ((s'.recordOf m).gen + 1) else recs m) ∧ s'.fanLeaves t ms := by
  have hf := freed_foldl_enterFree hms e
  have hr := fun m => recOf_foldl_enterFree ms e m hms
  generalize ms.foldl Eff.enterFree e = e' at he hf hr
  have hc : ({ s' with mgr := { s'.mgr with wait := w } } : State).circuitClaim (e'.commit e'.offer e'.order s') e'.offer e'.raise e'.port :=
    commit_circuitClaim (by rw [hf.mgr, h.mgr]) (hf.ver.trans h.ver) (hf.wat.trans h.wat) (hf.order.trans h.order)
  have ho : e'.offer = offer := hf.offer.trans h.offer
  have hp : e'.port = ms.foldl (fun p m => p.answerRelease (recs m).relAns) port := by
    rw [hf.port, h.port]
    exact List.foldl_ext _ _ _ fun p m _ => by rw [h.recs]
  rw [ho, hf.raise.trans h.raise, hp] at hc
  refine ⟨_, exec_of_fits hh he (by rw [ho]; exact hfit), by rw [ho]; exact hc, fun m => ?_, fun j => ?_⟩
  · show e'.recOf m = _
    rw [hr, h.recs, h.gens]
    rfl
  · show e'.mgr.fanOf j = (s'.mgr.fanOf j).filter _
    rw [hf.fan]
    have hfan : e.mgr.fanOf j = s'.mgr.fanOf j := by rw [h.mgr]; rfl
    rw [hfan]
    exact List.filter_congr fun m _ => by rw [h.recs, hsrc]

end Sys2Proof.Machine

/-! SUPPORT. The claims that find their circuit or pair gone, or past the state they end: they change nothing (05, 04, 08; 01 R11). -/

namespace Sys2Proof.Machine

set_option Elab.async false

/-! ### Claims of handles that name no record any more (01 R11) -/

theorem foldl_fixed {α β : Type} {f : α → β → α} {a : α} {l : List β} (h : ∀ b ∈ l, f a b = a) : l.foldl f a = a := by
  induction l with
  | nil => rfl
  | cons b l ih => rw [List.foldl_cons, h b List.mem_cons_self, ih fun c hc => h c (List.mem_cons_of_mem _ hc)]

theorem effReport_stale {r : Report} {e : Eff} (h : ∀ x ∈ r, ∀ o ∈ x.2, e.current o.h = false) : effReport r e = e := by
  have hlegs : r.foldl (fun e x => x.2.foldl (fun e o => e.takeOutcome x.1 o) e) e = e :=
    foldl_fixed fun x hx => foldl_fixed fun o ho => by simp [Eff.takeOutcome, h x hx o ho]
  have hnamed : e.namedIn r = [] := by
    have hf : (r.flatMap fun x => x.2.map (·.h)).filter e.current = [] := by
      refine List.filter_eq_nil_iff.2 fun hd hhd => ?_
      obtain ⟨x, hx, hd'⟩ := List.mem_flatMap.1 hhd
      obtain ⟨o, ho, rfl⟩ := List.mem_map.1 hd'
      simp [h x hx o ho]
    rw [Eff.namedIn, hf]
    rfl
  simp only [effReport, hnamed, hlegs, Eff.phase, List.foldl_nil]

theorem effClearDownEnd_stale {hd : Handle} {e : Eff} (h : e.current hd = false ∨ (e.recOf hd.num).st ≠ .releasing) : effClearDownEnd hd e = e := by
  refine if_neg fun ⟨hc, hst⟩ => ?_
  rcases h with h | h
  · rw [h] at hc; cases hc
  · exact h hst

theorem effExpiry_stale {hd : Handle} {e : Eff} (h : e.current hd = false ∨ (e.recOf hd.num).lease ≠ some 0 ∨ (e.recOf hd.num).st = .releasing ∨
    (e.recOf hd.num).st = .breaking) : effExpiry hd e = e := by
  refine if_neg fun he => ?_
  simp only [Eff.expired, Bool.and_eq_true, decide_eq_true_eq] at he
  obtain ⟨hc, h1, h2, h3⟩ := he
  rcases h with h | h | h | h
  · rw [h] at hc; cases hc
  · exact h h3
  · exact h1 h
  · exact h2 h

/-- A claim that changes nothing is taken, and that is all. -/
theorem exec_of_idle {s s' : State} {c : Instr} {k : Claim} (hh : s.Hands c k s') (he : effect s'.port.defaults k (Eff.start s') = Eff.start s') :
    exec c s = .next s' := by
  rw [exec_of_hands hh, takeClaim_answers (p := s'.port) he]

end Sys2Proof.Machine

/-! SUPPORT. The release of a circuit in MAKING, ACTIVE or HELD (05 R92-R96), as one rule. -/

namespace Sys2Proof.Machine

set_option Elab.async false

/-! ### The circuit, and its records out of service -/

/-- A record and its partner, the record first (01 R16). -/
def State.circuit (s : State) (n : Nat) : List Nat := n :: (s.recordOf n).partner.toList

theorem mem_circuit (s : State) (n : Nat) : n ∈ s.circuit n := List.mem_cons_self

theorem circuit_nodup {s : State} {n : Nat} (h : (s.recordOf n).partner ≠ some n) : (s.circuit n).Nodup :=
  nodup_members_of (e := Eff.start s) h

/-- The records of a circuit out of service, with the release answer to come, and its displacers' links gone. -/
def State.outOf (s : State) (n : Nat) (ans : Option ReleaseAnswer) : Nat → Rec :=
  changeOn [n] (fun r => { r with relAns := ans }) (takenOut (s.circuit n) s.recordOf)

theorem outOf_of_mem {s : State} {n m : Nat} (hm : m ∈ s.circuit n) (ans : Option ReleaseAnswer) :
    s.outOf n ans m = { (s.recordOf m).outOfService with relAns := if m = n then ans else (s.recordOf m).relAns } := by
  rw [State.outOf, changeOn_single, takenOut_of_mem hm]
  split <;> rfl

theorem outOf_of_not_mem {s : State} {n m : Nat} (hm : m ∉ s.circuit n) (ans : Option ReleaseAnswer) :
    s.outOf n ans m = if m ∈ (s.circuit n).flatMap s.displacers then { s.recordOf m with displ := none } else s.recordOf m := by
  rw [State.outOf, changeOn_single, if_neg fun hmn : m = n => hm (hmn ▸ mem_circuit s n), takenOut, if_neg hm]
  rfl

/-! ### Legs in the course of a release -/

theorem carries_iff (l : Leg) : l.carries = true ↔ l.st = .making ∨ l.st = .live := by simp [Leg.carries]

/-- The legs out of service that satisfy a property which no DISPLACED leg has. -/
theorem filter_outOfService (r : Rec) {p : Leg → Bool} (hp : ∀ l : Leg, p l = true → l.st ≠ .displaced) : r.outOfService.legs.filter p = r.legs.filter p := by
  show (r.legs.filter fun l => decide (l.st ≠ .displaced)).filter p = _
  rw [List.filter_filter]
  refine List.filter_congr fun l _ => ?_
  cases h : p l with
  | false => rfl
  | true => simp [hp l h]

/-- With the legs in MAKING broken, the legs that a clear-down drives are the LIVE ones. -/
theorem offered_after_break (legs : List Leg) (g : OutcomeKind → Slot → Entry) :
    ((legs.map fun l => if decide (l.st = .making) then { l with st := .breaking } else l).filter Leg.carries).map (fun l => g l.changeKind l.slot) =
      (legs.filter fun l => decide (l.st = .live)).map fun l => g .changed l.slot := by
  induction legs with
  | nil => rfl
  | cons l legs ih =>
    obtain ⟨k, st, y, d⟩ := l
    cases st <;> simpa [Leg.carries, Leg.changeKind] using ih

theorem length_making_live (legs : List Leg) :
    (legs.filter fun l => decide (l.st = .making)).length + (legs.filter fun l => decide (l.st = .live)).length = (legs.filter Leg.carries).length := by
  induction legs with
  | nil => rfl
  | cons l legs ih =>
    obtain ⟨k, st, y, d⟩ := l
    cases st <;> simp [Leg.carries] at ih ⊢ <;> omega

theorem length_flatMap_add {α β γ δ : Type} (l : List α) {f : α → List β} {g : α → List γ} {k : α → List δ}
    (h : ∀ a, (f a).length + (g a).length = (k a).length) : (l.flatMap f).length + (l.flatMap g).length = (l.flatMap k).length := by
  induction l with
  | nil => rfl
  | cons a l ih =>
    simp only [List.flatMap_cons, List.length_append]
    have := h a
    omega

/-- What an entry shows of a record (03 R50). -/
theorem legEntry_congr {s : State} {n : Nat} {x y : Rec} (hg : x.gen = y.gen) (hs : x.source = y.source) (hc : x.cond = y.cond) (hh : x.holdB = y.holdB)
    (hr : x.rel = y.rel) (d : Drive) (u : Option (Fin 4)) : s.legEntry n x d u = s.legEntry n y d u := by
  funext kind k
  simp only [State.legEntry, legContent, hg, hs, hc, hh, hr]

/-! ### The release -/

/-- The records of a circuit released with a clear-down (05 R93-R95). -/
def State.slowRecs (s : State) (n clear : Nat) (ans : Option ReleaseAnswer) : Nat → Rec :=
  changeOn (s.circuit n) (fun r => { r with st := .releasing, clearOf := some clear })
    (changeOn (s.circuit n) (·.breaking fun l => decide (l.st = .making)) (s.outOf n ans))

/-- The entries of a circuit released with a clear-down: legs in MAKING broken, LIVE legs in RELEASE drive (05 R93, R94). -/
def State.slowOffer (s : State) (n : Nat) : List Entry :=
  ((s.circuit n).flatMap fun m => ((s.recordOf m).legs.filter fun l => decide (l.st = .making)).map fun l => s.breakEntry m l.slot) ++
    (s.circuit n).flatMap fun m => ((s.recordOf m).legs.filter fun l => decide (l.st = .live)).map fun l =>
      s.legEntry m (s.recordOf m) .release none .changed l.slot

/-- The circuit has a clear-down (05 R93): it is not MAKING, the clear-down is above 0, and a LIVE leg stands. -/
def State.slow (s : State) (n clear : Nat) : Prop :=
  (s.recordOf n).st ≠ .making ∧ 0 < clear ∧ ∃ m ∈ s.circuit n, ∃ l ∈ (s.recordOf m).legs, l.st = .live

/-- The records of a circuit released without a clear-down (05 R92, R93). -/
def State.fastRecs (s : State) (n : Nat) (ans : Option ReleaseAnswer) : Nat → Rec :=
  changeOn (s.circuit n) (fun r => { r.breaking Leg.carries with st := .breaking }) (s.outOf n ans)

theorem fastRecs_of_mem {s : State} {n m : Nat} (hm : m ∈ s.circuit n) (ans : Option ReleaseAnswer) :
    s.fastRecs n ans m = { (s.recordOf m).outOfService.breaking Leg.carries with
      st := .breaking, relAns := if m = n then ans else (s.recordOf m).relAns } := by
  rw [State.fastRecs, changeOn_of_mem hm, outOf_of_mem hm]
  rfl

theorem fastRecs_self (s : State) (n : Nat) (ans : Option ReleaseAnswer) :
    (s.fastRecs n ans n).partner = (s.recordOf n).partner ∧ (s.fastRecs n ans n).openAns = (s.recordOf n).openAns := by
  rw [fastRecs_of_mem (mem_circuit s n)]
  exact ⟨rfl, rfl⟩

/-- The entries of a circuit released without a clear-down (05 R93). -/
def State.fastOffer (s : State) (n : Nat) : List Entry :=
  (s.circuit n).flatMap fun m => (s.recordOf m).carrying.map fun k => s.breakEntry m k

namespace Eff.Reads

variable {s : State} {e : Eff} {raise : Raise} {n : Nat}

/-- The next state of a claim, with its clear-down order. -/
theorem commit_order {recs : Nat → Rec} {offer : List Entry} {port : Port} (h : e.Reads s recs offer raise port) (o : Option ClearCount) :
    ({ e with order := o } : Eff).commit e.offer o s = { s with
      mgr := e.mgr
      sw := { s.sw with list := placeOffer s.sw.list offer, counts := s.sw.counts ++ o.toList }
      att := { s.att with raises := s.att.raises ++ (if raise = [] then [] else [(.manager, raise)]) }
      port := port } := by
  have ha : s.att.hand .manager raise = { s.att with raises := s.att.raises ++ (if raise = [] then [] else [(.manager, raise)]) } := by
    unfold Attention.hand
    split <;> simp
  simp only [Eff.commit, h.offer, h.ver, h.wat, h.port, h.raise, ha]

theorem of_offer {recs : Nat → Rec} {offer offer' : List Entry} {port : Port} (h : e.Reads s recs offer raise port) (ho : offer = offer') :
    e.Reads s recs offer' raise port := ho ▸ h

variable (h : e.Reads s s.recordOf [] raise s.port) (ans : Option ReleaseAnswer)
include h

theorem outOf (hms : (s.recordOf n).partner ≠ some n) (hap : ∀ m ∈ s.circuit n, ∀ o ∈ s.displacers m, o ∉ s.circuit n) :
    (((s.circuit n).foldl Eff.takeOut e).updRec n fun r => { r with relAns := ans }).Reads s (s.outOf n ans) [] raise s.port :=
  (h.takeOutEach (circuit_nodup hms) hap).upd n (fun r => { r with relAns := ans })


/-- The question that decides on a clear-down is asked of the legs that stay. -/
theorem any_live (hms : (s.recordOf n).partner ≠ some n) (hap : ∀ m ∈ s.circuit n, ∀ o ∈ s.displacers m, o ∉ s.circuit n) :
    ((s.circuit n).any fun m => (((((s.circuit n).foldl Eff.takeOut e).updRec n fun r => { r with relAns := ans }).recOf m).legs.any
      fun l => decide (l.st = .live))) = true ↔ ∃ m ∈ s.circuit n, ∃ l ∈ (s.recordOf m).legs, l.st = .live := by
  have h2 := h.outOf ans hms hap
  simp only [List.any_eq_true, decide_eq_true_eq]
  refine exists_congr fun m => and_congr_right fun hm => ?_
  rw [h2.recs, outOf_of_mem hm]
  simp only [Rec.outOfService, List.mem_filter, decide_eq_true_eq]
  exact exists_congr fun l => ⟨fun ⟨⟨h1, _⟩, h2⟩ => ⟨h1, h2⟩, fun ⟨h1, h2⟩ => ⟨⟨h1, by rw [h2]; decide⟩, h2⟩⟩

theorem releaseServing_slow (hms : (s.recordOf n).partner ≠ some n) (hap : ∀ m ∈ s.circuit n, ∀ o ∈ s.displacers m, o ∉ s.circuit n) {clear : Nat}
    (hs : s.slow n clear) : ∃ e' : Eff, e.releaseServing n clear ans =
        { e' with order := some ⟨s.handle ((s.circuit n).foldl min n), clear * 80, false, 0⟩ } ∧
      e'.Reads s (s.slowRecs n clear ans) (s.slowOffer n) raise s.port := by
  obtain ⟨hst, hpos, hlive⟩ := hs
  have h2 := h.outOf ans hms hap
  have hany := (h.any_live ans hms hap).2 hlive
  have hnd := circuit_nodup hms
  have h3 := h2.each (op := fun e m => e.breakLegs m fun l => decide (l.st = .making)) (f := (·.breaking fun l => decide (l.st = .making)))
    (ent := fun m r => (r.legs.filter fun l => decide (l.st = .making)).map fun l => s.breakEntry m l.slot) (fun _ _ _ he m => he.breakLegs m _) hnd
  have h4 := h3.each (op := fun e m => e.offerLegs m .release none) (f := id)
    (ent := fun m r => (r.legs.filter Leg.carries).map fun l => s.legEntry m r .release none l.changeKind l.slot)
    (fun _ recs _ he m => (he.offerLegs m _ _).of_recs fun j => by simp [changeOn]) hnd
  have h5 := h4.updEach (s.circuit n) (fun r => { r with st := .releasing, clearOf := some clear }) fun _ => rfl
  have hid (recs : Nat → Rec) : changeOn (s.circuit n) id recs = recs := by funext m; simp [changeOn]
  rw [hid] at h5
  refine ⟨_, ?_, h5.of_offer ?_⟩
  · have hmem : e.members n = s.circuit n := h.members n
    have hmaking : decide ((e.recOf n).st = .making) = false := by rw [h.recs]; exact decide_eq_false hst
    unfold Eff.releaseServing
    simp only [hmem, hmaking, hany, hpos, decide_true, Bool.not_false, Bool.and_self, if_true, h5.handleOf]
    rfl
  · refine congrArg₂ (· ++ ·) (List.flatMap_congr fun m hm => ?_) (List.flatMap_congr fun m hm => ?_)
    · rw [outOf_of_mem hm]
      exact congrArg (List.map _) (filter_outOfService (s.recordOf m) fun l hl => by simp at hl; simp [hl])
    · rw [changeOn_of_mem hm, outOf_of_mem hm]
      generalize hx : ({ (s.recordOf m).outOfService with relAns := if m = n then ans else (s.recordOf m).relAns } : Rec) = x
      have hl : x.legs = (s.recordOf m).outOfService.legs := by rw [← hx]
      have hg : s.legEntry m (x.breaking fun l => decide (l.st = .making)) .release none = s.legEntry m (s.recordOf m) .release none := by
        rw [← hx]
        exact legEntry_congr rfl rfl rfl rfl rfl _ _
      rw [hg]
      refine (offered_after_break x.legs (s.legEntry m (s.recordOf m) .release none)).trans ?_
      rw [hl, filter_outOfService _ fun l hl => by simp at hl; simp [hl]]

theorem releaseServing_fast (hms : (s.recordOf n).partner ≠ some n) (hap : ∀ m ∈ s.circuit n, ∀ o ∈ s.displacers m, o ∉ s.circuit n) {clear : Nat}
    (hs : ¬s.slow n clear) : ∃ e' : Eff, e.releaseServing n clear ans =
        (if (s.circuit n).all fun m => (e'.recOf m).legs.isEmpty then (s.circuit n).foldl Eff.enterFree e' else e') ∧
      e'.Reads s (if (s.recordOf n).st = .making then changeOn (s.circuit n) (·.answered (s.recordOf n).openAns) (s.fastRecs n ans) else s.fastRecs n ans)
        (s.fastOffer n) raise
        (if (s.recordOf n).st = .making then s.port.answerOpening (s.recordOf n).openAns .makeAborted
          (((s.recordOf n).openAns.map fun a => a.handles.flatMap handleBytes).getD []) else s.port) := by
  have h2 := h.outOf ans hms hap
  have hnd := circuit_nodup hms
  have hmem : e.members n = s.circuit n := h.members n
  have h3 := h2.each (op := fun e m => (e.breakLegs m Leg.carries).setState m .breaking) (f := fun r => { r.breaking Leg.carries with st := .breaking })
    (ent := fun m (r : Rec) => (r.legs.filter Leg.carries).map fun l : Leg => s.breakEntry m l.slot)
    (fun _ recs _ he m => ((he.breakLegs m Leg.carries).upd m fun r => { r with st := .breaking }).of_recs (changeOn_changeOn [m] _ _ recs)) hnd
  have ho : ([] ++ (s.circuit n).flatMap fun m => ((s.outOf n ans m).legs.filter Leg.carries).map fun l => s.breakEntry m l.slot) = s.fastOffer n := by
    refine List.flatMap_congr fun m hm => ?_
    rw [outOf_of_mem hm, Rec.carrying, List.map_map]
    exact congrArg (List.map _) (filter_outOfService (s.recordOf m) fun l hl => by rcases (carries_iff l).1 hl with hl | hl <;> simp [hl])
  rw [ho] at h3
  by_cases hst : (s.recordOf n).st = .making
  · have hm : decide ((e.recOf n).st = .making) = true := by rw [h.recs]; exact decide_eq_true hst
    have h4 := h3.answerOpen n .makeAborted ((((s.recordOf n).openAns.map (·.handles)).getD []).flatMap handleBytes)
    obtain ⟨hp, ha⟩ := fastRecs_self s n ans
    unfold State.fastRecs at hp ha
    rw [hp, ha] at h4
    have hres : (((s.recordOf n).openAns.map (·.handles)).getD []).flatMap handleBytes =
        ((s.recordOf n).openAns.map fun a => a.handles.flatMap handleBytes).getD [] := by cases (s.recordOf n).openAns <;> rfl
    rw [if_pos hst, if_pos hst, ← hres]
    refine ⟨_, ?_, h4⟩
    unfold Eff.releaseServing
    have hopen : (e.recOf n).openAns = (s.recordOf n).openAns := by rw [h.recs]
    simp only [hmem, hm, hopen]
    rfl
  · have hm : decide ((e.recOf n).st = .making) = false := by rw [h.recs]; exact decide_eq_false hst
    have hcond : (!false && decide (0 < clear) && ((s.circuit n).any fun m =>
        (((((s.circuit n).foldl Eff.takeOut e).updRec n fun r => { r with relAns := ans }).recOf m).legs.any fun l => decide (l.st = .live)))) = false := by
      refine Bool.eq_false_iff.2 fun hc => hs ?_
      obtain ⟨hpos, hany⟩ := Bool.and_eq_true_iff.1 hc
      exact ⟨hst, by simpa using hpos, (h.any_live ans hms hap).1 hany⟩
    rw [if_neg hst, if_neg hst]
    refine ⟨_, ?_, h3⟩
    unfold Eff.releaseServing
    simp only [hmem, hcond, hm]
    rfl

end Eff.Reads
end Sys2Proof.Machine

/-! SUPPORT. The release of a circuit as the statements say it (05 R92-R96). -/

namespace Sys2Proof.Machine

set_option Elab.async false

/-! ### Room for the entries of a release -/

theorem length_slowOffer (s : State) (n : Nat) : (s.slowOffer n).length = ((s.circuit n).flatMap fun m => (s.recordOf m).carrying).length := by
  rw [State.slowOffer, List.length_append]
  refine length_flatMap_add _ fun m => ?_
  simp only [Rec.carrying, List.length_map]
  exact length_making_live _

theorem length_fastOffer (s : State) (n : Nat) : (s.fastOffer n).length = ((s.circuit n).flatMap fun m => (s.recordOf m).carrying).length := by
  simp only [State.fastOffer, List.length_flatMap, List.length_map]

/-! ### The records of a release -/

theorem slowRecs_of_mem {s : State} {n m : Nat} (hm : m ∈ s.circuit n) (clear : Nat) (ans : Option ReleaseAnswer) :
    s.slowRecs n clear ans m = { (s.recordOf m).outOfService.breaking (fun l => decide (l.st = .making)) with
      st := .releasing, clearOf := some clear, relAns := if m = n then ans else (s.recordOf m).relAns } := by
  rw [State.slowRecs, changeOn_of_mem hm, changeOn_of_mem hm, outOf_of_mem hm]
  rfl

theorem slowRecs_of_not_mem {s : State} {n m : Nat} (hm : m ∉ s.circuit n) (clear : Nat) (ans : Option ReleaseAnswer) :
    s.slowRecs n clear ans m = if m ∈ (s.circuit n).flatMap s.displacers then { s.recordOf m with displ := none } else s.recordOf m := by
  rw [State.slowRecs, changeOn_of_not_mem hm, changeOn_of_not_mem hm, outOf_of_not_mem hm]

theorem fastRecs_of_not_mem {s : State} {n m : Nat} (hm : m ∉ s.circuit n) (ans : Option ReleaseAnswer) :
    s.fastRecs n ans m = if m ∈ (s.circuit n).flatMap s.displacers then { s.recordOf m with displ := none } else s.recordOf m := by
  rw [State.fastRecs, changeOn_of_not_mem hm, outOf_of_not_mem hm]

/-- The records of a circuit released without a clear-down, its opening answered if it was MAKING (05 R95). -/
theorem fastAnswered_of_mem {s : State} {n m : Nat} (hm : m ∈ s.circuit n) (ans : Option ReleaseAnswer) :
    (if (s.recordOf n).st = .making then changeOn (s.circuit n) (·.answered (s.recordOf n).openAns) (s.fastRecs n ans) else s.fastRecs n ans) m =
      { (s.recordOf m).outOfService.breaking Leg.carries with
        st := .breaking
        relAns := if m = n then ans else (s.recordOf m).relAns
        openAns := if (s.recordOf n).st = .making ∧ (s.recordOf n).openAns.isSome = true then none else (s.recordOf m).openAns
        roundTrip := if (s.recordOf n).st = .making ∧ (s.recordOf n).openAns.isSome = true then none else (s.recordOf m).roundTrip } := by
  by_cases hst : (s.recordOf n).st = .making
  · rw [if_pos hst, changeOn_of_mem hm, fastRecs_of_mem hm, Rec.answered]
    by_cases ho : (s.recordOf n).openAns.isSome = true
    · simp only [hst, ho, and_self, if_true]
    · simp only [hst, ho, and_false, if_false, Bool.false_eq_true]
      rfl
  · rw [if_neg hst, fastRecs_of_mem hm]
    simp only [hst, false_and, if_false]
    rfl

theorem fastAnswered_of_not_mem {s : State} {n m : Nat} (hm : m ∉ s.circuit n) (ans : Option ReleaseAnswer) :
    (if (s.recordOf n).st = .making then changeOn (s.circuit n) (·.answered (s.recordOf n).openAns) (s.fastRecs n ans) else s.fastRecs n ans) m =
      if m ∈ (s.circuit n).flatMap s.displacers then { s.recordOf m with displ := none } else s.recordOf m := by
  rw [← fastRecs_of_not_mem hm ans]
  split
  · exact changeOn_of_not_mem hm _ _
  · rfl

/-! ### The claim -/

section Claim
variable {s s' : State} {c : Instr} {k : Claim} {e : Eff} {n clear : Nat} {ans : Option ReleaseAnswer} {raise : Raise}

/-- A claim that releases a circuit of which some leg is not DISPLACED. -/
theorem exec_releases (hh : s.Hands c k s') (he : effect s'.port.defaults k (Eff.start s') = e.releaseServing n clear ans)
    (h : e.Reads s' s'.recordOf [] raise s'.port) (hr : s'.Releasable n) : ∃ t, exec c s = .next t ∧ s'.releases t n clear ans raise := by
  have hroom : s'.sw.list.length + ((s'.circuit n).flatMap fun m => (s'.recordOf m).carrying).length ≤ 96 := hr.room
  by_cases hs : s'.slow n clear
  · obtain ⟨e', he', h'⟩ := h.releaseServing_slow ans hr.other hr.apart hs
    have hx := exec_of_fits hh (he.trans he') (fits_of_room (by rw [show ({ e' with order := _ } : Eff).offer = e'.offer from rfl, h'.offer, length_slowOffer]; exact hroom))
    refine ⟨_, hx.trans (congrArg _ (h'.commit_order _)), fun m hm => ?_, h'.mgr, fun _ => ⟨fun m hm => ?_, ?_⟩, fun hns => absurd hs hns⟩
    · exact (h'.recs m).trans (slowRecs_of_not_mem hm _ _)
    · exact (h'.recs m).trans (slowRecs_of_mem hm _ _)
    · rfl
  · obtain ⟨e', he', h'⟩ := h.releaseServing_fast ans hr.other hr.apart hs
    have hleft : ((s'.circuit n).all fun m => (e'.recOf m).legs.isEmpty) = false := by
      obtain ⟨m, hm, l, hl, hst⟩ := hr.leg
      refine List.all_eq_false.2 ⟨m, hm, ?_⟩
      rw [h'.recs, fastAnswered_of_mem hm, List.isEmpty_iff]
      refine List.ne_nil_of_mem (List.mem_map_of_mem (List.mem_filter.2 ⟨hl, ?_⟩))
      exact decide_eq_true hst
    rw [hleft, if_neg Bool.false_ne_true] at he'
    have hx := exec_of_fits hh (he.trans he') (fits_of_room (by rw [h'.offer, length_fastOffer]; exact hroom))
    rw [h'.order] at hx
    refine ⟨_, hx.trans (congrArg _ (h'.commit_order none)), fun m hm => ?_, h'.mgr, fun hs' => absurd hs' hs, fun _ => ⟨fun m hm => ?_, ?_⟩⟩
    · exact (h'.recs m).trans (fastAnswered_of_not_mem hm _)
    · exact (h'.recs m).trans (fastAnswered_of_mem hm _)
    · simp only [Option.toList, List.append_nil]
      rfl

/-- A claim that releases a circuit with nothing but DISPLACED legs. -/
theorem exec_freesAtOnce (hh : s.Hands c k s') (he : effect s'.port.defaults k (Eff.start s') = e.releaseServing n clear ans)
    (h : e.Reads s' s'.recordOf [] raise s'.port) (hd : s'.OnlyDisplaced n) :
    ∃ t, exec c s = .next t ∧ s'.freesAtOnce t n raise (s'.port.answerRelease ans) := by
  have hother : (s'.recordOf n).partner ≠ some n := fun hp => (hd.other n hp).1 rfl
  have hst : (s'.recordOf n).st ≠ .making := by
    rcases hd.serving n (mem_circuit s' n) with hst | hst <;> rw [hst] <;> decide
  have hslow : ¬s'.slow n clear := fun ⟨_, _, m, hm, l, hl, hlive⟩ => by
    rw [hd.legs m hm l hl] at hlive
    cases hlive
  have hgone (m : Nat) (hm : m ∈ s'.circuit n) (p : Leg → Bool) (hp : ∀ l : Leg, p l = true → l.st ≠ .displaced) : (s'.recordOf m).legs.filter p = [] :=
    List.filter_eq_nil_iff.2 fun l hl hpl => hp l hpl (hd.legs m hm l hl)
  have hoffer : s'.fastOffer n = [] := by
    refine List.flatMap_eq_nil_iff.2 fun m hm => ?_
    rw [Rec.carrying, hgone m hm _ fun l hl => by rcases (carries_iff l).1 hl with hl | hl <;> simp [hl]]
    rfl
  obtain ⟨e', he', h'⟩ := h.releaseServing_fast ans hother hd.apart hslow
  rw [if_neg hst, if_neg hst, hoffer] at h'
  have hleft : ((s'.circuit n).all fun m => (e'.recOf m).legs.isEmpty) = true := by
    refine List.all_eq_true.2 fun m hm => ?_
    rw [h'.recs, fastRecs_of_mem hm, List.isEmpty_iff]
    exact List.map_eq_nil_iff.2 (hgone m hm _ fun l hl => of_decide_eq_true hl)
  rw [hleft, if_pos rfl] at he'
  have hsrc (m : Nat) : (s'.fastRecs n ans m).source = (s'.recordOf m).source := by
    by_cases hm : m ∈ s'.circuit n
    · rw [fastRecs_of_mem hm]; rfl
    · rw [fastRecs_of_not_mem hm]; split <;> rfl
  obtain ⟨t, hx, hc, hrecs, hfan⟩ := exec_of_freed (w := s'.mgr.wait) hh (circuit_nodup hother) (he.trans he') h' hsrc (fits_nil _)
  refine ⟨t, hx, ?_, hfan, fun m => ?_⟩
  · have hport : (s'.circuit n).foldl (fun p m => p.answerRelease (s'.fastRecs n ans m).relAns) s'.port = s'.port.answerRelease ans := by
      have hn : (s'.fastRecs n ans n).relAns = ans := by
        rw [fastRecs_of_mem (mem_circuit s' n)]
        exact if_pos rfl
      cases hq : (s'.recordOf n).partner with
      | none => simp [State.circuit, hq, hn]
      | some q =>
        have hqn : (s'.fastRecs n ans q).relAns = none := by
          obtain ⟨hne, hrel⟩ := hd.other q hq
          rw [fastRecs_of_mem (by simp [State.circuit, hq])]
          exact (if_neg hne).trans hrel
        simp [State.circuit, hq, hn, hqn, Port.answerRelease]
    rw [hport] at hc
    exact hc
  · rw [hrecs]
    by_cases hm : m ∈ s'.circuit n
    · exact (if_pos hm).trans (if_pos hm).symm
    · exact ((if_neg hm).trans (fastRecs_of_not_mem hm ans)).trans (if_neg hm).symm

end Claim
end Sys2Proof.Machine

/-! SUPPORT. The end of a wait for a unit, of a verification and of a test access, and a unit freed (04 R78, R86-R88, 08 R162). -/

namespace Sys2Proof.Machine

set_option Elab.async false

/-! ### Units -/

theorem unit_setUnit (v : Verifier) (u w : Nat) (x : VerifyUnit) : (v.setUnit u x).unit w = if w = u then x else v.unit w := by
  by_cases h : w = u
  · subst h
    rw [if_pos rfl]
    exact Tbl.get_set_same _ _ _ _
  · rw [if_neg h]
    exact Tbl.get_set_other _ _ _ h

/-- The first unit that names a circuit serves it (04 R72). -/
theorem serving_eq {v : Verifier} {u : Fin 4} {h : Handle} (hu : (v.unit u).circuit = some h) (hf : ∀ w : Fin 4, w < u → (v.unit w).circuit ≠ some h) :
    v.serving h = some u := by
  have hsplit : ∀ u : Fin 4, allUnits = allUnits.take u ++ u :: allUnits.drop (u + 1) := by decide
  have hlt : ∀ u w : Fin 4, w ∈ allUnits.take u → w < u := by decide
  refine List.find?_eq_some_iff_append.2 ⟨decide_eq_true hu, _, _, hsplit u, fun w hw => ?_⟩
  simpa using hf w (hlt u w hw)

/-- A unit assigned to a circuit, as the statements write it (04 R75). -/
def VerifyUnit.sending (h : Handle) (f : VerifyField) : VerifyUnit :=
  { VerifyUnit.idle with st := .sending, circuit := some h, ret := some f.ret, limit := f.tvfy * 80 }

/-- The unit after its assignment: SENDING, or DONE at once with its return lane not UP (04 R75, R82). -/
def VerifyUnit.afterAssign (up : Bool) (h : Handle) (f : VerifyField) : VerifyUnit :=
  if up then VerifyUnit.sending h f else { VerifyUnit.sending h f with st := .done, outcome := some .returnLost }

/-- A freed unit given to the circuit that waits for it (04 R78). -/
def Verifier.reassign (v : Verifier) (u : Fin 4) (h : Handle) (f : VerifyField) : Verifier := (v.setUnit u VerifyUnit.idle).assign u h f

theorem unit_reassign (v : Verifier) (u : Fin 4) (h : Handle) (f : VerifyField) (w : Fin 4) :
    (v.reassign u h f).unit w = if w = u then VerifyUnit.afterAssign (viewUp v.view f.ret.lane) h f else v.unit w := by
  have key (x : VerifyUnit) : ((v.setUnit u VerifyUnit.idle).setUnit u x).unit w = if w = u then x else v.unit w := by
    by_cases hw : w = u
    · rw [hw, unit_setUnit, if_pos rfl, if_pos rfl]
    · have hne : (w : Nat) ≠ u := fun hv => hw (Fin.ext hv)
      rw [unit_setUnit, if_neg hne, unit_setUnit, if_neg hne, if_neg hw]
  unfold Verifier.reassign Verifier.assign VerifyUnit.afterAssign
  rw [show (v.setUnit u VerifyUnit.idle).view = v.view from rfl]
  cases viewUp v.view f.ret.lane with
  | true => exact key _
  | false => exact key ((VerifyUnit.assigned h f).finish .returnLost 0)

theorem view_reassign (v : Verifier) (u : Fin 4) (h : Handle) (f : VerifyField) : (v.reassign u h f).view = v.view := by
  unfold Verifier.reassign Verifier.assign
  split <;> rfl

theorem outcomes_reassign (v : Verifier) (u : Fin 4) (h : Handle) (f : VerifyField) :
    (v.reassign u h f).outcomes = v.outcomes ++ if viewUp v.view f.ret.lane then [] else [⟨u, h, .returnLost⟩] := by
  unfold Verifier.reassign Verifier.assign
  rw [show (v.setUnit u VerifyUnit.idle).view = v.view from rfl]
  split
  · simp only [List.append_nil]; rfl
  · rfl

namespace Eff.Reads

variable {s : State} {e : Eff} {recs : Nat → Rec} {offer : List Entry} {raise : Raise} {port : Port} (h : e.Reads s recs offer raise port)
include h

/-! ### Another verifier, another wait list -/

theorem withVer (v : Verifier) : ({ e with ver := v } : Eff).Reads { s with ver := v } recs offer raise port := { h with ver := rfl }

theorem withWait (w : List Handle) :
    ({ e with mgr := { e.mgr with wait := w } } : Eff).Reads { s with mgr := { s.mgr with wait := w } } recs offer raise port :=
  { h with mgr := by rw [h.mgr] }

theorem wait : e.mgr.wait = s.mgr.wait := by rw [h.mgr]

/-- A unit is freed and no circuit waits (04 R78). -/
theorem freeUnit_idle (hw : s.mgr.wait = []) (u : Fin 4) :
    (e.freeUnit u).Reads { s with ver := s.ver.setUnit u VerifyUnit.idle } recs offer raise port := by
  have h1 := h.withVer (s.ver.setUnit u VerifyUnit.idle)
  unfold Eff.freeUnit
  simp only [h.wait, hw, h.ver]
  exact h1

/-- A unit is freed and assigned to the circuit at the head of the wait list (04 R78). -/
theorem freeUnit_assign {hd : Handle} {rest : List Handle} {f : VerifyField} (hw : s.mgr.wait = hd :: rest) (hv : (recs hd.num).verify = some f)
    (u : Fin 4) : (e.freeUnit u).Reads { s with ver := s.ver.reassign u hd f, mgr := { s.mgr with wait := rest } }
      (changeOn [hd.num] (fun r => { r with st := .verifying }) recs) (offer ++ s.changeEntries hd.num (recs hd.num) .token (some u)) raise port := by
  have h2 := ((h.withVer (s.ver.setUnit u VerifyUnit.idle)).withWait rest).upd hd.num fun r => { r with st := .verifying }
  have h3 := (h2.withVer (s.ver.reassign u hd f)).offerLegs hd.num .token (some u)
  have hv' : (({ e with ver := s.ver.setUnit u VerifyUnit.idle, mgr := { e.mgr with wait := rest } } : Eff).updRec hd.num fun r =>
      { r with st := .verifying }).recOf hd.num = { recs hd.num with st := .verifying } := by
    rw [h2.recs, changeOn_self]
  rw [changeOn_self] at h3
  unfold Eff.freeUnit
  simp only [h.wait, hw, h.ver, hv', hv]
  exact h3

end Eff.Reads

/-! ### The end of a wait for a unit (04 R86, R88) -/

theorem answered_source (a : Option OpenAnswer) (r : Rec) : (r.answered a).source = r.source := by
  unfold Rec.answered
  split <;> rfl

theorem answered_relAns (a : Option OpenAnswer) (r : Rec) : (r.answered a).relAns = r.relAns := by
  unfold Rec.answered
  split <;> rfl

section Claim
variable {s s' : State} {c : Instr} {k : Claim} {e : Eff} {n : Nat} {raise : Raise}

theorem length_breaks (s : State) (n : Nat) (legs : List Leg) : (legs.map fun l => s.breakEntry n l.slot).length = legs.length := List.length_map _

theorem filter_all {α : Type} (l : List α) : l.filter (fun _ => true) = l := List.filter_eq_self.2 fun _ _ => rfl

/-- A record whose wait for a unit has ended, before it enters FREE (04 R86). -/
def Rec.waitEnded (r : Rec) : Rec := (({ r with relAns := none } : Rec).breaking fun _ => true).answered r.openAns

theorem waitEnded_source (r : Rec) : r.waitEnded.source = r.source := answered_source _ _

theorem waitEnded_relAns (r : Rec) : r.waitEnded.relAns = none := answered_relAns _ _

/-- The answer to an opening that waited for a unit (04 R86; log 28). -/
theorem failureResults_waiting (hd : Handle) : failureResults hd none 0 = handleBytes hd ++ List.replicate 15 0 ++ [0xFF, 0, 0] := by
  simp [failureResults, unitByte, bytes16]

/-- A claim that ends a circuit's wait for a unit. -/
theorem exec_endsWaiting (hh : s.Hands c k s') (he : effect s'.port.defaults k (Eff.start s') = e.releaseWaiting n none)
    (h : e.Reads s' s'.recordOf [] raise s'.port) (hp : (s'.recordOf n).partner = none)
    (hroom : s'.sw.list.length + (s'.recordOf n).legs.length ≤ 96) : ∃ t, exec c s = .next t ∧ s'.endsWaiting t n raise := by
  have h1 := h.withWait (s'.mgr.wait.filter fun h => decide (h ≠ s'.handle n))
  have h2 := (h1.upd n (fun r => { r with relAns := none })).breakLegs n fun _ => true
  have h3 := h2.answerOpen n .verifyAborted (failureResults (s'.handle n) none 0)
  simp only [changeOn_self] at h3
  rw [show ((({ s'.recordOf n with relAns := none } : Rec).breaking fun _ => true)).partner = none from hp, filter_all] at h3
  have he' : effect s'.port.defaults k (Eff.start s') = [n].foldl Eff.enterFree _ := he.trans (by
    unfold Eff.releaseWaiting
    rw [h.handleOf, h.wait]
    rfl)
  have h4 := h3.of_recs (recs' := fun m => if m = n then (s'.recordOf m).waitEnded else s'.recordOf m) fun m => by
    simp only [Option.toList, changeOn_single]
    split
    · next hm => subst hm; rfl
    · rfl
  have hsrc (m : Nat) : (if m = n then (s'.recordOf m).waitEnded else s'.recordOf m).source = (s'.recordOf m).source := by
    split
    · exact waitEnded_source _
    · rfl
  obtain ⟨t, hx, hc, hrecs, hfan⟩ := exec_of_freed hh (List.nodup_singleton n) he' h4 hsrc
    (fits_of_room (by rw [List.nil_append, length_breaks]; exact hroom))
  rw [List.foldl_cons, List.foldl_nil, if_pos rfl, waitEnded_relAns, failureResults_waiting] at hc
  refine ⟨t, hx, hc, fun m => ?_, hfan⟩
  rw [hrecs]
  simp only [List.mem_singleton]
  split
  · next hm => rw [hm]
  · rfl

/-! ### The end of a verification (04 R85, R87) -/

/-- A record whose verification has ended (04 R85). -/
def Rec.verifyEnded (r : Rec) (ans : Option ReleaseAnswer) : Rec :=
  (({ r with st := .breaking, verify := none, lease := none, reload := none, target := none, relAns := ans } : Rec).breaking
    fun _ => true).answered r.openAns

theorem verifyEnded_eq (r : Rec) (ans : Option ReleaseAnswer) : r.verifyEnded ans = { r.breaking (fun _ => true) with
    st := .breaking
    verify := none
    lease := none
    reload := none
    target := none
    openAns := none
    roundTrip := if r.openAns.isSome then none else r.roundTrip
    relAns := ans } := by
  unfold Rec.verifyEnded Rec.answered Rec.breaking
  cases r.openAns <;> simp

@[simp] theorem offerLegs_ver (e : Eff) (n : Nat) (d : Drive) (u : Option (Fin 4)) : (e.offerLegs n d u).ver = e.ver := by
  unfold Eff.offerLegs
  generalize (e.recOf n).legs.filter Leg.carries = l
  induction l generalizing e with
  | nil => rfl
  | cons x l ih => exact ih _

/-- A freed unit is IDLE, or assigned to the circuit that waits for it (04 R78). -/
theorem freeUnit_ver (e : Eff) (u : Fin 4) :
    (e.freeUnit u).ver = e.ver.setUnit u VerifyUnit.idle ∨ ∃ h f, (e.freeUnit u).ver = e.ver.reassign u h f := by
  unfold Eff.freeUnit
  simp only
  split
  · exact .inl rfl
  · next hd rest _ =>
    rw [offerLegs_ver]
    split
    · next f _ => exact .inr ⟨hd, f, rfl⟩
    · exact .inl rfl

/-- Freeing a unit leaves the others and the view of the lanes (04 R78). -/
theorem freeUnit_others (e : Eff) (u : Fin 4) : (∀ v : Fin 4, v ≠ u → (e.freeUnit u).ver.unit v = e.ver.unit v) ∧ (e.freeUnit u).ver.view = e.ver.view := by
  rcases freeUnit_ver e u with h | ⟨hd, f, h⟩ <;> rw [h]
  · exact ⟨fun v hv => (unit_setUnit _ _ _ _).trans (if_neg fun he => hv (Fin.ext he)), rfl⟩
  · exact ⟨fun v hv => (unit_reassign _ _ _ _ _).trans (if_neg hv), view_reassign _ _ _ _⟩

/-- The end of a verification, up to the freeing of its unit. -/
theorem endVerifying_reads {u : Fin 4} (h : e.Reads s s.recordOf [] raise s.port) (hv : s.Verifies n u) (st : Status) (ans : Option ReleaseAnswer) :
    ∃ e' : Eff, e.endVerifying n st ans = e'.freeUnit u ∧
      e'.Reads s (fun m => if m = n then (s.recordOf m).verifyEnded ans else s.recordOf m) ((s.recordOf n).legs.map fun l => s.breakEntry n l.slot) raise
        (s.port.answerOpening (s.recordOf n).openAns st (failureResults (s.handle n) (some u) (s.ver.unit u).frames)) := by
  have h1 := h.upd n fun r => { r with st := .breaking, verify := none, lease := none, reload := none, target := none, relAns := ans }
  have h2 := h1.breakLegs n fun _ => true
  have h3 := h2.answerOpen n st (failureResults (s.handle n) (some u) (s.ver.unit u).frames)
  simp only [changeOn_self] at h3
  rw [show (({ s.recordOf n with st := .breaking, verify := none, lease := none, reload := none, target := none, relAns := ans } : Rec).breaking
    fun _ => true).partner = none from hv.alone, filter_all] at h3
  refine ⟨_, ?_, h3.of_recs fun m => ?_⟩
  · have hs : e.ver.serving (e.handleOf n) = some u := by rw [h.ver, h.handleOf]; exact serving_eq hv.unit hv.first
    unfold Eff.endVerifying
    simp only [hs]
    rw [h.handleOf, h.ver]
  · simp only [Option.toList, changeOn_single]
    split
    · next hm => subst hm; rfl
    · rfl

theorem length_changeEntries_le (s : State) (n : Nat) (x : Rec) (d : Drive) (u : Option (Fin 4)) : (s.changeEntries n x d u).length ≤ x.legs.length := by
  unfold State.changeEntries
  rw [List.length_map]
  exact List.length_filter_le _ _

/-- A claim that ends the verification of a circuit. -/
theorem exec_endsVerifying {u : Fin 4} {st : Status} {ans : Option ReleaseAnswer} (hh : s.Hands c k s')
    (he : effect s'.port.defaults k (Eff.start s') = e.endVerifying n st ans) (h : e.Reads s' s'.recordOf [] raise s'.port) (hv : s'.Verifies n u) :
    ∃ t, exec c s = .next t ∧ s'.endsVerifying t n u st ans raise := by
  obtain ⟨e', he', h'⟩ := endVerifying_reads h hv st ans
  have hx := exec_of_hands hh
  have heff := he.trans he'
  have hroom := hv.room
  -- The next state is one whatever the wait list holds; the rest of the statement is said case by case.
  have same {t : State} (ht : exec c s = .next t) : s'.takeClaim k = t := by rw [hx] at ht; cases ht; rfl
  have hothers : (∀ v : Fin 4, v ≠ u → (s'.takeClaim k).ver.unit v = s'.ver.unit v) ∧ (s'.takeClaim k).ver.view = s'.ver.view := by
    rcases takeClaim_cases s' k with ⟨e'', rfl, _, ht⟩ | ⟨_, _, _, ht⟩ <;> rw [ht]
    · rw [show ∀ a b, ((effect s'.port.defaults k (Eff.start s')).commit a b s').ver = (effect s'.port.defaults k (Eff.start s')).ver from fun _ _ => rfl,
        heff, ← h'.ver]
      exact freeUnit_others e' u
    · exact ⟨fun _ _ => rfl, rfl⟩
  refine ⟨_, hx, hothers.1, hothers.2, fun hw => ?_, fun hd rest f hw hst hvf => ?_⟩
  · obtain ⟨t, ht, hc, hrecs, hfan, hver⟩ := exec_of_reads hh (w := s'.mgr.wait) (by rw [heff]; exact h'.freeUnit_idle hw u)
      (fits_of_room (by rw [length_breaks]; omega))
    obtain rfl := same ht
    rw [hver]
    refine ⟨hc, fun m => ?_, hfan, ?_, rfl⟩
    · rw [hrecs]
      split
      · next hm => rw [hm]; exact verifyEnded_eq _ _
      · rfl
    · exact (unit_setUnit _ _ _ _).trans (if_pos rfl)
  · have hne : hd.num ≠ n := fun hn => by rw [hn, hv.st] at hst; cases hst
    have hvf' : (if hd.num = n then (s'.recordOf hd.num).verifyEnded ans else s'.recordOf hd.num).verify = some f := by rw [if_neg hne]; exact hvf
    have h4 := h'.freeUnit_assign hw hvf' u
    simp only [if_neg hne] at h4
    obtain ⟨t, ht, hc, hrecs, hfan, hver⟩ := exec_of_reads hh (by rw [heff]; exact h4) (fits_of_room (by
      rw [List.length_append, length_breaks]
      have := length_changeEntries_le s' hd.num (s'.recordOf hd.num) .token (some u)
      rw [hw] at hroom
      simp only [List.map_cons, List.headD_cons] at hroom
      omega))
    obtain rfl := same ht
    rw [hver]
    refine ⟨hc, fun m => ?_, hfan, ?_, outcomes_reassign _ _ _ _⟩
    · rw [hrecs, changeOn_single]
      by_cases hn : m = n
      · subst hn
        rw [if_neg hne.symm, if_pos rfl, if_pos List.mem_cons_self]
        exact (verifyEnded_eq _ _).trans (if_pos rfl).symm
      · by_cases hm : m = hd.num
        · rw [if_pos hm, if_neg hn, if_pos (by simp [hm])]
          exact (if_neg hn).symm
        · rw [if_neg hm, if_neg hn, if_neg (by simp [hm, hn])]
    · exact (unit_reassign _ _ _ _ _).trans (if_pos rfl)

/-! ### The end of a test access (08 R162) -/

/-- A test record whose access has ended (08 R162). -/
def Rec.accessEnded (r : Rec) (owner : Option (Handle × Slot)) (ans : Option ReleaseAnswer) : Rec :=
  { r with
    st := .breaking, lease := none, reload := none, target := none, displ := none, restoring := owner, relAns := ans,
    legs := r.legs.map fun l => { l with st := .breaking, yielded := r.displ.isSome } }

theorem targetDrive_eq (r : Rec) : (match r.target with | some t => t.drive | none => Drive.source) = r.targetDrive := by
  unfold Rec.targetDrive
  split
  · next t ht => cases t <;> simp [ht, Target.drive]
  · next ht => simp [ht]

/-- A displaced owner's record with its leg given back (08 R162). -/
def Rec.givenBack (r : Rec) (j : Slot) : Rec := r.updLeg j fun l => { l with st := .making, link := none }

/-- The entry that gives a loop slot back shows the owner as it stood (08 R162). -/
theorem restoration_entry {recs : Nat → Rec} {offer : List Entry} {port : Port} {o : Nat} {j : Slot} (h : e.Reads s recs offer raise port)
    (hro : e.recOf o = (s.recordOf o).givenBack j) (hd : Handle) :
    e.addEntry j (e.content o (e.recOf o).targetDrive none) [⟨hd, .broken⟩, ⟨e.handleOf o, .made⟩] =
      e.addEntry j (legContent o (s.recordOf o) (s.recordOf o).targetDrive none) [⟨hd, .broken⟩, ⟨s.handle o, .made⟩] := by
  have hc : e.content o (e.recOf o).targetDrive none = legContent o (s.recordOf o) (s.recordOf o).targetDrive none := by
    rw [h.content, ← h.recs, hro]
    rfl
  rw [h.handleOf, hc]

/-- A claim that ends a test access. -/
theorem exec_endsAccess {ans : Option ReleaseAnswer} (hh : s.Hands c k s') (he : effect s'.port.defaults k (Eff.start s') = e.endAccess n ans)
    (h : e.Reads s' s'.recordOf [] raise s'.port) (hd : ∀ d, (s'.recordOf n).displ = some d → d.1 ≠ n)
    (hroom : s'.sw.list.length + (s'.recordOf n).legs.length + 1 ≤ 96) : ∃ t, exec c s = .next t ∧ s'.endsAccess t n ans raise s'.port := by
  have hmap (x : Option (Nat × Slot)) (hx : (s'.recordOf n).displ = x) : (s'.recordOf n).displ.map (fun d => (s'.handle d.1, d.2)) =
      x.map fun d => (s'.handle d.1, d.2) := by rw [hx]
  cases hdis : (s'.recordOf n).displ with
  | none =>
    have h1 := h.upd n (·.accessEnded none ans)
    have h2 := h1.addEntries (s'.recordOf n).legs (·.slot) (fun _ => Content.idle) (fun _ _ => [⟨s'.handle n, .broken⟩])
      (fun l => s'.breakEntry n l.slot) fun _ _ _ _ => rfl
    have heff := he.trans (show e.endAccess n ans = _ by
      unfold Eff.endAccess
      simp only [h.recs, hdis, h.handleOf]
      rfl)
    obtain ⟨t, hx, hc, hrecs, hfan, _⟩ := exec_of_reads (v := s'.ver) (w := s'.mgr.wait) hh (by rw [heff]; exact h2)
      (fits_of_room (by rw [List.nil_append, length_breaks]; omega))
    refine ⟨t, hx, hfan, fun _ => ⟨hc, fun m => ?_⟩, fun o j hoj => by rw [hdis] at hoj; cases hoj⟩
    rw [hrecs, changeOn_single]
    split
    · next hm =>
      subst hm
      exact congrArg (fun x => (s'.recordOf m).accessEnded x ans) (hmap none hdis).symm
    · rfl
  | some ok =>
    obtain ⟨o, j⟩ := ok
    have ho : o ≠ n := hd _ hdis
    have h1 := h.upd n (·.accessEnded (some (s'.handle o, j)) ans)
    have h2 := h1.upd o (·.givenBack j)
    have hro : ((e.updRec n (·.accessEnded (some (s'.handle o, j)) ans)).updRec o (·.givenBack j)).recOf o = (s'.recordOf o).givenBack j := by
      rw [h2.recs, changeOn_self, changeOn_single, if_neg ho]
    have h3 := h2.addEntry j (legContent o (s'.recordOf o) (s'.recordOf o).targetDrive none) [⟨s'.handle n, .broken⟩, ⟨s'.handle o, .made⟩]
    have heff : e.endAccess n ans = ((e.updRec n (·.accessEnded (some (s'.handle o, j)) ans)).updRec o (·.givenBack j)).addEntry j
        (legContent o (s'.recordOf o) (s'.recordOf o).targetDrive none) [⟨s'.handle n, .broken⟩, ⟨s'.handle o, .made⟩] := by
      unfold Eff.endAccess
      simp only [h.recs, hdis, h.handleOf]
      have hentry := restoration_entry h2 hro (s'.handle n)
      rw [← targetDrive_eq (Eff.recOf _ o)] at hentry
      exact hentry
    obtain ⟨t, hx, hc, hrecs, hfan, _⟩ := exec_of_reads (v := s'.ver) (w := s'.mgr.wait) hh (by rw [he, heff]; exact h3)
      (fits_of_room (by simp only [List.nil_append, List.length_singleton]; omega))
    refine ⟨t, hx, hfan, fun hno => (nomatch hdis.symm.trans hno), fun o' j' hoj => ?_⟩
    rw [hdis] at hoj
    cases hoj
    refine ⟨hc, fun m => ?_⟩
    rw [hrecs, changeOn_single]
    by_cases hmo : m = o
    · subst hmo
      rw [if_pos rfl, changeOn_single, if_neg ho, if_pos (by simp)]
      exact (if_neg ho).symm
    · rw [if_neg hmo, changeOn_single]
      by_cases hmn : m = n
      · subst hmn
        rw [if_pos rfl, if_pos List.mem_cons_self]
        exact (congrArg (fun x => (s'.recordOf m).accessEnded x ans) (hmap _ hdis).symm).trans (if_pos rfl).symm
      · rw [if_neg hmn, if_neg (by simp [hmo, hmn])]

end Claim
end Sys2Proof.Machine

/-! SUPPORT. Clear-down ends and expiries (05 R98, R104). -/

namespace Sys2Proof.Machine

set_option Elab.async false

/-! ### A clear-down end -/

theorem current_handle {s : State} {n : Nat} (hn : n < 512) : s.isCurrent (s.handle n) = true := decide_eq_true ⟨hn, rfl⟩

/-- A clear-down end takes the records of a RELEASING circuit to BREAKING and breaks their LIVE legs (05 R98). -/
theorem clearDownEnd_reads {s : State} {n : Nat} (hn : n < 512) (hst : (s.recordOf n).st = .releasing) (hp : (s.recordOf n).partner ≠ some n) :
    (effClearDownEnd (s.handle n) (Eff.start s)).Reads s
      (changeOn (s.circuit n) (fun r => { r.breaking (fun l => decide (l.st = .live)) with st := .breaking, clearOf := none }) s.recordOf)
      ((s.circuit n).flatMap fun m => ((s.recordOf m).legs.filter fun l => decide (l.st = .live)).map fun l => s.breakEntry m l.slot) [] s.port := by
  have h := Eff.Reads.start s
  have he : effClearDownEnd (s.handle n) (Eff.start s) = (s.circuit n).foldl (fun e m =>
      (e.updRec m fun r => { r with st := .breaking, clearOf := none }).breakLegs m fun l => decide (l.st = .live)) (Eff.start s) :=
    if_pos ⟨(h.current _).trans (current_handle hn), hst⟩
  rw [he]
  refine (h.each (f := fun r => { r.breaking (fun l => decide (l.st = .live)) with st := .breaking, clearOf := none })
    (ent := fun m (r : Rec) => (r.legs.filter fun l => decide (l.st = .live)).map fun l : Leg => s.breakEntry m l.slot)
    (fun e recs offer he m => ?_) (circuit_nodup hp)).of_offer (List.nil_append _)
  have h2 := (he.upd m fun r => { r with st := .breaking, clearOf := none }).breakLegs m fun l => decide (l.st = .live)
  rw [changeOn_self] at h2
  exact h2.of_recs (changeOn_changeOn [m] _ _ recs)

/-! ### An expiry -/

theorem releaseCircuit_serving {e : Eff} {n clear : Nat} {ans : Option ReleaseAnswer}
    (h : (e.recOf n).st = .making ∨ (e.recOf n).st = .active ∨ (e.recOf n).st = .held) : e.releaseCircuit n clear ans = e.releaseServing n clear ans := by
  unfold Eff.releaseCircuit
  rcases h with h | h | h <;> rw [h]

theorem releaseCircuit_waiting {e : Eff} {n clear : Nat} {ans : Option ReleaseAnswer} (h : (e.recOf n).st = .verifyWait) :
    e.releaseCircuit n clear ans = e.releaseWaiting n ans := by
  unfold Eff.releaseCircuit
  rw [h]

theorem releaseCircuit_verifying {e : Eff} {n clear : Nat} {ans : Option ReleaseAnswer} (h : (e.recOf n).st = .verifying) :
    e.releaseCircuit n clear ans = e.endVerifying n .verifyAborted ans := by
  unfold Eff.releaseCircuit
  rw [h]

/-- EXPIRED is raised on the records of the circuit (05 R104). -/
def State.expiredRaises (s : State) (n : Nat) : Raise := (s.circuit n).map fun m => (81 + m, .expired)

/-- An expiry claim that has raised its causes (05 R104). -/
def State.expiring (s : State) (n : Nat) : Eff := (s.circuit n).foldl (fun e m => e.raiseOn m .expired) (Eff.start s)

theorem expiring_reads (s : State) (n : Nat) : (s.expiring n).Reads s s.recordOf [] (s.expiredRaises n) s.port :=
  (Eff.Reads.start s).raiseEach (s.circuit n) .expired

/-- A valid expiry raises its causes first, and then takes the circuit down (05 R104). -/
theorem effExpiry_valid {s : State} {n : Nat} (hn : n < 512) (hlease : (s.recordOf n).lease = some 0)
    (hst : (s.recordOf n).st ≠ .releasing ∧ (s.recordOf n).st ≠ .breaking) :
    effExpiry (s.handle n) (Eff.start s) = if (s.recordOf n).cls = .test then (s.expiring n).endAccess n none
      else (s.expiring n).releaseCircuit n (s.recordOf n).clearDown none := by
  have he : (Eff.start s).expired (s.handle n) = true := by
    refine Bool.and_eq_true_iff.2 ⟨((Eff.Reads.start s).current _).trans (current_handle hn), decide_eq_true ⟨hst.1, hst.2, hlease⟩⟩
  have hr : (s.expiring n).recOf n = s.recordOf n := (expiring_reads s n).recs n
  refine (if_pos he).trans ?_
  show (if ((s.expiring n).recOf n).cls = .test then (s.expiring n).endAccess n none
    else (s.expiring n).releaseCircuit n ((s.expiring n).recOf n).clearDown none) = _
  rw [hr]

/-- A circuit that may be released is MAKING, ACTIVE or HELD (05 R91). -/
theorem State.Releasable.making_or_serving {s : State} {n : Nat} (h : s.Releasable n) :
    (s.recordOf n).st = .making ∨ (s.recordOf n).st = .active ∨ (s.recordOf n).st = .held := by
  rcases h.serving with hs | hs
  · exact .inr (hs n (mem_circuit s n))
  · exact .inl (hs n (mem_circuit s n))

theorem not_ending {st : CircState} (h : st = .making ∨ st = .active ∨ st = .held) : st ≠ .releasing ∧ st ≠ .breaking := by
  rcases h with rfl | rfl | rfl <;> decide

/-! ### The statements -/

/-- Settles O48: a stale claim computes to nothing; of the others each is read off the rule of the operation it ends in. -/
theorem clearDownEndsAndExpiriesTakeCircuitsDown : Obligations.ClearDownEndsAndExpiriesTakeCircuitsDown := by
  refine ⟨⟨fun s x rest hr hx h => ?_, fun s hd rest hr hx h => ?_, fun s hd rest hr hx h => ?_⟩, fun s n rest hr hn hx hst hp => ?_,
    fun s n rest hr hn hx hl => ?_⟩
  · exact exec_of_idle (.report x rest hr hx) (effReport_stale h)
  · exact exec_of_idle (.clearDownEnd hd rest hr hx) (effClearDownEnd_stale h)
  · exact exec_of_idle (.expiry hd rest hr hx) (effExpiry_stale h)
  · intro ms live hroom
    have hoffer : (ms.flatMap fun m => ((s.recordOf m).legs.filter fun l => decide (l.st = .live)).map fun l => s.breakEntry m l.slot) =
        ms.flatMap fun m => (live m).map fun k => s.breakEntry m k := List.flatMap_congr fun m _ => by rw [List.map_map]; rfl
    have hreads := clearDownEnd_reads (s := { s with sw := { s.sw with ends := rest } }) hn hst hp
    obtain ⟨t, ht, hc, hrecs, hfan, _⟩ := exec_of_reads (v := s.ver) (w := s.mgr.wait) (.clearDownEnd (s.handle n) rest hr hx) (hreads.of_offer hoffer)
      (fits_of_room (by simp only [List.length_flatMap, List.length_map] at hroom ⊢; exact hroom))
    exact ⟨t, ht, hc, hrecs, hfan⟩
  · intro s' raises
    have hh := State.Hands.expiry (s.handle n) rest hr hx
    have h := expiring_reads s' n
    have heff := effExpiry_valid (s := s') hn hl
    refine ⟨fun hcls hrel => ?_, fun hcls hd => ?_, fun hcls hst hp hroom => ?_, fun u hcls hv => ?_, fun hcls h1 h2 hd hroom => ?_⟩
    · have hst := hrel.making_or_serving
      refine exec_releases hh ?_ h ⟨hrel.serving, hrel.other, hrel.apart, hrel.leg, hrel.room⟩
      exact ((heff (not_ending hst)).trans (if_neg hcls)).trans (releaseCircuit_serving (by rw [h.recs]; exact hst))
    · have hst : (s.recordOf n).st = .making ∨ (s.recordOf n).st = .active ∨ (s.recordOf n).st = .held := .inr (hd.serving n (mem_circuit s n))
      refine exec_freesAtOnce (clear := (s.recordOf n).clearDown) (ans := none) hh ?_ h ⟨hd.serving, hd.legs, hd.other, hd.apart⟩
      exact ((heff (not_ending hst)).trans (if_neg hcls)).trans (releaseCircuit_serving (by rw [h.recs]; exact hst))
    · refine exec_endsWaiting hh ?_ h hp hroom
      refine ((heff ?_).trans (if_neg hcls)).trans (releaseCircuit_waiting (by rw [h.recs]; exact hst))
      exact ⟨fun hc => (nomatch hst.symm.trans hc), fun hc => (nomatch hst.symm.trans hc)⟩
    · refine exec_endsVerifying hh ?_ h ⟨hv.st, hv.alone, hv.range, hv.unit, hv.first, hv.room⟩
      refine ((heff ?_).trans (if_neg hcls)).trans (releaseCircuit_verifying (by rw [h.recs]; exact hv.st))
      exact ⟨fun hc => (nomatch hv.st.symm.trans hc), fun hc => (nomatch hv.st.symm.trans hc)⟩
    · exact exec_endsAccess hh ((heff ⟨h1, h2⟩).trans (if_pos hcls)) h hd hroom

end Sys2Proof.Machine

/-! SUPPORT. Boundary reports (03 R59): the outcomes on the legs, then each circuit-level change, on the one or two circuits that a report names. -/

namespace Sys2Proof.Machine

set_option Elab.async false

/-! ### Outcomes on legs -/

/-- A record after one outcome on a slot (03 R59). -/
def Rec.outcome (r : Rec) (o : Slot × OutcomeKind) : Rec :=
  { r with legs := r.legs.filterMap fun l => if l.slot = o.1 then l.after o.2 else some l }

/-- A leg after all outcomes on its record, each on a slot (03 R59); none: the leg is removed. -/
def Leg.afterAll (outs : List (Slot × OutcomeKind)) (l : Leg) : Option Leg :=
  if l.st = .breaking ∧ (l.slot, .broken) ∈ outs then none
  else some (if l.st = .making ∧ (l.slot, .made) ∈ outs then { l with st := .live } else l)

theorem legsAfter_eq (r : Rec) (outs : List (Slot × OutcomeKind)) : r.legsAfter outs = r.legs.filterMap (Leg.afterAll outs) := by
  unfold Rec.legsAfter
  induction r.legs with
  | nil => rfl
  | cons l legs ih =>
    rw [List.filterMap_cons, ← ih, Leg.afterAll]
    by_cases h : l.st = .breaking ∧ (l.slot, OutcomeKind.broken) ∈ outs
    · simp [h]
    · rw [if_neg h, List.filter_cons_of_pos (by rw [decide_eq_false h]; rfl), List.map_cons]

/-- The first outcome and then the rest. -/
theorem afterAll_cons (o : Slot × OutcomeKind) (outs : List (Slot × OutcomeKind)) (l : Leg) :
    (if l.slot = o.1 then l.after o.2 else some l).bind (Leg.afterAll outs) = l.afterAll (o :: outs) := by
  obtain ⟨k, kind⟩ := o
  obtain ⟨j, st, y, d⟩ := l
  by_cases hk : j = k
  · subst hk
    cases st <;> cases kind <;> simp [Leg.after, Leg.afterAll]
  · simp [Leg.afterAll, hk]

/-- Outcome by outcome, or all at once: the legs are the same. -/
theorem foldl_outcome (outs : List (Slot × OutcomeKind)) (r : Rec) : outs.foldl Rec.outcome r = { r with legs := r.legsAfter outs } := by
  induction outs generalizing r with
  | nil =>
    have hid : r.legs.filterMap (Leg.afterAll []) = r.legs := by
      rw [show Leg.afterAll [] = some from funext fun l => by simp [Leg.afterAll]]
      exact List.filterMap_some
    rw [legsAfter_eq, hid]
    rfl
  | cons o outs ih =>
    rw [List.foldl_cons, ih, legsAfter_eq, legsAfter_eq]
    simp only [Rec.outcome, List.filterMap_filterMap, afterAll_cons]

theorem firstOf_const {α : Type} [DecidableEq α] {l : List α} {a : α} (hl : l ≠ []) (h : ∀ x ∈ l, x = a) : firstOf l = [a] := by
  cases l with
  | nil => exact absurd rfl hl
  | cons x xs =>
    obtain rfl := h x List.mem_cons_self
    refine congrArg (x :: ·) (List.filter_eq_nil_iff.2 fun y hy => ?_)
    simp [h y (List.mem_cons_of_mem _ (mem_firstOf.1 hy))]

namespace Eff.Reads

variable {s : State} {e : Eff} {recs : Nat → Rec} {offer : List Entry} {raise : Raise} {port : Port} (h : e.Reads s recs offer raise port)
include h

theorem takeOutcome {n : Nat} (hn : n < 512) (k : Slot) (kind : OutcomeKind) :
    (e.takeOutcome k ⟨s.handle n, kind⟩).Reads s (changeOn [n] (·.outcome (k, kind)) recs) offer raise port := by
  unfold Eff.takeOutcome
  rw [h.current, current_handle hn, if_pos rfl]
  exact h.upd n (·.outcome (k, kind))

/-- The outcomes of a report that names one circuit. -/
theorem takeOutcomes {n : Nat} (hn : n < 512) (outs : List (Slot × OutcomeKind)) :
    (outs.foldl (fun e o => e.takeOutcome o.1 ⟨s.handle n, o.2⟩) e).Reads s (changeOn [n] (fun r => { r with legs := r.legsAfter outs }) recs)
      offer raise port := by
  have key : ∀ {e : Eff} {recs : Nat → Rec}, e.Reads s recs offer raise port →
      (outs.foldl (fun e o => e.takeOutcome o.1 ⟨s.handle n, o.2⟩) e).Reads s (changeOn [n] (outs.foldl Rec.outcome) recs) offer raise port := by
    induction outs with
    | nil => exact fun h => h.of_recs fun m => by simp [changeOn]
    | cons o outs ih => exact fun h => (ih (h.takeOutcome hn o.1 o.2)).of_recs (changeOn_changeOn [n] _ _ _)
  exact (key h).of_recs fun m => by rw [show (outs.foldl Rec.outcome) = fun r => { r with legs := r.legsAfter outs } from funext (foldl_outcome outs)]

/-! ### Circuit-level changes -/

/-- A change on the one circuit that a report names. -/
theorem phase_single {n : Nat} (hn : n < 512) (f : Eff → Nat → Eff) : e.phase [s.handle n] f = f e n := by
  unfold Eff.phase
  rw [List.foldl_cons, List.foldl_nil, h.current, current_handle hn, if_pos rfl]
  rfl

theorem raiseFaults (ms : List Nat) :
    (ms.foldl Eff.raiseFault e).Reads s recs offer (raise ++ ms.flatMap fun m => if (recs m).fault then [(81 + m, .sourceFault)] else []) port := by
  induction ms generalizing e raise with
  | nil => simpa using h
  | cons m ms ih =>
    have h1 : (e.raiseFault m).Reads s recs offer (raise ++ if (recs m).fault then [(81 + m, .sourceFault)] else []) port := by
      unfold Eff.raiseFault
      rw [h.recs]
      split
      · exact h.raiseOn m .sourceFault
      · rw [List.append_nil]; exact h
    simpa using ih h1

theorem completeMake_stands {n : Nat} (hs : (recs n).st ≠ .making ∨ ∃ l ∈ (recs n).legs, l.st = .making) : e.completeMake n = e := by
  refine if_neg fun ⟨hst, hall⟩ => ?_
  rw [h.recs] at hst hall
  rcases hs with hs | ⟨l, hl, hm⟩
  · exact hs hst
  · have := List.all_eq_true.1 hall l hl
    simp [hm] at this

theorem completeDrive_stands {n : Nat} (hs : (recs n).target = none ∨ ((recs n).st ≠ .active ∧ (recs n).st ≠ .held)) : e.completeDrive n = e := by
  unfold Eff.completeDrive
  rw [h.recs]
  rcases hs with hs | ⟨h1, h2⟩
  · rw [hs]
  · cases (recs n).target with
    | none => rfl
    | some t => exact if_neg fun hc => hc.elim h1 h2

/-- A pending drive change is complete (03 R68). -/
theorem completeDrive {n : Nat} {t : Target} (ht : (recs n).target = some t) (hs : (recs n).serving) :
    (e.completeDrive n).Reads s (changeOn [n] (fun r => { r with st := t.state }) recs) offer raise port := by
  unfold Eff.completeDrive
  rw [h.recs, ht]
  simp only
  rw [if_pos (show _ ∨ _ from hs)]
  exact h.upd n fun r => { r with st := t.state }

/-- A circuit that is ACTIVE already, with drive target SOURCE, stays as it is. -/
theorem completeDrive_active {n : Nat} (ht : (recs n).target = some .source) (hst : (recs n).st = .active) :
    (e.completeDrive n).Reads s recs offer raise port :=
  (h.completeDrive ht (.inl hst)).of_recs fun m => by
    rw [changeOn_single]
    split
    · next hm => subst hm; rw [Target.state, ← hst]
    · rfl

theorem completeVerify_stands {n : Nat} (hs : (recs n).st ≠ .verifying ∨ (recs n).roundTrip = none) : e.completeVerify n = e := by
  refine if_neg fun ⟨hst, hr⟩ => ?_
  rw [h.recs] at hst hr
  rcases hs with hs | hs
  · exact hs hst
  · rw [hs] at hr; cases hr

theorem completeTest_stands {n : Nat} (hs : (recs n).cls ≠ .test ∨ (recs n).st ≠ .breaking ∨ (recs n).legs ≠ []) : e.completeTest n = e := by
  refine if_neg fun ⟨hc, hst, hl⟩ => ?_
  rw [h.recs] at hc hst hl
  rcases hs with hs | hs | hs
  · exact hs hc
  · exact hs hst
  · exact hs hl

theorem tryFree_stands {n : Nat} (hs : (recs n).st ≠ .breaking ∨ ∃ m ∈ n :: (recs n).partner.toList, (recs m).legs ≠ []) : e.tryFree n = e := by
  refine if_neg fun ⟨hst, hall⟩ => ?_
  rw [h.recs] at hst
  rcases hs with hs | ⟨m, hm, hl⟩
  · exact hs hst
  · have := List.all_eq_true.1 hall m (by rw [h.members]; exact hm)
    rw [h.recs, List.isEmpty_iff] at this
    exact hl this

/-- A BREAKING circuit with no leg left returns to FREE (05 R100). -/
theorem tryFree_frees {n : Nat} (hst : (recs n).st = .breaking) (hl : ∀ m ∈ n :: (recs n).partner.toList, (recs m).legs = []) :
    e.tryFree n = (n :: (recs n).partner.toList).foldl Eff.enterFree e := by
  rw [← h.members]
  refine if_pos ⟨by rw [h.recs]; exact hst, List.all_eq_true.2 fun m hm => ?_⟩
  rw [h.recs, hl m (by rw [← h.members]; exact hm)]
  rfl

/-- A circuit of a pair in MAKING is ACTIVE, and is not answered while its partner is not (03 R54). -/
theorem completeMake_waits {n q : Nat} (hst : (recs n).st = .making) (hl : ∀ l ∈ (recs n).legs, l.st ≠ .making) (hp : (recs n).partner = some q)
    (hq : q ≠ n) (hqs : (recs q).st ≠ .active) : (e.completeMake n).Reads s (changeOn [n] (fun r => { r with st := .active }) recs) offer raise port := by
  have h1 := h.upd n fun r => { r with st := .active }
  have hall : ((e.setState n .active).members n).all (fun m => decide (((e.setState n .active).recOf m).st = .active)) = false := by
    refine List.all_eq_false.2 ⟨q, ?_, ?_⟩
    · rw [Eff.setState, h1.members, changeOn_self]
      simp [hp]
    · rw [Eff.setState, h1.recs, changeOn_single, if_neg hq]
      simpa using hqs
  unfold Eff.completeMake
  rw [h.recs, if_pos ⟨hst, List.all_eq_true.2 fun l hm => decide_eq_true (hl l hm)⟩]
  simp only
  rw [hall, if_neg Bool.false_ne_true]
  exact h1

end Eff.Reads

theorem answered_partner (a : Option OpenAnswer) (r : Rec) : (r.answered a).partner = r.partner := by
  unfold Rec.answered
  split <;> rfl

theorem answered_st (a : Option OpenAnswer) (r : Rec) : (r.answered a).st = r.st := by
  unfold Rec.answered
  split <;> rfl

theorem answered_target (a : Option OpenAnswer) (r : Rec) : (r.answered a).target = r.target := by
  unfold Rec.answered
  split <;> rfl

theorem answered_fault (a : Option OpenAnswer) (r : Rec) : (r.answered a).fault = r.fault := by
  unfold Rec.answered
  split <;> rfl

theorem changeOn_fault {f : Rec → Rec} (hf : ∀ r : Rec, (f r).fault = r.fault) (ms : List Nat) (recs : Nat → Rec) (m : Nat) :
    (changeOn ms f recs m).fault = (recs m).fault := by
  unfold changeOn
  split
  · exact hf _
  · rfl

/-- A record whose switch to SOURCE is complete (04 R84). -/
def Rec.verified (r : Rec) : Rec := { r with st := .active, target := some .source, verify := none }

/-- SOURCE_FAULT for each record named whose source fault is true (03 R51, R54). -/
def faultRaises (recs : Nat → Rec) (ms : List Nat) : Raise := ms.flatMap fun m => if (recs m).fault then [(81 + m, .sourceFault)] else []

/-- The results of an opening answered OK, for a circuit without a partner and for a pair (03 R51, R54). -/
def madeBytes (s : State) (recs : Nat → Rec) (n : Nat) : List Byte :=
  match (recs n).openAns, (recs n).partner with
  | some a, some _ => a.handles.flatMap handleBytes ++ a.handles.map fun h => flagByte (recs h.num).fault
  | _, _ => openResults (s.handle n) (recs n) none

theorem madeBytes_single {s : State} {recs : Nat → Rec} {n : Nat} (hp : (recs n).partner = none) :
    madeBytes s recs n = openResults (s.handle n) (recs n) none := by
  unfold madeBytes
  rw [hp]
  split
  · next h => cases h
  · rfl

/-- The answer to an OPEN_PAIR, if there is one to answer (03 R54). -/
theorem answerOpening_pair {s : State} {recs : Nat → Rec} {n q : Nat} (hp : (recs n).partner = some q) (p : Port) :
    p.answerOpening (recs n).openAns .ok (madeBytes s recs n) = p.answerOpening (recs n).openAns .ok (((recs n).openAns.map fun a =>
      a.handles.flatMap handleBytes ++ a.handles.map fun h => flagByte (recs h.num).fault).getD []) := by
  unfold madeBytes
  rw [hp]
  cases (recs n).openAns <;> rfl

theorem faultRaises_congr {recs recs' : Nat → Rec} (h : ∀ m, (recs m).fault = (recs' m).fault) (ms : List Nat) : faultRaises recs ms = faultRaises recs' ms :=
  List.flatMap_congr fun m _ => by rw [h]

namespace Eff.Reads

variable {s : State} {e : Eff} {recs : Nat → Rec} {offer : List Entry} {raise : Raise} {port : Port} (h : e.Reads s recs offer raise port)
include h

theorem madeResults (n : Nat) : e.madeResults n = madeBytes s recs n := by
  unfold Eff.madeResults madeBytes
  simp only [h.recs, h.handleOf] <;> rfl

/-- A circuit in MAKING is ACTIVE, and is answered with its partner, ACTIVE too, if it has one (03 R51, R54). -/
theorem completeMake {n : Nat} (hst : (recs n).st = .making) (hl : ∀ l ∈ (recs n).legs, l.st ≠ .making)
    (hp : ∀ q, (recs n).partner = some q → q ≠ n ∧ (recs q).st = .active) :
    (e.completeMake n).Reads s
      (changeOn (n :: (recs n).partner.toList) (·.answered (recs n).openAns) (changeOn [n] (fun r => { r with st := .active }) recs)) offer
      (raise ++ faultRaises recs (n :: (recs n).partner.toList))
      (port.answerOpening (recs n).openAns .ok (madeBytes s (changeOn [n] (fun r => { r with st := .active }) recs) n)) := by
  have h1 := h.upd n fun r => { r with st := .active }
  have h2 := h1.answerOpen n .ok (madeBytes s (changeOn [n] (fun r => { r with st := .active }) recs) n)
  simp only [changeOn_self] at h2
  have hall : ((e.setState n .active).members n).all (fun m => decide (((e.setState n .active).recOf m).st = .active)) = true := by
    refine List.all_eq_true.2 fun m hm => decide_eq_true ?_
    rw [Eff.setState, h1.members, changeOn_self] at hm
    rw [Eff.setState, h1.recs, changeOn_single]
    split
    · rfl
    · next hmn =>
      have hm' : (recs n).partner = some m := by simpa [hmn] using hm
      exact (hp m hm').2
  have hself : (changeOn (n :: (recs n).partner.toList) (·.answered (recs n).openAns) (changeOn [n] (fun r => { r with st := .active }) recs) n).partner =
      (recs n).partner := by
    rw [changeOn_of_mem List.mem_cons_self, changeOn_self, answered_partner]
  have hfault (m : Nat) : (changeOn (n :: (recs n).partner.toList) (·.answered (recs n).openAns) (changeOn [n] (fun r => { r with st := .active }) recs) m).fault =
      (recs m).fault := (changeOn_fault (answered_fault _) _ _ m).trans
    (changeOn_fault (f := fun r => { r with st := .active }) (fun _ => rfl) [n] recs m)
  have h3 := h2.raiseFaults (n :: (recs n).partner.toList)
  simp only [hfault] at h3
  unfold Eff.completeMake
  rw [h.recs, if_pos ⟨hst, List.all_eq_true.2 fun l hm => decide_eq_true (hl l hm)⟩]
  simp only
  rw [hall, if_pos rfl, Eff.setState, h1.madeResults, h2.members, hself]
  exact h3

/-- A verified circuit is ACTIVE and is answered; its unit is freed, which is given as it stands then (04 R84). -/
theorem completeVerify {s₁ : State} {n : Nat} {u : Fin 4} {recs₁ : Nat → Rec} {offer₁ : List Entry} (hst : (recs n).st = .verifying)
    (hrt : (recs n).roundTrip.isSome = true) (hu : s.ver.serving (s.handle n) = some u) (hp : (recs n).partner = none)
    (h1 : ((e.updRec n Rec.verified).freeUnit u).Reads s₁ recs₁ offer₁ raise port) (hn : recs₁ n = (recs n).verified) :
    (e.completeVerify n).Reads s₁ (changeOn [n] (·.answered (recs n).openAns) recs₁) offer₁ (raise ++ faultRaises recs [n])
      (port.answerOpening (recs n).openAns .ok (openResults (s.handle n) (recs n).verified (some u))) := by
  have h2 := h1.answerOpen n .ok (openResults (s.handle n) (recs n).verified (some u))
  rw [hn, show (recs n).verified.partner = none from hp] at h2
  have h3 := h2.raiseFaults [n]
  have hfault : (changeOn [n] (·.answered (recs n).openAns) recs₁ n).fault = (recs n).fault := by
    rw [changeOn_fault (answered_fault _), hn]
    rfl
  have hv := h.upd n Rec.verified
  have hrec : (e.updRec n Rec.verified).recOf n = (recs n).verified := by rw [hv.recs, changeOn_self]
  unfold Eff.completeVerify
  rw [h.recs, if_pos ⟨hst, hrt⟩]
  simp only [h.ver, h.handleOf, hu]
  have hres : openResults ((e.updRec n Rec.verified).handleOf n) ((e.updRec n Rec.verified).recOf n) (some u) =
      openResults (s.handle n) (recs n).verified (some u) := by rw [hv.handleOf, hrec]
  rw [← hres] at h3 ⊢
  have hraise : ([n].flatMap fun m => if (changeOn [n] (·.answered (recs n).openAns) recs₁ m).fault then [(81 + m, .sourceFault)] else []) =
      faultRaises recs [n] := by
    simp only [faultRaises, List.flatMap_cons, List.flatMap_nil, hfault]
  rw [← hraise]
  exact h3

end Eff.Reads
end Sys2Proof.Machine

/-! SUPPORT. A boundary report that names one circuit (03 R59), circuit state by circuit state. -/

namespace Sys2Proof.Machine

set_option Elab.async false

/-! ### The parts of a report -/

/-- The circuit-level changes of a report, in their order (03 R59). -/
def Eff.completed (e : Eff) (named : List Handle) : Eff :=
  ((((e.phase named Eff.completeMake).phase named Eff.completeDrive).phase named Eff.completeVerify).phase named Eff.completeTest).phase
    named Eff.tryFree

/-- The part once the report at the head of its queue has been taken. -/
def State.afterReport (s : State) (rest : List Report) : State := { s with sw := { s.sw with reports := rest } }

/-- A report whose outcomes all name record n. -/
def State.reportOn (s : State) (n : Nat) (outs : List (Slot × OutcomeKind)) : Report := outs.map fun o => (o.1, [⟨s.handle n, o.2⟩])

/-- The records once the outcomes have moved the legs of record n. -/
def State.legsMoved (s : State) (n : Nat) (outs : List (Slot × OutcomeKind)) : Nat → Rec :=
  changeOn [n] (fun r => { r with legs := r.legsAfter outs }) s.recordOf

theorem legsMoved_self (s : State) (n : Nat) (outs : List (Slot × OutcomeKind)) :
    s.legsMoved n outs n = { s.recordOf n with legs := (s.recordOf n).legsAfter outs } := changeOn_self n _ _

theorem legsMoved_other (s : State) {n m : Nat} (outs : List (Slot × OutcomeKind)) (h : m ≠ n) : s.legsMoved n outs m = s.recordOf m :=
  (changeOn_single n _ _ m).trans (if_neg h)

theorem legsMoved_fault (s : State) (n : Nat) (outs : List (Slot × OutcomeKind)) (m : Nat) : (s.legsMoved n outs m).fault = (s.recordOf m).fault :=
  changeOn_fault (f := fun r => { r with legs := r.legsAfter outs }) (fun _ => rfl) [n] s.recordOf m

/-- A report on one record: the legs first, then the changes of its circuit. -/
theorem effReport_single (s : State) {n : Nat} (hn : n < 512) {outs : List (Slot × OutcomeKind)} (ho : outs ≠ []) :
    ∃ e : Eff, e.Reads s (s.legsMoved n outs) [] [] s.port ∧ effReport (s.reportOn n outs) (Eff.start s) = e.completed [s.handle n] := by
  have h := Eff.Reads.start s
  have hfold : (s.reportOn n outs).foldl (fun e x => x.2.foldl (fun e o => e.takeOutcome x.1 o) e) (Eff.start s) =
      outs.foldl (fun e o => e.takeOutcome o.1 ⟨s.handle n, o.2⟩) (Eff.start s) := by
    rw [State.reportOn, List.foldl_map]
    rfl
  have hnamed : (Eff.start s).namedIn (s.reportOn n outs) = [s.handle n] := by
    have hcur : (Eff.start s).current (s.handle n) = true := (h.current _).trans (current_handle hn)
    have hl : ((s.reportOn n outs).flatMap fun x => x.2.map (·.h)) = outs.map fun _ => s.handle n := by
      rw [State.reportOn, List.flatMap_map]
      exact List.map_eq_flatMap.symm
    refine firstOf_const (fun hnil => ?_) fun x hx => ?_
    · rw [hl] at hnil
      obtain ⟨o, outs', rfl⟩ := List.exists_cons_of_ne_nil ho
      simp [hcur] at hnil
    · rw [hl] at hx
      obtain ⟨_, _, rfl⟩ := List.mem_map.1 (List.mem_filter.1 hx).1
      rfl
  refine ⟨_, h.takeOutcomes hn outs, ?_⟩
  rw [← hfold]
  unfold effReport
  simp only [hnamed]
  rfl

section Single
variable {s : State} {rest : List Report} {n : Nat} {outs : List (Slot × OutcomeKind)}

/-- A report on one record at the command at which the manager takes it: what its circuit-level changes do is what the claim does. -/
theorem exec_report (hr : s.Ready) (hn : n < 512) (ho : outs ≠ []) (hx : s.sw.reports = s.reportOn n outs :: rest) {v : Verifier} {w : List Handle}
    {recs : Nat → Rec} {offer : List Entry} {raise : Raise} {port : Port}
    (hc : ∀ e : Eff, e.Reads (s.afterReport rest) (s.legsMoved n outs) [] [] s.port →
      (e.completed [(s.afterReport rest).handle n]).Reads { s.afterReport rest with ver := v, mgr := { s.mgr with wait := w } } recs offer raise port)
    (hfit : fits s.sw.list offer = true) :
    ∃ t, exec .boundaryReport s = .next t ∧ ({ s.afterReport rest with ver := v, mgr := { s.mgr with wait := w } } : State).circuitClaim t offer raise port ∧
      (∀ m, t.recordOf m = recs m) ∧ s.fanStands t ∧ t.ver = v := by
  obtain ⟨e, h, he⟩ := effReport_single (s.afterReport rest) hn ho
  exact exec_of_reads (.report _ rest hr hx) (show (effReport (s.reportOn n outs) (Eff.start (s.afterReport rest))).Reads _ _ _ _ _ from he ▸ hc e h) hfit

end Single

namespace Eff.Reads

variable {s : State} {e : Eff} {recs : Nat → Rec} {offer : List Entry} {raise : Raise} {port : Port} (h : e.Reads s recs offer raise port)
include h

/-- The changes after those of MAKING and of the drive leave a circuit that is not verified and not BREAKING. -/
theorem completed_of_drive {n : Nat} (hn : n < 512) (hv : (recs n).st ≠ .verifying ∨ (recs n).roundTrip = none) (hb : (recs n).st ≠ .breaking) {e₀ : Eff}
    (he : (e₀.phase [s.handle n] Eff.completeMake).phase [s.handle n] Eff.completeDrive = e) : e₀.completed [s.handle n] = e := by
  unfold Eff.completed
  rw [he, h.phase_single hn, h.completeVerify_stands hv, h.phase_single hn, h.completeTest_stands (.inr (.inl hb)), h.phase_single hn,
    h.tryFree_stands (.inl hb)]

end Eff.Reads

/-! ### One circuit, state by state -/

section Single
variable {s : State} {rest : List Report} {n : Nat} {outs : List (Slot × OutcomeKind)} (hr : s.Ready) (hn : n < 512) (ho : outs ≠ [])
  (hx : s.sw.reports = s.reportOn n outs :: rest)

/-- What the records read where one has become another. -/
theorem becomes_of_changeOn {t : State} {f : Rec → Rec} (h : ∀ m, t.recordOf m = changeOn [n] f s.recordOf m) :
    s.recordBecomes t n (f (s.recordOf n)) := fun m => by
  rw [h, changeOn_single]
  split
  · next hm => rw [hm]
  · rfl

/-- The outcomes of a report move the legs of record n, and that is all. -/
def State.reportMoves (s : State) (rest : List Report) (n : Nat) (outs : List (Slot × OutcomeKind)) : Prop :=
  ∃ t, exec .boundaryReport s = .next t ∧ (s.afterReport rest).circuitClaim t [] [] s.port ∧
    s.recordBecomes t n { s.recordOf n with legs := (s.recordOf n).legsAfter outs } ∧ s.fanStands t

include hr hn ho hx

/-- The legs alone change when no circuit-level change applies. -/
theorem report_moves (hc : ∀ e : Eff, e.Reads (s.afterReport rest) (s.legsMoved n outs) [] [] s.port → e.completed [(s.afterReport rest).handle n] = e) :
    s.reportMoves rest n outs := by
  obtain ⟨t, ht, hcc, hrecs, hfan, _⟩ := exec_report hr hn ho hx (v := s.ver) (w := s.mgr.wait) (fun e h => by rw [hc e h]; exact h) (fits_nil _)
  exact ⟨t, ht, hcc, becomes_of_changeOn hrecs, hfan⟩

/-- In FREE, VERIFY_WAIT, RELEASING, and VERIFYING before DETECTED, the legs alone change (04 R75, R76, 05 R99). -/
theorem report_moves_quiet (hst : (s.recordOf n).st ∈ ([.free, .verifyWait, .releasing] : List CircState) ∨
    ((s.recordOf n).st = .verifying ∧ (s.recordOf n).roundTrip = none)) : s.reportMoves rest n outs := by
  refine report_moves hr hn ho hx fun e h => ?_
  have hs := legsMoved_self s n outs
  have hq : ((s.recordOf n).st ≠ .making ∧ (s.recordOf n).st ≠ .active ∧ (s.recordOf n).st ≠ .held ∧ (s.recordOf n).st ≠ .breaking) ∧
      ((s.recordOf n).st ≠ .verifying ∨ (s.recordOf n).roundTrip = none) := by
    rcases hst with hst | ⟨hst, hrt⟩
    · simp only [List.mem_cons, List.not_mem_nil, or_false] at hst
      rcases hst with hst | hst | hst <;> simp [hst]
    · simp [hst, hrt]
  obtain ⟨⟨h1, h2, h3, h4⟩, h5⟩ := hq
  refine h.completed_of_drive hn (by rw [hs]; exact h5) (by rw [hs]; exact h4) ?_
  rw [h.phase_single hn, h.completeMake_stands (.inl (by rw [hs]; exact h1)), h.phase_single hn,
    h.completeDrive_stands (.inr (by rw [hs]; exact ⟨h2, h3⟩))]

/-- With a leg left in MAKING the circuit stays in MAKING (03 R51). -/
theorem report_moves_making (hst : (s.recordOf n).st = .making) (hl : ∃ l ∈ (s.recordOf n).legsAfter outs, l.st = .making) : s.reportMoves rest n outs := by
  refine report_moves hr hn ho hx fun e h => ?_
  have hs := legsMoved_self s n outs
  refine h.completed_of_drive hn (by rw [hs]; simp [hst]) (by rw [hs]; simp [hst]) ?_
  rw [h.phase_single hn, h.completeMake_stands (.inr (by rw [hs]; exact hl)), h.phase_single hn, h.completeDrive_stands (.inr (by rw [hs]; simp [hst]))]

/-- A BREAKING circuit with a leg left stays BREAKING, and so does one whose partner has a leg left (05 R100). -/
theorem report_moves_breaking (hst : (s.recordOf n).st = .breaking) (hp : (s.recordOf n).partner ≠ some n)
    (hl : (s.recordOf n).legsAfter outs ≠ [] ∨ ((s.recordOf n).cls ≠ .test ∧ ¬∀ q, (s.recordOf n).partner = some q → (s.recordOf q).legs = [])) :
    s.reportMoves rest n outs := by
  refine report_moves hr hn ho hx fun e h => ?_
  have hs := legsMoved_self s n outs
  have hleft : ∃ m ∈ n :: (s.legsMoved n outs n).partner.toList, (s.legsMoved n outs m).legs ≠ [] := by
    rcases hl with hl | ⟨_, hl⟩
    · exact ⟨n, List.mem_cons_self, by rw [hs]; exact hl⟩
    · obtain ⟨q, hq⟩ := not_forall.1 hl
      obtain ⟨hpq, hlegs⟩ := Classical.not_imp.1 hq
      refine ⟨q, by rw [hs]; simp [hpq], ?_⟩
      rw [legsMoved_other s outs fun hqn : q = n => hp (hqn ▸ hpq)]
      exact hlegs
  have htest : (s.legsMoved n outs n).cls ≠ .test ∨ (s.legsMoved n outs n).st ≠ .breaking ∨ (s.legsMoved n outs n).legs ≠ [] := by
    rw [hs]
    exact hl.elim (fun hl => .inr (.inr hl)) fun hl => .inl hl.1
  unfold Eff.completed
  rw [h.phase_single hn, h.completeMake_stands (.inl (by rw [hs]; simp [hst])), h.phase_single hn, h.completeDrive_stands (.inr (by rw [hs]; simp [hst])),
    h.phase_single hn, h.completeVerify_stands (.inl (by rw [hs]; simp [hst])), h.phase_single hn, h.completeTest_stands htest, h.phase_single hn,
    h.tryFree_stands (.inr hleft)]

/-- A pending drive change is complete with any outcome (03 R68). -/
theorem report_drives {t : Target} (hs : (s.recordOf n).serving) (htar : (s.recordOf n).target = some t) :
    ∃ t', exec .boundaryReport s = .next t' ∧ (s.afterReport rest).circuitClaim t' [] [] s.port ∧
      s.recordBecomes t' n { s.recordOf n with legs := (s.recordOf n).legsAfter outs, st := t.state } ∧ s.fanStands t' := by
  have hself := legsMoved_self s n outs
  obtain ⟨t', ht, hc, hrecs, hfan, _⟩ := exec_report hr hn ho hx (v := s.ver) (w := s.mgr.wait) (offer := []) (raise := []) (port := s.port)
    (recs := changeOn [n] (fun r => { r with legs := r.legsAfter outs, st := t.state }) s.recordOf) (fun e h => by
      have h2 := h.completeDrive (n := n) (t := t) (by rw [hself]; exact htar) (by rw [hself]; exact hs)
      have hst2 : (changeOn [n] (fun r => { r with st := t.state }) (s.legsMoved n outs) n).st = t.state := by rw [changeOn_self]
      rw [h2.completed_of_drive (e₀ := e) hn (.inl (by rw [hst2]; cases t <;> simp [Target.state]))
        (by rw [hst2]; cases t <;> simp [Target.state]) ?_]
      · exact h2.of_recs (changeOn_changeOn [n] _ _ _)
      · rw [h.phase_single hn, h.completeMake_stands (.inl (by rw [hself]; rcases hs with hs | hs <;> simp [hs])), h.phase_single hn]) (fits_nil _)
  exact ⟨t', ht, hc, becomes_of_changeOn hrecs, hfan⟩

/-- A circuit in MAKING without a partner is ACTIVE with no leg left in MAKING, and its opening is answered (03 R51). -/
theorem report_makes (hst : (s.recordOf n).st = .making) (htar : (s.recordOf n).target = some .source) (hp : (s.recordOf n).partner = none)
    (hl : ∀ l ∈ (s.recordOf n).legsAfter outs, l.st ≠ .making) :
    ∃ t, exec .boundaryReport s = .next t ∧
      (s.afterReport rest).circuitClaim t [] (faultRaises s.recordOf [n]) (s.port.answerOpening (s.recordOf n).openAns .ok
        (openResults (s.handle n) { s.recordOf n with legs := (s.recordOf n).legsAfter outs, st := .active } none)) ∧
      s.recordBecomes t n (Rec.answered (s.recordOf n).openAns { s.recordOf n with legs := (s.recordOf n).legsAfter outs, st := .active }) ∧
      s.fanStands t := by
  have hself := legsMoved_self s n outs
  obtain ⟨t, ht, hc, hrecs, hfan, _⟩ := exec_report hr hn ho hx (v := s.ver) (w := s.mgr.wait) (offer := []) (raise := faultRaises s.recordOf [n])
    (port := s.port.answerOpening (s.recordOf n).openAns .ok
      (openResults (s.handle n) { s.recordOf n with legs := (s.recordOf n).legsAfter outs, st := .active } none))
    (recs := changeOn [n] (fun r => Rec.answered (s.recordOf n).openAns { r with legs := r.legsAfter outs, st := .active }) s.recordOf) (fun e h => by
      have hp1 : (s.legsMoved n outs n).partner = none := by rw [hself]; exact hp
      have ha1 : (s.legsMoved n outs n).openAns = (s.recordOf n).openAns := by rw [hself]
      have h2 := h.completeMake (n := n) (by rw [hself]; exact hst) (by rw [hself]; exact hl) fun q hq => by rw [hp1] at hq; cases hq
      rw [hp1, ha1, madeBytes_single (by rw [changeOn_self]; exact hp1), changeOn_self, hself, faultRaises_congr (legsMoved_fault s n outs)] at h2
      have h3 := h2.of_recs (recs' := changeOn [n] (fun r => Rec.answered (s.recordOf n).openAns { r with legs := r.legsAfter outs, st := .active })
        s.recordOf) fun m => (changeOn_changeOn [n] _ _ _ m).trans (changeOn_changeOn [n] _ _ _ m)
      have hst3 := congrArg Rec.st (changeOn_self n (fun r => Rec.answered (s.recordOf n).openAns { r with legs := r.legsAfter outs, st := .active })
        s.recordOf)
      rw [answered_st] at hst3
      have h4 := h3.completeDrive_active (n := n) (by rw [changeOn_self, answered_target]; exact htar) hst3
      rw [h4.completed_of_drive (e₀ := e) hn (.inl (by rw [hst3]; simp)) (by rw [hst3]; simp) ?_]
      · exact h4
      · rw [h.phase_single hn, h3.phase_single hn]) (fits_nil _)
  exact ⟨t, ht, hc, becomes_of_changeOn hrecs, hfan⟩

/-- One circuit of a pair is ACTIVE with no leg left in MAKING, and waits for its partner (03 R54). -/
theorem report_waits {q : Nat} (hst : (s.recordOf n).st = .making) (htar : (s.recordOf n).target = some .source) (hp : (s.recordOf n).partner = some q)
    (hq : q ≠ n) (hqs : (s.recordOf q).st ≠ .active) (hl : ∀ l ∈ (s.recordOf n).legsAfter outs, l.st ≠ .making) :
    ∃ t, exec .boundaryReport s = .next t ∧ (s.afterReport rest).circuitClaim t [] [] s.port ∧
      s.recordBecomes t n { s.recordOf n with legs := (s.recordOf n).legsAfter outs, st := .active } ∧ s.fanStands t := by
  have hself := legsMoved_self s n outs
  obtain ⟨t, ht, hc, hrecs, hfan, _⟩ := exec_report hr hn ho hx (v := s.ver) (w := s.mgr.wait) (offer := []) (raise := []) (port := s.port)
    (recs := changeOn [n] (fun r => { r with legs := r.legsAfter outs, st := .active }) s.recordOf) (fun e h => by
      have h2 := h.completeMake_waits (n := n) (q := q) (by rw [hself]; exact hst) (by rw [hself]; exact hl) (by rw [hself]; exact hp) hq
        (by rw [legsMoved_other s outs hq]; exact hqs)
      have h3 := h2.of_recs (recs' := changeOn [n] (fun r => { r with legs := r.legsAfter outs, st := .active }) s.recordOf)
        (changeOn_changeOn [n] _ _ _)
      have hst3 := congrArg Rec.st (changeOn_self n (fun r => { r with legs := r.legsAfter outs, st := .active }) s.recordOf)
      have h4 := h3.completeDrive_active (n := n) (by rw [changeOn_self]; exact htar) hst3
      rw [h4.completed_of_drive (e₀ := e) hn (.inl (by rw [hst3]; simp)) (by rw [hst3]; simp) ?_]
      · exact h4
      · rw [h.phase_single hn, h3.phase_single hn]) (fits_nil _)
  exact ⟨t, ht, hc, becomes_of_changeOn hrecs, hfan⟩

/-- The second circuit of a pair is ACTIVE, and the pair is answered (03 R54). -/
theorem report_makes_pair {q : Nat} (hst : (s.recordOf n).st = .making) (htar : (s.recordOf n).target = some .source)
    (hp : (s.recordOf n).partner = some q) (hq : q ≠ n) (hqs : (s.recordOf q).st = .active)
    (hl : ∀ l ∈ (s.recordOf n).legsAfter outs, l.st ≠ .making) :
    ∃ t, exec .boundaryReport s = .next t ∧
      (s.afterReport rest).circuitClaim t [] (faultRaises s.recordOf [n, q]) (s.port.answerOpening (s.recordOf n).openAns .ok
        (((s.recordOf n).openAns.map fun a => a.handles.flatMap handleBytes ++ a.handles.map fun h => flagByte (s.recordOf h.num).fault).getD [])) ∧
      s.recordsBecome t [n, q] (fun m y => if m = n then
        Rec.answered (s.recordOf n).openAns { s.recordOf n with legs := (s.recordOf n).legsAfter outs, st := .active }
        else Rec.answered (s.recordOf n).openAns y) ∧ s.fanStands t := by
  have hself := legsMoved_self s n outs
  obtain ⟨t, ht, hc, hrecs, hfan, _⟩ := exec_report hr hn ho hx (v := s.ver) (w := s.mgr.wait) (offer := []) (raise := faultRaises s.recordOf [n, q])
    (port := s.port.answerOpening (s.recordOf n).openAns .ok
      (((s.recordOf n).openAns.map fun a => a.handles.flatMap handleBytes ++ a.handles.map fun h => flagByte (s.recordOf h.num).fault).getD []))
    (recs := changeOn [n, q] (Rec.answered (s.recordOf n).openAns)
      (changeOn [n] (fun r => { r with legs := r.legsAfter outs, st := .active }) s.recordOf)) (fun e h => by
      have hp1 : (s.legsMoved n outs n).partner = some q := by rw [hself]; exact hp
      have ha1 : (s.legsMoved n outs n).openAns = (s.recordOf n).openAns := by rw [hself]
      have h2 := h.completeMake (n := n) (by rw [hself]; exact hst) (by rw [hself]; exact hl) fun j hj => by
        rw [hp1] at hj
        cases hj
        exact ⟨hq, by rw [legsMoved_other s outs hq]; exact hqs⟩
      have hact : changeOn [n] (fun r => { r with st := .active }) (s.legsMoved n outs) =
          changeOn [n] (fun r => { r with legs := r.legsAfter outs, st := .active }) s.recordOf := funext (changeOn_changeOn [n] _ _ _)
      have hfault (m : Nat) : (changeOn [n] (fun r => { r with legs := r.legsAfter outs, st := .active }) s.recordOf m).fault = (s.recordOf m).fault :=
        changeOn_fault (f := fun r => { r with legs := r.legsAfter outs, st := .active }) (fun _ => rfl) [n] s.recordOf m
      have hanswer := answerOpening_pair (s := s.afterReport rest)
        (recs := changeOn [n] (fun r => { r with legs := r.legsAfter outs, st := .active }) s.recordOf) (n := n) (q := q)
        (by rw [changeOn_self]; exact hp) s.port
      simp only [hfault] at hanswer
      rw [changeOn_self] at hanswer
      rw [hp1, ha1, hact, hanswer, faultRaises_congr (legsMoved_fault s n outs)] at h2
      have hB : changeOn [n, q] (Rec.answered (s.recordOf n).openAns)
          (changeOn [n] (fun r => { r with legs := r.legsAfter outs, st := .active }) s.recordOf) n =
          Rec.answered (s.recordOf n).openAns { s.recordOf n with legs := (s.recordOf n).legsAfter outs, st := .active } := by
        rw [changeOn_of_mem List.mem_cons_self, changeOn_self]
      have hst3 := congrArg Rec.st hB
      rw [answered_st] at hst3
      have h4 := h2.completeDrive_active (n := n) ((congrArg Rec.target hB).trans ((answered_target _ _).trans htar)) hst3
      rw [h4.completed_of_drive (e₀ := e) hn (.inl ?_) ?_ ?_]
      · exact h4
      · exact fun hc => nomatch hst3.symm.trans hc
      · exact fun hc => nomatch hst3.symm.trans hc
      · rw [h.phase_single hn, h2.phase_single hn]) (fits_nil _)
  refine ⟨t, ht, hc, fun m => ?_, hfan⟩
  rw [hrecs]
  by_cases hm : m = n
  · subst hm
    rw [changeOn_of_mem List.mem_cons_self, changeOn_self, if_pos List.mem_cons_self]
    exact (if_pos rfl).symm
  · rw [changeOn, changeOn_single, if_neg hm]
    split
    · exact (if_neg hm).symm
    · rfl

/-- A BREAKING circuit and its partner with no leg left return to FREE (05 R100, R101). -/
theorem report_frees (hst : (s.recordOf n).st = .breaking) (hp : (s.recordOf n).partner ≠ some n) (hcls : (s.recordOf n).cls ≠ .test)
    (hl : (s.recordOf n).legsAfter outs = []) (hq : ∀ q, (s.recordOf n).partner = some q → (s.recordOf q).legs = []) :
    ∃ t, exec .boundaryReport s = .next t ∧ (s.afterReport rest).circuitClaim t [] [] (s.answersReleases (s.circuit n)) ∧
      s.recordsBecome t (s.circuit n) (fun _ y => Rec.free (y.gen + 1)) ∧ s.fanLeaves t (s.circuit n) := by
  have hself := legsMoved_self s n outs
  have hother {m : Nat} (hm : m ≠ n) := legsMoved_other s outs hm
  obtain ⟨e, h, he⟩ := effReport_single (s.afterReport rest) hn ho
  change e.Reads (s.afterReport rest) (s.legsMoved n outs) [] [] s.port at h
  have hp1 : (s.legsMoved n outs n).partner = (s.recordOf n).partner := by rw [hself]
  have hlegs : ∀ m ∈ n :: (s.legsMoved n outs n).partner.toList, (s.legsMoved n outs m).legs = [] := by
    intro m hm
    by_cases hmn : m = n
    · rw [hmn, hself]; exact hl
    · rw [hother hmn]
      exact hq m (by simpa [hmn, hp1] using hm)
  have hfree : e.completed [(s.afterReport rest).handle n] = (s.circuit n).foldl Eff.enterFree e := by
    unfold Eff.completed
    rw [h.phase_single hn, h.completeMake_stands (.inl (by rw [hself]; simp [hst])), h.phase_single hn, h.completeDrive_stands (.inr (by rw [hself]; simp [hst])),
      h.phase_single hn, h.completeVerify_stands (.inl (by rw [hself]; simp [hst])), h.phase_single hn,
      h.completeTest_stands (.inl (by rw [hself]; exact hcls)), h.phase_single hn, h.tryFree_frees (by rw [hself]; exact hst) hlegs, hp1]
    rfl
  have hkeep {β : Type} (g : Rec → β) (hg : g (s.legsMoved n outs n) = g (s.recordOf n)) (m : Nat) : g (s.legsMoved n outs m) = g (s.recordOf m) := by
    by_cases hm : m = n
    · rw [hm, hg]
    · rw [hother hm]
  obtain ⟨t, ht, hc, hrecs, hfan⟩ := exec_of_freed (w := s.mgr.wait) (.report _ rest hr hx) (circuit_nodup hp) (he.trans hfree) h
    (hkeep Rec.source (by rw [hself])) (fits_nil _)
  have hport : (s.circuit n).foldl (fun p m => p.answerRelease (s.legsMoved n outs m).relAns) s.port = s.answersReleases (s.circuit n) := by
    rw [answersReleases_eq]
    simp only [hkeep Rec.relAns (by rw [hself])]
  rw [hport] at hc
  refine ⟨t, ht, hc, fun m => ?_, hfan⟩
  rw [hrecs]
  by_cases hm : m ∈ s.circuit n
  · rw [if_pos hm, if_pos hm]; rfl
  · rw [if_neg hm, if_neg hm, hother (by rintro rfl; exact hm (mem_circuit s m))]

/-- A verified circuit once its unit has been freed: what the report's other changes add (04 R84). -/
theorem report_verified {u : Fin 4} {trip : Nat} (hv : s.Verifies n u) (hrt : (s.recordOf n).roundTrip = some trip) {v : Verifier} {w : List Handle}
    {recs : Nat → Rec} {offer : List Entry}
    (hf : ∀ e : Eff, e.Reads (s.afterReport rest) (changeOn [n] (fun r => Rec.verified { r with legs := r.legsAfter outs }) s.recordOf) [] [] s.port →
      (e.freeUnit u).Reads { s.afterReport rest with ver := v, mgr := { s.mgr with wait := w } } recs offer [] s.port)
    (hself : recs n = Rec.verified { s.recordOf n with legs := (s.recordOf n).legsAfter outs }) (hfit : fits s.sw.list offer = true) :
    ∃ t, exec .boundaryReport s = .next t ∧ ({ s.afterReport rest with ver := v, mgr := { s.mgr with wait := w } } : State).circuitClaim t offer
        (faultRaises s.recordOf [n]) (s.port.answerOpening (s.recordOf n).openAns .ok
          (openResults (s.handle n) (Rec.verified { s.recordOf n with legs := (s.recordOf n).legsAfter outs }) (some u))) ∧
      (∀ m, t.recordOf m = changeOn [n] (Rec.answered (s.recordOf n).openAns) recs m) ∧ s.fanStands t ∧ t.ver = v := by
  have hs := legsMoved_self s n outs
  refine exec_report hr hn ho hx (fun e h => ?_) hfit
  have hst : (s.legsMoved n outs n).st = .verifying := by rw [hs]; exact hv.st
  have h1 := hf _ ((h.upd n Rec.verified).of_recs (changeOn_changeOn [n] _ _ _))
  have h2 := h.completeVerify hst (by rw [hs]; simp [hrt]) (serving_eq hv.unit hv.first) (by rw [hs]; exact hv.alone) h1 (by rw [hs]; exact hself)
  have hp2 (f : Eff → Nat → Eff) : (e.completeVerify n).phase [(s.afterReport rest).handle n] f = f (e.completeVerify n) n := h2.phase_single hn f
  have hst2 : (changeOn [n] (Rec.answered (s.legsMoved n outs n).openAns) recs n).st = .active := by
    rw [changeOn_self, answered_st, hself]
    rfl
  unfold Eff.completed
  rw [h.phase_single hn, h.completeMake_stands (.inl (by rw [hst]; simp)), h.phase_single hn, h.completeDrive_stands (.inr (by rw [hst]; simp)),
    h.phase_single hn, hp2, h2.completeTest_stands (.inr (.inl (by rw [hst2]; simp))), hp2, h2.tryFree_stands (.inl (by rw [hst2]; simp))]
  rw [hs, faultRaises_congr (legsMoved_fault s n outs)] at h2
  exact h2

/-- A verified circuit is ACTIVE, and no circuit waits for its unit (04 R84). -/
theorem report_verified_idle {u : Fin 4} {trip : Nat} (hv : s.Verifies n u) (hrt : (s.recordOf n).roundTrip = some trip) (hw : s.mgr.wait = []) :
    ∃ t, exec .boundaryReport s = .next t ∧ ({ s.afterReport rest with ver := { s.ver with units := t.ver.units } } : State).circuitClaim t []
        (faultRaises s.recordOf [n]) (s.port.answerOpening (s.recordOf n).openAns .ok
          (openResults (s.handle n) (Rec.verified { s.recordOf n with legs := (s.recordOf n).legsAfter outs }) (some u))) ∧
      (∀ v : Fin 4, t.ver.unit v = if v = u then VerifyUnit.idle else s.ver.unit v) ∧
      s.recordBecomes t n (Rec.answered (s.recordOf n).openAns (Rec.verified { s.recordOf n with legs := (s.recordOf n).legsAfter outs })) ∧
      s.fanStands t := by
  obtain ⟨t, ht, hc, hrecs, hfan, hver⟩ := report_verified hr hn ho hx hv hrt (v := s.ver.setUnit u VerifyUnit.idle) (w := s.mgr.wait)
    (fun e h => h.freeUnit_idle hw u) (changeOn_self n _ _) (fits_nil _)
  refine ⟨t, ht, ?_, fun v => ?_, ?_, hfan⟩
  · rw [hver]; exact hc
  · rw [hver, unit_setUnit]
    exact if_congr Fin.ext_iff.symm rfl rfl
  · exact becomes_of_changeOn (f := fun r => Rec.answered (s.recordOf n).openAns (Rec.verified { r with legs := r.legsAfter outs })) fun m =>
      (hrecs m).trans (changeOn_changeOn [n] _ _ _ m)

/-- A verified circuit is ACTIVE, and its unit is assigned to the circuit that waits (04 R78, R84). -/
theorem report_verified_assign {u : Fin 4} {trip : Nat} {hd : Handle} {wait : List Handle} {f : VerifyField} (hv : s.Verifies n u)
    (hrt : (s.recordOf n).roundTrip = some trip) (hw : s.mgr.wait = hd :: wait) (hst : (s.recordOf hd.num).st = .verifyWait)
    (hf : (s.recordOf hd.num).verify = some f) :
    ∃ t, exec .boundaryReport s = .next t ∧ ({ s.afterReport rest with ver := t.ver, mgr := { s.mgr with wait := wait } } : State).circuitClaim t
        (s.changeEntries hd.num (s.recordOf hd.num) .token (some u)) (faultRaises s.recordOf [n])
        (s.port.answerOpening (s.recordOf n).openAns .ok
          (openResults (s.handle n) (Rec.verified { s.recordOf n with legs := (s.recordOf n).legsAfter outs }) (some u))) ∧
      s.recordsBecome t [n, hd.num] (fun m y => if m = n then
        Rec.answered (s.recordOf n).openAns (Rec.verified { y with legs := (s.recordOf n).legsAfter outs }) else { y with st := .verifying }) ∧
      s.fanStands t ∧ t.ver = s.ver.reassign u hd f := by
  have hne : hd.num ≠ n := fun hn => by rw [hn, hv.st] at hst; cases hst
  have hrec : changeOn [n] (fun r => Rec.verified { r with legs := r.legsAfter outs }) s.recordOf hd.num = s.recordOf hd.num :=
    changeOn_of_not_mem (by simpa using hne) _ _
  have hroom := hv.room
  rw [hw] at hroom
  simp only [List.map_cons, List.headD_cons] at hroom
  have hlen := length_changeEntries_le s hd.num (s.recordOf hd.num) .token (some u)
  obtain ⟨t, ht, hc, hrecs, hfan, hver⟩ := report_verified hr hn ho hx hv hrt (v := s.ver.reassign u hd f) (w := wait)
    (offer := s.changeEntries hd.num (s.recordOf hd.num) .token (some u))
    (fun e h => by
      have h1 := h.freeUnit_assign (hd := hd) (rest := wait) (f := f) hw (by rw [hrec]; exact hf) u
      rw [hrec, List.nil_append] at h1
      exact h1)
    (by rw [changeOn_of_not_mem (by simpa using hne.symm), changeOn_self]) (fits_of_room (by omega))
  refine ⟨t, ht, ?_, fun m => ?_, hfan, hver⟩
  · rw [hver]; exact hc
  · rw [hrecs, changeOn_single, changeOn_single, changeOn_single]
    by_cases hm : m = n
    · subst hm
      rw [if_pos rfl, if_neg hne.symm, if_pos rfl, if_pos List.mem_cons_self]
      exact (if_pos rfl).symm
    · by_cases hmh : m = hd.num
      · subst hmh
        rw [if_neg hm, if_pos rfl, if_neg hm, if_pos (by simp)]
        exact (if_neg hm).symm
      · rw [if_neg hm, if_neg hmh, if_neg hm, if_neg (by simp [hm, hmh])]

end Single

end Sys2Proof.Machine

/-! SUPPORT. A boundary report that makes both circuits of a pair (03 R54), and the statement on boundary reports. -/

namespace Sys2Proof.Machine

set_option Elab.async false

/-! ### A pair made in one report -/

/-- A record whose legs in MAKING are LIVE. -/
def Rec.allMade (r : Rec) : Rec := { r with legs := r.legs.map fun l => if l.st = .making then { l with st := .live } else l }

/-- MADE on the one slot of a record's legs (03 R59). -/
theorem outcome_made {r : Rec} {k : Slot} (h : ∀ l ∈ r.legs, l.slot = k) : r.outcome (k, .made) = r.allMade := by
  have hl : r.legs.filterMap (fun l => if l.slot = k then l.after .made else some l) = r.legs.map fun l => if l.st = .making then { l with st := .live } else l := by
    rw [← List.filterMap_eq_map]
    refine List.filterMap_congr fun l hm => ?_
    rw [if_pos (h l hm)]
    obtain ⟨j, st, y, d⟩ := l
    cases st <;> rfl
  exact congrArg (fun legs => ({ r with legs := legs } : Rec)) hl

theorem allMade_not_making {r : Rec} {l : Leg} (h : l ∈ r.allMade.legs) : l.st ≠ .making := by
  obtain ⟨l', _, rfl⟩ := List.mem_map.1 h
  split
  · simp
  · next hst => exact hst

namespace Eff.Reads

variable {s : State} {e : Eff} {recs : Nat → Rec} {offer : List Entry} {raise : Raise} {port : Port}

/-- A change on the two circuits that a report names, the first leaving the handles as they are. -/
theorem phase_pair {recs' : Nat → Rec} {offer' : List Entry} {raise' : Raise} {port' : Port} {n q : Nat} {f : Eff → Nat → Eff} (hn : n < 512) (hq : q < 512)
    (h : e.Reads s recs offer raise port) (h' : (f e n).Reads s recs' offer' raise' port') : e.phase [s.handle n, s.handle q] f = f (f e n) q := by
  have h1 : e.phase [s.handle n] f = f e n := h.phase_single hn f
  have h2 : (f e n).phase [s.handle q] f = f (f e n) q := h'.phase_single hq f
  rw [← h2, ← h1]
  rfl

/-- A change that leaves both circuits that a report names. -/
theorem phase_pair_stands {n q : Nat} {f : Eff → Nat → Eff} (hn : n < 512) (hq : q < 512) (h : e.Reads s recs offer raise port) (hfn : f e n = e)
    (hfq : f e q = e) : e.phase [s.handle n, s.handle q] f = e := by
  rw [h.phase_pair hn hq (by rw [hfn]; exact h), hfn, hfq]

end Eff.Reads

section Pair
variable {s : State} {n q : Nat} {k j : Slot}

/-- The report that makes the legs of two records. -/
def State.reportPair (s : State) (n q : Nat) (k j : Slot) : Report := [(k, [⟨s.handle n, .made⟩]), (j, [⟨s.handle q, .made⟩])]

/-- A report on two records: the legs first, then the changes of their circuits. -/
theorem effReport_pair (hn : n < 512) (hq : q < 512) (hnq : n ≠ q) (hk : ∀ l ∈ (s.recordOf n).legs, l.slot = k) (hj : ∀ l ∈ (s.recordOf q).legs, l.slot = j) :
    ∃ e : Eff, e.Reads s (changeOn [n, q] Rec.allMade s.recordOf) [] [] s.port ∧
      effReport (s.reportPair n q k j) (Eff.start s) = e.completed [s.handle n, s.handle q] := by
  have h := Eff.Reads.start s
  have h2 := (h.takeOutcome hn k .made).takeOutcome hq j .made
  have hnamed : (Eff.start s).namedIn (s.reportPair n q k j) = [s.handle n, s.handle q] := by
    have hcur {m : Nat} (hm : m < 512) : (Eff.start s).current (s.handle m) = true := (h.current _).trans (current_handle hm)
    have hnd : [s.handle n, s.handle q].Nodup := by simp [State.handle, hnq]
    rw [Eff.namedIn, show ((s.reportPair n q k j).flatMap fun x => x.2.map (·.h)) = [s.handle n, s.handle q] from rfl,
      List.filter_eq_self.2 (by simp [hcur hn, hcur hq]), firstOf_of_nodup hnd]
  refine ⟨_, h2.of_recs fun m => ?_, ?_⟩
  · rw [changeOn_single, changeOn_single]
    by_cases hmn : m = n
    · subst hmn
      rw [if_neg hnq, if_pos rfl, changeOn_of_mem List.mem_cons_self, outcome_made hk]
    · by_cases hmq : m = q
      · subst hmq
        rw [if_pos rfl, if_neg hmn, changeOn_of_mem (by simp), outcome_made hj]
      · rw [if_neg hmq, if_neg hmn, changeOn_of_not_mem (by simp [hmn, hmq])]
  · unfold effReport
    simp only [hnamed]
    rfl

/-- The records of a pair made in one report: both ACTIVE, the opening answered. -/
def Rec.pairMade (a : Option OpenAnswer) (r : Rec) : Rec := Rec.answered a { r.allMade with st := .active }

/-- The second of a pair to be ACTIVE answers the pair (03 R54). -/
theorem completeMake_pair {e : Eff} (hn : n < 512) (hq : q < 512) (hnq : n ≠ q) (hst : ∀ m ∈ [n, q], (s.recordOf m).st = .making)
    (hpn : (s.recordOf n).partner = some q) (hpq : (s.recordOf q).partner = some n)
    (h : e.Reads s (changeOn [n, q] Rec.allMade s.recordOf) [] [] s.port) :
    (e.phase [s.handle n, s.handle q] Eff.completeMake).Reads s (changeOn [n, q] (Rec.pairMade (s.recordOf q).openAns) s.recordOf) []
      (faultRaises s.recordOf [q, n]) (s.port.answerOpening (s.recordOf q).openAns .ok (((s.recordOf q).openAns.map fun a =>
        a.handles.flatMap handleBytes ++ a.handles.map fun h => flagByte (s.recordOf h.num).fault).getD [])) := by
  have hRn : changeOn [n, q] Rec.allMade s.recordOf n = (s.recordOf n).allMade := changeOn_of_mem (by simp) _ _
  have hRq : changeOn [n, q] Rec.allMade s.recordOf q = (s.recordOf q).allMade := changeOn_of_mem (by simp) _ _
  have h1 := h.completeMake_waits (n := n) (q := q) (by rw [hRn]; exact hst n (by simp)) (by rw [hRn]; exact fun l hl => allMade_not_making hl)
    (by rw [hRn]; exact hpn) hnq.symm (by rw [hRq, show (s.recordOf q).allMade.st = (s.recordOf q).st from rfl, hst q (by simp)]; simp)
  have hR2q : changeOn [n] (fun r => { r with st := .active }) (changeOn [n, q] Rec.allMade s.recordOf) q = (s.recordOf q).allMade := by
    rw [changeOn_single, if_neg hnq.symm, hRq]
  have h2 := h1.completeMake (n := q) (by rw [hR2q]; exact hst q (by simp)) (by rw [hR2q]; exact fun l hl => allMade_not_making hl) (by
    rw [hR2q]
    intro m hm
    rw [show (s.recordOf q).allMade.partner = (s.recordOf q).partner from rfl, hpq] at hm
    cases hm
    exact ⟨hnq, by rw [changeOn_self]⟩)
  have hp2 : (changeOn [n] (fun r => { r with st := .active }) (changeOn [n, q] Rec.allMade s.recordOf) q).partner = some n := by rw [hR2q]; exact hpq
  have ha2 : (changeOn [n] (fun r => { r with st := .active }) (changeOn [n, q] Rec.allMade s.recordOf) q).openAns = (s.recordOf q).openAns := by
    rw [hR2q]; rfl
  have hf2 (m : Nat) : (changeOn [n] (fun r => { r with st := .active }) (changeOn [n, q] Rec.allMade s.recordOf) m).fault = (s.recordOf m).fault :=
    (changeOn_fault (f := fun r => { r with st := .active }) (fun _ => rfl) _ _ m).trans (changeOn_fault (f := Rec.allMade) (fun _ => rfl) _ _ m)
  have hf3 (m : Nat) : (changeOn [q] (fun r => { r with st := .active })
      (changeOn [n] (fun r => { r with st := .active }) (changeOn [n, q] Rec.allMade s.recordOf)) m).fault = (s.recordOf m).fault :=
    (changeOn_fault (f := fun r => { r with st := .active }) (fun _ => rfl) _ _ m).trans (hf2 m)
  have hanswer := answerOpening_pair (s := s) (recs := changeOn [q] (fun r => { r with st := .active })
    (changeOn [n] (fun r => { r with st := .active }) (changeOn [n, q] Rec.allMade s.recordOf))) (n := q) (q := n) (by rw [changeOn_self]; exact hp2) s.port
  simp only [hf3] at hanswer
  rw [changeOn_self] at hanswer
  rw [hp2, ha2] at h2
  change s.port.answerOpening (changeOn [n] _ _ q).openAns _ _ = s.port.answerOpening (changeOn [n] _ _ q).openAns _ _ at hanswer
  rw [ha2] at hanswer
  rw [hanswer, faultRaises_congr hf2] at h2
  rw [h.phase_pair hn hq h1]
  refine h2.of_recs fun m => ?_
  by_cases hmq : m = q
  · subst hmq
    rw [changeOn_of_mem List.mem_cons_self, changeOn_self, hR2q, changeOn_of_mem (by simp)]
    rfl
  · by_cases hmn : m = n
    · subst hmn
      rw [changeOn_of_mem (by simp), changeOn_of_not_mem (by simpa using hmq), changeOn_self, hRn, changeOn_of_mem (by simp)]
      rfl
    · rw [changeOn_of_not_mem (by simp [hmq, hmn]), changeOn_of_not_mem (by simpa using hmq), changeOn_of_not_mem (by simpa using hmn),
        changeOn_of_not_mem (by simp [hmq, hmn]), changeOn_of_not_mem (by simp [hmq, hmn])]

/-- What a report that makes both circuits of a pair comes to. -/
theorem effReport_pair_reads (hn : n < 512) (hq : q < 512) (hnq : n ≠ q) (hst : ∀ m ∈ [n, q], (s.recordOf m).st = .making ∧ (s.recordOf m).target = some .source)
    (hpn : (s.recordOf n).partner = some q) (hpq : (s.recordOf q).partner = some n) (hk : ∀ l ∈ (s.recordOf n).legs, l.slot = k)
    (hj : ∀ l ∈ (s.recordOf q).legs, l.slot = j) :
    (effReport (s.reportPair n q k j) (Eff.start s)).Reads s (changeOn [n, q] (Rec.pairMade (s.recordOf q).openAns) s.recordOf) []
      (faultRaises s.recordOf [q, n]) (s.port.answerOpening (s.recordOf q).openAns .ok (((s.recordOf q).openAns.map fun a =>
        a.handles.flatMap handleBytes ++ a.handles.map fun h => flagByte (s.recordOf h.num).fault).getD [])) := by
  obtain ⟨e, h, he⟩ := effReport_pair hn hq hnq hk hj
  have h1 := completeMake_pair hn hq hnq (fun m hm => (hst m hm).1) hpn hpq h
  have hrec {m : Nat} (hm : m ∈ [n, q]) : (changeOn [n, q] (Rec.pairMade (s.recordOf q).openAns) s.recordOf m).st = .active ∧
      (changeOn [n, q] (Rec.pairMade (s.recordOf q).openAns) s.recordOf m).target = some .source := by
    rw [changeOn_of_mem hm, Rec.pairMade, answered_st, answered_target]
    exact ⟨rfl, (hst m hm).2⟩
  obtain ⟨hsn, htn⟩ := hrec (m := n) (by simp)
  obtain ⟨hsq, htq⟩ := hrec (m := q) (by simp)
  have h2 := h1.completeDrive_active htn hsn
  have h3 := h2.completeDrive_active htq hsq
  have hdone : e.completed [s.handle n, s.handle q] =
      ((e.phase [s.handle n, s.handle q] Eff.completeMake).completeDrive n).completeDrive q := by
    unfold Eff.completed
    rw [h1.phase_pair hn hq h2,
      h3.phase_pair_stands hn hq (h3.completeVerify_stands (.inl (by rw [hsn]; simp))) (h3.completeVerify_stands (.inl (by rw [hsq]; simp))),
      h3.phase_pair_stands hn hq (h3.completeTest_stands (.inr (.inl (by rw [hsn]; simp)))) (h3.completeTest_stands (.inr (.inl (by rw [hsq]; simp)))),
      h3.phase_pair_stands hn hq (h3.tryFree_stands (.inl (by rw [hsn]; simp))) (h3.tryFree_stands (.inl (by rw [hsq]; simp)))]
  rw [he, hdone]
  exact h3

end Pair

/-! ### The statement -/

theorem openResults_made (hd : Handle) (x : Rec) (legs : List Leg) : openResults hd { x with legs := legs, st := .active } none =
    handleBytes hd ++ [4, if x.fault then 1 else 0, BitVec.ofNat 8 legs.length] ++ legsBytes legs ++ [0xFF] ++ bytes16 (x.roundTrip.getD 0) := rfl

theorem openResults_verified (hd : Handle) (x : Rec) (legs : List Leg) (u : Fin 4) {trip : Nat} (h : x.roundTrip = some trip) :
    openResults hd (Rec.verified { x with legs := legs }) (some u) =
      handleBytes hd ++ [4, if x.fault then 1 else 0, BitVec.ofNat 8 legs.length] ++ legsBytes legs ++ [BitVec.ofNat 8 u.val] ++ bytes16 trip := by
  unfold openResults Rec.verified
  simp only [h]
  rfl

theorem faultRaises_single (recs : Nat → Rec) (n : Nat) : faultRaises recs [n] = if (recs n).fault then [(81 + n, .sourceFault)] else [] :=
  List.append_nil _

theorem faultRaises_pair (recs : Nat → Rec) (n q : Nat) : faultRaises recs [n, q] =
    (if (recs n).fault then [(81 + n, .sourceFault)] else []) ++ if (recs q).fault then [(81 + q, .sourceFault)] else [] :=
  congrArg (_ ++ ·) (List.append_nil _)

/-- Settles O47: a report on one circuit is read off the rule for its state; one on a pair makes the first, which waits, and then the second, which
answers; one of stale outcomes computes to nothing. -/
theorem boundaryReportMovesLegsAndCircuits : Obligations.BoundaryReportMovesLegsAndCircuits := by
  refine ⟨fun s rest n outs hr hn ho hx hp => ?_, fun s rest n q k j hr hn hq hnq hx hst hpn hpq hk hj => ?_, fun s x rest hr hx h => ?_⟩
  · refine ⟨fun hst => report_moves_quiet hr hn ho hx hst, fun hst htar => ⟨fun hl => report_moves_making hr hn ho hx hst hl, fun hl => ⟨fun hpn => ?_,
      fun q hpq => ⟨fun hqs => ?_, fun hqs => ?_⟩⟩⟩, fun hst => ⟨fun hcls hl hq => ?_, fun hl => ?_⟩, fun t hs htar => ?_, fun u trip hv hrt => ⟨fun hw => ?_,
      fun hd wait f hw hst hf => ?_⟩⟩
    · have := report_makes hr hn ho hx hst htar hpn hl
      rw [openResults_made, faultRaises_single] at this
      exact this
    · exact report_waits hr hn ho hx hst htar hpq (fun h => hp (h ▸ hpq)) hqs hl
    · have := report_makes_pair hr hn ho hx hst htar hpq (fun h => hp (h ▸ hpq)) hqs hl
      rw [faultRaises_pair] at this
      exact this
    · exact report_frees hr hn ho hx hst hp hcls hl hq
    · exact report_moves_breaking hr hn ho hx hst hp hl
    · have := report_drives hr hn ho hx hs htar
      cases t <;> exact this
    · have := report_verified_idle hr hn ho hx hv hrt hw
      rw [openResults_verified _ _ _ _ hrt, faultRaises_single] at this
      exact this
    · obtain ⟨t, ht, hc, hrecs, hfan, hver⟩ := report_verified_assign hr hn ho hx hv hrt hw hst hf
      rw [openResults_verified _ _ _ _ hrt, faultRaises_single] at hc
      refine ⟨t, ht, hc, hrecs, hfan, ?_, fun v => ?_, ?_⟩
      · rw [hver, view_reassign]
      · rw [hver]; exact unit_reassign _ _ _ _ _
      · rw [hver]; exact outcomes_reassign _ _ _ _
  · intro fault opening made
    have hst' : ∀ m ∈ [n, q], (s.recordOf m).st = .making ∧ (s.recordOf m).target = some .source := hst
    obtain ⟨t, ht, hc, hrecs, hfan, _⟩ := exec_of_reads (v := s.ver) (w := s.mgr.wait) (.report _ rest hr hx)
      (effReport_pair_reads (s := s.afterReport rest) hn hq hnq hst' hpn hpq hk hj) (fits_nil _)
    rw [faultRaises_pair] at hc
    exact ⟨t, ht, hc, hrecs, hfan⟩
  · exact exec_of_idle (.report x rest hr hx) (effReport_stale h)

end Sys2Proof.Machine

/-! SUPPORT. Tables read whole (log 32): a property of every value of a table, and what a change of all its numbers leaves at one of them. -/

namespace Sys2Proof.Machine

set_option Elab.async false

variable {α : Type} [DecidableEq α]

/-- Reading a table after a change of the numbers below n. -/
theorem Tbl.get_updAll (d : α) (n : Nat) (f : Nat → α → α) (t : Tbl α) (k : Nat) :
    Tbl.get d (Tbl.updAll d n f t) k = if k < n then f k (Tbl.get d t k) else Tbl.get d t k := by
  have key : ∀ l : List Nat, l.Nodup → ∀ t : Tbl α,
      Tbl.get d (l.foldl (fun acc j => Tbl.upd d acc j (f j)) t) k = if k ∈ l then f k (Tbl.get d t k) else Tbl.get d t k := by
    intro l
    induction l with
    | nil => intro _ t; simp
    | cons j l ih =>
      intro hl t
      obtain ⟨hj, hl⟩ := List.nodup_cons.1 hl
      rw [List.foldl_cons, ih hl, Tbl.get_upd]
      by_cases hk : k = j
      · subst hk; simp [hj]
      · simp [hk]
  have := key (List.range n) List.nodup_range t
  simp only [List.mem_range] at this
  exact this

/-- Reading a canonical table after a change of every entry: a number without an entry keeps the reset value. -/
theorem Tbl.get_mapAll_ite (d : α) (f : Nat → α → α) (t : Tbl α) (k : Nat) (h : Tbl.wf d t = true) :
    Tbl.get d (Tbl.mapAll d f t) k = if Tbl.get d t k = d then d else f k (Tbl.get d t k) := by
  have hsame : Tbl.mapAll d f t = Tbl.mapAll d (fun j x => if x = d then d else f j x) t := by
    clear k
    induction t with
    | nil => rfl
    | cons e t ih =>
      obtain ⟨hv, _, ht⟩ := (Tbl.wf_cons d e.1 e.2 t).1 h
      have := ih ht
      unfold Tbl.mapAll at this ⊢
      simp only [List.filterMap_cons, this, if_neg hv]
  rw [hsame]
  exact Tbl.get_mapAll d (fun j x => if x = d then d else f j x) t k (fun _ => if_pos rfl) h

/-- Every value of a table has the property. -/
def Tbl.Each (d : α) (P : α → Prop) (t : Tbl α) : Prop := ∀ k, P (Tbl.get d t k)

namespace Tbl.Each

variable {d : α} {P : α → Prop} {t : Tbl α} (h : Tbl.Each d P t)
include h

theorem set {v : α} (k : Nat) (hv : P v) : Tbl.Each d P (Tbl.set d t k v) := by
  intro j
  by_cases hj : j = k
  · rw [hj, Tbl.get_set_same]; exact hv
  · rw [Tbl.get_set_other _ _ _ hj]; exact h j

theorem updAll (n : Nat) {f : Nat → α → α} (hf : ∀ k x, P x → P (f k x)) : Tbl.Each d P (Tbl.updAll d n f t) := by
  intro k
  rw [Tbl.get_updAll]
  split
  · exact hf _ _ (h k)
  · exact h k

theorem mapAll (hw : Tbl.wf d t = true) {f : Nat → α → α} (hf : ∀ k x, P x → P (f k x)) : Tbl.Each d P (Tbl.mapAll d f t) := by
  intro k
  rw [Tbl.get_mapAll_ite _ _ _ _ hw]
  split
  · next hd => exact hd ▸ h k
  · exact hf _ _ (h k)

end Tbl.Each

end Sys2Proof.Machine

/-! SUPPORT. The generator bank (02 2.8): what a generator sends, and the settings it keeps. -/

namespace Sys2Proof.Machine

set_option Elab.async false

/-! ### Bits of a byte -/

/-- Eight bits make the byte that has them, the first most significant (02 R38, R39). -/
theorem byteOfBits_getLsbD (f : Nat → Bool) {j : Nat} (hj : j < 8) : (byteOfBits ((List.range 8).map f)).getLsbD (7 - j) = f j := by
  have key : ∀ b0 b1 b2 b3 b4 b5 b6 b7 : Bool, ∀ i : Fin 8,
      (byteOfBits [b0, b1, b2, b3, b4, b5, b6, b7]).getLsbD (7 - i) = [b0, b1, b2, b3, b4, b5, b6, b7][i] := by decide +kernel
  have := key (f 0) (f 1) (f 2) (f 3) (f 4) (f 5) (f 6) (f 7) ⟨j, hj⟩
  have hl : (List.range 8).map f = [f 0, f 1, f 2, f 3, f 4, f 5, f 6, f 7] := rfl
  rw [hl, this]
  simp only [← hl, Fin.getElem_fin, List.getElem_map, List.getElem_range]

/-! ### The shift register (02 R38) -/

/-- The bit output enters stage 1. -/
theorem prbsStep_first (r : BitVec 15) : (prbsStep r).getLsbD 0 = prbsBit r := by
  unfold prbsStep
  cases prbsBit r <;> simp

/-- Every other stage takes the bit of the stage before. -/
theorem prbsStep_shift (r : BitVec 15) {i : Nat} (h1 : 1 ≤ i) (hi : i < 15) : (prbsStep r).getLsbD i = r.getLsbD (i - 1) := by
  unfold prbsStep
  have h0 : ¬ i < 1 := by omega
  have hi0 : i ≠ 0 := by omega
  have hi1 : i - 1 < 15 := by omega
  cases prbsBit r <;> simp [hi, h0, hi0, BitVec.getLsbD_eq_getElem hi1]

/-- A register that is not 0 never becomes 0: what a step shifts out of sight is stage 15, and it is output. -/
theorem prbsStep_ne_zero {r : BitVec 15} (h : r ≠ 0) : prbsStep r ≠ 0 := by
  intro hz
  have hlow (i : Nat) (hi : i < 14) : r.getLsbD i = false := by
    have := prbsStep_shift r (i := i + 1) (by omega) (by omega)
    rw [hz] at this
    simpa using this.symm
  have hout : r.getLsbD 14 = false := by
    have := prbsStep_first r
    rw [hz, prbsBit, hlow 13 (by omega)] at this
    simpa using this.symm
  refine h (BitVec.eq_of_getLsbD_eq fun i hi => ?_)
  rcases Nat.lt_or_ge i 14 with h14 | h14
  · rw [hlow i h14]; simp
  · rw [show i = 14 by omega, hout]; simp

/-- The register after n steps, and the bits output on the way. -/
theorem prbsRun_eq (n : Nat) : ∀ r : BitVec 15, prbsRun n r = (prbsStep^[n] r, (List.range n).map fun j => prbsBit (prbsStep^[j] r)) := by
  induction n with
  | zero => exact fun _ => rfl
  | succ n ih =>
    intro r
    rw [prbsRun, ih, List.range_succ_eq_map, List.map_cons, List.map_map]
    rfl

theorem iterate_prbsStep_ne_zero {r : BitVec 15} (h : r ≠ 0) (n : Nat) : prbsStep^[n] r ≠ 0 := by
  induction n with
  | zero => exact h
  | succ n ih => rw [Function.iterate_succ_apply']; exact prbsStep_ne_zero ih

/-! ### A generator's settings (02 R38-R40) -/

theorem Generator.legal_initial : Generator.initial.legal := by unfold Generator.legal; decide

theorem Generator.legal_step {g : Generator} (h : g.legal) (idle : Byte) : (g.step idle).legal := by
  obtain ⟨hreg, hset⟩ := h
  unfold Generator.step
  split
  · exact ⟨hreg, hset⟩
  · exact ⟨hreg, hset⟩
  · refine ⟨?_, hset⟩
    simp only [prbsRun_eq]
    exact iterate_prbsStep_ne_zero hreg 8
  · obtain ⟨h1, h2, h3, h4, h5, _⟩ := hset
    exact ⟨hreg, h1, h2, h3, h4, h5, Nat.mod_lt _ (by omega)⟩

theorem seedOf_toNat {n : Nat} (h : n ≤ 0x7FFF) : (seedOf n).toNat = if n = 0 then 0x7FFF else n := by
  unfold seedOf
  split
  · rfl
  · rw [BitVec.toNat_ofNat]; omega

/-- What GEN_SET accepts. -/
theorem parseGen_some {m : List Byte} {f : GenFields} (h : parseGen m = some f) : genParamsOk m f.kind = true := by
  unfold parseGen at h
  split at h
  · split at h
    · split at h
      · next hok => cases h; exact hok
      · cases h
    · cases h
  · cases h

section Configured
variable {g : Generator} {f : GenFields} {m : List Byte}

theorem configured_off (h : f.kind = .off) : g.configured f m = { g with kind := .off, flag := f.flag } := by
  simp only [Generator.configured, h]

theorem configured_fixed (h : f.kind = .fixed) : g.configured f m = { g with kind := .fixed, flag := f.flag, fixed := byteAt m 6 } := by
  simp only [Generator.configured, h]

theorem configured_prbs (h : f.kind = .prbs) : g.configured f m =
    { g with kind := .prbs, flag := f.flag, seed := seedOf (wordAt m 7), reg := (seedOf (wordAt m 7)).setWidth 15 } := by
  simp only [Generator.configured, h]

theorem configured_code (h : f.kind = .code) : g.configured f m =
    { g with kind := .code, flag := f.flag, len := (byteAt m 9).toNat, value := byteAt m 10, phase := 0 } := by
  simp only [Generator.configured, h]

end Configured

/-- GEN_SET keeps the register off 0: a seed of 0000h selects 7FFFh (02 R40). -/
theorem Generator.legal_configured {g : Generator} (h : g.legal) {f : GenFields} {m : List Byte} (hf : parseGen m = some f) :
    (g.configured f m).legal := by
  have hok := parseGen_some hf
  obtain ⟨hreg, hseed, hle, hset⟩ := h
  cases hk : f.kind with
  | off => rw [configured_off hk]; exact ⟨hreg, hseed, hle, hset⟩
  | fixed => rw [configured_fixed hk]; exact ⟨hreg, hseed, hle, hset⟩
  | prbs =>
    rw [configured_prbs hk]
    simp only [hk, genParamsOk, decide_eq_true_eq] at hok
    have hpos : 0 < (seedOf (wordAt m 7)).toNat ∧ (seedOf (wordAt m 7)).toNat ≤ 0x7FFF := by
      rw [seedOf_toNat hok]
      split <;> omega
    refine ⟨fun hz => ?_, fun hz => ?_, hpos.2, hset⟩
    · have : (seedOf (wordAt m 7)).toNat % 2 ^ 15 = 0 := congrArg BitVec.toNat hz
      omega
    · have : (seedOf (wordAt m 7)).toNat = 0 := congrArg BitVec.toNat hz
      omega
  | code =>
    rw [configured_code hk]
    simp only [hk, genParamsOk, decide_eq_true_eq] at hok
    obtain ⟨h3, h8, hv⟩ := hok
    exact ⟨hreg, hseed, hle, h3, h8, hv, (Nat.zero_lt_succ 2).trans_le h3⟩

end Sys2Proof.Machine

/-! SUPPORT. The blocks of the part in range (02 R25, R26, R38-R40, 06 R110-R114, 07 R139, 10 10.3): the bounds of `State.timingLegal`, `State.banksLegal`
and `State.areasLegal`, block by block beside the block's canonical tables, and what each operation of a block keeps of them. -/

namespace Sys2Proof.Machine

set_option Elab.async false

/-! ### The control port (10) -/

/-- The areas of a request slot hold 32 bytes (10.3). -/
def PortSlot.Whole (x : PortSlot) : Prop := x.request.length = 32 ∧ x.response.length = 32

/-- The port: canonical slots with whole areas, and a default clear-down of at most 200 (10 R197). -/
structure Port.InRange (p : Port) : Prop where
  slots : p.Canonical
  areas : ∀ n, (p.slot n).Whole
  clearDown : p.defaults.clearDown ≤ 200

theorem PortSlot.whole_initial : PortSlot.initial.Whole := ⟨rfl, rfl⟩

namespace Port.InRange

variable {p : Port} (h : p.InRange)
include h

theorem setSlot (n : Fin 4) {v : PortSlot} (hv : v.Whole) : (p.setSlot n v).InRange where
  slots := h.slots.setSlot n v
  areas := fun m => by
    rw [slot_setSlot]
    split
    · exact hv
    · exact h.areas m
  clearDown := h.clearDown

theorem answer (n : Fin 4) (sub : Nat) (st : Status) (res : List Byte) : (p.answer n sub st res).InRange := by
  rcases answer_eq p n sub st res with he | ⟨v, _, _, hreq, _, hres, he⟩
  · rw [he]; exact h
  · rw [he]; exact h.setSlot n ⟨hreq ▸ (h.areas n).1, hres⟩

theorem takeRequest {q : Port} {o : Owner} {kind : Byte} {r : Request} (ht : p.takeRequest o kind = some (r, q)) : q.InRange := by
  obtain ⟨pre, post, _, _, _, _, _, hq⟩ := takeRequest_some ht
  rw [hq]
  exact setSlot (p := { p with queue := pre ++ post }) { h with } r.slot (h.areas r.slot)

theorem abort (n : Fin 4) : (p.abort n).InRange := by
  unfold Port.abort
  simp only
  split
  · exact h.setSlot n ⟨(h.areas n).1, length_responseOf _ _ _⟩
  · exact h

theorem softReset (r : Request) : (p.softReset r).InRange := by
  have key : ∀ (l : List (Fin 4)) (q : Port), q.InRange → (l.foldl Port.abort q).InRange := by
    intro l
    induction l with
    | nil => exact fun _ hq => hq
    | cons n l ih => exact fun q hq => ih _ (hq.abort n)
  exact { key _ _ h with }

theorem record (x : SoftReset) : (p.record x).InRange := by
  unfold Port.record
  split
  · exact answer (p := { p with soft := none }) { h with } _ _ _ _
  · exact { h with }

theorem takeAck (b : ResetBlock) : (p.takeAck b).InRange := by
  unfold Port.takeAck
  split
  · exact h
  · next rest _ =>
    simp only
    split
    · split
      · exact record (p := { p with acks := rest }) { h with } _
      · exact { h with }
    · exact { h with }

end Port.InRange

/-- WRITE_SLOT keeps an area whole (10 R187). -/
theorem length_storeBytes {area : List Byte} {off : Nat} (data : List Byte) (ha : area.length = 32) (ho : off < 32) :
    (storeBytes area off data).length = 32 := by
  simp only [storeBytes, List.length_take, List.length_append, List.length_drop, ha]
  omega

/-! ### The attention unit (09) -/

/-- The attention unit: canonical flags, seventeen enables, a cursor on an entity (09 R173, R176). -/
structure Attention.InRange (a : Attention) : Prop where
  flags : Tbl.wf 0 a.flags = true
  enables : a.enables.length = 17
  cursor : a.cursor < Config.entities

theorem length_allSome {α : Type} : ∀ {l : List (Option α)} {xs : List α}, allSome l = some xs → xs.length = l.length
  | [], xs, h => by cases h; rfl
  | none :: _, _, h => by cases h
  | some x :: l, xs, h => by
    obtain ⟨ys, hy, rfl⟩ := Option.map_eq_some_iff.1 h
    rw [List.length_cons, List.length_cons, length_allSome hy]

namespace Attention.InRange

variable {a : Attention} (h : a.InRange)
include h

theorem hand (b : RaiseBlock) (r : Raise) : (a.hand b r).InRange := by
  unfold Attention.hand
  split
  · exact h
  · exact { h with }

theorem takeRaise (r : Raise) : (a.takeRaise r).InRange := by
  induction r generalizing a with
  | nil => exact h
  | cons x r ih =>
    refine ih (a := a.setFlag x.1 x.2) { h with flags := ?_ }
    exact Tbl.wf_upd 0 a.flags x.1 (· ||| x.2.mask) h.flags

theorem collected (found : List Nat) : (a.collected found).InRange where
  flags := wf_cleared _ _ h.flags
  enables := h.enables
  cursor := by
    unfold Attention.collected
    simp only
    split
    · exact Nat.mod_lt _ (by decide)
    · exact h.cursor

end Attention.InRange

/-! ### The lane supervisor (06) -/

/-- The supervisor: canonical lanes, each legal. -/
structure Supervisor.InRange (u : Supervisor) : Prop where
  lanes : Tbl.wf Lane.initial u.lanes = true
  legal : Tbl.Each Lane.initial Lane.legal u.lanes

theorem Lane.legal_initial : Lane.initial.legal := by unfold Lane.legal; decide

/-- A judgement keeps an absent count in UP below the limit that takes the lane to LOST, and a presence count in RESTORING below the one that takes it to
UP (06 R110, R111). -/
theorem Lane.legal_judge {x : Lane} (h : x.legal) (present : Bool) : (x.judge present).legal := by
  obtain ⟨ht, ht', hr, hr', ha, hp, hup, hres⟩ := h
  unfold Lane.judge
  cases hst : x.st with
  | up =>
    have hp0 : x.presence = 0 := hres (by simp [hst])
    simp only
    split
    · exact ⟨ht, ht', hr, hr', by simp, hp, fun _ => rfl, fun _ => hp0⟩
    · split
      · exact ⟨ht, ht', hr, hr', by simp, hp, fun _ => rfl, fun _ => hp0⟩
      · refine ⟨ht, ht', hr, hr', ?_, hp, fun hne => absurd rfl hne, fun _ => hp0⟩
        show x.absent + 1 < 255
        omega
  | lost =>
    have ha0 : x.absent = 0 := hup (by simp [hst])
    simp only
    split
    · exact ⟨ht, ht', hr, hr', ha, by simp [Config.unitFrames], fun _ => ha0, fun hne => absurd rfl hne⟩
    · exact ⟨ht, ht', hr, hr', ha, hp, hup, hres⟩
  | restoring =>
    have ha0 : x.absent = 0 := hup (by simp [hst])
    simp only
    split
    · split
      · exact ⟨ht, ht', hr, hr', by simp, by simp [Config.unitFrames], fun _ => rfl, fun _ => rfl⟩
      · refine ⟨ht, ht', hr, hr', ha, ?_, fun _ => ha0, fun hne => absurd rfl hne⟩
        have : x.trsq * Config.unitFrames ≤ 255 * Config.unitFrames := Nat.mul_le_mul_right _ hr'
        show x.presence + 1 < _
        omega
    · exact ⟨ht, ht', hr, hr', ha, by simp [Config.unitFrames], fun _ => ha0, fun _ => rfl⟩

theorem Lane.legal_endFrame {x : Lane} (h : x.legal) (bits : List Bool) (inFrame : Bool) : (x.endFrame bits inFrame).legal := h

namespace Supervisor.InRange

variable {u : Supervisor} (h : u.InRange)
include h

theorem setLane (l : Nat) {x : Lane} (hx : x.legal) : (u.setLane l x).InRange :=
  ⟨Tbl.wf_set _ _ _ _ h.lanes, h.legal.set l hx⟩

theorem endFrame (rx : FrameIn) (bits : Nat) (inFrame : Bool) : (u.endFrame rx bits inFrame).InRange where
  lanes := by
    simp only [Supervisor.endFrame]
    exact Tbl.wf_updAll _ _ _ _ h.lanes
  legal := by
    simp only [Supervisor.endFrame]
    exact h.legal.updAll _ fun _ _ hx => Lane.legal_endFrame hx _ _

end Supervisor.InRange

/-! ### The path verifier (04) -/

/-- A unit holds at most 32 received bytes (04 4.1). -/
def VerifyUnit.Bounded (x : VerifyUnit) : Prop := x.rx.length ≤ 32

/-- The verifier: canonical tables, and at most 32 bytes in each unit. -/
structure Verifier.InRange (v : Verifier) : Prop where
  canonical : v.Canonical
  units : Tbl.Each VerifyUnit.idle VerifyUnit.Bounded v.units

theorem VerifyUnit.bounded_of_nil {x : VerifyUnit} (h : x.rx = []) : x.Bounded := by unfold VerifyUnit.Bounded; rw [h]; exact Nat.zero_le _

theorem VerifyUnit.bounded_startFrame {x : VerifyUnit} (h : x.Bounded) (u : Nat) : (x.startFrame u).Bounded := by
  unfold VerifyUnit.startFrame
  split
  · exact h
  · split <;> exact h
  · split <;> exact h

/-- The received bytes that a judgement keeps are the last 32 (04 R80). -/
theorem VerifyUnit.bounded_judge (u : Nat) (hd : Handle) (k : Nat) (b : Byte) (x : VerifyUnit) : (x.judge u hd k b).Bounded := by
  unfold VerifyUnit.judge
  simp only
  split
  · exact bounded_of_nil rfl
  · split
    · exact bounded_of_nil rfl
    · show (List.drop _ _).length ≤ 32
      rw [List.length_drop]
      omega

namespace Verifier.InRange

variable {v : Verifier} (h : v.InRange)
include h

theorem setUnit (u : Nat) {x : VerifyUnit} (hx : x.Bounded) : (v.setUnit u x).InRange := ⟨h.canonical.setUnit u x, h.units.set u hx⟩

theorem withOutcomes (l : List OutcomeClaim) : ({ v with outcomes := l } : Verifier).InRange := ⟨h.canonical.withOutcomes l, h.units⟩

theorem mapAll {f : Nat → VerifyUnit → VerifyUnit} (hf : ∀ k x, x.Bounded → (f k x).Bounded) :
    ({ v with units := Tbl.mapAll VerifyUnit.idle f v.units } : Verifier).InRange :=
  ⟨h.canonical.withUnits (Tbl.wf_mapAll _ _ _ h.canonical.units), h.units.mapAll h.canonical.units hf⟩

theorem updAll (n : Nat) {f : Nat → VerifyUnit → VerifyUnit} (hf : ∀ k x, x.Bounded → (f k x).Bounded) :
    ({ v with units := Tbl.updAll VerifyUnit.idle n f v.units } : Verifier).InRange :=
  ⟨h.canonical.withUnits (Tbl.wf_updAll _ _ _ _ h.canonical.units), h.units.updAll n hf⟩

theorem assign (u : Fin 4) (hd : Handle) (f : VerifyField) : (v.assign u hd f).InRange := by
  unfold Verifier.assign
  split
  · exact h.setUnit u (VerifyUnit.bounded_of_nil rfl)
  · exact (h.setUnit u (VerifyUnit.bounded_of_nil rfl)).withOutcomes _

theorem takeNotice (n : Notice) (b : Bool) : (v.takeNotice n b).InRange := by
  unfold Verifier.takeNotice
  simp only
  split
  · refine h.setUnit _ ?_
    unfold VerifyUnit.start
    split <;> exact h.units n.unit
  · exact h

theorem loseReturn (l : Fin 16) (u : Fin 4) : (Verifier.loseReturn l v u).InRange := by
  unfold Verifier.loseReturn
  simp only
  split
  · exact (h.setUnit u (VerifyUnit.bounded_of_nil rfl)).withOutcomes _
  · exact h

theorem takeLane (r : LaneReport) : (v.takeLane r).InRange := by
  have key : ∀ (l : List (Fin 4)) (v : Verifier), v.InRange → (l.foldl (Verifier.loseReturn r.lane) v).InRange := by
    intro l
    induction l with
    | nil => exact fun _ hv => hv
    | cons u l ih => exact fun v hv => ih _ (hv.loseReturn r.lane u)
  have hview : Verifier.InRange { v with view := setView v.view r.lane r.st } := ⟨⟨h.canonical.units, Tbl.wf_set _ _ _ _ h.canonical.view⟩, h.units⟩
  unfold Verifier.takeLane
  simp only
  split
  · exact key _ _ hview
  · exact hview

end Verifier.InRange

/-! ### The watcher unit (07) -/

/-- The watcher unit: canonical tables, and every watcher legal. -/
structure WatcherUnit.InRange (u : WatcherUnit) : Prop where
  canonical : u.Canonical
  legal : Tbl.Each Watcher.initial Watcher.legal u.table

theorem Watcher.legal_initial : Watcher.initial.legal := by unfold Watcher.legal; decide

/-- A run state with confirmations in range that arms no follower. -/
theorem Watcher.legal_withRun {x : Watcher} (h : x.legal) {r : WatchRun} (hc : r.confirmations ≤ 255)
    (ha : r.st.armedHead = true → x.cfg.chain = false) : ({ x with run := r } : Watcher).legal := by
  obtain ⟨h1, h2, h3, h4, _, _⟩ := h
  exact ⟨h1, h2, h3, h4, hc, ha⟩

/-- A change of the run state beside the watcher state and the confirmations. -/
theorem Watcher.legal_keep {x : Watcher} (h : x.legal) {r : WatchRun} (hst : r.st = x.run.st := by rfl)
    (hc : r.confirmations = x.run.confirmations := by rfl) : ({ x with run := r } : Watcher).legal := by
  obtain ⟨_, _, _, _, hconf, harm⟩ := id h
  exact Watcher.legal_withRun h (hc ▸ hconf) fun ha => harm (hst ▸ ha)

theorem Watcher.chain_of_armed {x : Watcher} (h : x.legal) (ha : x.run.st.armedHead = true) : x.cfg.chain = false := by
  obtain ⟨_, _, _, _, _, harm⟩ := h
  exact harm ha

/-- A sample leaves the watcher state and the confirmations (07 R126, R127). -/
theorem sample_keeps (x : Watcher) (b : Byte) : (x.sample b).st = x.run.st ∧ (x.sample b).confirmations = x.run.confirmations := by
  unfold Watcher.sample
  split
  · unfold WatchRun.sampleRepeat
    split <;> exact ⟨rfl, rfl⟩
  · unfold WatchRun.sampleSignature
    simp only
    split <;> exact ⟨rfl, rfl⟩
  · exact ⟨rfl, rfl⟩

/-- The judgement of an interval arms no watcher, and counts no confirmation (07 R131, R132). -/
theorem judged_keeps (r : WatchRun) (c : WatchConfig) (present : Bool) :
    ((r.judged c present).1.st.armedHead = true → r.st.armedHead = true) ∧ (r.judged c present).1.confirmations = r.confirmations := by
  unfold WatchRun.judged
  simp only
  split
  case h_7 => exact ⟨id, rfl⟩
  case h_3 hst => exact ⟨fun _ => by rw [hst]; rfl, rfl⟩
  case h_6 hst => exact ⟨fun _ => by rw [hst]; rfl, rfl⟩
  all_goals
    rename_i hst
    exact ⟨fun _ => by rw [hst]; rfl, by split <;> rfl⟩

namespace WatcherUnit.InRange

variable {u : WatcherUnit} (h : u.InRange)
include h

theorem setWatcher (w : Nat) {x : Watcher} (hx : x.legal) : (u.setWatcher w x).InRange :=
  ⟨⟨Tbl.wf_set _ _ _ _ h.canonical.table, h.canonical.view⟩, h.legal.set w hx⟩

theorem updRun (w : Nat) {f : WatchRun → WatchRun} (hf : ({ u.watcher w with run := f (u.watcher w).run } : Watcher).legal) :
    (u.updRun w f).InRange := h.setWatcher w hf

/-- A change of a chain that keeps its members legal. -/
theorem updChain (w : Nat) {f : Nat → WatchRun → WatchRun} (hf : ∀ m, ({ u.watcher m with run := f m (u.watcher m).run } : Watcher).legal) :
    (u.updChain w f).InRange := by
  refine ⟨h.canonical.updChain w f, fun m => ?_⟩
  show ((u.updChain w f).watcher m).legal
  rw [watcher_updChain]
  split
  · exact hf m
  · exact h.legal m

theorem withClaims (l : List ActionClaim) : ({ u with claims := l } : WatcherUnit).InRange := ⟨⟨h.canonical.table, h.canonical.view⟩, h.legal⟩

theorem withOrders (l : List WatchOrder) : ({ u with orders := l } : WatcherUnit).InRange := ⟨⟨h.canonical.table, h.canonical.view⟩, h.legal⟩

theorem withView {t : Tbl LaneState} (ht : Tbl.wf .lost t = true) : ({ u with view := t } : WatcherUnit).InRange :=
  ⟨⟨h.canonical.table, ht⟩, h.legal⟩

/-- Restarting a member keeps its confirmations; only a head is armed (07 R123, R142). -/
theorem restart (m : Nat) {r : WatchRun} (hc : r.confirmations = (u.watcher m).run.confirmations)
    (hst : r.st.armedHead = true → (u.watcher m).cfg.chain = false) : ({ u.watcher m with run := r } : Watcher).legal := by
  obtain ⟨_, _, _, _, hconf, _⟩ := h.legal m
  exact Watcher.legal_withRun (h.legal m) (hc ▸ hconf) hst

theorem armChain {w : Nat} (hw : (u.watcher w).cfg.chain = false) (served : Option Handle) : (u.armChain w served).InRange := by
  refine h.updChain w fun m => ?_
  split
  · next hm => exact h.restart m rfl fun _ => hm ▸ hw
  · exact h.restart m rfl nofun

theorem disarmChain (w : Nat) : (u.disarmChain w).InRange := h.updChain w fun m => h.restart m rfl nofun

theorem returnChain {w : Nat} (hw : (u.watcher w).cfg.chain = false) : (u.returnChain w).InRange := by
  refine h.updChain w fun m => ?_
  split
  · next hm => exact h.restart m rfl fun _ => hm ▸ hw
  · exact h.restart m rfl fun ha => Watcher.chain_of_armed (h.legal m) ha

theorem nextInterval (w : Nat) : (u.nextInterval w).InRange := h.updChain w fun m => Watcher.legal_keep (h.legal m)

/-- A freeze takes a candidate head back to ARMED: no follower is armed by it (07 R134). -/
theorem freeze (w : Nat) : (u.freeze w).InRange := by
  refine h.updChain w fun m => ?_
  simp only
  split
  · split
    · next hst => exact h.restart m rfl fun _ => Watcher.chain_of_armed (h.legal m) (by rw [show (u.watcher m).run.st = .candidate from hst]; rfl)
    · exact Watcher.legal_keep (h.legal m)
  · exact Watcher.legal_keep (h.legal m)

theorem thaw (w : Nat) : (u.thaw w).InRange := by
  refine h.updChain w fun m => ?_
  simp only
  split <;> exact Watcher.legal_keep (h.legal m)

theorem takeLane (r : LaneReport) : (u.takeLane r).InRange := by
  have key : ∀ (l : List Nat) (u : WatcherUnit), u.InRange → (l.foldl WatcherUnit.refreeze u).InRange := by
    intro l
    induction l with
    | nil => exact fun _ hu => hu
    | cons w l ih =>
      intro u hu
      refine ih _ ?_
      unfold WatcherUnit.refreeze
      split
      · exact hu.freeze w
      · exact hu.thaw w
      · exact hu
  exact key _ _ (h.withView (Tbl.wf_set _ _ _ _ h.canonical.view))

theorem mapRun {f : Nat → Watcher → WatchRun} (hf : ∀ m (x : Watcher), x.legal → ({ x with run := f m x } : Watcher).legal) :
    ({ u with table := Tbl.mapAll Watcher.initial (fun m x => { x with run := f m x }) u.table } : WatcherUnit).InRange :=
  ⟨⟨Tbl.wf_mapAll _ (fun m x => { x with run := f m x }) _ h.canonical.table, h.canonical.view⟩,
    h.legal.mapAll h.canonical.table (f := fun m x => { x with run := f m x }) hf⟩

theorem endFrame : u.endFrame.InRange := by
  unfold WatcherUnit.endFrame
  exact h.mapRun fun _ _ hx => Watcher.legal_keep hx

theorem startFrame : u.startFrame.InRange := by
  unfold WatcherUnit.startFrame
  exact h.mapRun fun _ _ hx => Watcher.legal_keep hx

theorem softReset : u.softReset.InRange := by
  have hm := h.mapRun (f := fun _ _ => WatchRun.initial) fun _ _ hx => Watcher.legal_withRun hx (Nat.zero_le _) nofun
  unfold WatcherUnit.softReset
  exact ⟨⟨hm.canonical.table, hm.canonical.view⟩, hm.legal⟩

end WatcherUnit.InRange

/-- What WATCH_SET accepts: a persistence and a dropout that are not 0 (07 R139). -/
theorem parseWatch_some {m : List Byte} {w : Fin 64} {c : WatchConfig} (h : parseWatch m = some (w, c)) :
    1 ≤ c.persistence ∧ c.persistence ≤ 255 ∧ 1 ≤ c.dropout ∧ c.dropout ≤ 255 := by
  have hpos {b : Byte} (hb : b ≠ 0) : 1 ≤ b.toNat ∧ b.toNat ≤ 255 :=
    ⟨Nat.pos_of_ne_zero fun hz => hb (BitVec.eq_of_toNat_eq hz), Nat.le_of_lt_succ b.isLt⟩
  unfold parseWatch at h
  split at h
  · split at h
    · cases h
    · next hb =>
      split at h
      · cases h
      · obtain ⟨hp, hd⟩ : byteAt m 18 ≠ 0 ∧ byteAt m 19 ≠ 0 := ⟨fun hp => hb (.inl hp), fun hd => hb (.inr (.inl hd))⟩
        cases h
        exact ⟨(hpos hp).1, (hpos hp).2, hpos hd⟩
  · cases h

theorem namedHead_some {u : WatcherUnit} {b : Byte} {w : Fin 64} (h : u.namedHead b = some w) : (u.watcher w).cfg.chain = false := by
  unfold WatcherUnit.namedHead at h
  split at h
  · split at h
    · cases h
    · next hc => cases h; exact Bool.eq_false_iff.2 hc
  · cases h

theorem armFits_chain {u : WatcherUnit} {d w : Nat} (h : u.armFits d w = true) : (u.watcher d).cfg.chain = false := by
  unfold WatcherUnit.armFits at h
  simp only [Bool.and_eq_true, decide_eq_true_eq] at h
  obtain ⟨⟨_, _, hc, _⟩, _⟩ := h
  exact hc

/-! ### The switch (02) -/

/-- The switch: a canonical map, and the counts of the frame timing (02 R25, R26). -/
structure Switch.InRange (w : Switch) : Prop where
  map : Tbl.wf Content.idle w.map = true
  missed : w.missed < 8
  run : w.run < 4
  locked : w.locked = true → w.run = 0
  freerun : w.locked = false → w.missed = 0
  cand : w.cand = none ↔ w.run = 0

namespace Switch.InRange

variable {w : Switch} (h : w.InRange)
include h

theorem boundary : w.boundary.InRange := by
  have hc : w.clear.InRange := by
    unfold Switch.clear
    split
    · exact h
    · exact { h with map := rfl }
  have key : ∀ (l : List Entry) (m : Tbl Content), Tbl.wf Content.idle m = true →
      Tbl.wf Content.idle (l.foldl (fun m x => Tbl.set Content.idle m x.slot.key x.content) m) = true := by
    intro l
    induction l with
    | nil => exact fun _ hm => hm
    | cons x l ih => exact fun m hm => ih _ (Tbl.wf_set _ _ _ _ hm)
  exact { hc with map := key _ _ hc.map }

theorem fsyncLocked (t : Nat) : (w.fsyncLocked t).InRange := by
  have hm (al : Option Nat) (at_ : Nat) : ({ w with missed := 0, align := al, boundaryAt := at_ } : Switch).InRange :=
    { h with missed := Nat.zero_lt_succ 7, freerun := fun _ => rfl }
  unfold Switch.fsyncLocked
  split
  · exact hm _ _
  · split
    · exact hm _ _
    · exact h

/-- An FSYNC in FREERUN that does not lock begins or lengthens a run (02 R26). -/
theorem fsyncFreerun (hl : w.locked = false) {t : Nat} (hr : w.runAfter t < 4) (c : Nat) :
    ({ w with run := w.runAfter t, cand := some c } : Switch).InRange := by
  have hpos : w.runAfter t ≠ 0 := by
    unfold Switch.runAfter
    split
    · split <;> omega
    · omega
  exact { h with run := hr, locked := fun ht => absurd ht (by simp [hl]), cand := by simp [hpos] }

theorem missedOne (hl : w.locked = true) (hm : w.missed + 1 < 8) : ({ w with missed := w.missed + 1 } : Switch).InRange :=
  { h with missed := hm, freerun := fun hf => absurd hf (by simp [hl]) }

theorem unlocked : ({ w with locked := false, missed := 0, cand := none, run := 0 } : Switch).InRange :=
  { h with missed := Nat.zero_lt_succ 7, run := Nat.zero_lt_succ 3, locked := fun _ => rfl, freerun := fun _ => rfl, cand := by simp }

theorem nowLocked : ({ w with locked := true, run := 0, cand := none } : Switch).InRange :=
  { h with run := Nat.zero_lt_succ 3, locked := fun _ => rfl, freerun := nofun, cand := by simp }

theorem noCandidate : ({ w with run := 0, cand := none } : Switch).InRange :=
  { h with run := Nat.zero_lt_succ 3, locked := fun _ => rfl, cand := by simp }

theorem runOut : w.runOut.InRange := by
  unfold Switch.runOut
  split
  · exact { h with }
  · exact h

end Switch.InRange

end Sys2Proof.Machine

/-! SUPPORT. What a claim of the circuit manager does to the verify units and to the watchers: it assigns and frees units, whose received bytes are then
none, and sets or removes a watcher's link (04 R75-R78, 08 R156, R164). `Eff.Closed` lets a claim write any unit and any run state, so the bounds of
`Verifier.InRange` and `WatcherUnit.InRange` need the changes as they are. -/

namespace Sys2Proof.Machine

set_option Elab.async false

/-- The verify units and the watchers of an effect are in range. -/
structure Eff.InRange (e : Eff) : Prop where
  ver : e.ver.InRange
  wat : e.wat.InRange

namespace Eff.InRange

variable {e : Eff} (h : e.InRange)

/-- A change beside the units and the watchers. -/
theorem beside {e' : Eff} (h : e.InRange) (hv : e'.ver = e.ver := by rfl) (hw : e'.wat = e.wat := by rfl) : e'.InRange :=
  ⟨hv ▸ h.ver, hw ▸ h.wat⟩

theorem choose {c : Prop} [Decidable c] {a b : Eff} (ha : a.InRange) (hb : b.InRange) : (if c then a else b).InRange := by
  split
  · exact ha
  · exact hb

/-! ### Parts -/

include h

theorem upd (n : Nat) (f : Rec → Rec) : (e.updRec n f).InRange := h.beside
theorem setState (n : Nat) (st : CircState) : (e.setState n st).InRange := h.beside
theorem raiseOn (n : Nat) (c : Cause) : (e.raiseOn n c).InRange := h.beside
theorem ok (r : Request) (res : List Byte) : (e.ok r res).InRange := h.beside
theorem refuse (r : Request) (st : Status) (k : Option Slot) : (e.refuse r st k).InRange := h.beside

theorem foldUpd (l : List Nat) (f : Rec → Rec) : (l.foldl (fun e m => e.updRec m f) e).InRange := foldl_keeps _ (fun _ m he => he.upd m f) l e h

theorem joinFan (src : Option Source) (n : Nat) : (e.joinFan src n).InRange := by
  unfold Eff.joinFan
  split
  · exact h.beside
  · exact h

theorem leaveFan (src : Option Source) (n : Nat) : (e.leaveFan src n).InRange := by
  unfold Eff.leaveFan
  split
  · exact h.beside
  · exact h

theorem raiseOpt (n : Nat) (c : Option Cause) : (e.raiseOpt n c).InRange := by
  unfold Eff.raiseOpt
  split
  · exact h.beside
  · exact h

theorem answerOpen (n : Nat) (st : Status) (res : List Byte) : (e.answerOpen n st res).InRange := by
  unfold Eff.answerOpen
  split
  · exact h
  · exact (h.foldUpd (e.members n) fun r => { r with openAns := none, roundTrip := none }).beside

theorem offerLegs (n : Nat) (d : Drive) (u : Option (Fin 4)) : (e.offerLegs n d u).InRange := foldl_keeps _ (fun _ _ he => he.beside) _ e h

theorem offerMakes (n : Nat) (d : Drive) (u : Option (Fin 4)) (vs : List (Slot × Nat)) (ks : List Slot) : (e.offerMakes n d u vs ks).InRange :=
  foldl_keeps _ (fun _ _ he => he.beside) _ e h

theorem breakLegs (n : Nat) (p : Leg → Bool) : (e.breakLegs n p).InRange := foldl_keeps _ (fun _ _ he => he.beside) _ _ (h.upd n _)

theorem takeOut (n : Nat) : (e.takeOut n).InRange := (h.foldUpd _ _).upd n _

theorem enterFree (n : Nat) : (e.enterFree n).InRange := by
  have hf := freed_enterFree e n
  exact h.beside hf.ver hf.wat

theorem enterFreeEach (ms : List Nat) : (ms.foldl Eff.enterFree e).InRange := foldl_keeps _ (fun _ m he => he.enterFree m) ms e h

theorem freeUnit (u : Fin 4) : (e.freeUnit u).InRange := by
  have hidle : ({ e with ver := e.ver.setUnit u VerifyUnit.idle } : Eff).InRange := ⟨h.ver.setUnit u (VerifyUnit.bounded_of_nil rfl), h.wat⟩
  unfold Eff.freeUnit
  simp only
  split
  · exact hidle
  · refine offerLegs ?_ _ _ _
    split
    · exact ⟨hidle.ver.assign _ _ _, hidle.wat⟩
    · exact hidle.beside

/-! ### Circuits -/

theorem releaseServing (n clear : Nat) (ans : Option ReleaseAnswer) : (e.releaseServing n clear ans).InRange := by
  have hout : (((e.members n).foldl Eff.takeOut e).updRec n fun r => { r with relAns := ans }).InRange :=
    upd (foldl_keeps _ (fun _ m he => he.takeOut m) (e.members n) e h) n _
  unfold Eff.releaseServing
  simp only
  split
  · refine beside (foldUpd (foldl_keeps _ (fun _ m he => he.offerLegs m _ _) _ _ (foldl_keeps _ (fun _ m he => he.breakLegs m _) _ _ hout)) (e.members n)
      fun r => { r with st := .releasing, clearOf := some clear })
  · have hbroken := foldl_keeps (fun e m => (e.breakLegs m Leg.carries).setState m .breaking) 
      (fun _ m he => (he.breakLegs m Leg.carries).setState m .breaking) (e.members n) _ hout
    exact choose (enterFreeEach (choose (hbroken.answerOpen _ _ _) hbroken) _) (choose (hbroken.answerOpen _ _ _) hbroken)

theorem releaseWaiting (n : Nat) (ans : Option ReleaseAnswer) : (e.releaseWaiting n ans).InRange :=
  enterFree (answerOpen (breakLegs (upd (beside h) n _) _ _) _ _ _) n

theorem endVerifying (n : Nat) (st : Status) (ans : Option ReleaseAnswer) : (e.endVerifying n st ans).InRange := by
  unfold Eff.endVerifying
  simp only
  cases e.ver.serving (e.handleOf n) with
  | none => exact answerOpen (breakLegs (h.upd n _) _ _) _ _ _
  | some u => exact freeUnit (answerOpen (breakLegs (h.upd n _) _ _) _ _ _) u

theorem releaseCircuit (n clear : Nat) (ans : Option ReleaseAnswer) : (e.releaseCircuit n clear ans).InRange := by
  unfold Eff.releaseCircuit
  cases (e.recOf n).st with
  | verifyWait => exact h.releaseWaiting n ans
  | verifying => exact h.endVerifying n _ ans
  | making | active | held => exact h.releaseServing n clear ans
  | free | releasing | breaking => exact h

theorem tryFree (n : Nat) : (e.tryFree n).InRange := by
  unfold Eff.tryFree
  exact choose (h.enterFreeEach _) h

theorem driveCircuit (n : Nat) (t : Target) : (e.driveCircuit n t).InRange :=
  foldl_keeps _ (fun _ m he => choose (offerLegs (he.upd m _) m _ _) (setState (he.upd m _) m _)) _ e h

theorem preempt (vs : List (Slot × Nat)) : (e.preempt vs).InRange :=
  foldl_keeps _ (fun _ v he => choose (((he.raiseOn v .preempted).takeOut v).setState v .breaking) (he.raiseOn v .preempted)) _ _
    (foldl_keeps _ (fun _ _ he => he.upd _ _) vs e h)

theorem releasePartners (ps : List Nat) : (e.releasePartners ps).InRange :=
  foldl_keeps (P := Eff.InRange) _ (fun _ p he => (((he.takeOut p).breakLegs p _).setState p .breaking).raiseOn p .partnerReleased) ps e h

theorem endAccess (t : Nat) (ans : Option ReleaseAnswer) : (e.endAccess t ans).InRange := by
  unfold Eff.endAccess
  simp only
  split
  · exact foldl_keeps _ (fun _ _ he => he.beside) _ _ (h.upd t _)
  · exact h.beside

/-- A watcher's link is set or removed, and orders are given (08 R148, R156, R164). -/
theorem linked (w : Nat) (l : Option Handle) (orders : List WatchOrder) :
    ({ e with wat := { e.wat.updRun w fun x => { x with link := l } with orders := orders } } : Eff).InRange :=
  ⟨h.ver, (h.wat.updRun w (Watcher.legal_keep (h.wat.legal w))).withOrders orders⟩

theorem freeTest (t : Nat) : (e.freeTest t).InRange := by
  have hrestored : ∀ e' : Eff, e'.InRange → ((e'.enterFree t).raiseOn t .accessEnded).InRange := fun e' he => (he.enterFree t).raiseOn t _
  have htested : ∀ e' : Eff, e'.InRange → ∀ w l orders,
      ({ e' with wat := { if (e'.wat.watcher w).run.link = l then e'.wat.updRun w fun x => { x with link := none } else e'.wat with
        orders := orders } } : Eff).InRange := by
    intro e' he w l orders
    split
    · exact he.linked w none orders
    · exact ⟨he.ver, he.wat.withOrders orders⟩
  unfold Eff.freeTest
  simp only
  have howner : (match (e.recOf t).restoring with
      | some (o, k) =>
        if (e.current o && (e.recOf o.num).legs.any fun (l : Leg) => decide (l.slot = k ∧ l.st = LegState.live)) = true
        then e.raiseOn o.num .restored else e
      | none => e).InRange := by
    split
    · exact choose (h.raiseOn _ _) h
    · exact h
  cases (e.recOf t).watcher with
  | none => exact hrestored _ howner
  | some w => exact htested _ (hrestored _ howner) w _ _

/-! ### Requests -/

theorem checked {α : Type} (r : Request) (len : Nat) (x : Option α) {f : α → Eff} (hf : ∀ a, (f a).InRange) : (e.checked r len x f).InRange := by
  unfold Eff.checked
  split
  · cases x with
    | some a => exact hf a
    | none => exact h.refuse _ _ _
  · exact h.refuse _ _ _

theorem onHandle (r : Request) (test : Bool) {f : Nat → Eff} (hf : ∀ n, (f n).InRange) : (e.onHandle r test f).InRange :=
  choose (h.refuse _ _ _) (choose (h.refuse _ _ _) (choose (h.refuse _ _ _) (hf _)))

theorem onServing (r : Request) (n : Nat) {f : Eff} (hf : f.InRange) : (e.onServing r n f).InRange := choose hf (h.refuse _ _ _)

theorem startCircuit (n : Nat) (f : OpenFields) (vs : List (Slot × Nat)) : (e.startCircuit n f vs).InRange := by
  unfold Eff.startCircuit
  cases f.verify with
  | none => exact h.offerMakes _ _ _ _ _
  | some v =>
    simp only
    split
    · next u _ => exact offerMakes (e := { e with mgr := _, ver := e.ver.assign u _ _ }) ⟨h.ver.assign _ _ _, h.wat⟩ _ _ _ _ _
    · exact offerMakes (e := { e with mgr := _ }) h.beside _ _ _ _ _

theorem acceptOpen (d : Defaults) (r : Request) (f : OpenFields) (n : Nat) : (e.acceptOpen d r f n).InRange :=
  releasePartners (startCircuit (joinFan ((h.preempt _).upd n _) _ _) _ _ _) _

theorem acceptPair (d : Defaults) (r : Request) (f : PairFields) (x y : Nat) : (e.acceptPair d r f x y).InRange :=
  releasePartners (offerMakes (offerMakes (joinFan (joinFan (((h.preempt _).upd x _).upd y _) _ _) _ _) _ _ _ _ _) _ _ _ _ _) _

theorem acceptLeg (n : Nat) (k : Slot) : (e.acceptLeg n k).InRange := releasePartners (offerMakes ((h.preempt _).upd n _) _ _ _ _ _) _

theorem moveTo (n : Nat) (src : Source) : (e.moveTo n src).InRange :=
  raiseOpt (offerLegs (upd (joinFan (h.leaveFan _ _) _ _) n _) _ _ _) _ _

theorem effOpen (d : Defaults) (r : Request) : (effOpen d r e).InRange := by
  refine h.checked _ _ _ fun f => ?_
  unfold Eff.open
  split
  · exact h.refuse _ _ _
  · split
    · exact h.refuse _ _ _
    · exact choose (h.refuse _ _ _) (choose (h.refuse _ _ _) (choose (h.refuse _ _ _) (h.acceptOpen _ _ _ _)))

theorem effOpenPair (d : Defaults) (r : Request) : (effOpenPair d r e).InRange := by
  refine h.checked _ _ _ fun f => ?_
  unfold Eff.openPair
  split
  · exact h.refuse _ _ _
  · split
    · exact h.refuse _ _ _
    · split
      · exact h.refuse _ _ _
      · exact choose (h.refuse _ _ _) (h.acceptPair _ _ _ _ _)

theorem effAddLeg (r : Request) : (effAddLeg r e).InRange :=
  h.checked _ _ _ fun k => h.onHandle _ _ fun n => h.onServing _ _
    (choose (h.refuse _ _ _) (choose (h.refuse _ _ _) (choose (h.refuse _ _ _) ((h.acceptLeg n k).ok _ _))))

theorem effDropLeg (r : Request) : (effDropLeg r e).InRange := by
  refine h.checked _ _ _ fun k => h.onHandle _ _ fun n => h.onServing _ _ ?_
  split
  · exact h.refuse _ _ _
  · exact choose (h.refuse _ _ _) (choose (ok ((h.foldUpd _ _).upd n _) _ _) ((h.breakLegs n _).ok _ _))

theorem effMoveSource (r : Request) : (effMoveSource r e).InRange :=
  h.checked _ _ _ fun src => h.onHandle _ _ fun n => h.onServing _ _
    (choose (h.ok _ _) (choose (h.refuse _ _ _) ((h.moveTo n src).ok _ _)))

theorem driveRequest (r : Request) (t : Target) (n : Nat) : (e.driveRequest r t n).InRange := choose ((h.driveCircuit n t).ok _ _) (h.refuse _ _ _)

theorem effRelease (r : Request) : (effRelease r e).InRange :=
  h.checked _ _ _ fun _ => h.onHandle _ _ fun _ => choose (h.releaseCircuit _ _ _) (h.refuse _ _ _)

theorem effTouch (r : Request) : (effTouch r e).InRange := by
  refine h.checked _ _ _ fun _ => h.onHandle _ _ fun n => ?_
  unfold Eff.touch
  simp only
  split
  · exact h.refuse _ _ _
  · split
    · exact h.refuse _ _ _
    · exact (h.foldUpd _ _).ok _ _

theorem effQuery (r : Request) : (effQuery r e).InRange :=
  h.checked _ _ _ fun (_, _) => choose (h.onHandle _ _ fun _ => h.ok _ _) (choose (h.refuse _ _ _) (h.ok _ _))

theorem effAccessEnd (r : Request) : (effAccessEnd r e).InRange :=
  h.checked _ _ _ fun _ => h.onHandle _ _ fun _ => choose (h.endAccess _ _) (h.refuse _ _ _)

theorem effRequest (d : Defaults) (r : Request) : (effRequest d r e).InRange :=
  choose (h.effOpen d r) <| choose (h.effOpenPair d r) <| choose (h.effAddLeg r) <| choose (h.effDropLeg r) <| choose (h.effMoveSource r) <|
    choose (h.checked _ _ _ fun _ => h.onHandle _ _ fun _ => h.driveRequest _ _ _) <|
    choose (h.checked _ _ _ fun _ => h.onHandle _ _ fun _ => h.driveRequest _ _ _) <|
    choose (h.effRelease r) <| choose (h.effTouch r) <| choose (h.effQuery r) <| choose (h.checked _ _ _ fun _ => h.ok _ _) <|
    choose (h.checked _ _ _ fun _ => h.ok _ _) <| choose (h.effAccessEnd r) h

/-! ### Claims from inside the part -/

theorem raiseFault (n : Nat) : (e.raiseFault n).InRange := choose (h.raiseOn _ _) h

theorem completeMake (n : Nat) : (e.completeMake n).InRange :=
  choose (choose (foldl_keeps _ (fun _ m he => he.raiseFault m) _ _ (answerOpen (h.setState n .active) _ _ _)) (h.setState n .active)) h

theorem completeDrive (n : Nat) : (e.completeDrive n).InRange := by
  unfold Eff.completeDrive
  split
  · exact choose (h.setState _ _) h
  · exact h

theorem completeVerify (n : Nat) : (e.completeVerify n).InRange := by
  unfold Eff.completeVerify
  simp only
  refine choose ?_ h
  cases e.ver.serving (e.handleOf n) with
  | none => exact raiseFault (answerOpen (h.upd n _) _ _ _) n
  | some u => exact raiseFault (answerOpen (freeUnit (h.upd n _) u) _ _ _) n

theorem completeTest (n : Nat) : (e.completeTest n).InRange := choose (h.freeTest n) h

theorem phase (l : List Handle) {f : Eff → Nat → Eff} (hf : ∀ {e : Eff}, e.InRange → ∀ n, (f e n).InRange) : (e.phase l f).InRange :=
  foldl_keeps _ (fun _ _ he => choose (hf he _) he) l e h

theorem effReport (r : Report) : (effReport r e).InRange := by
  refine phase (phase (phase (phase (phase ?_ _ completeMake) _ completeDrive) _ completeVerify) _ completeTest) _ tryFree
  exact foldl_keeps _ (fun _ _ he => foldl_keeps _ (fun _ _ he => choose (he.upd _ _) he) _ _ he) _ e h

theorem effClearDownEnd (hd : Handle) : (effClearDownEnd hd e).InRange := choose (foldl_keeps _ (fun _ m he => breakLegs (he.upd m _) m _) _ e h) h

theorem effExpiry (hd : Handle) : (effExpiry hd e).InRange := by
  have hr := foldl_keeps (fun e m => e.raiseOn m .expired) (fun _ m he => he.raiseOn m .expired) (e.members hd.num) e h
  exact choose (choose (hr.endAccess _ _) (hr.releaseCircuit _ _ _)) h

theorem effOutcome (o : OutcomeClaim) : (effOutcome o e).InRange := by
  unfold Machine.effOutcome
  refine choose ?_ h
  cases o.outcome with
  | detected k => exact offerLegs (h.upd _ _) _ _ _
  | timedOut => exact h.endVerifying _ _ _
  | returnLost => exact h.endVerifying _ _ _

theorem effLane (r : LaneReport) : (effLane r e).InRange := by
  have hview : ({ e with mgr := { e.mgr with view := setView e.mgr.view r.lane r.st } } : Eff).InRange := h.beside
  exact choose hview (foldl_keeps _ (fun _ n he => raiseOpt (he.upd n _) n _) _ _ hview)

theorem makeAccess (d : Defaults) (a : AccessRequest) (t : Nat) : (e.makeAccess d a t).InRange := by
  have hmade (x : Option (Nat × Slot)) := ((h.upd t (testRecord d e.mgr a x)).raiseOn t .created).joinFan (some (.inbound a.target)) t
  unfold Eff.makeAccess
  simp only
  cases e.mgr.holder a.loop with
  | none => exact (hmade none).beside.linked a.watcher _ _
  | some o => exact (hmade (some (o, a.loop))).beside.linked a.watcher _ _

theorem raiseWatcher (w : Nat) (c : Cause) : (e.raiseWatcher w c).InRange := h.beside

theorem effAction (d : Defaults) (a : ActionClaim) : (effAction d a e).InRange := by
  cases a with
  | releaseLinked w hd => exact choose (h.releaseCircuit _ _ _) (h.raiseWatcher _ _)
  | holdLinked w hd c => exact choose (h.driveCircuit _ _) (h.raiseWatcher _ _)
  | suppression w => exact h.raiseWatcher _ _
  | access a =>
    refine choose ?_ (h.raiseWatcher _ _)
    split
    · exact h.makeAccess _ _ _
    · exact h.raiseWatcher _ _
  | endOfAccess w hd =>
    cases hd with
    | none => exact h.raiseWatcher _ _
    | some hd => exact choose (h.endAccess _ _) (h.raiseWatcher _ _)

/-- Every claim keeps the units and the watchers in range. -/
theorem effect (d : Defaults) (c : Claim) : (effect d c e).InRange := by
  cases c with
  | request r => exact h.effRequest d r
  | report r => exact h.effReport r
  | clearDownEnd hd => exact h.effClearDownEnd hd
  | expiry hd => exact h.effExpiry hd
  | outcome o => exact h.effOutcome o
  | action a => exact h.effAction d a
  | lane r => exact h.effLane r

end Eff.InRange

end Sys2Proof.Machine

/-! SUPPORT. The whole part in range, and every command keeps it so: each command's operation writes its blocks by the operations above. -/

namespace Sys2Proof.Machine

set_option Elab.async false

/-- The tables of the circuit manager are canonical (log 32). -/
structure Manager.Canonical (m : Manager) : Prop where
  recs : Tbl.wf (Rec.free 0) m.recs = true
  fan : Tbl.wf [] m.fan = true
  view : Tbl.wf .lost m.view = true

/-- The generators: a canonical table, each legal. -/
structure GensInRange (g : Tbl Generator) : Prop where
  table : Tbl.wf Generator.initial g = true
  legal : Tbl.Each Generator.initial Generator.legal g

/-- Every block in range: what `Obligations.StepsKeepCountsInRange` keeps, block by block. -/
structure State.InRange (s : State) : Prop where
  mgr : s.mgr.Canonical
  sw : s.sw.InRange
  gens : GensInRange s.gens
  ver : s.ver.InRange
  sup : s.sup.InRange
  wat : s.wat.InRange
  att : s.att.InRange
  port : s.port.InRange

theorem GensInRange.step {t : Tbl Generator} (h : GensInRange t) (idle : Byte) :
    GensInRange (Tbl.updAll Generator.initial Config.generators (fun _ g => g.step idle) t) :=
  ⟨Tbl.wf_updAll _ _ _ _ h.table, h.legal.updAll _ fun _ _ hg => Generator.legal_step hg _⟩

theorem inRange_iff (s : State) : s.InRange ↔ s.tablesCanonical = true ∧ s.timingLegal ∧ s.banksLegal ∧ s.areasLegal := by
  simp only [State.tablesCanonical, Bool.and_eq_true]
  constructor
  · rintro ⟨hm, hw, hg, hv, hl, hu, ha, hp⟩
    exact ⟨⟨⟨⟨⟨⟨⟨⟨⟨⟨⟨⟨hm.recs, hm.fan⟩, hm.view⟩, hw.map⟩, hg.table⟩, hv.canonical.units⟩, hv.canonical.view⟩, hl.lanes⟩, hu.canonical.table⟩,
      hu.canonical.view⟩, ha.flags⟩, hp.slots⟩, ⟨hw.missed, hw.run, hw.locked, hw.freerun, hw.cand⟩, ⟨hg.legal, hl.legal, hu.legal⟩,
      hp.areas, hp.clearDown, ha.enables, ha.cursor, hv.units⟩
  · rintro ⟨⟨⟨⟨⟨⟨⟨⟨⟨⟨⟨⟨hr, hf⟩, hmv⟩, hmap⟩, hg⟩, hun⟩, hvv⟩, hl⟩, hwt⟩, hwv⟩, hfl⟩, hsl⟩, ⟨h1, h2, h3, h4, h5⟩, ⟨hgl, hll, hwl⟩, hpa, hpc, hae, hac, hvr⟩
    exact ⟨⟨hr, hf, hmv⟩, ⟨hmap, h1, h2, h3, h4, h5⟩, ⟨hg, hgl⟩, ⟨⟨hun, hvv⟩, hvr⟩, ⟨hl, hll⟩, ⟨⟨hwt, hwv⟩, hwl⟩, ⟨hfl, hae, hac⟩, ⟨hsl, hpa, hpc⟩⟩

theorem inRange_reset : State.reset.InRange where
  mgr := ⟨rfl, rfl, rfl⟩
  sw := ⟨rfl, by decide, by decide, fun _ => rfl, fun _ => rfl, by decide⟩
  gens := ⟨rfl, fun _ => Generator.legal_initial⟩
  ver := ⟨⟨rfl, rfl⟩, fun _ => VerifyUnit.bounded_of_nil rfl⟩
  sup := ⟨rfl, fun _ => Lane.legal_initial⟩
  wat := ⟨⟨rfl, rfl⟩, fun _ => Watcher.legal_initial⟩
  att := ⟨rfl, rfl, by decide⟩
  port := ⟨rfl, fun _ => PortSlot.whole_initial, by decide⟩

namespace State.InRange

variable {s : State} (h : s.InRange)

theorem choose {c : Prop} [Decidable c] {s t : State} (hs : s.InRange) (ht : t.InRange) : (if c then s else t).InRange := by
  split
  · exact hs
  · exact ht

include h

/-! ### Replacing one block -/

theorem withOutside (q : List Instr) (p : Phase) (b : Bool) : ({ s with pending := q, phase := p, oeHigh := b } : State).InRange := { h with }

theorem withPort {p : Port} (hp : p.InRange) : ({ s with port := p } : State).InRange := { h with port := hp }

theorem withSwitch {w : Switch} (hw : w.InRange) : ({ s with sw := w } : State).InRange := { h with sw := hw }

theorem withGens {g : Tbl Generator} (hg : GensInRange g) : ({ s with gens := g } : State).InRange := { h with gens := hg }

theorem withVer {v : Verifier} (hv : v.InRange) : ({ s with ver := v } : State).InRange := { h with ver := hv }

theorem withSup {u : Supervisor} (hu : u.InRange) : ({ s with sup := u } : State).InRange := { h with sup := hu }

theorem withWat {u : WatcherUnit} (hu : u.InRange) : ({ s with wat := u } : State).InRange := { h with wat := hu }

theorem withAtt {a : Attention} (ha : a.InRange) : ({ s with att := a } : State).InRange := { h with att := ha }

theorem withLease (l : LeaseClock) : ({ s with lease := l } : State).InRange := { h with }

theorem whenRunning {f : State → State} (hf : (f s).InRange) : (s.whenRunning f).InRange := choose hf h

/-! ### The control port and request engine -/

theorem setSlot (n : Fin 4) {v : PortSlot} (hv : v.Whole) : (s.setSlot n v).InRange := h.withPort (h.port.setSlot n hv)

theorem setFaults (f : PortFaults → PortFaults) : (s.setFaults f).InRange := h.withPort { h.port with }

theorem send (mosi payload : List Byte) : (s.send mosi payload).InRange := h.withPort { h.port with }

theorem transact (mosi payload : List Byte) {f : State → State} (hf : ∀ s : State, s.InRange → (f s).InRange) :
    (s.transact mosi payload f).InRange := by
  unfold State.transact
  cases s.phase with
  | reset => exact h
  | init => exact (h.send _ _).setFaults _
  | run => exact hf _ (h.send _ _)

theorem writeSlot (n : Fin 4) (off : Nat) (data : List Byte) : (s.writeSlot n off data).InRange := by
  have hst : (if off < 32 ∧ data ≠ [] then
      s.setSlot n { s.port.slot n with st := .loaded, request := storeBytes (s.port.slot n).request off data } else s).InRange := by
    split
    · next ho => exact h.setSlot n ⟨length_storeBytes data (h.port.areas n).1 ho.1, (h.port.areas n).2⟩
    · exact h
  exact choose (choose hst (hst.setFaults _)) (h.setFaults _)

theorem submitSlot (n : Fin 4) : (s.submitSlot n).InRange := by
  obtain ⟨hreq, hres⟩ := h.port.areas n
  refine choose ?_ (h.setFaults _)
  simp only
  split
  · have hq := h.setSlot n (v := { s.port.slot n with st := .queued, response := List.replicate 32 0, sub := (s.port.slot n).sub + 1 }) ⟨hreq, rfl⟩
    exact hq.withPort { hq.port with }
  · exact h.setSlot n ⟨hreq, length_responseOf _ _ _⟩

theorem emptySlot (n : Fin 4) : (s.emptySlot n).InRange := choose (h.setFaults _) (h.setSlot n PortSlot.whole_initial)

theorem readTransaction (n : Fin 4) (mosi : List Byte) :
    (s.transact mosi (readBytes (s.port.slot n).response mosi) fun s => match mosi with
      | [] => s
      | off :: _ => if off.toNat < 32 then s else s.badTransaction).InRange := by
  refine h.transact _ _ fun t ht => ?_
  cases mosi with
  | nil => exact ht
  | cons off data => exact choose ht (ht.setFaults _)

theorem writeTransaction (n : Fin 4) (mosi : List Byte) :
    (s.transact mosi [] fun s => match mosi with
      | [] => s
      | off :: data => s.writeSlot n off.toNat data).InRange := by
  refine h.transact _ _ fun t ht => ?_
  cases mosi with
  | nil => exact ht
  | cons off data => exact ht.writeSlot _ _ _

theorem answerRequest (r : Request) (st : Status) (res : List Byte) : ({ s with port := s.port.answerRequest r st res } : State).InRange :=
  h.withPort (h.port.answer _ _ _ _)

theorem ownerTakes (o : Owner) (kind : Byte) (len : Nat) {f : Request → State → State} (hf : ∀ r (s : State), s.InRange → (f r s).InRange) :
    (s.ownerTakes o kind len f).InRange := by
  refine choose ?_ h
  split
  · exact h
  · next ht =>
    have hp := h.port.takeRequest ht
    exact choose (hf _ _ (h.withPort hp)) (h.withPort (hp.answer _ _ _ _))

theorem configure (r : Request) : (s.configure r).InRange := by
  unfold State.configure
  split
  · exact h.answerRequest _ _ _
  · exact h.answerRequest _ _ _
  · split
    · exact h.answerRequest _ _ _
    · next hle => exact h.withPort (Port.InRange.answer
        (p := { s.port with defaults := ⟨byteAt r.msg 5, byteAt r.msg 6, byteAt r.msg 7, byteAt r.msg 8, (byteAt r.msg 9).toNat⟩ })
        { h.port with clearDown := Nat.le_of_not_lt hle } _ _ _ _)

theorem takeCleared : s.takeCleared.InRange := by
  unfold State.takeCleared
  split
  · exact h
  · next names rest _ =>
    have hw := h.withSwitch (w := { s.sw with cleared := rest }) { h.sw with }
    simp only
    split
    · exact hw.withPort (h.port.record _)
    · exact hw

/-! ### The attention unit, the generators, the lanes -/

theorem collect (r : Request) : (s.collect r).InRange :=
  choose (h.answerRequest _ _ _) ((h.answerRequest r .ok _).withAtt (h.att.collected _))

theorem maskSet (r : Request) : (s.maskSet r).InRange := by
  unfold State.maskSet
  split
  · exact h.answerRequest _ _ _
  · next l hl => exact (h.answerRequest r .ok _).withAtt { h.att with enables := (length_allSome hl).trans rfl }

theorem takeRaise (b : RaiseBlock) : (s.takeRaise b).InRange := by
  unfold State.takeRaise
  split
  · next r rest _ => exact h.withAtt (Attention.InRange.takeRaise (a := { s.att with raises := rest }) { h.att with } r.2)
  · exact h

theorem attentionReset : s.attentionReset.InRange := by
  unfold State.attentionReset
  split
  · exact h
  · exact (h.withAtt (a := { s.att with flags := [], cursor := 0 }) ⟨rfl, h.att.enables, Nat.zero_lt_succ _⟩).withPort { h.port with }

theorem genSet (r : Request) : (s.genSet r).InRange := by
  unfold State.genSet
  split
  · exact h.answerRequest _ _ _
  · next f hf =>
    exact { h.answerRequest r .ok _ with
      gens := ⟨Tbl.wf_set _ _ _ _ h.gens.table, h.gens.legal.set f.gen (Generator.legal_configured (h.gens.legal f.gen) hf)⟩ }

theorem laneSet (r : Request) : (s.laneSet r).InRange := by
  unfold State.laneSet
  simp only
  split
  · next l _ =>
    split
    · next hok =>
      simp only [laneSetOk, decide_eq_true_eq] at hok
      obtain ⟨h1, h2, h3, h4⟩ := hok
      obtain ⟨_, _, _, _, hcounts⟩ : (s.sup.lane l).legal := h.sup.legal l
      exact (h.answerRequest r .ok _).withSup (h.sup.setLane l ⟨h1, h2, h3, h4, hcounts⟩)
    · exact h.answerRequest _ _ _
  · exact h.answerRequest _ _ _

theorem laneQuery (r : Request) : (s.laneQuery r).InRange := by
  refine choose (h.answerRequest _ _ _) ?_
  split <;> exact h.answerRequest _ _ _

theorem judgeLane (l : Fin 16) : (s.judgeLane l).InRange := by
  unfold State.judgeLane
  simp only
  split
  · exact h
  · next present _ =>
    have hl := h.sup.setLane l (x := { (s.sup.lane l).judge present with ended := none }) (Lane.legal_judge (h.sup.legal l) present)
    exact choose (h.withSup hl) { h with sup := { hl with }, att := h.att.hand _ _ }

/-! ### The path verifier -/

theorem takeNotice (u : Fin 4) (b : Bool) : (s.takeNotice u b).InRange := by
  unfold State.takeNotice
  split
  · next n rest _ => exact (h.withSwitch (w := { s.sw with notices := rest }) { h.sw with }).withVer (h.ver.takeNotice n b)
  · exact h

theorem judgeUnit (u : Fin 4) (k : Nat) : (s.judgeUnit u k).InRange := by
  unfold State.judgeUnit
  simp only
  split
  · exact h.withVer ((h.ver.setUnit u (VerifyUnit.bounded_judge _ _ _ _ _)).withOutcomes _)
  · exact h

theorem tokenFrameEnd (u : Fin 4) : (s.tokenFrameEnd u).InRange := by
  unfold State.tokenFrameEnd
  split
  · exact h.judgeUnit _ _
  · exact h

theorem verifyTimeout (u : Fin 4) : (s.verifyTimeout u).InRange := by
  unfold State.verifyTimeout
  split
  · exact choose (h.judgeUnit _ _) h
  · exact h

theorem verifierLane (l : Fin 16) : (s.verifierLane l).InRange := by
  unfold State.verifierLane
  split
  · next r rest _ => exact (h.withSup (u := { s.sup with toVerifier := rest }) { h.sup with }).withVer (h.ver.takeLane r)
  · exact h

/-! ### The watcher unit -/

theorem raiseWatch (w : Nat) (c : Cause) : (s.raiseWatch w c).InRange := h.withAtt (h.att.hand _ _)

theorem handClaims (l : List ActionClaim) : (s.handClaims l).InRange := h.withWat (h.wat.withClaims _)

theorem sampleWatcher (w : Nat) : (s.sampleWatcher w).InRange := by
  obtain ⟨hst, hc⟩ := sample_keeps (s.wat.watcher w) (s.sw.storedByte (s.wat.watcher w).cfg.target)
  exact choose (h.withWat (h.wat.setWatcher w (Watcher.legal_keep (h.wat.legal w) hst hc))) h

/-- A confirmation is counted to 255 and no further (07 R133). -/
theorem watchEvent (w : Nat) (e : IntervalEvent) : (s.watchEvent w e).InRange := by
  cases e with
  | none => exact h
  | confirmation =>
    have hcount := h.withWat (h.wat.updRun w (f := fun r => { r with confirmations := min 255 (r.confirmations + 1) })
      (Watcher.legal_withRun (h.wat.legal w) (Nat.min_le_left _ _) (Watcher.chain_of_armed (h.wat.legal w))))
    exact choose ((hcount.raiseWatch w .confirmed).handClaims _) (hcount.raiseWatch w .confirmed)
  | clearing => exact choose ((h.raiseWatch w .cleared).handClaims _) (h.raiseWatch w .cleared)

theorem endInterval (w : Nat) : (s.endInterval w).InRange := by
  refine choose ?_ h
  have hn := h.withWat (h.wat.nextInterval w)
  obtain ⟨harm, hc⟩ := judged_keeps ((s.wat.nextInterval w).watcher w).run (s.wat.watcher w).cfg (s.wat.intervalPresent w)
  have hw := hn.wat.legal w
  obtain ⟨_, _, _, _, hconf, _⟩ := id hw
  exact choose hn ((hn.withWat (hn.wat.updRun w (Watcher.legal_withRun hw (hc ▸ hconf) fun ha => Watcher.chain_of_armed hw (harm ha)))).watchEvent w _)

theorem watcherLane (l : Fin 16) : (s.watcherLane l).InRange := by
  unfold State.watcherLane
  split
  · next r rest _ => exact (h.withSup (u := { s.sup with toWatchers := rest }) { h.sup with }).withWat (h.wat.takeLane r)
  · exact h

theorem watchAnswer (r : Request) (st : Status) (res : List Byte) : (s.watchAnswer r st res).InRange := h.answerRequest _ _ _

theorem watchSet (r : Request) : (s.watchSet r).InRange := by
  unfold State.watchSet
  split
  · exact h.watchAnswer _ _ _
  · next w c hp =>
    obtain ⟨h1, h2, h3, h4⟩ := parseWatch_some hp
    split
    · exact h.watchAnswer _ _ _
    · next hconf =>
      have hst : (s.wat.watcher w).run.st = .disarmed := by
        by_contra hne
        exact hconf (by simp [WatcherUnit.setConflict, hne])
      refine (h.withWat (h.wat.setWatcher w ⟨h1, h2, h3, h4, Nat.zero_le _, fun ha => ?_⟩)).watchAnswer _ _ _
      rw [show ({ (s.wat.watcher w).run with confirmations := 0 } : WatchRun).st = .disarmed from hst] at ha
      exact absurd ha (by decide)

theorem watchArm (r : Request) : (s.watchArm r).InRange := by
  unfold State.watchArm
  split
  · exact h.watchAnswer _ _ _
  · next w hw => exact choose (h.watchAnswer _ _ _) ((h.withWat (h.wat.armChain (namedHead_some hw) none)).watchAnswer _ _ _)

theorem watchDisarm (r : Request) : (s.watchDisarm r).InRange := by
  unfold State.watchDisarm
  split
  · exact h.watchAnswer _ _ _
  · exact choose (h.watchAnswer _ _ _) (choose (h.watchAnswer _ _ _) ((h.withWat (h.wat.disarmChain _)).watchAnswer _ _ _))

theorem watchQuery (r : Request) : (s.watchQuery r).InRange := by
  unfold State.watchQuery
  split <;> exact h.watchAnswer _ _ _

theorem dropOrder : s.dropOrder.InRange := h.withWat (h.wat.withOrders _)

theorem takeArm : s.takeArm.InRange := by
  unfold State.takeArm
  split
  · unfold State.orderArm
    split
    · split
      · next hf => exact h.dropOrder.withWat (h.dropOrder.wat.armChain (armFits_chain hf) _)
      · exact h.dropOrder.raiseWatch _ _
    · exact h.dropOrder
  · exact h

theorem takeDisarm : s.takeDisarm.InRange := by
  unfold State.takeDisarm
  split
  · exact choose (h.dropOrder.withWat (h.dropOrder.wat.disarmChain _)) h.dropOrder
  · exact h

theorem takeReturn : s.takeReturn.InRange := by
  unfold State.takeReturn
  split
  · next w _ _ _ _ =>
    unfold State.orderReturn
    simp only
    split
    · next hc =>
      obtain ⟨_, harm, _⟩ := hc
      exact h.dropOrder.withWat (h.dropOrder.wat.returnChain (Watcher.chain_of_armed (h.dropOrder.wat.legal w) harm))
    · exact h.dropOrder
  · exact h

theorem watcherReset : s.watcherReset.InRange := by
  unfold State.watcherReset
  split
  · exact h
  · exact (h.withWat h.wat.softReset).withPort { h.port with }

/-! ### Claims -/

/-- The tables of the manager under a claim (log 32). -/
theorem effect_inRange (d : Defaults) (c : Claim) : (effect d c (Eff.start s)).Canonical ∧ (effect d c (Eff.start s)).InRange ∧
    (effect d c (Eff.start s)).port.InRange := by
  have hport : Eff.Closed fun e => e.port.InRange :=
    { updRec := fun _ _ _ _ h => h, free := fun _ _ h => h, answer := fun _ _ _ _ _ h => h.answer _ _ _ _, raise := fun _ _ h => h
      addEntry := fun _ _ _ _ h => h, fan := fun _ _ _ h => h, wait := fun _ _ h => h, view := fun _ _ _ h => h, unit := fun _ _ _ h => h
      outcomes := fun _ _ h => h, run := fun _ _ _ h => h, orders := fun _ _ h => h, order := fun _ _ h => h }
  have hc : (Eff.start s).Canonical := ⟨h.mgr.recs, h.mgr.fan, h.mgr.view, h.ver.canonical, h.wat.canonical, h.port.slots⟩
  have hr : (Eff.start s).InRange := ⟨h.ver, h.wat⟩
  exact ⟨Eff.canonical_closed.effect d c _ hc, hr.effect d c, hport.effect d c _ h.port⟩

theorem effect_commit (d : Defaults) (c : Claim) (offer : List Entry) (order : Option ClearCount) :
    ((effect d c (Eff.start s)).commit offer order s).InRange := by
  obtain ⟨hc, hr, hp⟩ := h.effect_inRange d c
  exact { h with mgr := ⟨hc.recs, hc.fan, hc.view⟩, ver := hr.ver, wat := hr.wat, port := hp, sw := { h.sw with }, att := h.att.hand _ _ }

theorem withHeld (hd : Option Held) (kp : Option Kept) :
    ({ s with mgr := { s.mgr with held := hd }, sw := { s.sw with kept := kp } } : State).InRange :=
  { h with mgr := ⟨h.mgr.recs, h.mgr.fan, h.mgr.view⟩, sw := { h.sw with } }

theorem takeClaim (c : Claim) : (s.takeClaim c).InRange := by
  obtain ⟨e, rfl, _, he⟩ | ⟨e, _, _, he⟩ := takeClaim_cases s c
  · rw [he]
    exact h.effect_commit _ _ _ _
  · rw [he]
    exact h.withHeld _ _

theorem managerRequest (kind : Byte) : (s.managerRequest kind).InRange := by
  refine choose ?_ h
  split
  · next ht => exact (h.withPort (h.port.takeRequest ht)).takeClaim _
  · exact h

theorem claimReport : s.claimReport.InRange := by
  unfold State.claimReport
  split
  · next r rest _ _ => exact (h.withSwitch (w := { s.sw with reports := rest }) { h.sw with }).takeClaim _
  · exact h

theorem claimClearDownEnd : s.claimClearDownEnd.InRange := by
  unfold State.claimClearDownEnd
  split
  · next hd rest _ _ => exact (h.withSwitch (w := { s.sw with ends := rest }) { h.sw with }).takeClaim _
  · exact h

theorem claimExpiry : s.claimExpiry.InRange := by
  unfold State.claimExpiry
  split
  · exact (h.withLease _).takeClaim _
  · exact h

theorem claimOutcome (b : Bool) : (s.claimOutcome b).InRange := by
  unfold State.claimOutcome
  split
  · exact choose ((h.withVer (h.ver.withOutcomes _)).takeClaim _) h
  · exact h

theorem claimAction (p : ActionClaim → Bool) : (s.claimAction p).InRange := by
  unfold State.claimAction
  split
  · exact choose ((h.withWat (h.wat.withClaims _)).takeClaim _) h
  · exact h

theorem claimLane (l : Fin 16) : (s.claimLane l).InRange := by
  refine choose ?_ h
  split
  · next r rest _ => exact (h.withSup (u := { s.sup with toManager := rest }) { h.sup with }).takeClaim _
  · exact h

theorem takeHeld : s.takeHeld.InRange := by
  unfold State.takeHeld
  split
  · refine choose ?_ h
    have hfree := h.withHeld none none
    split
    · exact choose (hfree.effect_commit _ _ _ _) (hfree.withAtt (hfree.att.hand _ _))
    · exact hfree.effect_commit _ _ _ _
  · exact h

theorem leaseEvent : s.leaseEvent.InRange := by
  have hr := Tbl.wf_mapAll (Rec.free 0) (fun _ r => r.leaseTick) s.mgr.recs h.mgr.recs
  exact { h with mgr := ⟨hr, h.mgr.fan, h.mgr.view⟩ }

theorem softResetClaim : s.softResetClaim.InRange := by
  unfold State.softResetClaim
  split
  · have hr : Tbl.wf (Rec.free 0) s.mgr.softReset.recs = true := by simp only [Manager.softReset, wf_freedRecords]
    have hf : Tbl.wf [] s.mgr.softReset.fan = true := by simp only [Manager.softReset, Tbl.wf]
    have hv : s.mgr.softReset.view = s.mgr.view := by simp only [Manager.softReset]
    have hm : s.mgr.softReset.Canonical := ⟨hr, hf, by rw [hv]; exact h.mgr.view⟩
    exact { h with
      mgr := hm, sw := { h.sw with }, port := { h.port with }
      ver := h.ver.mapAll (f := fun _ x => x.reset) fun _ _ _ => VerifyUnit.bounded_of_nil rfl }
  · exact h

theorem clearanceOrder : s.clearanceOrder.InRange := by
  unfold State.clearanceOrder
  split
  · exact h
  · next id rest _ =>
    have ht := (h.withPort (p := { s.port with toSwitch := rest }) { h.port with }).takeHeld
    exact { ht with mgr := ⟨ht.mgr.recs, ht.mgr.fan, ht.mgr.view⟩, sw := { ht.sw with } }

/-! ### Boundaries and the frame timing -/

theorem endFrame (rx : FrameIn) (bits : Nat) : (s.endFrame rx bits).InRange := by
  have hv := h.ver.mapAll (f := fun _ x => x.endFrame) fun _ _ hx => hx
  exact choose { h with sw := { h.sw with }, sup := h.sup.endFrame _ _ _, ver := hv, wat := h.wat.endFrame } (h.withSup (h.sup.endFrame _ _ _))

theorem startFrame (t : Nat) : (s.startFrame t).InRange := by
  have hg := h.gens.step s.port.defaults.idle
  have hv := h.ver.updAll Config.units (f := fun u x => x.startFrame u) fun u _ hx => VerifyUnit.bounded_startFrame hx u
  unfold State.startFrame
  exact { h.withGens hg with sw := { h.sw with }, ver := hv, wat := h.wat.startFrame }

theorem boundary (rx : FrameIn) (bits t : Nat) : (s.boundary rx bits t).InRange := by
  have he := h.takeHeld.endFrame rx bits
  exact startFrame (he.withSwitch he.sw.boundary) t

theorem raiseDevice (c : Cause) : (s.raiseDevice c).InRange := h.withAtt (h.att.hand _ _)

theorem fsyncInLocked (t : Nat) : (if s.sw.locked then { s with sw := s.sw.fsyncLocked t } else s : State).InRange :=
  choose (h.withSwitch (h.sw.fsyncLocked t)) h

theorem fsyncMissed : s.fsyncMissed.InRange := by
  unfold State.fsyncMissed
  split
  · next hl =>
    split
    · exact (h.withSwitch h.sw.unlocked).raiseDevice _
    · next hm => exact h.withSwitch (h.sw.missedOne hl (Nat.lt_of_not_le hm))
  · exact h

theorem enterLocked : s.enterLocked.InRange := (h.withSwitch h.sw.nowLocked).raiseDevice _

theorem fsyncFreerun (t : Nat) (rx : FrameIn) : (s.fsyncFreerun t rx).InRange := by
  unfold State.fsyncFreerun
  split
  · exact h
  · next hl =>
    split
    · exact choose h.enterLocked (h.enterLocked.boundary _ _ _)
    · next hr => exact h.withSwitch (h.sw.fsyncFreerun (Bool.eq_false_iff.2 hl) (Nat.lt_of_not_le hr) _)

theorem candidatePassed : s.candidatePassed.InRange := by
  unfold State.candidatePassed
  split
  · exact h.withSwitch h.sw.noCandidate
  · exact h

/-! ### The commands -/

/-- Every command has a next state, with every block in range. -/
theorem exec (i : Instr) : ∃ t, exec i s = .next t ∧ t.InRange := by
  cases i with
  | readStatus mosi => exact ⟨_, rfl, choose h (h.send _ _)⟩
  | writeSlot n mosi => exact ⟨_, rfl, h.writeTransaction n mosi⟩
  | readSlot n mosi => exact ⟨_, rfl, h.readTransaction n mosi⟩
  | submit n mosi => exact ⟨_, rfl, h.transact _ _ fun _ ht => ht.submitSlot n⟩
  | clearSlot n mosi => exact ⟨_, rfl, h.transact _ _ fun _ ht => ht.emptySlot n⟩
  | clearPortFaults mosi => exact ⟨_, rfl, h.transact _ _ fun _ ht => ht.setFaults _⟩
  | unknownTransactionCode code mosi => exact ⟨_, rfl, choose h (h.transact _ _ fun _ ht => ht.setFaults _)⟩
  | openCircuit | openPair | addLeg | dropLeg | moveSource | hold | resume | release | touch | query | findOut | findIn | accessEnd =>
    exact ⟨_, rfl, h.managerRequest _⟩
  | genSet => exact ⟨_, rfl, h.ownerTakes _ _ _ fun r _ ht => ht.genSet r⟩
  | laneSet => exact ⟨_, rfl, h.ownerTakes _ _ _ fun r _ ht => ht.laneSet r⟩
  | laneQuery => exact ⟨_, rfl, h.ownerTakes _ _ _ fun r _ ht => ht.laneQuery r⟩
  | watchSet => exact ⟨_, rfl, h.ownerTakes _ _ _ fun r _ ht => ht.watchSet r⟩
  | watchArm => exact ⟨_, rfl, h.ownerTakes _ _ _ fun r _ ht => ht.watchArm r⟩
  | watchDisarm => exact ⟨_, rfl, h.ownerTakes _ _ _ fun r _ ht => ht.watchDisarm r⟩
  | watchQuery => exact ⟨_, rfl, h.ownerTakes _ _ _ fun r _ ht => ht.watchQuery r⟩
  | collect => exact ⟨_, rfl, h.ownerTakes _ _ _ fun r _ ht => ht.collect r⟩
  | maskSet => exact ⟨_, rfl, h.ownerTakes _ _ _ fun r _ ht => ht.maskSet r⟩
  | config => exact ⟨_, rfl, h.ownerTakes _ _ _ fun r _ ht => ht.configure r⟩
  | ident => exact ⟨_, rfl, h.ownerTakes _ _ _ fun r _ ht => ht.answerRequest r _ _⟩
  | softReset => exact ⟨_, rfl, h.ownerTakes _ _ _ fun r _ ht => ht.withPort (ht.port.softReset r)⟩
  | heldClaimTaken => exact ⟨_, rfl, h.whenRunning h.takeHeld⟩
  | hardReset => exact ⟨_, rfl, inRange_reset.withOutside _ _ _⟩
  | tinitEnd => exact ⟨_, rfl, choose ((h.withLease { s.lease with nextAt := Config.secondPeriods }).withOutside s.pending .run s.oeHigh) h⟩
  | oeNChange high => exact ⟨_, rfl, h.withOutside s.pending s.phase high⟩
  | fsyncInLocked t => exact ⟨_, rfl, h.whenRunning (h.fsyncInLocked t)⟩
  | fsyncMissed => exact ⟨_, rfl, h.whenRunning h.fsyncMissed⟩
  | fsyncInFreerun t rx => exact ⟨_, rfl, h.whenRunning (h.fsyncFreerun t rx)⟩
  | candidatePositionPassed => exact ⟨_, rfl, h.whenRunning h.candidatePassed⟩
  | frameBoundary rx => exact ⟨_, rfl, h.whenRunning (h.boundary _ _ _)⟩
  | clearDownRunOut => exact ⟨_, rfl, h.whenRunning (h.withSwitch h.sw.runOut)⟩
  | clearanceOrder => exact ⟨_, rfl, h.whenRunning h.clearanceOrder⟩
  | boundaryReport => exact ⟨_, rfl, h.claimReport⟩
  | tokenNotice u b => exact ⟨_, rfl, h.whenRunning (h.takeNotice u b)⟩
  | clearDownEnd => exact ⟨_, rfl, h.claimClearDownEnd⟩
  | laneFrameJudgement l => exact ⟨_, rfl, h.whenRunning (h.judgeLane l)⟩
  | laneChangeClaim l => exact ⟨_, rfl, h.claimLane l⟩
  | watcherLaneChangeReport l => exact ⟨_, rfl, h.whenRunning (h.watcherLane l)⟩
  | verifierLaneChangeReport l => exact ⟨_, rfl, h.whenRunning (h.verifierLane l)⟩
  | leaseEvent => exact ⟨_, rfl, h.whenRunning h.leaseEvent⟩
  | expiryClaim => exact ⟨_, rfl, h.claimExpiry⟩
  | tokenFrameEnd u => exact ⟨_, rfl, h.whenRunning (h.tokenFrameEnd u)⟩
  | verifyTimeout u => exact ⟨_, rfl, h.whenRunning (h.verifyTimeout u)⟩
  | detectedOutcome | verifyFailureOutcome => exact ⟨_, rfl, h.claimOutcome _⟩
  | watcherSample w => exact ⟨_, rfl, h.whenRunning (h.sampleWatcher _)⟩
  | intervalEnd w => exact ⟨_, rfl, h.whenRunning (h.endInterval _)⟩
  | releaseLinkedClaim | holdLinkedClaim | suppressionClaim | accessClaim | endOfAccessClaim => exact ⟨_, rfl, h.claimAction _⟩
  | armingOrder => exact ⟨_, rfl, h.whenRunning h.takeArm⟩
  | disarmingOrder => exact ⟨_, rfl, h.whenRunning h.takeDisarm⟩
  | returnOrder => exact ⟨_, rfl, h.whenRunning h.takeReturn⟩
  | softResetClaim => exact ⟨_, rfl, h.softResetClaim⟩
  | watcherSoftResetOrder => exact ⟨_, rfl, h.whenRunning h.watcherReset⟩
  | attentionSoftResetOrder => exact ⟨_, rfl, h.whenRunning h.attentionReset⟩
  | softResetAcknowledgement b => exact ⟨_, rfl, h.whenRunning (h.withPort (h.port.takeAck b))⟩
  | clearanceDoneReport => exact ⟨_, rfl, h.whenRunning h.takeCleared⟩
  | attentionRaise b => exact ⟨_, rfl, h.whenRunning (h.takeRaise b)⟩
  | rstNRelease => exact ⟨_, rfl, choose (h.withOutside s.pending .init s.oeHigh) h⟩

/-- Every step has a next state, with every block in range. -/
theorem step : ∃ t, Machine.step s = .next t ∧ t.InRange := by
  cases hp : s.pending with
  | nil => exact ⟨s, step_nil hp, h⟩
  | cons c rest => rw [step_cons hp]; exact (h.withOutside rest s.phase s.oeHigh).exec c

end State.InRange

/-- Settles O59: the bounds are kept block by block, each command writing its blocks by operations that keep them. -/
theorem stepsKeepCountsInRange : Obligations.StepsKeepCountsInRange := by
  intro s t hs hstep
  obtain ⟨t', ht', hr⟩ := ((inRange_iff s).2 hs).step
  rw [ht'] at hstep
  cases hstep
  exact (inRange_iff t).1 hr

end Sys2Proof.Machine

/-! SUPPORT. GEN_SET taken whole (02 R40): its fields, and its two outcomes. -/

namespace Sys2Proof.Machine

set_option Elab.async false

/-- A flag byte, 00h or 01h, is the byte of the flag that it codes. -/
theorem flagByte_decide {b : Byte} (h : b = 0 ∨ b = 1) : flagByte (decide (b = 1)) = b := by
  rcases h with rfl | rfl <;> rfl

theorem parseFlag_decide {b : Byte} (h : b = 0 ∨ b = 1) : parseFlag b = some (decide (b = 1)) := by
  rcases h with rfl | rfl <;> rfl

theorem parseFlag_some {b : Byte} {x : Bool} (h : parseFlag b = some x) : b = 0 ∨ b = 1 := by
  unfold parseFlag at h
  split at h
  · next h0 => exact .inl h0
  · split at h
    · next h1 => exact .inr h1
    · cases h

theorem parseGenKind_toByte (k : GenKind) : parseGenKind k.toByte = some k := by cases k <;> rfl

theorem parseGenKind_some {b : Byte} {k : GenKind} (h : parseGenKind b = some k) : k.toByte = b := by
  revert h
  simp only [parseGenKind]
  repeat' split
  all_goals rintro ⟨⟩ <;> simp_all [GenKind.toByte]

/-- A message that GEN_SET accepts. -/
theorem parseGen_eq {m : List Byte} {k : GenKind} (hn : (byteAt m 4).toNat < 6) (hf : byteAt m 11 = 0 ∨ byteAt m 11 = 1)
    (hk : byteAt m 5 = k.toByte) (hok : genParamsOk m k = true) : parseGen m = some ⟨⟨(byteAt m 4).toNat, hn⟩, k, decide (byteAt m 11 = 1)⟩ := by
  simp only [parseGen, hk, parseGenKind_toByte, parseFlag_decide hf, hn, hok, dif_pos, if_true]

/-- What a message that GEN_SET accepts holds. -/
theorem parseGen_fields {m : List Byte} {f : GenFields} (h : parseGen m = some f) :
    (byteAt m 4).toNat < 6 ∧ (byteAt m 11 = 0 ∨ byteAt m 11 = 1) ∧ byteAt m 5 = f.kind.toByte := by
  unfold parseGen at h
  split at h
  · next k x hk hx =>
    split at h
    · next hn =>
      split at h
      · cases h; exact ⟨hn, parseFlag_some hx, (parseGenKind_some hk).symm⟩
      · cases h
    · cases h
  · cases h

theorem configured_kind (g : Generator) (f : GenFields) (m : List Byte) : (g.configured f m).kind = f.kind := by
  unfold Generator.configured
  cases f.kind <;> rfl

theorem configured_flag (g : Generator) (f : GenFields) (m : List Byte) : (g.configured f m).flag = f.flag := by
  unfold Generator.configured
  cases f.kind <;> rfl

section Taken
variable {s : State} {r : Request} {p : Port} (h : s.Takes .generators 0x10 r p) (hlen : byteAt r.msg 1 = 8)
include h hlen

theorem exec_genSet : exec .genSet s = .next (({ s with port := p } : State).genSet r) := by
  have hm : messageOk 8 r.msg = true := by simp [messageOk, hlen]
  have he : exec .genSet s = .next (s.ownerTakes .generators 0x10 8 State.genSet) := rfl
  rw [he, ownerTakes_takes 8 State.genSet h, if_pos hm]

theorem exec_genSet_none (hp : parseGen r.msg = none) : exec .genSet s = .next { s with port := p.answerRequest r .badField [] } := by
  rw [exec_genSet h hlen]
  simp only [State.genSet, hp]

/-- A GEN_SET accepted: generator n is configured, the other generators are untouched. -/
theorem exec_genSet_some {k : GenKind} (g' : Generator) (hr : (byteAt r.msg 4).toNat < 6 ∧ (byteAt r.msg 11 = 0 ∨ byteAt r.msg 11 = 1))
    (hk : byteAt r.msg 5 = k.toByte) (hok : genParamsOk r.msg k = true)
    (hg : ∀ n, (generatorOf s.gens (byteAt r.msg 4).toNat).configured ⟨n, k, decide (byteAt r.msg 11 = 1)⟩ r.msg = g') :
    ∃ t, exec .genSet s = .next t ∧
      t = { s with
        gens := t.gens
        port := p.answerRequest r .ok ([byteAt r.msg 4, byteAt r.msg 5, g'.fixed] ++ bytes16 g'.seed.toNat ++
          [BitVec.ofNat 8 g'.len, g'.value, byteAt r.msg 11]) } ∧
      ∀ m, generatorOf t.gens m = if m = (byteAt r.msg 4).toNat then g' else generatorOf s.gens m := by
  obtain ⟨hn, hf⟩ := hr
  have hkind : g'.kind = k := (congrArg Generator.kind (hg ⟨_, hn⟩)).symm.trans (configured_kind _ _ _)
  have hflag : g'.flag = decide (byteAt r.msg 11 = 1) := (congrArg Generator.flag (hg ⟨_, hn⟩)).symm.trans (configured_flag _ _ _)
  refine ⟨_, exec_genSet h hlen, ?_⟩
  simp only [State.genSet, parseGen_eq hn hf hk hok, hg, genResults, hkind, hflag, flagByte_decide hf, hk, BitVec.ofNat_toNat, BitVec.setWidth_eq,
    true_and]
  intro m
  by_cases hm : m = (byteAt r.msg 4).toNat
  · rw [if_pos hm, hm]; exact Tbl.get_set_same _ _ _ _
  · rw [if_neg hm]; exact Tbl.get_set_other _ _ _ hm

end Taken

/-- Settles O16: the parameters of each kind parsed and written; every field out of range leaves no parse. -/
theorem genSetConfiguresAGenerator : Obligations.GenSetConfiguresAGenerator := by
  intro s r p h hlen n g flag becomes inRange
  refine ⟨fun hr hk => ?_, fun hr hk => ?_, fun hr hk hz => ?_, fun hr hk hz hle => ?_, fun hr hk h3 h8 hv => ?_, fun hbad => ?_⟩
  · exact exec_genSet_some h hlen { g with kind := .off, flag := decide (flag = 1) } hr (k := .off) hk rfl fun _ => configured_off rfl
  · exact exec_genSet_some h hlen { g with kind := .fixed, flag := decide (flag = 1), fixed := byteAt r.msg 6 } hr (k := .fixed) hk rfl
      fun _ => configured_fixed rfl
  · refine exec_genSet_some h hlen { g with kind := .prbs, flag := decide (flag = 1), seed := 0x7FFF, reg := 0x7FFF } hr (k := .prbs) hk
      (by simp [genParamsOk, hz]) fun _ => ?_
    rw [configured_prbs rfl, hz]
    rfl
  · refine exec_genSet_some h hlen { g with
      kind := .prbs, flag := decide (flag = 1), seed := BitVec.ofNat 16 (wordAt r.msg 7), reg := BitVec.ofNat 15 (wordAt r.msg 7) } hr
      (k := .prbs) hk (by simpa [genParamsOk] using hle) fun _ => ?_
    have hreg : (BitVec.ofNat 16 (wordAt r.msg 7)).setWidth 15 = BitVec.ofNat 15 (wordAt r.msg 7) :=
      BitVec.setWidth_ofNat_of_le (by omega) _
    rw [configured_prbs rfl, seedOf, if_neg hz, hreg]
  · exact exec_genSet_some h hlen { g with
      kind := .code, flag := decide (flag = 1), len := (byteAt r.msg 9).toNat, value := byteAt r.msg 10, phase := 0 } hr (k := .code) hk
      (by simp [genParamsOk, h3, h8, hv]) fun _ => configured_code rfl
  · refine exec_genSet_none h hlen (Option.eq_none_iff_forall_ne_some.2 fun f hf => ?_)
    obtain ⟨hn, hflag, hk⟩ := parseGen_fields hf
    have hok := parseGen_some hf
    rcases hbad with hbad | hbad | ⟨h2, hbad⟩ | ⟨h3, hbad⟩
    · exact hbad ⟨hn, hflag⟩
    · rw [hk] at hbad
      cases hkind : f.kind <;> rw [hkind] at hbad <;> exact absurd hbad (by decide)
    · have hp : f.kind = .prbs := by
        have := parseGenKind_toByte f.kind
        rw [← hk, h2] at this
        exact (Option.some.inj this).symm
      simp only [hp, genParamsOk, decide_eq_true_eq] at hok
      omega
    · have hp : f.kind = .code := by
        have := parseGenKind_toByte f.kind
        rw [← hk, h3] at this
        exact (Option.some.inj this).symm
      simp only [hp, genParamsOk, decide_eq_true_eq] at hok
      omega

end Sys2Proof.Machine

/-! SUPPORT. What a generator sends in a frame (02 R37-R39). -/

namespace Sys2Proof.Machine

set_option Elab.async false

theorem step_off {g : Generator} (h : g.kind = .off) (idle : Byte) : g.step idle = { g with out := idle } := by
  simp only [Generator.step, h]

theorem step_fixed {g : Generator} (h : g.kind = .fixed) (idle : Byte) : g.step idle = { g with out := g.fixed } := by
  simp only [Generator.step, h]

theorem step_code {g : Generator} (h : g.kind = .code) (idle : Byte) :
    g.step idle = { g with out := codeByte g.len g.value g.phase, phase := (g.phase + 8) % g.len } := by
  simp only [Generator.step, h]

/-- The eight outputs of the register in a frame. -/
theorem step_prbs {g : Generator} (h : g.kind = .prbs) (idle : Byte) :
    g.step idle = { g with out := byteOfBits ((List.range 8).map fun j => prbsBit (prbsStep^[j] g.reg)), reg := prbsStep^[8] g.reg } := by
  simp only [Generator.step, h, prbsRun_eq]

theorem getLsbD_codeByte (len : Nat) (value : Byte) (p : Nat) {j : Nat} (hj : j < 8) :
    (codeByte len value p).getLsbD (7 - j) = value.getLsbD (len - 1 - (p + j) % len) := byteOfBits_getLsbD _ hj

/-- Settles O17: the four kinds, the register of PRBS in bit step j being its register stepped j times. -/
theorem generatorsSendTheirSequences : Obligations.GeneratorsSendTheirSequences := by
  intro idle g
  refine ⟨fun h => step_off h idle, fun h => step_fixed h idle, fun h => ?_, fun h => ?_⟩
  · rw [step_code h]
    exact ⟨rfl, fun j hj => getLsbD_codeByte _ _ _ hj⟩
  · refine ⟨fun j => prbsStep^[j] g.reg, rfl, fun j hj => ?_, ?_⟩
    · simp only [Function.iterate_succ_apply']
      refine ⟨fun i h1 hi => prbsStep_shift _ h1 hi, prbsStep_first _, ?_⟩
      rw [step_prbs h]
      exact byteOfBits_getLsbD (fun j => prbsBit (prbsStep^[j] g.reg)) hj
    · rw [step_prbs h]

end Sys2Proof.Machine

/-! SUPPORT. What an outbound slot carries (02 R29, R30), and the frame boundary (02 R34-R36): a boundary as one change of the state, block by block, and
what each block reads after it. -/

namespace Sys2Proof.Machine

set_option Elab.async false

/-! ### What an outbound slot carries -/

theorem lout_inFrame {s : State} (k : Slot) (hr : s.phase = .run) (hi : s.sw.inFrame = true) (ho : s.oeHigh = false) : s.lout k = some (s.slotByte k) := by
  simp [State.lout, hr, hi, ho]

theorem slotByte_source {s : State} {k : Slot} {src : Source} (hd : (s.sw.entry k).drive = .source) (hs : (s.sw.entry k).source = some src) :
    s.slotByte k = s.sourceByte (s.sw.entry k).cond src := by
  simp only [State.slotByte, hd, hs]

/-- Settles O19: the slot's byte, drive by drive. -/
theorem outboundSlotCarriesWhatItsDriveGives : Obligations.OutboundSlotCarriesWhatItsDriveGives := by
  intro s k hr hi ho
  rw [lout_inFrame k hr hi ho]
  refine ⟨fun h => ?_, fun h => ?_, fun h => ?_, fun u h hu => ?_, fun i h hs hup => ?_, fun i h hs hup => ?_, fun n h hs => ?_⟩
  · simp only [State.slotByte, h]
  · simp only [State.slotByte, h]
  · simp only [State.slotByte, h]
  · simp only [State.slotByte, h, hu, State.tokenShown]
  · rw [slotByte_source h hs, State.sourceByte, if_pos hup, Switch.storedByte]
  · rw [slotByte_source h hs, State.sourceByte, if_neg hup]
  · rw [slotByte_source h hs, State.sourceByte]

/-! ### The frame received -/

theorem length_lane {rx : FrameIn} (h : FrameIn.wellFormed rx = true) (l : Fin 16) : (FrameIn.lane rx l).length = 48 := by
  simp only [FrameIn.wellFormed, Bool.and_eq_true, beq_iff_eq, List.all_eq_true] at h
  obtain ⟨hlen, hall⟩ := h
  have hl : l.val < rx.length := hlen ▸ l.isLt
  rw [FrameIn.lane, List.getD_eq_getElem _ _ hl]
  exact hall _ (List.getElem_mem hl)

theorem length_flatMap_bitsOf (lane : List Byte) : (lane.flatMap bitsOf).length = 8 * lane.length := by
  induction lane with
  | nil => rfl
  | cons b lane ih =>
    rw [List.flatMap_cons, List.length_append, ih, List.length_cons, bitsOf, List.length_map, List.length_range]
    omega

/-- A frame not cut short shows every bit of its lanes. -/
theorem laneBits_whole {rx : FrameIn} (h : FrameIn.wellFormed rx = true) (l : Fin 16) :
    laneBits (FrameIn.lane rx l) 384 = (FrameIn.lane rx l).flatMap bitsOf :=
  List.take_of_length_le (by rw [length_flatMap_bitsOf, length_lane h])

/-- The timeslots received are stored, the others keep their byte (02 R23, R26). -/
theorem storeFrame_getD {rx : FrameIn} (h : FrameIn.wellFormed rx = true) (stored : FrameIn) (n : Nat) (k : Slot) :
    ((storeFrame stored rx n).getD k.lane.val []).getD k.ts.val 0 =
      if k.ts.val < n then (rx.getD k.lane.val []).getD k.ts.val 0 else (stored.getD k.lane.val []).getD k.ts.val 0 := by
  have hl : k.lane.val < (List.range Config.lanes).length := by rw [List.length_range]; exact k.lane.isLt
  have hlen := length_lane h k.lane
  have hts : k.ts.val < 48 := k.ts.isLt
  unfold FrameIn.lane at hlen
  simp only [storeFrame, List.getD_eq_getElem?_getD, List.getElem?_map, List.getElem?_eq_getElem hl, List.getElem_range, Option.map_some, Option.getD_some,
    FrameIn.lane] at hlen ⊢
  split
  · next hn => rw [List.getElem?_append_left (by rw [List.length_take]; omega), List.getElem?_take_of_lt hn]
  · next hn =>
    have hmin : ((rx[k.lane.val]?.getD []).take n).length = n := by rw [List.length_take]; omega
    rw [List.getElem?_append_right (by omega), List.getElem?_drop]
    congr 2
    omega

/-! ### The switching memory -/

/-- The changes of a list without two changes of one slot, applied in order: each entry reads the content of its change (02 R34). -/
theorem get_foldl_setKey {list : List Entry} (h : (list.map (·.slot)).Nodup) (m : Tbl Content) (k : Slot) :
    Tbl.get Content.idle (list.foldl (fun m x => Tbl.set Content.idle m x.slot.key x.content) m) k.key =
      ((list.find? fun x => decide (x.slot = k)).map (·.content)).getD (Tbl.get Content.idle m k.key) := by
  induction list generalizing m with
  | nil => rfl
  | cons x list ih =>
    rw [List.map_cons, List.nodup_cons] at h
    obtain ⟨hx, h⟩ := h
    rw [List.foldl_cons, ih h]
    by_cases hk : x.slot = k
    · have hnone : list.find? (fun x => decide (x.slot = k)) = none :=
        List.find?_eq_none.2 fun y hy hyk => hx (List.mem_map.2 ⟨y, hy, (of_decide_eq_true hyk).trans hk.symm⟩)
      rw [hnone, List.find?_cons_of_pos (by simp [hk]), ← hk]
      exact Tbl.get_set_same _ _ _ _
    · have hne : k.key ≠ x.slot.key := fun he => hk (slot_key_inj he).symm
      rw [List.find?_cons_of_neg (by simp [hk]), Tbl.get_set_other _ _ _ hne]

/-- The switch's own work at a boundary, written out (02 R34-R36). -/
theorem Switch.boundary_eq (w : Switch) : w.boundary = { w with
    map := w.list.foldl (fun m x => Tbl.set Content.idle m x.slot.key x.content) (if w.clearance = [] then w.map else [])
    list := []
    kept := w.kept.map fun kp => { kp with room := true }
    clearance := []
    cleared := w.cleared ++ (if w.clearance = [] then [] else [w.clearance])
    reports := w.reports ++ (if w.list = [] then [] else [w.list.map fun x => (x.slot, x.outcomes)])
    notices := (w.notices.map fun n => { n with fresh := false }) ++ w.list.flatMap Entry.notice
    counts := w.counts.map ClearCount.tick } := by
  cases hc : w.clearance with
  | nil => simp [Switch.boundary, Switch.clear, Switch.applyList, reportOf, hc]
  | cons names rest => simp [Switch.boundary, Switch.clear, Switch.applyList, reportOf, hc]

/-! ### A boundary, block by block -/

/-- The verify units over a boundary. -/
def Verifier.overBoundary (v : Verifier) (inFrame : Bool) : Tbl VerifyUnit :=
  Tbl.updAll VerifyUnit.idle Config.units (fun u x => x.startFrame u)
    (if inFrame then Tbl.mapAll VerifyUnit.idle (fun _ x => x.endFrame) v.units else v.units)

/-- The watcher unit over a boundary. -/
def WatcherUnit.overBoundary (u : WatcherUnit) (inFrame : Bool) : WatcherUnit := (if inFrame then u.endFrame else u).startFrame

/-- A boundary once the kept offer has been taken, written out: the frame's end, the switch's own work and the start of a frame. -/
theorem boundary_eq (rx : FrameIn) (bits t : Nat) (s : State) : s.boundary rx bits t = { s.takeHeld with
    sw := { s.takeHeld.sw.boundary with
      stored := if s.takeHeld.sw.inFrame then storeFrame s.takeHeld.sw.stored rx (bits / 8) else s.takeHeld.sw.stored
      idle := s.takeHeld.port.defaults.idle
      boundaryAt := t
      align := none
      inFrame := true
      fso := s.takeHeld.sw.fso + 1 }
    gens := Tbl.updAll Generator.initial Config.generators (fun _ g => g.step s.takeHeld.port.defaults.idle) s.takeHeld.gens
    ver := { s.takeHeld.ver with units := s.takeHeld.ver.overBoundary s.takeHeld.sw.inFrame }
    sup := s.takeHeld.sup.endFrame rx bits s.takeHeld.sw.inFrame
    wat := s.takeHeld.wat.overBoundary s.takeHeld.sw.inFrame } := by
  cases hi : s.takeHeld.sw.inFrame with
  | true =>
    simp only [State.boundary, State.endFrame, State.startFrame, Verifier.overBoundary, WatcherUnit.overBoundary, Switch.boundary_eq, hi, if_true]
  | false =>
    simp only [State.boundary, State.endFrame, State.startFrame, Verifier.overBoundary, WatcherUnit.overBoundary, Switch.boundary_eq, hi, if_false,
      Bool.false_eq_true]

/-- A frame end changes only the lanes of the supervisor. -/
theorem endFrame_rest (u : Supervisor) (rx : FrameIn) (bits : Nat) (inFrame : Bool) :
    u.endFrame rx bits inFrame = { u with lanes := (u.endFrame rx bits inFrame).lanes } := by
  simp only [Supervisor.endFrame]

/-- A boundary changes only the table of the watcher unit. -/
theorem overBoundary_rest (u : WatcherUnit) (inFrame : Bool) : u.overBoundary inFrame = { u with table := (u.overBoundary inFrame).table } := by
  cases inFrame <;> rfl

/-- A lane over a boundary (06 R109). -/
theorem lane_endFrame (u : Supervisor) (rx : FrameIn) (bits : Nat) (inFrame : Bool) (l : Fin 16) :
    (u.endFrame rx bits inFrame).lane l = (u.lane l).endFrame (laneBits (FrameIn.lane rx l) bits) inFrame := by
  have hl : l.val < Config.lanes := l.isLt
  simp only [Supervisor.endFrame, Supervisor.lane, Tbl.get_updAll, if_pos hl]

/-- A generator over a boundary. -/
theorem generatorOf_step (g : Tbl Generator) (idle : Byte) (n : Fin 6) :
    generatorOf (Tbl.updAll Generator.initial Config.generators (fun _ g => g.step idle) g) n = (generatorOf g n).step idle := by
  have hn : n.val < Config.generators := n.isLt
  rw [generatorOf, Tbl.get_updAll, if_pos hn]
  rfl

/-- A verify unit over a boundary. -/
theorem unit_overBoundary {v : Verifier} (h : Tbl.wf VerifyUnit.idle v.units = true) (inFrame : Bool) (u : Fin 4) :
    ({ v with units := v.overBoundary inFrame } : Verifier).unit u = (if inFrame then (v.unit u).endFrame else v.unit u).startFrame u := by
  have hu : u.val < Config.units := u.isLt
  rw [Verifier.unit, Verifier.overBoundary, Tbl.get_updAll, if_pos hu]
  cases inFrame with
  | false => rfl
  | true =>
    simp only [if_true]
    rw [Tbl.get_mapAll_ite _ _ _ _ h]
    split
    · next hd =>
      have hidle : v.unit u = VerifyUnit.idle := hd
      rw [hidle]
      rfl
    · rfl

theorem endFrame_if (x : VerifyUnit) (inFrame : Bool) : (if inFrame then x.endFrame else x) = { x with
    due := if inFrame then (if x.st = .sending ∧ x.started = true ∧ 0 < x.count then some x.count else none) else x.due } := by
  cases inFrame <;> rfl

/-- An IDLE unit, or one that waits for its start, presents the idle byte (04 R72). -/
theorem startFrame_silent {x : VerifyUnit} {u : Nat} (h : x.st = .idle ∨ (x.st = .sending ∧ x.started = false)) :
    x.startFrame u = { x with pos := none, shown := none } := by
  rcases h with h | ⟨h, hs⟩
  · simp only [VerifyUnit.startFrame, h]
  · simp only [VerifyUnit.startFrame, h, hs, Bool.false_eq_true, if_false]

/-- A unit that sends presents the byte of its frame count (04 R72). -/
theorem startFrame_sending {x : VerifyUnit} {u : Nat} (h : x.st = .sending) (hs : x.started = true) :
    x.startFrame u = { x with
      pos := some (x.count % 8), shown := x.circuit.map fun h => (token u h.num).getD (x.count % 8) 0, count := x.count + 1 } := by
  simp only [VerifyUnit.startFrame, h, hs, if_true, VerifyUnit.present, tokenByte]

/-- A DONE unit presents the token's next byte, if it has presented one (04 R72; log 39). -/
theorem startFrame_done {x : VerifyUnit} {u q : Nat} (h : x.st = .done) (hp : x.pos = some q) :
    x.startFrame u = { x with
      pos := some ((q + 1) % 8), shown := x.circuit.map fun h => (token u h.num).getD ((q + 1) % 8) 0 } := by
  simp only [VerifyUnit.startFrame, h, hp, VerifyUnit.present, tokenByte]

theorem startFrame_done_unsent {x : VerifyUnit} {u : Nat} (h : x.st = .done) (hp : x.pos = none) : x.startFrame u = { x with shown := none } := by
  simp only [VerifyUnit.startFrame, h, hp]

/-! ### The watchers over a boundary -/

/-- The head of a chain depends on the chain flags alone (07 R124). -/
theorem headOf_congr {u v : WatcherUnit} (h : ∀ n, (u.watcher n).cfg.chain = (v.watcher n).cfg.chain) (n : Nat) : u.headOf n = v.headOf n := by
  induction n with
  | zero => rfl
  | succ n ih => rw [WatcherUnit.headOf, WatcherUnit.headOf, h, ih]

/-- A watcher never written is its own head. -/
theorem headOf_initial {u : WatcherUnit} {w : Nat} (h : u.watcher w = Watcher.initial) : u.headOf w = w := by
  cases w with
  | zero => rfl
  | succ n => rw [WatcherUnit.headOf, h]; rfl

/-- Changes of the runs by a function that keeps a watcher never written. -/
theorem watcher_mapRuns {u : WatcherUnit} (h : Tbl.wf Watcher.initial u.table = true) (f : Nat → Watcher → WatchRun)
    (hf : ∀ w, u.watcher w = Watcher.initial → f w (u.watcher w) = (u.watcher w).run) (w : Nat) :
    ({ u with table := Tbl.mapAll Watcher.initial (fun w x => { x with run := f w x }) u.table } : WatcherUnit).watcher w =
      { u.watcher w with run := f w (u.watcher w) } := by
  simp only [WatcherUnit.watcher] at hf ⊢
  rw [Tbl.get_mapAll_ite _ _ _ _ h]
  split
  · next hd => rw [hf w hd]; exact hd.symm
  · rfl

theorem watcher_endFrame {u : WatcherUnit} (h : Tbl.wf Watcher.initial u.table = true) (w : Nat) :
    u.endFrame.watcher w = { u.watcher w with run := { (u.watcher w).run with
      due := (u.watcher w).run.inFrame && decide ((u.watcher (u.headOf w)).run.pos < 800) } } :=
  watcher_mapRuns h (fun w x => { x.run with due := x.run.inFrame && decide ((u.watcher (u.headOf w)).run.pos < 800) })
    (fun w hw => by simp only [hw]; rfl) w

theorem watcher_startFrame {u : WatcherUnit} (h : Tbl.wf Watcher.initial u.table = true) (w : Nat) :
    u.startFrame.watcher w = { u.watcher w with run := { (u.watcher w).run with
      inFrame := (u.watcher (u.headOf w)).run.st.armedHead && !(u.watcher (u.headOf w)).run.frozen } } :=
  watcher_mapRuns h (fun w x => { x.run with
      inFrame := (u.watcher (u.headOf w)).run.st.armedHead && !(u.watcher (u.headOf w)).run.frozen })
    (fun w hw => by simp only [headOf_initial hw, hw]; rfl) w

/-- A watcher over a boundary (07 R125). -/
theorem watcher_overBoundary {u : WatcherUnit} (h : Tbl.wf Watcher.initial u.table = true) (inFrame : Bool) (w : Nat) :
    (u.overBoundary inFrame).watcher w = { u.watcher w with run := { (u.watcher w).run with
      due := if inFrame then (u.watcher w).run.inFrame && decide ((u.watcher (u.headOf w)).run.pos < 800) else (u.watcher w).run.due
      inFrame := (u.watcher (u.headOf w)).run.st.armedHead && !(u.watcher (u.headOf w)).run.frozen } } := by
  cases inFrame with
  | false => exact watcher_startFrame h w
  | true =>
    have hw : Tbl.wf Watcher.initial u.endFrame.table = true := by
      simp only [WatcherUnit.endFrame]
      exact Tbl.wf_mapAll _ _ _ h
    have hhead := headOf_congr (u := u.endFrame) (v := u) (fun n => by rw [watcher_endFrame h]) w
    simp only [WatcherUnit.overBoundary, if_true, watcher_startFrame hw, hhead, watcher_endFrame h]

/-! ### The boundary with no kept offer to take -/

theorem takeHeld_noRoom {s : State} (h : ∀ kp, s.sw.kept = some kp → kp.room = false) : s.takeHeld = s := by
  unfold State.takeHeld
  split
  · next kp _ hk => rw [h _ hk]; rfl
  · rfl

theorem exec_frameBoundary {s : State} (hr : s.phase = .run) (rx : FrameIn) :
    exec (.frameBoundary rx) s = .next (s.boundary rx 384 s.sw.nextAt) := by
  have he : exec (.frameBoundary rx) s = .next (s.whenRunning fun s => s.boundary rx 384 s.sw.nextAt) := rfl
  rw [he, State.whenRunning, if_pos hr]

/-- Settles O18: the boundary written out once, then what each block reads after it. -/
theorem frameBoundaryAppliesTheList : Obligations.FrameBoundaryAppliesTheList := by
  intro rx s hr hkept hlist hrx
  refine ⟨_, exec_frameBoundary hr rx, ?_⟩
  rw [boundary_eq, takeHeld_noRoom hkept]
  refine ⟨?_, ?_, fun k => ?_, fun k hi => ?_, fun hi => ?_, fun n => ?_, fun l => ?_, fun hw u => ?_, fun hw w => ?_⟩
  · simp only [← endFrame_rest, ← overBoundary_rest]
  · simp only [Switch.boundary_eq, Switch.nextAt, Config.framePeriods]
  · simp only [Switch.entry, Switch.boundary_eq]
    rw [get_foldl_setKey hlist]
    cases s.sw.list.find? fun x => decide (x.slot = k) with
    | some x => rfl
    | none =>
      by_cases hc : s.sw.clearance = []
      · simp only [hc, if_true, Option.map_none, Option.getD_none]
      · simp only [hc, if_false, Option.map_none, Option.getD_none]; rfl
  · have hts : k.ts.val < 384 / 8 := k.ts.isLt
    simp only [Switch.storedByte, hi, if_true, storeFrame_getD hrx, if_pos hts]
  · simp only [hi, Bool.false_eq_true, if_false]
  · simp only [generatorOf_step]
  · simp only [lane_endFrame, laneBits_whole hrx]
    rfl
  · have hu := unit_overBoundary hw s.sw.inFrame u
    rw [endFrame_if] at hu
    dsimp only
    refine ⟨fun hst => hu.trans (startFrame_silent hst), fun hst hs => hu.trans (startFrame_sending hst hs), fun q hst hp => hu.trans (startFrame_done hst hp),
      fun hst hp => hu.trans (startFrame_done_unsent hst hp)⟩
  · exact watcher_overBoundary hw s.sw.inFrame w

end Sys2Proof.Machine

/-! SUPPORT. The frame timing (02 2.2): the events that lock and unlock it, and the relock, a boundary taken at the FSYNC's own instant. -/

namespace Sys2Proof.Machine

set_option Elab.async false

/-! ### The kept offer taken -/

/-- The state with the held claim and the kept offer taken from their places. -/
def State.unheld (s : State) : State := { s with mgr := { s.mgr with held := none }, sw := { s.sw with kept := none } }

section Held
variable {s : State} {hd : Held} {kp : Kept}

theorem takeHeld_none (h : s.mgr.held = none ∨ s.sw.kept = none) : s.takeHeld = s := by
  unfold State.takeHeld
  split
  · next hh hk => rw [hh, hk] at h; simp at h
  · rfl

/-- A kept offer without room waits. -/
theorem takeHeld_waits (hk : s.sw.kept = some kp) (h : (kp.room && fits s.sw.list kp.offer) = false) : s.takeHeld = s := by
  unfold State.takeHeld
  split
  · next hk' =>
    rw [hk] at hk'
    cases hk'
    rw [h]
    rfl
  · rfl

/-- A held access claim is judged once more against the watcher table (08 R152). -/
theorem takeHeld_access {a : AccessRequest} {d : Defaults} (hh : s.mgr.held = some ⟨.action (.access a), d⟩) (hk : s.sw.kept = some kp)
    (h : (kp.room && fits s.sw.list kp.offer) = true) :
    s.takeHeld = if (Eff.start s.unheld).accessFits a then commitHeld ⟨.action (.access a), d⟩ kp s.unheld else refuseHeld a s.unheld := by
  simp only [State.takeHeld, hh, hk, h, if_true]
  rfl

/-- Every other held claim is taken as it was built (03 R69). -/
theorem takeHeld_commit (hh : s.mgr.held = some hd) (hk : s.sw.kept = some kp) (h : (kp.room && fits s.sw.list kp.offer) = true)
    (hc : ∀ a, hd.claim ≠ .action (.access a)) : s.takeHeld = commitHeld hd kp s.unheld := by
  unfold State.takeHeld
  simp only [hh, hk, h, if_true, State.unheld]

/-- The three outcomes of the held claim's turn. -/
theorem takeHeld_cases (s : State) : s.takeHeld = s ∨ (∃ hd kp, s.takeHeld = commitHeld hd kp s.unheld) ∨ ∃ a, s.takeHeld = refuseHeld a s.unheld := by
  cases hh : s.mgr.held with
  | none => exact .inl (takeHeld_none (.inl hh))
  | some hd =>
    cases hk : s.sw.kept with
    | none => exact .inl (takeHeld_none (.inr hk))
    | some kp =>
      cases h : kp.room && fits s.sw.list kp.offer with
      | false => exact .inl (takeHeld_waits hk h)
      | true =>
        by_cases hc : ∃ a, hd.claim = .action (.access a)
        · obtain ⟨a, ha⟩ := hc
          obtain ⟨c, d⟩ := hd
          cases ha
          have ht := takeHeld_access hh hk h
          split at ht
          · exact .inr (.inl ⟨_, _, ht⟩)
          · exact .inr (.inr ⟨_, ht⟩)
        · exact .inr (.inl ⟨_, _, takeHeld_commit hh hk h fun a ha => hc ⟨a, ha⟩⟩)

end Held

/-- What the frame timing reads is not changed by the taking of a held claim. -/
theorem takeHeld_frame (s : State) :
    s.takeHeld.sw.stored = s.sw.stored ∧ s.takeHeld.sw.inFrame = s.sw.inFrame ∧ s.takeHeld.sup = s.sup := by
  obtain h | ⟨_, _, h⟩ | ⟨_, h⟩ := takeHeld_cases s <;> rw [h] <;> exact ⟨rfl, rfl, rfl⟩

/-- The state with the coming boundary at the instant that an FSYNC placed. -/
def State.alignedAt (s : State) (al : Option Nat) : State := { s with sw := { s.sw with align := al } }

/-- The instant that an FSYNC places for a boundary is not read by a held claim. -/
theorem takeHeld_alignedAt (s : State) (al : Option Nat) : (s.alignedAt al).takeHeld = s.takeHeld.alignedAt al := by
  cases hh : s.mgr.held with
  | none => rw [takeHeld_none (.inl hh), takeHeld_none (s := s.alignedAt al) (.inl hh)]
  | some hd =>
    cases hk : s.sw.kept with
    | none => rw [takeHeld_none (.inr hk), takeHeld_none (s := s.alignedAt al) (.inr hk)]
    | some kp =>
      cases h : kp.room && fits s.sw.list kp.offer with
      | false => rw [takeHeld_waits hk h, takeHeld_waits (s := s.alignedAt al) hk h]
      | true =>
        by_cases hc : ∃ a, hd.claim = .action (.access a)
        · obtain ⟨a, ha⟩ := hc
          obtain ⟨c, d⟩ := hd
          cases ha
          have hst : Eff.start (s.alignedAt al).unheld = Eff.start s.unheld := rfl
          rw [takeHeld_access hh hk h, takeHeld_access (s := s.alignedAt al) hh hk h, hst]
          split <;> rfl
        · have hc := fun a ha => hc ⟨a, ha⟩
          rw [takeHeld_commit hh hk h hc, takeHeld_commit (s := s.alignedAt al) hh hk h hc]
          rfl

/-- A boundary at an instant given does not read the one that an FSYNC placed. -/
theorem boundary_alignedAt (rx : FrameIn) (bits t : Nat) (s : State) (al : Option Nat) : (s.alignedAt al).boundary rx bits t = s.boundary rx bits t := by
  rw [boundary_eq, boundary_eq, takeHeld_alignedAt]
  simp only [Switch.boundary_eq, State.alignedAt]
  rfl

/-- A frame cut short differs from a whole one in the bytes stored and in the lanes (02 R26). -/
theorem boundary_cut (rx : FrameIn) (bits bits' t : Nat) (s : State) :
    s.boundary rx bits t = { s.boundary rx bits' t with
      sw := { (s.boundary rx bits' t).sw with stored := (s.boundary rx bits t).sw.stored }
      sup := { (s.boundary rx bits' t).sup with lanes := (s.boundary rx bits t).sup.lanes } } := by
  simp only [boundary_eq, Switch.boundary_eq, Supervisor.endFrame]

/-- The bytes that a boundary stores. -/
theorem stored_boundary (rx : FrameIn) (bits t : Nat) (s : State) :
    (s.boundary rx bits t).sw.stored = if s.sw.inFrame then storeFrame s.sw.stored rx (bits / 8) else s.sw.stored := by
  obtain ⟨hst, hin, _⟩ := takeHeld_frame s
  simp only [boundary_eq, hst, hin]

/-- A lane over a boundary. -/
theorem lane_boundary (rx : FrameIn) (bits t : Nat) (s : State) (l : Fin 16) :
    (s.boundary rx bits t).sup.lane l = (s.sup.lane l).endFrame (laneBits (FrameIn.lane rx l) bits) s.sw.inFrame := by
  obtain ⟨_, hin, hsup⟩ := takeHeld_frame s
  simp only [boundary_eq, hin, hsup, lane_endFrame]

/-! ### FSYNC -/

section Fsync
variable {s : State} (hr : s.phase = .run)
include hr

theorem exec_fsyncInLocked (hl : s.sw.locked = true) (t : Nat) : exec (.fsyncInLocked t) s = .next { s with sw := s.sw.fsyncLocked t } := by
  have he : exec (.fsyncInLocked t) s = .next (s.whenRunning fun s => if s.sw.locked then { s with sw := s.sw.fsyncLocked t } else s) := rfl
  rw [he, State.whenRunning, if_pos hr, if_pos hl]

theorem exec_fsyncMissed : exec .fsyncMissed s = .next s.fsyncMissed := by
  have he : exec .fsyncMissed s = .next (s.whenRunning State.fsyncMissed) := rfl
  rw [he, State.whenRunning, if_pos hr]

theorem exec_fsyncInFreerun (t : Nat) (rx : FrameIn) : exec (.fsyncInFreerun t rx) s = .next (s.fsyncFreerun t rx) := by
  have he : exec (.fsyncInFreerun t rx) s = .next (s.whenRunning (State.fsyncFreerun t rx)) := rfl
  rw [he, State.whenRunning, if_pos hr]

theorem exec_candidatePositionPassed : exec .candidatePositionPassed s = .next s.candidatePassed := by
  have he : exec .candidatePositionPassed s = .next (s.whenRunning State.candidatePassed) := rfl
  rw [he, State.whenRunning, if_pos hr]

end Fsync

theorem raiseDevice_eq (s : State) (c : Cause) : s.raiseDevice c = { s with att := { s.att with raises := s.att.raises ++ [(.switch, [(0, c)])] } } := rfl

theorem fsyncLocked_expected {w : Switch} {t : Nat} (h : near t (w.boundaryAt + 3072) = true) :
    w.fsyncLocked t = { w with missed := 0, align := some t } := if_pos h

theorem fsyncLocked_taken {w : Switch} {t : Nat} (h : near t (w.boundaryAt + 3072) = false) (h' : near t w.boundaryAt = true) :
    w.fsyncLocked t = { w with missed := 0, boundaryAt := t } :=
  (if_neg (Bool.not_eq_true _ ▸ h)).trans (if_pos h')

theorem fsyncLocked_elsewhere {w : Switch} {t : Nat} (h : near t (w.boundaryAt + 3072) = false) (h' : near t w.boundaryAt = false) :
    w.fsyncLocked t = w :=
  (if_neg (Bool.not_eq_true _ ▸ h)).trans (if_neg (Bool.not_eq_true _ ▸ h'))

/-- A relock after the boundary last taken is a boundary at the FSYNC's instant (02 R26). -/
theorem relock_after {s : State} {t : Nat} (h : s.sw.boundaryAt < t) (rx : FrameIn) :
    s.relock t rx = s.enterLocked.boundary rx (s.sw.bitsAt t) t := if_neg (Nat.not_le.2 h)

/-- The bits received at an instant inside the frame in progress. -/
theorem bitsAt_eq {w : Switch} {t : Nat} (h : t ≤ w.boundaryAt + 3072) : w.bitsAt t = (t - w.boundaryAt) / 8 := by
  simp only [Switch.bitsAt, Config.bitPeriods]
  omega

theorem fsyncFreerun_counts {s : State} {t : Nat} (rx : FrameIn) (hl : s.sw.locked = false) (h : s.sw.runAfter t < 4) :
    s.fsyncFreerun t rx = { s with sw := { s.sw with run := s.sw.runAfter t, cand := some (t + 3072) } } := by
  have hrun : ¬Config.runLimit ≤ s.sw.runAfter t := Nat.not_le.2 h
  simp only [State.fsyncFreerun, hl, Bool.false_eq_true, if_false, if_neg hrun, Config.framePeriods]

theorem fsyncFreerun_relocks {s : State} {t : Nat} (rx : FrameIn) (hl : s.sw.locked = false) (h : 4 ≤ s.sw.runAfter t) :
    s.fsyncFreerun t rx = s.relock t rx := by
  have hrun : Config.runLimit ≤ s.sw.runAfter t := h
  simp only [State.fsyncFreerun, hl, Bool.false_eq_true, if_false, if_pos hrun]

/-- The instant of a cut frame decides, timeslot by timeslot, what was received: a byte counts when its eight bits do (02 R26). -/
theorem storedByte_cut {rx : FrameIn} (h : FrameIn.wellFormed rx = true) (s : State) (bits t : Nat) (hi : s.sw.inFrame = true) (k : Slot) :
    (s.boundary rx bits t).sw.storedByte k =
      if 8 * k.ts.val + 8 ≤ bits then (rx.getD k.lane.val []).getD k.ts.val 0 else s.sw.storedByte k := by
  have hts : k.ts.val < bits / 8 ↔ 8 * k.ts.val + 8 ≤ bits := by omega
  simp only [Switch.storedByte, stored_boundary, hi, if_true, storeFrame_getD h, hts]

/-- Settles O20: the events of the frame timing one by one; a relock is a boundary at the FSYNC's instant, which a frame boundary placed there equals
but for the frame cut short. -/
theorem frameTimingLocksAndUnlocks : Obligations.FrameTimingLocksAndUnlocks := by
  refine ⟨⟨fun s t hr hl hn => ?_, fun s t hr hl hn hn' => ?_, fun s t hr hl h0 h1 => ?_, fun s hr hl hm => ?_, fun s hr hl hm => ?_⟩,
    fun s t rx hr hl => ⟨fun hrun => ?_, ?_⟩, fun s c hr hl hc => ?_⟩
  · rw [exec_fsyncInLocked hr hl, fsyncLocked_expected hn]
  · rw [exec_fsyncInLocked hr hl, fsyncLocked_elsewhere hn hn']
  · have hfar : near t (s.sw.boundaryAt + 3072) = false := decide_eq_false (by omega)
    have hnear : near t s.sw.boundaryAt = true := decide_eq_true (by omega)
    rw [exec_fsyncInLocked hr hl, fsyncLocked_taken hfar hnear]
  · have hle : ¬Config.missLimit ≤ s.sw.missed + 1 := by simp only [Config.missLimit]; omega
    rw [exec_fsyncMissed hr, State.fsyncMissed, if_pos hl, if_neg hle]
  · have hle : Config.missLimit ≤ s.sw.missed + 1 := by simp only [Config.missLimit]; omega
    rw [exec_fsyncMissed hr, State.fsyncMissed, if_pos hl, if_pos hle, raiseDevice_eq]
  · rw [exec_fsyncInFreerun hr, fsyncFreerun_counts rx hl hrun]
    rfl
  · intro locked atFsync hrun
    have hat : atFsync = s.enterLocked.alignedAt (some t) := rfl
    have hlocked : s.fsyncFreerun t rx = s.relock t rx := fsyncFreerun_relocks rx hl hrun
    have hin : s.enterLocked.sw.inFrame = s.sw.inFrame := rfl
    have hplaced : exec (.frameBoundary rx) atFsync = .next (s.enterLocked.boundary rx 384 t) := by
      rw [exec_frameBoundary (s := atFsync) hr, hat, boundary_alignedAt]
      rfl
    clear_value atFsync
    rw [exec_fsyncInFreerun hr, hlocked]
    refine ⟨fun ht => ?_, fun ht => ?_, fun h0 h1 => ⟨_, rfl, ?_⟩⟩
    · rw [State.relock]
      exact congrArg _ (if_pos (Nat.le_of_eq ht))
    · have hwhole : (t - s.sw.boundaryAt) / 8 = 384 := by omega
      rw [relock_after (by omega), bitsAt_eq (by omega), hwhole, hplaced]
    · rw [relock_after h0, bitsAt_eq (by omega)]
      intro n
      refine ⟨⟨s.enterLocked.boundary rx 384 t, hplaced, boundary_cut _ _ _ _ _⟩, fun hrx hi k => storedByte_cut hrx s.enterLocked n t (hin.trans hi) k,
        fun hi => ?_, fun l => lane_boundary _ _ _ _ l⟩
      rw [stored_boundary, hin, hi]
      rfl
  · rw [exec_candidatePositionPassed hr]
    simp only [State.candidatePassed, hl, hc]

end Sys2Proof.Machine

/-! SUPPORT. A claim that waits for room (03 R69): declined, held while nothing else is taken, and taken later with the offer as it was built. -/

namespace Sys2Proof.Machine

set_option Elab.async false

/-! ### Declined, or made -/

/-- The next state of a claim made with an offer and a clear-down order. -/
theorem commit_makes (s : State) (e : Eff) (offer : List Entry) (order : Option ClearCount) : s.makes (e.commit offer order s) e offer order := by
  have ha : s.att.hand .manager e.raise =
      { s.att with raises := s.att.raises ++ (if e.raise = [] then [] else [(.manager, e.raise)]) } := by
    unfold Attention.hand
    split <;> simp
  simp only [State.makes, Eff.commit, ha]

/-- The switch without room declines an entry on a slot that has none in the list (02 R32). -/
theorem not_fits_full {list : List Entry} {x : Entry} (h : list.length = 96) (hx : ∀ e ∈ list, e.slot ≠ x.slot) : fits list [x] = false := by
  have hany : (list.any fun y => decide (y.slot = x.slot)) = false := List.any_eq_false.2 fun y hy => by simpa using hx y hy
  simp [fits, offerSlots, firstOf, Config.listRoom, h, hany]

/-- A claim whose offer is declined: nothing of it is made, the manager holds it and the switch keeps its offer. -/
theorem exec_declined {s s' : State} {c : Instr} {k : Claim} {recs : Nat → Rec} {offer : List Entry} {raise : Raise} {port : Port}
    (hh : s.Hands c k s') (he : (effect s'.port.defaults k (Eff.start s')).Reads s' recs offer raise port) (hf : fits s'.sw.list offer = false) :
    exec c s = .next { s' with
      mgr := { s'.mgr with held := some ⟨k, s'.port.defaults⟩ }
      sw := { s'.sw with kept := some ⟨offer, none, false⟩ } } := by
  rw [exec_of_hands hh, State.takeClaim, settle_full (by rw [he.offer]; exact hf), holdClaim, he.offer, he.order]

/-! ### No other claim meanwhile -/

section Busy
variable {s : State} (h : s.managerFree = false)
include h

theorem managerRequest_busy (kind : Byte) : s.managerRequest kind = s := by simp [State.managerRequest, h]
theorem claimReport_busy : s.claimReport = s := by simp [State.claimReport, h]
theorem claimClearDownEnd_busy : s.claimClearDownEnd = s := by simp [State.claimClearDownEnd, h]
theorem claimExpiry_busy : s.claimExpiry = s := by simp [State.claimExpiry, h]
theorem claimOutcome_busy (detected : Bool) : s.claimOutcome detected = s := by simp [State.claimOutcome, h]
theorem claimAction_busy (p : ActionClaim → Bool) : s.claimAction p = s := by simp [State.claimAction, h]
theorem claimLane_busy (l : Fin 16) : s.claimLane l = s := by simp [State.claimLane, h]
theorem softResetClaim_busy : s.softResetClaim = s := by simp [State.softResetClaim, h]

end Busy

theorem managerFree_held {s : State} (h : s.mgr.held ≠ none) : s.managerFree = false := by
  obtain ⟨hd, hh⟩ := Option.ne_none_iff_exists'.1 h
  simp [State.managerFree, hh]

/-- The commands at which the manager takes a claim. -/
theorem exec_busy {s : State} (h : s.managerFree = false) {c : Instr}
    (hc : c ∈ ([.openCircuit, .openPair, .addLeg, .dropLeg, .moveSource, .hold, .resume, .release, .touch, .query, .findOut, .findIn, .accessEnd,
      .boundaryReport, .clearDownEnd, .expiryClaim, .detectedOutcome, .verifyFailureOutcome, .releaseLinkedClaim, .holdLinkedClaim,
      .suppressionClaim, .accessClaim, .endOfAccessClaim, .softResetClaim] : List Instr) ∨ ∃ l, c = .laneChangeClaim l) : exec c s = .next s := by
  have stays {t : State} (ht : t = s) : Host.Outcome.next t = (Host.Outcome.next s : Result) := congrArg _ ht
  rcases hc with hc | ⟨l, rfl⟩
  · simp only [List.mem_cons, List.not_mem_nil, or_false] at hc
    rcases hc with rfl | rfl | rfl | rfl | rfl | rfl | rfl | rfl | rfl | rfl | rfl | rfl | rfl | rfl | rfl | rfl | rfl | rfl | rfl | rfl | rfl | rfl |
      rfl | rfl
    iterate 13 exact stays (managerRequest_busy h _)
    · exact stays (claimReport_busy h)
    · exact stays (claimClearDownEnd_busy h)
    · exact stays (claimExpiry_busy h)
    iterate 2 exact stays (claimOutcome_busy h _)
    iterate 5 exact stays (claimAction_busy h _)
    · exact stays (softResetClaim_busy h)
  · exact stays (claimLane_busy h l)

/-! ### The held claim's turn -/

theorem exec_heldClaimTaken {s : State} (hr : s.phase = .run) : exec .heldClaimTaken s = .next s.takeHeld := by
  have he : exec .heldClaimTaken s = .next (s.whenRunning State.takeHeld) := rfl
  rw [he, State.whenRunning, if_pos hr]

/-- Taking the held claim leaves none to take. -/
theorem takeHeld_takeHeld (s : State) : s.takeHeld.takeHeld = s.takeHeld := by
  obtain h | ⟨_, _, h⟩ | ⟨_, h⟩ := takeHeld_cases s
  · rw [h, h]
  · rw [h]; exact takeHeld_none (.inr rfl)
  · rw [h]; exact takeHeld_none (.inr rfl)

/-- The held claim's turn changes neither the phase nor the instant of the coming boundary. -/
theorem takeHeld_timing (s : State) : s.takeHeld.phase = s.phase ∧ s.takeHeld.sw.nextAt = s.sw.nextAt := by
  obtain h | ⟨_, _, h⟩ | ⟨_, h⟩ := takeHeld_cases s <;> rw [h] <;> exact ⟨rfl, rfl⟩

/-- A boundary that finds the claim untaken takes it first (log 12). -/
theorem boundary_takeHeld (rx : FrameIn) (bits t : Nat) (s : State) : s.takeHeld.boundary rx bits t = s.boundary rx bits t := by
  simp only [State.boundary, takeHeld_takeHeld]

/-- A held claim that reads no watcher table is taken with its kept offer. -/
theorem takeHeld_makes {s : State} {k : Claim} {d : Defaults} {kp : Kept} (hh : s.mgr.held = some ⟨k, d⟩) (hk : s.sw.kept = some kp)
    (hroom : kp.room = true) (hf : fits s.sw.list kp.offer = true) (hw : ∀ a, k = .action (.access a) → s.WatchersFit a) :
    s.takeHeld = (effect d k (Eff.start s.unheld)).commit kp.offer kp.order s.unheld := by
  have hok : (kp.room && fits s.sw.list kp.offer) = true := by rw [hroom, hf]; rfl
  by_cases hc : ∃ a, k = .action (.access a)
  · obtain ⟨a, rfl⟩ := hc
    have hfit : (Eff.start s.unheld).accessFits a = true := (accessFits_iff s a).2 (hw a rfl)
    rw [takeHeld_access hh hk hok, if_pos hfit]
    rfl
  · exact takeHeld_commit hh hk hok fun a ha => hc ⟨a, ha⟩

/-! ### ADD_LEG with no one on the slot -/

theorem drive_eq_targetDrive (r : Rec) : r.drive = r.targetDrive := targetDrive_eq r

theorem victims_free {m : Manager} {k : Slot} (hk : m.holder k = none) : m.victims [k] = [] := by simp [Manager.victims, hk]

theorem available_free {m : Manager} {cls : CircClass} {n : Nat} {k : Slot} (hk : m.holder k = none) (hlegs : ∀ l ∈ (m.recOf n).legs, l.slot ≠ k) :
    m.available cls (some n) k = true := by
  simp only [Manager.available, hk, Bool.and_true, List.all_eq_true, decide_eq_true_eq]
  exact hlegs

/-- A leg given to a circuit on a slot that no one holds (03 R60). -/
theorem acceptLeg_reads {s : State} {n : Nat} {k : Slot} (hk : s.mgr.holder k = none) :
    ((Eff.start s).acceptLeg n k).Reads s (changeOn [n] (fun x => { x with legs := x.legs ++ [⟨k, .making, false, none⟩] }) s.recordOf)
      [s.legEntry n (s.recordOf n) (s.recordOf n).targetDrive none .made k] [] s.port := by
  have hv : (Eff.start s).mgr.victims [k] = [] := victims_free hk
  have hu := (Eff.Reads.start s).upd n fun x => { x with legs := x.legs ++ [⟨k, .making, false, none⟩] }
  generalize he : (Eff.start s).updRec n (fun x => { x with legs := x.legs ++ [⟨k, .making, false, none⟩] }) = e at hu
  have haccept : (Eff.start s).acceptLeg n k = e.addEntry k (e.content n (e.recOf n).drive none) [⟨e.handleOf n, .made⟩] := by
    unfold Eff.acceptLeg
    rw [hv, ← he]
    rfl
  have hentry := hu.addEntry k (e.content n (e.recOf n).drive none) [⟨e.handleOf n, .made⟩]
  rw [haccept]
  refine hentry.of_offer ?_
  rw [hu.content, hu.handleOf, hu.recs, changeOn_self, drive_eq_targetDrive]
  rfl

/-- An ADD_LEG accepted (03 R60). -/
theorem addLeg_reads {s : State} {r : Request} {n : Nat} {k : Slot} (d : Defaults) (h0 : byteAt r.msg 0 = 3) (h1 : byteAt r.msg 1 = 6)
    (hp : parseSlot r.msg 8 = some k) (hn : s.Names r n false) (hst : (s.recordOf n).serving) (hlen : (s.recordOf n).legs.length < 4)
    (hlegs : ∀ l ∈ (s.recordOf n).legs, l.slot ≠ k) (hk : s.mgr.holder k = none) :
    (effect d (.request r) (Eff.start s)).Reads s
      (changeOn [n] (fun x => { x with legs := x.legs ++ [⟨k, .making, false, none⟩] }) s.recordOf)
      [s.legEntry n (s.recordOf n) (s.recordOf n).targetDrive none .made k] []
      (s.port.answerRequest r .ok (handleBytes r.handle ++ [BitVec.ofNat 8 (s.recordOf n).legs.length])) := by
  have hread := acceptLeg_reads (n := n) hk
  have hserving : ((Eff.start s).recOf n).st = .active ∨ ((Eff.start s).recOf n).st = .held := hst
  have hmax : ¬Config.maxLegs ≤ ((Eff.start s).recOf n).legs.length := Nat.not_le.2 hlen
  have havail : (Eff.start s).mgr.available ((Eff.start s).recOf n).cls (some n) k = true := available_free hk hlegs
  have hlimit : overLimit ((Eff.start s).acceptLeg n k) = false := by
    rw [overLimit, hread.offer]
    rfl
  have he : effect d (.request r) (Eff.start s) =
      ((Eff.start s).acceptLeg n k).ok r (handleBytes r.handle ++ [BitVec.ofNat 8 ((Eff.start s).recOf n).legs.length]) := by
    rw [effect, effRequest_addLeg d r _ h0, effAddLeg, checked_some h1 hp, onHandle_names hn rfl, Eff.addLeg]
    simp only [Eff.onServing, if_pos hserving, if_neg hmax, havail, hlimit, Bool.not_true, Bool.false_eq_true, if_false]
  rw [he]
  exact hread.answer _ _ _ _

/-! ### An access claim accepted (08 R153-R157) -/

/-- The test record before it is on the list of its source. -/
def Eff.createTest (e : Eff) (d : Defaults) (a : AccessRequest) (t : Nat) : Eff :=
  (e.updRec t (testRecord d e.mgr a ((e.mgr.holder a.loop).map fun o => (o, a.loop)))).raiseOn t .created

section Access
variable {e : Eff} {d : Defaults} {a : AccessRequest} {t : Nat}

theorem joinFan_keeps (e : Eff) (src : Option Source) (n : Nat) :
    (∀ m, (e.joinFan src n).recOf m = e.recOf m) ∧ (e.joinFan src n).mgr.held = e.mgr.held ∧ (e.joinFan src n).wat = e.wat := by
  unfold Eff.joinFan
  split <;> exact ⟨fun _ => rfl, rfl, rfl⟩

/-- The end of the acceptance: the entry of the loop slot, the watcher's link and the arming order. -/
def Eff.linkTest (e : Eff) (a : AccessRequest) (t : Nat) (own : List LegOutcome) : Eff :=
  { e.addEntry a.loop (e.content t .source none) own with
    wat := { e.wat.updRun a.watcher fun x => { x with link := some (e.handleOf t) } with
      orders := e.wat.orders ++ [.arm a.partner a.watcher (e.handleOf t)] } }

/-- The acceptance from the test record on: the owner's leg, if there is an owner, is displaced before the end. -/
theorem makeAccess_eq : ∃ (e' : Eff) (own : List LegOutcome), e.makeAccess d a t = e'.linkTest a t own ∧
    (∀ m, some m ≠ e.mgr.holder a.loop → e'.recOf m = (e.createTest d a t).recOf m) ∧ e'.mgr.held = e.mgr.held ∧ e'.wat = e.wat := by
  obtain ⟨hrecs, hheld, hwat⟩ := joinFan_keeps (e.createTest d a t) (some (.inbound a.target)) t
  generalize he : (e.createTest d a t).joinFan (some (.inbound a.target)) t = e' at hrecs hheld hwat
  cases ho : e.mgr.holder a.loop with
  | none =>
    refine ⟨e', [⟨e'.handleOf t, .made⟩], ?_, fun m _ => hrecs m, hheld, hwat⟩
    rw [← he]
    simp only [Eff.makeAccess, Eff.createTest, ho]
    rfl
  | some o =>
    let e'' := e'.displace o a.loop t
    refine ⟨e'', [⟨e''.handleOf o, .changed⟩, ⟨e''.handleOf t, .made⟩], ?_, fun m hm => ?_, hheld, hwat⟩
    · simp only [e'', ← he, Eff.makeAccess, Eff.createTest, ho]
      rfl
    · have hrec : e''.recOf m = if m = o then _ else e'.recOf m :=
        recOf_updRec e' o m fun r => r.updLeg a.loop fun l => { l with st := .displaced, link := some t }
      rw [hrec, if_neg fun hmo => hm (congrArg some hmo), hrecs]

/-- What the acceptance leaves of the test record, the waiting claim and the orders. -/
theorem makeAccess_keeps (ho : e.mgr.holder a.loop ≠ some t) :
    (e.makeAccess d a t).recOf t = testRecord d e.mgr a ((e.mgr.holder a.loop).map fun o => (o, a.loop)) (e.recOf t) ∧
      (e.makeAccess d a t).mgr.held = e.mgr.held ∧
      (e.makeAccess d a t).wat.orders = e.wat.orders ++ [.arm a.partner a.watcher ⟨t, (e.recOf t).gen⟩] := by
  obtain ⟨e', own, he, hrecs, hheld, hwat⟩ := makeAccess_eq (e := e) (d := d) (a := a) (t := t)
  have hrec : e'.recOf t = testRecord d e.mgr a ((e.mgr.holder a.loop).map fun o => (o, a.loop)) (e.recOf t) :=
    (hrecs t fun h => ho h.symm).trans (recOf_updRec_same _ _ _)
  have hhandle : e'.handleOf t = ⟨t, (e.recOf t).gen⟩ := by
    rw [Eff.handleOf, hrec]
    rfl
  rw [he, Eff.linkTest, hhandle, hwat]
  exact ⟨hrec, hheld, rfl⟩

/-- The lowest-numbered FREE record of the test pool (01 R14). -/
theorem lowestFree_test {t : Nat} (h0 : 480 ≤ t) (h1 : t < 512) (hf : (e.recOf t).st = .free) (hlow : ∀ m, 480 ≤ m → m < t → (e.recOf m).st ≠ .free) :
    e.lowestFree Config.testPool (Config.records - Config.testPool) none = some t := by
  have hmem : t ∈ List.range' Config.testPool (Config.records - Config.testPool) := List.mem_range'_1.2 ⟨h0, h1⟩
  refine List.find?_range'_eq_some.2 ⟨by simp [Eff.isFree, hf], hmem, fun m hm hmt => ?_⟩
  simp [Eff.isFree, hlow m hm hmt]

/-- An access claim that fits, with a FREE record of the test pool, is accepted. -/
theorem effAccess_accepts {s : State} (hw : s.WatchersFit a) (hl : s.mayLoop a.loop) (hr : s.fanRoom (.inbound a.target) 1) (h0 : 480 ≤ t) (h1 : t < 512)
    (hf : (s.recordOf t).st = .free) (hlow : ∀ m, 480 ≤ m → m < t → (s.recordOf m).st ≠ .free) :
    effect d (.action (.access a)) (Eff.start s) = (Eff.start s).makeAccess d a t := by
  have hfit := (accessFits_iff s a).2 hw
  have hloop : (Eff.start s).mgr.loopFree a.loop = true := (loopFree_iff s a.loop).2 hl
  have hroom : (Eff.start s).fanRoom (.inbound a.target) 1 = true := decide_eq_true (hr a.target rfl)
  have hlow' := lowestFree_test (e := Eff.start s) h0 h1 hf hlow
  rw [effect, effAction, effAccess, hfit, hloop, hroom, hlow']
  rfl

/-- A FREE record holds no slot that may be taken for a loop. -/
theorem mayLoop_holder_ne {s : State} {k : Slot} {t : Nat} (hl : s.mayLoop k) (hf : (s.recordOf t).st = .free) : s.mgr.holder k ≠ some t := by
  intro ho
  obtain ⟨_, hst, _⟩ := hl t ho
  rcases hst with h | h <;> rw [hf] at h <;> exact absurd h (by decide)

end Access

/-! ### The statement -/

/-- The clear-down end of a circuit of one record with one LIVE leg (05 R98). -/
theorem clearDownEnd_reads_alone {s : State} {n : Nat} {k : Slot} (hn : n < 512) (hst : (s.recordOf n).st = .releasing)
    (hp : (s.recordOf n).partner = none) (hlive : (s.recordOf n).legs.filter (fun l => decide (l.st = .live)) = [⟨k, .live, false, none⟩]) :
    (effClearDownEnd (s.handle n) (Eff.start s)).Reads s
      (changeOn (s.circuit n) (fun r => { r.breaking (fun l => decide (l.st = .live)) with st := .breaking, clearOf := none }) s.recordOf)
      [s.breakEntry n k] [] s.port := by
  have hcircuit : s.circuit n = [n] := by rw [State.circuit, hp]; rfl
  refine (clearDownEnd_reads hn hst (by rw [hp]; nofun)).of_offer ?_
  rw [hcircuit, List.flatMap_singleton, hlive]
  rfl

/-- A held ADD_LEG taken (03 R60, R69). -/
theorem heldAddLeg_taken {s : State} {r : Request} {n : Nat} {k : Slot} {d : Defaults} {kp : Kept} (hr : s.phase = .run)
    (h0 : byteAt r.msg 0 = 3) (h1 : byteAt r.msg 1 = 6) (hp : parseSlot r.msg 8 = some k) (hn : s.Names r n false) (hst : (s.recordOf n).serving)
    (hlen : (s.recordOf n).legs.length < 4) (hlegs : ∀ l ∈ (s.recordOf n).legs, l.slot ≠ k) (hk : s.mgr.holder k = none)
    (hh : s.mgr.held = some ⟨.request r, d⟩) (hkp : s.sw.kept = some kp) (hfit : s.sw.list.length + kp.offer.length ≤ 96) (hroom : kp.room = true) :
    ∃ t, exec .heldClaimTaken s = .next t ∧
      t = { s with
        mgr := { s.mgr with held := none, recs := t.mgr.recs }
        sw := { s.sw with kept := none, list := placeOffer s.sw.list kp.offer, counts := s.sw.counts ++ kp.order.toList }
        port := s.port.answerRequest r .ok (handleBytes r.handle ++ [BitVec.ofNat 8 (s.recordOf n).legs.length]) } ∧
      s.recordBecomes t n { s.recordOf n with legs := (s.recordOf n).legs ++ [⟨k, .making, false, none⟩] } := by
  have hread := addLeg_reads (s := s.unheld) d h0 h1 hp ⟨hn.num, hn.range, hn.notTest⟩ hst hlen hlegs hk
  refine ⟨_, exec_heldClaimTaken hr, ?_⟩
  rw [takeHeld_makes hh hkp hroom (fits_of_room hfit) nofun]
  generalize effect d (.request r) (Eff.start s.unheld) = e at hread
  have hmakes := commit_makes s.unheld e kp.offer kp.order
  rw [State.makes, hread.raise, hread.ver, hread.wat, hread.port, if_pos rfl, List.append_nil] at hmakes
  rw [hmakes]
  refine ⟨?_, fun m => ?_⟩
  · rw [hread.mgr]
    rfl
  · refine (hread.recs m).trans ?_
    rw [changeOn_single]
    split
    · next hm => rw [hm]; rfl
    · rfl

/-- A held access claim taken (08 R153-R157). -/
theorem heldAccess_taken {s : State} {a : AccessRequest} {d : Defaults} {kp : Kept} {t0 : Nat} (hr : s.phase = .run)
    (hh : s.mgr.held = some ⟨.action (.access a), d⟩) (hkp : s.sw.kept = some kp) (hroom : kp.room = true)
    (hfit : s.sw.list.length + kp.offer.length ≤ 96) (hw : s.WatchersFit a) (hl : s.mayLoop a.loop) (hfan : s.fanRoom (.inbound a.target) 1)
    (h0 : 480 ≤ t0) (h1 : t0 < 512) (hf : (s.recordOf t0).st = .free) (hlow : ∀ m, 480 ≤ m → m < t0 → (s.recordOf m).st ≠ .free) :
    ∃ t, exec .heldClaimTaken s = .next t ∧
      t.sw = { s.sw with kept := none, list := placeOffer s.sw.list kp.offer, counts := s.sw.counts ++ kp.order.toList } ∧
      t.mgr.held = none ∧ (t.recordOf t0).cls = .test ∧ (t.recordOf t0).cond = d.cond ∧ (t.recordOf t0).watcher = some a.watcher ∧
      t.wat.orders = s.wat.orders ++ [.arm a.partner a.watcher (s.handle t0)] := by
  have hw' : s.unheld.WatchersFit a := (accessFits_iff s.unheld a).1 ((accessFits_iff s a).2 hw)
  have heff := effAccess_accepts (s := s.unheld) (d := d) hw' hl hfan h0 h1 hf hlow
  obtain ⟨hrec, hheld, horders⟩ := makeAccess_keeps (e := Eff.start s.unheld) (d := d) (mayLoop_holder_ne hl hf)
  refine ⟨_, exec_heldClaimTaken hr, ?_⟩
  rw [takeHeld_makes hh hkp hroom (fits_of_room hfit) (fun a' ha => by cases ha; exact hw), heff]
  generalize (Eff.start s.unheld).makeAccess d a t0 = e at hrec hheld horders
  have hrec' : (e.commit kp.offer kp.order s.unheld).recordOf t0 = _ := hrec
  rw [hrec']
  exact ⟨rfl, hheld, rfl, rfl, rfl, horders⟩

/-- Settles O50: a claim declined is held, nothing else is taken meanwhile, and its turn makes it with the offer kept; ADD_LEG, a clear-down end and an
access claim are computed on the effect they read. -/
theorem declinedClaimIsHeldAndTakenLater : Obligations.DeclinedClaimIsHeldAndTakenLater := by
  refine ⟨fun s s' c k hh => ?_, fun s c hheld hc => exec_busy (managerFree_held hheld) hc, fun s k d kp hr hh hkp => ?_,
    fun r n k s h0 h1 hp hn hst hlen hlegs hk => ⟨fun p ht hfull hslot => ?_, fun d kp hr hh hkp hfit hroom =>
      heldAddLeg_taken hr h0 h1 hp hn hst hlen hlegs hk hh hkp hfit hroom⟩,
    fun s n k rest hr hn hends hst hpart hlive hfull hslot => ?_, fun s a d kp hr hh hkp hroom hfit => ⟨fun hw => ?_, fun t0 hw hl hfan h0 h1 hf hlow =>
      heldAccess_taken hr hh hkp hroom hfit hw hl hfan h0 h1 hf hlow⟩, fun s t rx hs => ?_⟩
  · simp only [declines_iff]
    refine ⟨fun hf => ?_, fun hf => ⟨_, exec_of_hands hh, ?_⟩⟩
    · rw [exec_of_hands hh, State.takeClaim, settle_full hf, holdClaim]
    · rw [State.takeClaim, settle_fits (by simpa using hf)]
      exact commit_makes _ _ _ _
  · rw [exec_heldClaimTaken hr]
    refine ⟨fun hroom => ?_, fun hroom hd hw => ⟨_, rfl, ?_⟩⟩
    · rw [takeHeld_waits hkp (by rw [hroom]; rfl)]
    · rw [declines_iff] at hd
      rw [takeHeld_makes hh hkp hroom (by simpa using hd) hw]
      exact commit_makes _ _ _ _
  · have hread := addLeg_reads (s := { s with port := p }) s.port.defaults h0 h1 hp ⟨hn.num, hn.range, hn.notTest⟩ hst hlen hlegs hk
    have hdef : p.defaults = s.port.defaults := takeRequest_defaults ht.head
    have hhands : s.Hands .addLeg (.request r) { s with port := p } := .request .addLeg 0x03 6 r p (by simp [requestKinds]) ht
    rw [exec_declined hhands (hdef ▸ hread) (not_fits_full hfull hslot), hdef]
    rfl
  · have hhands : s.Hands .clearDownEnd (.clearDownEnd (s.handle n)) { s with sw := { s.sw with ends := rest } } := .clearDownEnd _ _ hr hends
    have hread := clearDownEnd_reads_alone (s := { s with sw := { s.sw with ends := rest } }) hn hst hpart hlive
    rw [exec_declined hhands hread (not_fits_full hfull hslot)]
    rfl
  · have hok : (kp.room && fits s.sw.list kp.offer) = true := by rw [hroom, fits_of_room hfit]; rfl
    have hfit' : (Eff.start s.unheld).accessFits a = false := Bool.eq_false_iff.2 fun h => hw ((accessFits_iff s a).1 h)
    rw [exec_heldClaimTaken hr, takeHeld_access hh hkp hok, hfit']
    rfl
  · by_cases hr : s.phase = .run
    · rw [exec_heldClaimTaken hr] at hs
      cases hs
      obtain ⟨hphase, hnext⟩ := takeHeld_timing s
      rw [exec_frameBoundary hr, exec_frameBoundary (hphase.trans hr), hnext, boundary_takeHeld]
    · have he : exec .heldClaimTaken s = .next (s.whenRunning State.takeHeld) := rfl
      rw [he, State.whenRunning, if_neg hr] at hs
      cases hs
      rfl

end Sys2Proof.Machine

/-! SUPPORT. HOLD and RESUME (03 R66-R68): the drive change of one record, then of a record and its partner. -/

namespace Sys2Proof.Machine

set_option Elab.async false

/-! ### A drive change (03 R66-R68) -/

/-- A record taken to a drive target: without a carrying leg it is there at once (03 R68). -/
def Rec.driven (t : Target) (r : Rec) : Rec := { r with target := some t, st := if r.carrying = [] then t.state else r.st }

/-- The drive target that HOLD or RESUME finds (03 R47). -/
def Target.other : Target → Target
  | .hold => .source
  | .source => .hold

theorem carrying_eq_nil (r : Rec) : r.carrying = [] ↔ r.legs.any Leg.carries = false := by
  rw [Rec.carrying, List.map_eq_nil_iff, List.filter_eq_nil_iff, List.any_eq_false]

/-- A claim that changes one record, in the words of the statements. -/
theorem recordBecomes_of_changeOn {s t : State} {n : Nat} {f : Rec → Rec} (h : ∀ m, t.recordOf m = changeOn [n] f s.recordOf m) :
    s.recordBecomes t n (f (s.recordOf n)) := fun m => by
  rw [h, changeOn_single]
  split
  · next hm => rw [hm]
  · rfl

namespace Eff.Reads

variable {s : State} {e : Eff} {recs : Nat → Rec} {offer : List Entry} {raise : Raise} {port : Port} (h : e.Reads s recs offer raise port)
include h

theorem driveRecord (m : Nat) (t : Target) :
    (e.driveRecord m t).Reads s (changeOn [m] (·.driven t) recs) (offer ++ s.changeEntries m (recs m) t.drive none) raise port := by
  have htarget := h.upd m fun r => { r with target := some t }
  have hlegs : ((e.updRec m fun r => { r with target := some t }).recOf m).legs = (recs m).legs := by rw [htarget.recs, changeOn_self]
  unfold Eff.driveRecord
  simp only [hlegs]
  split
  · next hany =>
    have hcarry : (recs m).carrying ≠ [] := fun hn => by rw [(carrying_eq_nil _).1 hn] at hany; cases hany
    refine ((htarget.offerLegs m t.drive none).of_recs fun j => ?_).of_offer (by rw [changeOn_self]; rfl)
    rw [changeOn_single, changeOn_single]
    split
    · next hj => rw [hj, Rec.driven, if_neg hcarry]
    · rfl
  · next hany =>
    have hcarry : (recs m).carrying = [] := (carrying_eq_nil _).2 (by simpa using hany)
    refine ((htarget.upd m fun r => { r with st := t.state }).of_recs fun j => ?_).of_offer ?_
    · rw [changeOn_changeOn, changeOn_single, changeOn_single]
      split
      · next hj => rw [hj, Rec.driven, if_pos hcarry]
      · rfl
    · have hnone : s.changeEntries m (recs m) t.drive none = [] := by
        rw [State.changeEntries, List.map_eq_nil_iff.1 hcarry]
        rfl
      rw [hnone, List.append_nil]

/-- HOLD or RESUME of a record and its partner (03 R66, R67). -/
theorem driveCircuit {n : Nat} (t : Target) (hp : (recs n).partner ≠ some n) :
    (e.driveCircuit n t).Reads s (changeOn (n :: (recs n).partner.toList) (·.driven t) recs)
      (offer ++ (n :: (recs n).partner.toList).flatMap fun m => s.changeEntries m (recs m) t.drive none) raise port := by
  have hms : (n :: (recs n).partner.toList).Nodup := by
    cases hq : (recs n).partner with
    | none => simp
    | some q => simpa using fun hnq : n = q => hp (by rw [hq, hnq])
  unfold Eff.driveCircuit
  rw [h.members]
  exact h.each (op := fun e m => e.driveRecord m t) (f := (·.driven t)) (ent := fun m r => s.changeEntries m r t.drive none)
    (fun _ _ _ he m => he.driveRecord m t) hms

end Eff.Reads

/-! ### The requests -/

section Drive
variable {s : State} {r : Request} {p : Port} {n : Nat} {t : Target}

theorem mayDrive_iff (x : Rec) (t : Target) : x.mayDrive t = true ↔ x.serving ∧ x.target = some t.other := by
  cases t <;> simp [Rec.mayDrive, Rec.serving, Target.other]

theorem mayDrive_start (s : State) (n : Nat) (t : Target) : (Eff.start s).mayDrive n t = true ↔
    ∀ m ∈ n :: (s.recordOf n).partner.toList, (s.recordOf m).serving ∧ (s.recordOf m).target = some t.other := by
  rw [Eff.mayDrive, List.all_eq_true]
  exact forall₂_congr fun m _ => mayDrive_iff _ t

theorem length_driveEntries (s : State) (ms : List Nat) (d : Drive) :
    (ms.flatMap fun m => s.changeEntries m (s.recordOf m) d none).length = (ms.flatMap fun m => (s.recordOf m).carrying).length := by
  simp only [List.length_flatMap, State.changeEntries, Rec.carrying, List.length_map]

/-- The effect of a HOLD or RESUME accepted (03 R66-R68). -/
theorem driveRequest_reads (hp : (s.recordOf n).partner ≠ some n)
    (hdrive : ∀ m ∈ n :: (s.recordOf n).partner.toList, (s.recordOf m).serving ∧ (s.recordOf m).target = some t.other) :
    ((Eff.start s).driveRequest r t n).Reads s (changeOn (n :: (s.recordOf n).partner.toList) (·.driven t) s.recordOf)
      ((n :: (s.recordOf n).partner.toList).flatMap fun m => s.changeEntries m (s.recordOf m) t.drive none) []
      (s.port.answerRequest r .ok (handleBytes r.handle ++ [((s.recordOf n).driven t).st.toByte, t.toByte] ++
        optHandleBytes ((s.recordOf n).partner.map s.handle))) := by
  have h := (Eff.Reads.start s).driveCircuit t hp
  have hhandle : ((Eff.start s).driveCircuit n t).handleOf = s.handle := funext h.handleOf
  rw [Eff.driveRequest, if_pos ((mayDrive_start s n t).2 hdrive)]
  simp only [h.recs, changeOn_of_mem List.mem_cons_self, hhandle]
  exact h.answer _ _ _ _

end Drive

/-- A request whose fields are in range, and whose handle passes, goes on to the circuit (03 R43). -/
theorem checked_handle {s : State} {e : Eff} {r : Request} {len n : Nat} {α : Type} {a : α} {fields : Option α} {f : α → Nat → Eff}
    (hw : byteAt r.msg 1 = BitVec.ofNat 8 len) (hx : fields = some a) (hn : s.Names r n false) (he : e.mgr = s.mgr) :
    (e.checked r len fields fun a => e.onHandle r false (f a)) = f a n :=
  (checked_some hw hx).trans (onHandle_names hn he)

/-- HOLD and RESUME are one request, to one drive target or the other. -/
theorem drive_claim {s : State} {r : Request} {p : Port} {n : Nat} {c : Instr} {kind : Byte} {t : Target} (hm : (c, kind, 4, false) ∈ handleRequests)
    (hc : (c, Owner.manager, kind, 4) ∈ requestKinds) (ht : s.TakesWhole kind 4 r p)
    (heff : byteAt r.msg 0 = kind → ∀ d (e : Eff), e.mgr = s.mgr → effRequest d r e = e.driveRequest r t n) (hp : (s.recordOf n).partner ≠ some n) :
    ((∀ m ∈ n :: (s.recordOf n).partner.toList, (s.recordOf m).serving ∧ (s.recordOf m).target = some t.other) →
      s.sw.list.length + ((n :: (s.recordOf n).partner.toList).flatMap fun m => (s.recordOf m).carrying).length ≤ 96 → ∃ z, exec c s = .next z ∧
        s.circuitClaim z ((n :: (s.recordOf n).partner.toList).flatMap fun m => s.changeEntries m (s.recordOf m) t.drive none) []
          (p.answerRequest r .ok (handleBytes r.handle ++ [((s.recordOf n).driven t).st.toByte, t.toByte] ++
            optHandleBytes ((s.recordOf n).partner.map s.handle))) ∧
        s.recordsBecome z (n :: (s.recordOf n).partner.toList) (fun _ x => x.driven t) ∧ s.fanStands z) ∧
    ((∃ m ∈ n :: (s.recordOf n).partner.toList, ¬(s.recordOf m).serving ∨ (s.recordOf m).target ≠ some t.other) →
      exec c s = .next (s.handleRefused r p .stateConflict)) := by
  have hk := kind_of_takeRequest ht.takes.head
  refine ⟨fun hdrive hroom => ?_, fun ⟨m, hmem, hnot⟩ => exec_refused hm ht fun hk e he d => ?_⟩
  · have hreads := driveRequest_reads (s := { s with port := p }) (r := r) hp hdrive
    obtain ⟨z, hx, hclaim, hrecs, hfan, _⟩ := exec_of_reads (v := s.ver) (w := s.mgr.wait) (.request c kind 4 r p hc ht.takes)
      (by rw [effect, heff hk _ _ rfl]; exact hreads) (fits_of_room ((congrArg (s.sw.list.length + ·) (length_driveEntries s _ _)).trans_le hroom))
    exact ⟨z, hx, hclaim, hrecs, hfan⟩
  · rw [heff hk d e he, Eff.driveRequest, if_neg]
    intro hmay
    have hmgr : e.mayDrive n t = (Eff.start s).mayDrive n t := by
      simp only [Eff.mayDrive, Eff.members, Eff.recOf, he, start_mgr]
    obtain ⟨hs, htarget⟩ := (mayDrive_start s n t).1 (hmgr ▸ hmay) m hmem
    exact hnot.elim (· hs) (· htarget)

/-- Settles O43: HOLD and RESUME are one drive change, of each record of the circuit in turn. -/
theorem holdAndResumeSetTheDriveTarget : Obligations.HoldAndResumeSetTheDriveTarget := by
  intro c kind new old hc s r p n ht hn hp
  simp only [List.mem_cons, List.not_mem_nil, or_false, Prod.mk.injEq] at hc
  rcases hc with ⟨rfl, rfl, rfl, rfl⟩ | ⟨rfl, rfl, rfl, rfl⟩
  · exact drive_claim (t := .hold) (by simp [handleRequests]) (by simp [requestKinds]) ht
      (fun hk d e he => (effRequest_hold d r e hk).trans (checked_handle ht.whole rfl hn he)) hp
  · exact drive_claim (t := .source) (by simp [handleRequests]) (by simp [requestKinds]) ht
      (fun hk d e he => (effRequest_resume d r e hk).trans (checked_handle ht.whole rfl hn he)) hp

end Sys2Proof.Machine

/-! SUPPORT. Changes of the fan-out lists (01 R18) within a claim, and the next state of a claim that makes them. MOVE_SOURCE (03 R63, R64). -/

namespace Sys2Proof.Machine

set_option Elab.async false

/-! ### Fan-out lists (01 R18) -/

/-- A record joins the list of its source, and no other (01 R18). -/
theorem fanOf_joinFan (e : Eff) (src : Source) (n : Nat) (k : Slot) :
    (e.joinFan (some src) n).mgr.fanOf k = e.mgr.fanOf k ++ if src = .inbound k then [n] else [] := by
  cases src with
  | gen g => simp [Eff.joinFan]
  | inbound j =>
    show Tbl.get [] (Tbl.upd [] e.mgr.fan j.key (· ++ [n])) k.key = _
    rw [Tbl.get_upd]
    by_cases hk : k.key = j.key
    · obtain rfl := slot_key_inj hk
      simp [Manager.fanOf]
    · have hne : j ≠ k := fun hjk => hk (by rw [hjk])
      rw [if_neg hk, if_neg (by simpa using hne), List.append_nil]
      rfl

/-- The manager's question about room on a list is the statements' (01 R18). -/
theorem fanRoom_iff (s : State) (src : Source) (more : Nat) : (Eff.start s).fanRoom src more = true ↔ s.fanRoom src more := by
  unfold State.fanRoom
  cases src with
  | gen g => simp [Eff.fanRoom]
  | inbound j =>
    simp only [Eff.fanRoom, decide_eq_true_eq, Source.inbound.injEq, forall_eq']
    rfl

theorem faultOf_eq (s : State) (src : Source) : s.mgr.faultOf src = s.sourceFault src := by
  cases src with
  | gen g => rfl
  | inbound k => simp [Manager.faultOf, State.sourceFault, viewUp]

/-- The state with other fan-out lists. -/
def State.withFan (s : State) (fan : Tbl (List Nat)) : State := { s with mgr := { s.mgr with fan := fan } }

@[simp] theorem withFan_recordOf (s : State) (fan : Tbl (List Nat)) (n : Nat) : (s.withFan fan).recordOf n = s.recordOf n := rfl
@[simp] theorem withFan_handle (s : State) (fan : Tbl (List Nat)) (n : Nat) : (s.withFan fan).handle n = s.handle n := rfl
@[simp] theorem withFan_kept (s : State) (fan : Tbl (List Nat)) (own : List Nat) (k : Slot) : (s.withFan fan).kept own k = s.kept own k := rfl
@[simp] theorem withFan_legEntry (s : State) (fan : Tbl (List Nat)) : (s.withFan fan).legEntry = s.legEntry := rfl
@[simp] theorem withFan_breakEntry (s : State) (fan : Tbl (List Nat)) : (s.withFan fan).breakEntry = s.breakEntry := rfl
@[simp] theorem withFan_changeEntries (s : State) (fan : Tbl (List Nat)) : (s.withFan fan).changeEntries = s.changeEntries := rfl

namespace Eff.Reads

variable {s : State} {e : Eff} {recs : Nat → Rec} {offer : List Entry} {raise : Raise} {port : Port} (h : e.Reads s recs offer raise port)
include h

theorem withFan (fan : Tbl (List Nat)) : ({ e with mgr := { e.mgr with fan := fan } } : Eff).Reads (s.withFan fan) recs offer raise port :=
  { h with mgr := by rw [h.mgr]; rfl }

theorem joinFan (src : Option Source) (n : Nat) : (e.joinFan src n).Reads (s.withFan (e.joinFan src n).mgr.fan) recs offer raise port := by
  have hf : e.joinFan src n = { e with mgr := { e.mgr with fan := (e.joinFan src n).mgr.fan } } := by
    unfold Eff.joinFan
    split <;> rfl
  rw [hf]
  exact h.withFan _

theorem leaveFan (src : Option Source) (n : Nat) : (e.leaveFan src n).Reads (s.withFan (e.leaveFan src n).mgr.fan) recs offer raise port := by
  have hf : e.leaveFan src n = { e with mgr := { e.mgr with fan := (e.leaveFan src n).mgr.fan } } := by
    unfold Eff.leaveFan
    split <;> rfl
  rw [hf]
  exact h.withFan _

theorem fanOf (k : Slot) : e.mgr.fanOf k = s.mgr.fanOf k := by
  rw [h.mgr]
  rfl

/-- No view of a lane has changed. -/
theorem faultOf (src : Source) : e.mgr.faultOf src = s.sourceFault src := by
  rw [← faultOf_eq, h.mgr]
  rfl

end Eff.Reads

/-- The next state of a claim that changes fan-out lists, with the wait list and the verifier as it leaves them. -/
theorem exec_of_fan_reads {s s' : State} {c : Instr} {k : Claim} (hh : s.Hands c k s') {v : Verifier} {w : List Handle} {fan : Tbl (List Nat)}
    {recs : Nat → Rec} {offer : List Entry} {raise : Raise} {port : Port}
    (h : (effect s'.port.defaults k (Eff.start s')).Reads (({ s' with ver := v, mgr := { s'.mgr with wait := w } } : State).withFan fan) recs offer
      raise port) (hfit : fits s'.sw.list offer = true) :
    ∃ t, exec c s = .next t ∧ ({ s' with ver := v, mgr := { s'.mgr with wait := w } } : State).circuitClaim t offer raise port ∧
      (∀ m, t.recordOf m = recs m) ∧ (∀ j, t.mgr.fanOf j = Tbl.get [] fan j.key) ∧ t.ver = v := by
  generalize he : effect s'.port.defaults k (Eff.start s') = e at h
  have hc : ({ s' with ver := v, mgr := { s'.mgr with wait := w } } : State).circuitClaim (e.commit e.offer e.order s') e.offer e.raise e.port :=
    commit_circuitClaim (by rw [h.mgr]; rfl) h.ver h.wat h.order
  rw [h.offer, h.raise, h.port] at hc
  refine ⟨_, exec_of_fits hh he (by rw [h.offer]; exact hfit), by rw [h.offer]; exact hc, h.recs, fun j => ?_, h.ver⟩
  show e.mgr.fanOf j = _
  rw [h.mgr]
  rfl

/-! ### MOVE_SOURCE (03 R63, R64) -/

/-- The check of the state passes (03 R47). -/
theorem onServing_serving {s : State} {e : Eff} {r : Request} {n : Nat} {f : Eff} (hs : (s.recordOf n).serving) (he : e.mgr = s.mgr) :
    e.onServing r n f = f := if_pos (by rw [Eff.recOf, he]; exact hs)

/-- The check of the state fails (03 R47). -/
theorem onServing_refuses {s : State} {e : Eff} {r : Request} {n : Nat} {f : Eff} (hs : ¬(s.recordOf n).serving) (he : e.mgr = s.mgr) :
    e.onServing r n f = e.refuse r .stateConflict none := if_neg (by rw [Eff.recOf, he]; exact hs)

/-- The raise of a change of the source fault (03 R64). -/
theorem raiseOpt_reads {s : State} {e : Eff} {recs : Nat → Rec} {offer : List Entry} {raise : Raise} {port : Port} (h : e.Reads s recs offer raise port)
    (n : Nat) (old new : Bool) : (e.raiseOpt n (faultCause old new)).Reads s recs offer
      (raise ++ if old = new then [] else [(81 + n, if new then .sourceFault else .sourceOk)]) port := by
  by_cases hsame : old = new
  · have hnone : faultCause old new = none := by
      subst hsame
      cases old <;> rfl
    rw [hnone, if_pos hsame, List.append_nil]
    exact h
  · rw [if_neg hsame]
    cases new with
    | true =>
      obtain rfl : old = false := by simpa using hsame
      exact h.raiseOn n .sourceFault
    | false =>
      obtain rfl : old = true := by simpa using hsame
      exact h.raiseOn n .sourceOk

section MoveSource
variable {s : State} {r : Request} {p : Port} {n : Nat} {src : Source}

/-- The fan-out lists after a move of record n (03 R63). -/
def State.movedFan (s : State) (n : Nat) (src : Source) : Tbl (List Nat) :=
  (((Eff.start s).leaveFan (s.recordOf n).source n).joinFan (some src) n).mgr.fan

theorem movedFan_get (s : State) (n : Nat) (src : Source) (k : Slot) : Tbl.get [] (s.movedFan n src) k.key =
    (if (s.recordOf n).source = some (.inbound k) then (s.mgr.fanOf k).filter (fun m => decide (m ≠ n)) else s.mgr.fanOf k) ++
      if src = .inbound k then [n] else [] := by
  have h := fanOf_joinFan ((Eff.start s).leaveFan (s.recordOf n).source n) src n k
  rw [fanOf_leaveFan] at h
  refine h.trans (congrArg (· ++ _) ?_)
  split
  · next hs => simp [hs]
  · next hs => simp [hs]

/-- The effect of a move to another source (03 R63, R64). -/
theorem moveTo_reads (s : State) (n : Nat) (src : Source) :
    ((Eff.start s).moveTo n src).Reads (s.withFan (s.movedFan n src)) (changeOn [n] (fun x => { x with source := some src, fault := s.sourceFault src }) s.recordOf)
      (s.changeEntries n { s.recordOf n with source := some src, fault := s.sourceFault src } (s.recordOf n).targetDrive none)
      (if (s.recordOf n).fault = s.sourceFault src then [] else [(81 + n, if s.sourceFault src then .sourceFault else .sourceOk)]) s.port := by
  have hfan := ((Eff.Reads.start s).leaveFan (s.recordOf n).source n).joinFan (some src) n
  have hfault := hfan.faultOf src
  have hmoved := hfan.upd n fun x => { x with source := some src, fault := s.sourceFault src }
  have hraised := raiseOpt_reads (hmoved.offerLegs n (s.recordOf n).targetDrive none) n (s.recordOf n).fault (s.sourceFault src)
  rw [changeOn_self] at hraised
  unfold Eff.moveTo
  simp only [start_recOf, drive_eq_targetDrive]
  rw [show s.mgr.recOf n = s.recordOf n from rfl, hfault]
  exact hraised

theorem effMoveSource_eq {d : Defaults} {e : Eff} (hk : byteAt r.msg 0 = 0x05) (ht : s.TakesWhole 0x05 6 r p) (hsrc : parseSource r.msg 8 = some src)
    (hn : s.Names r n false) (he : e.mgr = s.mgr) : effRequest d r e = e.moveSource r src n :=
  (effRequest_moveSource d r e hk).trans (checked_handle ht.whole hsrc hn he)

end MoveSource

/-- A request refused with a slot named. -/
theorem exec_refused_slot {c : Instr} {kind : Byte} {len len' : Nat} {test : Bool} {s : State} {r : Request} {p : Port} {st : Status} {k : Slot}
    (hm : (c, kind, len, test) ∈ handleRequests) (ht : s.TakesWhole kind len' r p)
    (he : byteAt r.msg 0 = kind → ∀ e : Eff, e.mgr = s.mgr → ∀ d, effRequest d r e = e.refuse r st (some k)) :
    exec c s = .next { s with
      port := p.answerRequest r st ([byteAt r.msg 4, byteAt r.msg 5, byteAt r.msg 6, byteAt r.msg 7] ++ slotBytes k) } := by
  obtain ⟨hx, h1, h2, h3⟩ := exec_handleRequest hm s
  have hk := kind_of_takeRequest ht.takes.head
  have hf : circuitFields r.msg = [byteAt r.msg 4, byteAt r.msg 5, byteAt r.msg 6, byteAt r.msg 7] :=
    circuitFields_handle (by rw [hk]; exact h1) (by rw [hk]; exact h2) (by rw [hk]; exact h3)
  rw [hx, managerRequest_refused ht.takes (he hk), hf]
  rfl

/-- A change of the manager's tables asks the same of a list's room. -/
theorem fanRoom_of_mgr {s : State} {e : Eff} (he : e.mgr = s.mgr) (src : Source) (more : Nat) :
    e.fanRoom src more = (Eff.start s).fanRoom src more := by
  unfold Eff.fanRoom
  rw [he]
  rfl

theorem length_changeEntries (s : State) (n : Nat) (x : Rec) (d : Drive) (u : Option (Fin 4)) : (s.changeEntries n x d u).length = x.carrying.length := by
  simp only [State.changeEntries, Rec.carrying, List.length_map]

/-- Settles O42: the record leaves one list and joins the other, and the checks before that are read off in their order. -/
theorem moveSourceChangesTheSource : Obligations.MoveSourceChangesTheSource := by
  have hmem : (Instr.moveSource, (0x05 : Byte), 6, false) ∈ handleRequests := by simp [handleRequests]
  refine ⟨fun s r p n src ht hsrc hn hs => ⟨fun hsame => ?_, fun hother hfan hroom => ?_, fun hother k hk hfull => ?_⟩,
    fun s r p n src ht hsrc hn hs => exec_refused hmem ht fun hk e he d => ?_⟩
  · have hk := kind_of_takeRequest ht.takes.head
    have heff (d : Defaults) : effect d (.request r) (Eff.start { s with port := p }) = _ :=
      (effMoveSource_eq hk ht hsrc hn rfl).trans ((onServing_serving hs rfl).trans (if_pos hsame))
    refine congrArg Host.Outcome.next ((managerRequest_takes ht.takes).trans ?_)
    exact takeClaim_answers (heff _)
  · have hk := kind_of_takeRequest ht.takes.head
    have heff (d : Defaults) : effect d (.request r) (Eff.start { s with port := p }) = _ :=
      (effMoveSource_eq hk ht hsrc hn rfl).trans ((onServing_serving hs rfl).trans ((if_neg hother).trans
        (if_neg (by rw [(fanRoom_iff { s with port := p } src 1).2 hfan]; exact Bool.false_ne_true))))
    have hreads := (moveTo_reads { s with port := p } n src).answer r.slot r.sub .ok (handleBytes r.handle ++ sourceBytes (some src))
    have hfits : fits s.sw.list (s.changeEntries n { s.recordOf n with source := some src, fault := s.sourceFault src }
        (s.recordOf n).targetDrive none) = true := fits_of_room (by rw [length_changeEntries]; exact hroom)
    obtain ⟨t, hx, hclaim, hrecs, hlists, _⟩ := exec_of_fan_reads (v := s.ver) (w := s.mgr.wait)
      (.request .moveSource 0x05 6 r p (by simp [requestKinds]) ht.takes) (by rw [heff]; exact hreads) hfits
    exact ⟨t, hx, hclaim, recordBecomes_of_changeOn hrecs, fun k => (hlists k).trans (movedFan_get _ n src k)⟩
  · refine exec_refused_slot hmem ht fun hk' e he d => ?_
    have hnot : e.fanRoom src 1 = false := by
      rw [fanRoom_of_mgr he]
      exact Bool.eq_false_iff.2 fun h => Nat.not_le.2 (Nat.lt_succ_of_le hfull) ((fanRoom_iff s src 1).1 h k hk)
    refine (effMoveSource_eq hk' ht hsrc hn he).trans ((onServing_serving hs he).trans ((if_neg ?_).trans ((if_pos ?_).trans ?_)))
    · rw [Eff.recOf, he]
      exact hother
    · rw [hnot]
      rfl
    · rw [hk]
      rfl
  · exact (effMoveSource_eq hk ht hsrc hn he).trans (onServing_refuses hs he)

end Sys2Proof.Machine

/-! SUPPORT. ADD_LEG and DROP_LEG (03 R60-R62): their checks in order, a leg added on a slot that no one holds, a leg dropped. -/

namespace Sys2Proof.Machine

set_option Elab.async false

/-! ### ADD_LEG (03 R60) -/

/-- A slot is given to a leg of record n exactly when n has no leg there and may take it (03 R45; log 13). -/
theorem available_self_iff (s : State) (cls : CircClass) (n : Nat) (k : Slot) :
    s.mgr.available cls (some n) k = true ↔ (∀ l ∈ (s.recordOf n).legs, l.slot ≠ k) ∧ s.mayTake cls k := by
  have hsplit : s.mgr.available cls (some n) k = (((s.mgr.recOf n).legs.all fun l => decide (l.slot ≠ k)) && s.mgr.available cls none k) := by
    simp only [Manager.available, Bool.true_and]
  rw [hsplit, Bool.and_eq_true, available_iff]
  refine and_congr_left' ?_
  simp only [List.all_eq_true, decide_eq_true_eq]
  rfl

section AddLeg
variable {s : State} {r : Request} {p : Port} {n : Nat} {k : Slot} {d : Defaults} {e : Eff}

theorem effAddLeg_eq (hk : byteAt r.msg 0 = 0x03) (ht : s.TakesWhole 0x03 6 r p) (hslot : parseSlot r.msg 8 = some k)
    (hn : s.Names r n false) (he : e.mgr = s.mgr) : effRequest d r e = e.addLeg r k n :=
  (effRequest_addLeg d r e hk).trans (checked_handle ht.whole hslot hn he)

/-- An ADD_LEG on a full leg list (03 R60). -/
theorem addLeg_full (he : e.mgr = s.mgr) (hs : (s.recordOf n).serving) (hfull : 4 ≤ (s.recordOf n).legs.length) :
    e.addLeg r k n = e.refuse r .legLimit none :=
  (onServing_serving hs he).trans (if_pos (by rw [Eff.recOf, he]; exact hfull))

/-- An ADD_LEG on a slot that the record may not take, or on which it has a leg (03 R45, R60; log 13). -/
theorem addLeg_busy (he : e.mgr = s.mgr) (hs : (s.recordOf n).serving) (hlen : (s.recordOf n).legs.length < 4)
    (hbusy : (∃ l ∈ (s.recordOf n).legs, l.slot = k) ∨ ¬s.mayTake (s.recordOf n).cls k) : e.addLeg r k n = e.refuse r .slotBusy (some k) := by
  have havail : s.mgr.available (s.recordOf n).cls (some n) k = false :=
    Bool.eq_false_iff.2 fun h => by
      obtain ⟨hlegs, htake⟩ := (available_self_iff s _ n k).1 h
      exact hbusy.elim (fun ⟨l, hl, hlk⟩ => hlegs l hl hlk) (· htake)
  refine (onServing_serving hs he).trans ((if_neg ?_).trans (if_pos ?_))
  · rw [Eff.recOf, he]
    exact Nat.not_le.2 hlen
  · rw [Eff.recOf, he]
    exact congrArg (!·) havail

end AddLeg

/-! ### DROP_LEG (03 R61, R62) -/

section DropLeg
variable {s : State} {r : Request} {p : Port} {n : Nat} {k : Slot} {d : Defaults} {e : Eff} {l : Leg}

theorem effDropLeg_eq (hk : byteAt r.msg 0 = 0x04) (ht : s.TakesWhole 0x04 6 r p) (hslot : parseSlot r.msg 8 = some k)
    (hn : s.Names r n false) (he : e.mgr = s.mgr) : effRequest d r e = e.dropLeg r k n :=
  (effRequest_dropLeg d r e hk).trans (checked_handle ht.whole hslot hn he)

/-- A record has legs in MAKING, LIVE or DISPLACED elsewhere (03 R61). -/
theorem any_others (x : Rec) (k : Slot) : (x.legs.any fun o => decide (o.slot ≠ k) && o.kept) = true ↔ ∃ o ∈ x.legs, o.slot ≠ k ∧ o.st ≠ .breaking := by
  simp [Leg.kept]

/-- The one leg on a slot is the leg found there. -/
theorem legOn_of_filter {x : Rec} (h : x.legs.filter (fun o => decide (o.slot = k)) = [l]) : x.legOn k = some l := by
  rw [Rec.legOn, ← List.head?_filter, h]
  rfl

theorem mem_of_filter {x : Rec} (h : x.legs.filter (fun o => decide (o.slot = k)) = [l]) : l ∈ x.legs ∧ l.slot = k := by
  have hmem : l ∈ x.legs.filter fun o => decide (o.slot = k) := by rw [h]; exact List.mem_cons_self
  simpa using hmem

/-- With one leg on a slot, the legs elsewhere are one fewer. -/
theorem length_elsewhere {x : Rec} (h : x.legs.filter (fun o => decide (o.slot = k)) = [l]) :
    (x.legs.filter fun o => decide (o.slot ≠ k)).length = x.legs.length - 1 := by
  have hsum := List.length_eq_length_filter_add (l := x.legs) fun o => decide (o.slot = k)
  rw [h, List.length_singleton] at hsum
  have hnot : (x.legs.filter fun o => !decide (o.slot = k)) = x.legs.filter fun o => decide (o.slot ≠ k) :=
    List.filter_congr fun o _ => by simp
  rw [hnot] at hsum
  omega

/-- A DROP_LEG of a BREAKING leg, of the last leg or of none (03 R61). -/
theorem dropLeg_refuses (he : e.mgr = s.mgr) (hs : (s.recordOf n).serving)
    (hno : (∀ l, (s.recordOf n).legOn k = some l → l.st = .breaking) ∨ ¬∃ o ∈ (s.recordOf n).legs, o.slot ≠ k ∧ o.st ≠ .breaking) :
    e.dropLeg r k n = e.refuse r .stateConflict none := by
  refine (onServing_serving hs he).trans ?_
  rw [show e.recOf n = s.recordOf n by rw [Eff.recOf, he]; rfl]
  cases hl : (s.recordOf n).legOn k with
  | none => rfl
  | some l =>
    refine if_pos (hno.imp (fun h => h l hl) fun h => ?_)
    rw [Bool.not_eq_true', Bool.eq_false_iff]
    exact fun hany => h ((any_others _ k).1 hany)

/-- The answer to a DROP_LEG: the legs left (03 R61). -/
def Eff.dropAnswer (e : Eff) (r : Request) (n : Nat) : Eff := e.ok r (handleBytes r.handle ++ [BitVec.ofNat 8 (e.recOf n).legs.length])

/-- A DROP_LEG that passes its checks (03 R61, R62). -/
theorem dropLeg_accepts (he : e.mgr = s.mgr) (hs : (s.recordOf n).serving) (hl : (s.recordOf n).legOn k = some l) (hst : l.st ≠ .breaking)
    (hothers : ∃ o ∈ (s.recordOf n).legs, o.slot ≠ k ∧ o.st ≠ .breaking) :
    e.dropLeg r k n = if l.st = .displaced then (e.dropDisplaced n k l.link).dropAnswer r n
      else (e.breakLegs n fun o => decide (o.slot = k)).dropAnswer r n := by
  refine (onServing_serving hs he).trans ?_
  rw [show e.recOf n = s.recordOf n by rw [Eff.recOf, he]; rfl, hl]
  refine if_neg fun h => h.elim hst fun hnot => ?_
  rw [(any_others _ k).2 hothers] at hnot
  cases hnot

/-- The answer reads the record as the claim leaves it. -/
theorem dropAnswer_reads {recs : Nat → Rec} {offer : List Entry} {raise : Raise} {port : Port} (h : e.Reads s recs offer raise port) {len : Nat}
    (hlen : (recs n).legs.length = len) : (e.dropAnswer r n).Reads s recs offer raise
      (port.answerRequest r .ok (handleBytes r.handle ++ [BitVec.ofNat 8 len])) := by
  rw [Eff.dropAnswer, h.recs, hlen]
  exact h.answer _ _ _ _

/-- A leg in MAKING or LIVE dropped (03 R61). -/
theorem dropCarrying_reads (hleg : (s.recordOf n).legs.filter (fun o => decide (o.slot = k)) = [l]) :
    (((Eff.start s).breakLegs n fun o => decide (o.slot = k)).dropAnswer r n).Reads s
      (changeOn [n] (·.breaking fun o => decide (o.slot = k)) s.recordOf) [s.breakEntry n k] []
      (s.port.answerRequest r .ok (handleBytes r.handle ++ [BitVec.ofNat 8 (s.recordOf n).legs.length])) := by
  refine dropAnswer_reads (((Eff.Reads.start s).breakLegs n _).of_offer ?_) ?_
  · rw [hleg]
    exact congrArg (fun j => [s.breakEntry n j]) (mem_of_filter hleg).2
  · rw [changeOn_self]
    exact List.length_map _

/-- A DISPLACED leg dropped: its displacer loses its link (03 R62). -/
theorem dropDisplaced_reads {o : Nat} (hleg : (s.recordOf n).legs.filter (fun o => decide (o.slot = k)) = [l]) (hne : o ≠ n) :
    (((Eff.start s).dropDisplaced n k (some o)).dropAnswer r n).Reads s
      (fun m => if m ∈ [n, o] then
          if m = n then { s.recordOf n with legs := (s.recordOf n).legs.filter fun o => decide (o.slot ≠ k) } else { s.recordOf m with displ := none }
        else s.recordOf m) [] []
      (s.port.answerRequest r .ok (handleBytes r.handle ++ [BitVec.ofNat 8 ((s.recordOf n).legs.length - 1)])) := by
  have hunlinked := (Eff.Reads.start s).upd o fun x => { x with displ := none }
  have hdropped := hunlinked.upd n fun x => { x with legs := x.legs.filter fun o => decide (o.slot ≠ k) }
  refine dropAnswer_reads (hdropped.of_recs fun m => ?_) ?_
  · rw [changeOn_single]
    by_cases hm : m = n
    · rw [if_pos hm, if_pos (by simp [hm]), if_pos hm, hm, changeOn_single, if_neg hne.symm]
    · rw [if_neg hm, changeOn_single]
      by_cases hmo : m = o
      · rw [if_pos hmo, if_pos (by simp [hmo]), if_neg hm]
      · rw [if_neg hmo, if_neg (by simp [hm, hmo])]
  · rw [if_pos (by simp), if_pos rfl]
    exact length_elsewhere hleg

end DropLeg

/-! ### The statement -/

/-- Settles O41: each request's checks are read off in their order; a leg added and a leg dropped change one record, or two with a displacer. -/
theorem addLegAndDropLeg : Obligations.AddLegAndDropLeg := by
  have hadd : (Instr.addLeg, (0x03 : Byte), 6, false) ∈ handleRequests := by simp [handleRequests]
  have hdrop : (Instr.dropLeg, (0x04 : Byte), 6, false) ∈ handleRequests := by simp [handleRequests]
  refine ⟨fun s r p n k ht hslot hn hs => ⟨fun hlen hlegs hfree hroom => ?_, fun hlen hbusy => ?_, fun hfull => ?_⟩,
    fun s r p n k ht hslot hn hs => ⟨fun l hleg hothers => ⟨fun hcarries hroom => ?_, fun o hst hlink hne => ?_, fun hst => ?_⟩, fun hlast => ?_,
      fun hnone => ?_⟩, fun c kind hc s r p n k ht hslot hn hs => ?_⟩
  · have hread := addLeg_reads (s := { s with port := p }) (r := r) (k := k) p.defaults (kind_of_takeRequest ht.takes.head) ht.whole hslot
      ⟨hn.num, hn.range, hn.notTest⟩ hs hlen hlegs hfree
    obtain ⟨t, hx, hclaim, hrecs, hfan, _⟩ := exec_of_reads (v := s.ver) (w := s.mgr.wait)
      (.request .addLeg 0x03 6 r p (by simp [requestKinds]) ht.takes) hread (fits_of_room hroom)
    exact ⟨t, hx, hclaim, recordBecomes_of_changeOn hrecs, hfan⟩
  · exact exec_refused_slot hadd ht fun hk e he d => (effAddLeg_eq hk ht hslot hn he).trans (addLeg_busy he hs hlen hbusy)
  · exact exec_refused hadd ht fun hk e he d => (effAddLeg_eq hk ht hslot hn he).trans (addLeg_full he hs hfull)
  · obtain ⟨hbreaking, hdisplaced⟩ : l.st ≠ .breaking ∧ l.st ≠ .displaced := by
      rcases (carries_iff l).1 hcarries with h | h <;> simp [h]
    have heff (d : Defaults) : effect d (.request r) (Eff.start { s with port := p }) = _ :=
      (effDropLeg_eq (kind_of_takeRequest ht.takes.head) ht hslot hn rfl).trans
        ((dropLeg_accepts rfl hs (legOn_of_filter hleg) hbreaking hothers).trans (if_neg hdisplaced))
    have hread := dropCarrying_reads (s := { s with port := p }) (r := r) hleg
    obtain ⟨t, hx, hclaim, hrecs, hfan, _⟩ := exec_of_reads (v := s.ver) (w := s.mgr.wait)
      (.request .dropLeg 0x04 6 r p (by simp [requestKinds]) ht.takes) (by rw [heff]; exact hread) (fits_of_room (offer := [s.breakEntry n k]) hroom)
    exact ⟨t, hx, hclaim, recordBecomes_of_changeOn hrecs, hfan⟩
  · have heff (d : Defaults) : effect d (.request r) (Eff.start { s with port := p }) = _ :=
      (effDropLeg_eq (kind_of_takeRequest ht.takes.head) ht hslot hn rfl).trans
        ((dropLeg_accepts rfl hs (legOn_of_filter hleg) (by rw [hst]; decide) hothers).trans (if_pos hst))
    have hread := dropDisplaced_reads (s := { s with port := p }) (r := r) hleg hne
    obtain ⟨t, hx, hclaim, hrecs, hfan, _⟩ := exec_of_reads (v := s.ver) (w := s.mgr.wait)
      (.request .dropLeg 0x04 6 r p (by simp [requestKinds]) ht.takes) (by rw [heff, hlink]; exact hread) (fits_nil _)
    exact ⟨t, hx, hclaim, hrecs, hfan⟩
  · exact exec_refused hdrop ht fun hk e he d => (effDropLeg_eq hk ht hslot hn he).trans
      (dropLeg_refuses he hs (.inl fun l' hl' => by rw [legOn_of_filter hleg] at hl'; cases hl'; exact hst))
  · exact exec_refused hdrop ht fun hk e he d => (effDropLeg_eq hk ht hslot hn he).trans (dropLeg_refuses he hs (.inr hlast))
  · exact exec_refused hdrop ht fun hk e he d => (effDropLeg_eq hk ht hslot hn he).trans
      (dropLeg_refuses he hs (.inl fun l hl => by
        have hfound := List.find?_some hl
        exact absurd (by simpa using hfound) (hnone l (List.mem_of_find?_eq_some hl))))
  · simp only [List.mem_cons, List.not_mem_nil, or_false, Prod.mk.injEq] at hc
    rcases hc with ⟨rfl, rfl⟩ | ⟨rfl, rfl⟩
    · exact exec_refused hadd ht fun hk e he d => (effAddLeg_eq hk ht hslot hn he).trans (onServing_refuses hs he)
    · exact exec_refused hdrop ht fun hk e he d => (effDropLeg_eq hk ht hslot hn he).trans (onServing_refuses hs he)

end Sys2Proof.Machine

/-! SUPPORT. The fields of OPEN and OPEN_PAIR, read exactly when each stands in its place and in its range (03 R48, R52, 10.8). -/

namespace Sys2Proof.Machine

set_option Elab.async false

/-! ### The fields that OPEN and OPEN_PAIR share -/

theorem parseClass_iff (b : Byte) (c : CircClass) : parseClass b = some c ↔ b = 0 ∧ c = .normal ∨ b = 1 ∧ c = .priority := by
  unfold parseClass
  split
  · next h0 => simp [h0, eq_comm]
  · next h0 =>
    split
    · next h1 => simp [h1, eq_comm]
    · next h1 => simp only [reduceCtorEq, h0, h1, false_and, or_self]

/-- The clear-down of an opening request in range: absent, or at most 200 (03 R48). -/
theorem given_clear_iff (options b : Byte) :
    ¬200 < ((given options 5 b).getD 0).toNat ↔ ∀ n, (given options 5 b).map BitVec.toNat = some n → n ≤ 200 := by
  cases given options 5 b with
  | none => simp
  | some x => simp

theorem parseCommon_iff (m : List Byte) (cls bytes lease : Nat) (c : CommonFields) :
    parseCommon m cls bytes lease = some c ↔ readsCommon m cls bytes lease c := by
  obtain ⟨ccls, pre, cond, holdB, rel, clear, lease'⟩ := c
  have hclear := given_clear_iff (byteAt m (cls + 1)) (byteAt m (bytes + 3))
  have hclass := parseClass_iff (byteAt m cls)
  unfold parseCommon readsCommon
  simp only
  cases hc : parseClass (byteAt m cls) with
  | none =>
    simp only [reduceCtorEq, false_iff]
    rintro ⟨_, _, hcls, _⟩
    have hsome : parseClass (byteAt m cls) = some ccls := (hclass ccls).2 (hcls.imp_right fun ⟨hb, hp, _⟩ => ⟨hb, hp⟩)
    rw [hc] at hsome
    cases hsome
  | some c =>
    have hread := (hclass c).1 hc
    simp only
    split
    · next hbad =>
      simp only [reduceCtorEq, false_iff]
      rintro ⟨hopt, hpre, hcls, _, _, _, hclr, hrange, _⟩
      rcases hbad with hbad | ⟨hprio, hbit⟩ | hbad
      · omega
      · rcases hcls with ⟨hb, _⟩ | ⟨_, _, hoff⟩
        · rcases hread with ⟨_, rfl⟩ | ⟨hb1, _⟩
          · cases hprio
          · rw [hb] at hb1
            exact absurd hb1 (by decide)
        · rw [hpre, hbit] at hoff
          cases hoff
      · exact (hclear.2 fun n hn => hrange n (hclr.trans hn)) hbad
    · next hok =>
      obtain ⟨hopt, hprio, hclr⟩ : (byteAt m (cls + 1)).toNat < 64 ∧ (c = .priority → (byteAt m (cls + 1)).getLsbD 0 = false) ∧
          ¬200 < ((given (byteAt m (cls + 1)) 5 (byteAt m (bytes + 3))).getD 0).toNat := by
        refine ⟨Nat.lt_of_not_le fun h => hok (.inl h), fun h => ?_, fun h => hok (.inr (.inr h))⟩
        exact Bool.eq_false_iff.2 fun hb => hok (.inr (.inl ⟨h, hb⟩))
      rw [Option.some.injEq, CommonFields.mk.injEq]
      constructor
      · rintro ⟨rfl, rfl, rfl, rfl, rfl, rfl, rfl⟩
        exact ⟨hopt, rfl, hread.imp_right fun ⟨hb, hp⟩ => ⟨hb, hp, hprio hp⟩, rfl, rfl, rfl, rfl, hclear.1 hclr, rfl⟩
      · rintro ⟨_, hpre, hcls, hcond, hhold, hrel, hclr', _, hlease⟩
        have hsame : some c = some ccls := hc.symm.trans ((hclass ccls).2 (hcls.imp_right fun ⟨hb, hp, _⟩ => ⟨hb, hp⟩))
        exact ⟨Option.some.inj hsame, hpre.symm, hcond.symm, hhold.symm, hrel.symm, hclr'.symm, hlease.symm⟩

/-! ### Legs and the verify parameter of an OPEN -/

theorem allSome_iff {α : Type} (l : List (Option α)) (xs : List α) : allSome l = some xs ↔ l = xs.map some := by
  induction l generalizing xs with
  | nil => cases xs <;> simp [allSome]
  | cons x l ih =>
    cases x with
    | none => cases xs <;> simp [allSome]
    | some x => cases xs <;> simp [allSome, ih, and_comm]

/-- A list read place by place. -/
theorem map_range_eq_iff {α : Type} (n : Nat) (f : Nat → Option α) (xs : List α) :
    (List.range n).map f = xs.map some ↔ n = xs.length ∧ ∀ i (h : i < xs.length), f i = some xs[i] := by
  rw [List.ext_getElem_iff]
  simp only [List.length_map, List.length_range, List.getElem_map, List.getElem_range]
  exact and_congr_right fun hn => ⟨fun h i hi => h i (hn ▸ hi) hi, fun h i _ hi => h i hi⟩

theorem parseLegs_iff (m : List Byte) (legs : List Slot) : parseLegs m = some legs ↔ readsLegs m legs := by
  have hread (xs : List Slot) : allSome ((List.range (byteAt m 10).toNat).map fun i => parseSlot m (11 + 2 * i)) = some xs ↔
      (byteAt m 10).toNat = xs.length ∧ ∀ i (h : i < xs.length), readsSlot m (11 + 2 * i) xs[i] := by
    rw [allSome_iff, map_range_eq_iff]
    simp only [parseSlot_iff]
  unfold parseLegs readsLegs
  simp only
  split
  · next hcount =>
    simp only [reduceCtorEq, false_iff]
    rintro ⟨hlen, h1, h4, _⟩
    omega
  · next hcount =>
    cases hall : allSome ((List.range (byteAt m 10).toNat).map fun i => parseSlot m (11 + 2 * i)) with
    | none =>
      simp only [reduceCtorEq, false_iff]
      rintro ⟨hlen, _, _, _, hslots⟩
      rw [(hread legs).2 ⟨hlen, hslots⟩] at hall
      cases hall
    | some xs =>
      obtain ⟨hlen, hslots⟩ := (hread xs).1 hall
      constructor
      · intro h
        by_cases hnodup : xs.Nodup
        · simp only [if_pos hnodup, Option.some.injEq] at h
          subst h
          exact ⟨hlen, by omega, by omega, hnodup, hslots⟩
        · simp only [if_neg hnodup, reduceCtorEq] at h
      · rintro ⟨hlen', _, _, hnodup, hslots'⟩
        obtain rfl : xs = legs := Option.some.inj (hall.symm.trans ((hread legs).2 ⟨hlen', hslots'⟩))
        exact if_pos hnodup

/-- A slot's bytes are never FFFFh. -/
theorem not_default_of_readsSlot {m : List Byte} {i : Nat} {k : Slot} (h : readsSlot m i k) : wordAt m i ≠ 0xFFFF := by
  obtain ⟨h1, _⟩ := h
  have hlane := k.lane.isLt
  have hts := (byteAt m (i + 1)).isLt
  unfold wordAt
  omega

theorem parseSlotOrDefault_iff (m : List Byte) (i : Nat) (x : Option Slot) : parseSlotOrDefault m i = some x ↔
    match x with
    | none => wordAt m i = 0xFFFF
    | some k => readsSlot m i k := by
  unfold parseSlotOrDefault
  split
  · next hdef =>
    cases x with
    | none => simp [hdef]
    | some k => simpa using fun h => not_default_of_readsSlot h hdef
  · next hdef =>
    cases x with
    | none => simp [hdef]
    | some k => simp [parseSlot_iff]

theorem parseTvfy_iff (m : List Byte) (i : Nat) (x : Option Nat) : parseTvfy m i = some x ↔
    match x with
    | none => wordAt m i = 0xFFFF
    | some n => wordAt m i = n ∧ 2 ≤ n ∧ n ≤ 500 := by
  unfold parseTvfy
  split
  · next hdef =>
    cases x with
    | none => simp [hdef]
    | some n =>
      simp only [Option.some.injEq, reduceCtorEq, false_iff]
      omega
  · next hdef =>
    split
    · next hrange =>
      cases x with
      | none => simp [hdef]
      | some n =>
        simp only [Option.some.injEq]
        omega
    · next hrange =>
      cases x with
      | none => simp [hdef]
      | some n =>
        simp only [reduceCtorEq, false_iff]
        omega

theorem parseVerify_iff (m : List Byte) (v : Option VerifyFields) : parseVerify m = some v ↔ readsVerify m v := by
  unfold parseVerify
  by_cases hbit : (byteAt m 7).getLsbD 1 = true
  · rw [if_pos hbit]
    cases v with
    | none =>
      simp only [readsVerify, hbit, Bool.true_eq_false, iff_false]
      split <;> simp
    | some v =>
      obtain ⟨ret, tvfy⟩ := v
      simp only [readsVerify, hbit, true_and]
      refine Iff.trans ?_ (and_congr (parseSlotOrDefault_iff m 25 ret) (parseTvfy_iff m 27 tvfy))
      cases parseSlotOrDefault m 25 <;> cases parseTvfy m 27 <;> simp
  · rw [if_neg hbit]
    cases v with
    | none => simp only [readsVerify, Bool.eq_false_iff.2 hbit]
    | some v => simp only [Option.some.injEq, reduceCtorEq, readsVerify, hbit, false_and]

/-! ### The messages -/

theorem parseOpen_iff (m : List Byte) (f : OpenFields) : parseOpen m = some f ↔ readsRecord m 4 f.record ∧ readsCommon m 6 19 23 f.common ∧
    readsSource m 8 f.source ∧ readsLegs m f.legs ∧ readsVerify m f.verify := by
  obtain ⟨rec, common, source, legs, verify⟩ := f
  rw [← parseRecord_iff, ← parseCommon_iff, ← parseSource_iff, ← parseLegs_iff, ← parseVerify_iff]
  unfold parseOpen
  cases parseRecord m 4 with
  | none => simp
  | some _ =>
    cases parseCommon m 6 19 23 with
    | none => simp
    | some _ =>
      cases parseSource m 8 with
      | none => simp
      | some _ =>
        cases parseLegs m with
        | none => simp
        | some _ =>
          cases parseVerify m with
          | none => simp
          | some _ => simp

theorem parsePair_iff (m : List Byte) (f : PairFields) : parsePair m = some f ↔ readsRecord m 4 f.x ∧ readsRecord m 6 f.y ∧ (f.x = f.y → f.x = none) ∧
    readsCommon m 8 18 22 f.common ∧ (byteAt m 9).getLsbD 1 = false ∧ readsSource m 10 f.aIn ∧ readsSlot m 12 f.aOut ∧
    readsSource m 14 f.bIn ∧ readsSlot m 16 f.bOut ∧ f.aOut ≠ f.bOut := by
  obtain ⟨x, y, common, aIn, aOut, bIn, bOut⟩ := f
  simp only [← parseRecord_iff, ← parseCommon_iff, ← parseSource_iff, ← parseSlot_iff]
  unfold parsePair
  cases parseRecord m 4 with
  | none => simp
  | some x' =>
    cases parseRecord m 6 with
    | none => simp
    | some y' =>
      cases parseCommon m 8 18 22 with
      | none => simp
      | some c' =>
        cases parseSource m 10 with
        | none => simp
        | some aIn' =>
          cases parseSlot m 12 with
          | none => simp
          | some aOut' =>
            cases parseSource m 14 with
            | none => simp
            | some bIn' =>
              cases parseSlot m 16 with
              | none => simp
              | some bOut' =>
                simp only
                split
                · next hbad =>
                  simp only [reduceCtorEq, false_iff, Option.some.injEq]
                  rintro ⟨rfl, rfl, hxy, rfl, hbit, rfl, rfl, rfl, rfl, hne⟩
                  rcases hbad with h | h | ⟨h1, h2⟩
                  · rw [h] at hbit; cases hbit
                  · exact hne h
                  · exact h2 (hxy h1)
                · next hok =>
                  simp only [Option.some.injEq, PairFields.mk.injEq]
                  constructor
                  · rintro ⟨rfl, rfl, rfl, rfl, rfl, rfl, rfl⟩
                    refine ⟨rfl, rfl, fun h => ?_, rfl, ?_, rfl, rfl, rfl, rfl, fun h => hok (.inr (.inl h))⟩
                    · exact Classical.not_not.1 fun hn => hok (.inr (.inr ⟨h, hn⟩))
                    · exact Bool.eq_false_iff.2 fun h => hok (.inl h)
                  · rintro ⟨rfl, rfl, _, rfl, _, rfl, rfl, rfl, rfl, _⟩
                    exact ⟨rfl, rfl, rfl, rfl, rfl, rfl, rfl⟩

end Sys2Proof.Machine

/-! SUPPORT. Preemption, computed (03 R46, R55-R58): the legs taken, the victims that fall, the partners released, and the slots of the offer. -/

namespace Sys2Proof.Machine

set_option Elab.async false

/-! ### The words of the statements, in parts -/

/-- Record m with the legs taken that a claim on the slots ks takes (03 R55). -/
def State.taken (s : State) (ks : List Slot) (m : Nat) : Rec :=
  { s.recordOf m with
    legs := (s.recordOf m).legs.map fun l => if s.takesLeg ks m l then { l with st := .breaking, yielded := true } else l }

/-- A victim that keeps no leg, BREAKING and out of service (03 R56). -/
def Rec.fallenOut (r : Rec) : Rec := { r.outOfService with st := .breaking }

/-- A released partner: BREAKING, out of service, and so is every leg that it still carries (03 R57). -/
def Rec.letGo (r : Rec) : Rec := { r.outOfService.breaking Leg.carries with st := .breaking }

/-- Record m with the victims of a claim preempted and no partner released yet (03 R55, R56). -/
def State.preempting (s : State) (ks : List Slot) (m : Nat) : Rec :=
  if m ∈ s.victimsOf ks ∧ s.falls ks m = true then (s.taken ks m).fallenOut else s.taken ks m

/-- The partner that the fall of record v releases in a claim on the slots ks (03 R57). -/
def State.releasedWith (s : State) (ks : List Slot) (v : Nat) : Option Nat :=
  if s.falls ks v then
    match (s.recordOf v).partner with
    | none => none
    | some q => if s.falls ks q && ks.any fun j => decide (s.mgr.holder j = some q) then none else some q
  else none

theorem releasedBy_eq (s : State) (ks : List Slot) (k : Slot) : s.releasedBy ks k = (s.mgr.holder k).bind (s.releasedWith ks) := by
  unfold State.releasedBy State.releasedWith
  cases s.mgr.holder k <;> rfl

theorem mem_victimsOf {s : State} {ks : List Slot} {v : Nat} : v ∈ s.victimsOf ks ↔ ∃ k ∈ ks, s.mgr.holder k = some v := by
  rw [State.victimsOf, mem_firstOf, List.mem_filterMap]

theorem mem_releasedOf {s : State} {ks : List Slot} {q : Nat} : q ∈ s.releasedOf ks ↔ ∃ k ∈ ks, s.releasedBy ks k = some q := by
  rw [State.releasedOf, mem_firstOf, List.mem_filterMap]

/-- A released partner is the partner of a victim that falls, and is no such victim itself (03 R57). -/
theorem releasedWith_some {s : State} {ks : List Slot} {v q : Nat} (h : s.releasedWith ks v = some q) :
    s.falls ks v = true ∧ (s.recordOf v).partner = some q ∧ ¬(q ∈ s.victimsOf ks ∧ s.falls ks q = true) := by
  unfold State.releasedWith at h
  split at h
  · next hv =>
    refine ⟨hv, ?_⟩
    cases hp : (s.recordOf v).partner with
    | none => rw [hp] at h; cases h
    | some q' =>
      rw [hp] at h
      simp only at h
      split at h
      · cases h
      · next hq =>
        cases h
        refine ⟨rfl, fun ⟨hvic, hfall⟩ => hq ?_⟩
        obtain ⟨k, hk, hh⟩ := mem_victimsOf.1 hvic
        rw [hfall, Bool.true_and, List.any_eq_true]
        exact ⟨k, hk, decide_eq_true hh⟩
  · cases h

/-- A victim that falls releases its partner, unless that falls as a victim itself (03 R57). -/
theorem releasedWith_of_falls {s : State} {ks : List Slot} {v q : Nat} (hv : s.falls ks v = true) (hp : (s.recordOf v).partner = some q)
    (hq : ¬(q ∈ s.victimsOf ks ∧ s.falls ks q = true)) : s.releasedWith ks v = some q := by
  have hnot : (s.falls ks q && ks.any fun j => decide (s.mgr.holder j = some q)) = false := by
    refine Bool.eq_false_iff.2 fun h => ?_
    obtain ⟨hfall, hany⟩ := Bool.and_eq_true_iff.1 h
    obtain ⟨k, hk, hh⟩ := List.any_eq_true.1 hany
    exact hq ⟨mem_victimsOf.2 ⟨k, hk, of_decide_eq_true hh⟩, hfall⟩
  unfold State.releasedWith
  rw [if_pos hv, hp]
  exact if_neg (Bool.eq_false_iff.1 hnot)

theorem releasedOf_some {s : State} {ks : List Slot} {q : Nat} (h : q ∈ s.releasedOf ks) :
    ∃ v ∈ s.victimsOf ks, s.releasedWith ks v = some q := by
  obtain ⟨k, hk, hq⟩ := mem_releasedOf.1 h
  rw [releasedBy_eq] at hq
  obtain ⟨v, hv, hq⟩ := Option.bind_eq_some_iff.1 hq
  exact ⟨v, mem_victimsOf.2 ⟨k, hk, hv⟩, hq⟩

/-- A released partner is no victim that falls, so it is as the taking of legs leaves it. -/
theorem preempting_released {s : State} {ks : List Slot} {q : Nat} (h : q ∈ s.releasedOf ks) : s.preempting ks q = s.taken ks q := by
  obtain ⟨v, _, hv⟩ := releasedOf_some h
  exact if_neg (releasedWith_some hv).2.2

/-- A record that is no victim is as it was. -/
theorem taken_of_not_victim {s : State} {ks : List Slot} {m : Nat} (h : m ∉ s.victimsOf ks) : s.taken ks m = s.recordOf m := by
  have hlegs : ((s.recordOf m).legs.map fun l => if s.takesLeg ks m l then { l with st := .breaking, yielded := true } else l) = (s.recordOf m).legs := by
    refine (List.map_congr_left fun l _ => if_neg fun htake => ?_).trans (List.map_id' _)
    obtain ⟨hl, hh⟩ := of_decide_eq_true htake
    exact h (mem_victimsOf.2 ⟨_, hl, hh⟩)
  rw [State.taken, hlegs]

theorem preempting_of_not_victim {s : State} {ks : List Slot} {m : Nat} (h : m ∉ s.victimsOf ks) : s.preempting ks m = s.recordOf m :=
  (if_neg fun hm => h hm.1).trans (taken_of_not_victim h)

/-! ### Lists -/

/-- First occurrences, through a partial map that gives no value twice. -/
theorem firstOf_filterMap {α β : Type} [DecidableEq α] [DecidableEq β] (g : α → Option β) (l : List α)
    (hg : ∀ a ∈ l, ∀ b ∈ l, ∀ q, g a = some q → g b = some q → a = b) : firstOf (l.filterMap g) = (firstOf l).filterMap g := by
  induction l with
  | nil => rfl
  | cons x xs ih =>
    have ih := ih fun a ha b hb => hg a (List.mem_cons_of_mem _ ha) b (List.mem_cons_of_mem _ hb)
    rw [firstOf]
    cases hx : g x with
    | none =>
      rw [List.filterMap_cons_none hx, List.filterMap_cons_none hx, ih, List.filterMap_filter]
      refine List.filterMap_congr fun a _ => ?_
      by_cases ha : a = x <;> simp [ha, hx]
    | some q =>
      rw [List.filterMap_cons_some hx, List.filterMap_cons_some hx, firstOf, ih, List.filterMap_filter, List.filter_filterMap]
      refine congrArg (q :: ·) (List.filterMap_congr fun a ha => ?_)
      have hmem := mem_firstOf.1 ha
      by_cases hax : a = x
      · simp [hax, hx]
      · cases hga : g a with
        | none => simp [hax]
        | some b =>
          have hbq : b ≠ q := fun h => hax (hg a (List.mem_cons_of_mem _ hmem) x List.mem_cons_self q (h ▸ hga) hx)
          simp [hax, Option.filter, hbq]

/-- Counting first occurrences is counting without repeats. -/
theorem length_firstOf {α : Type} [DecidableEq α] {l l' : List α} (h : ∀ x, x ∈ l ↔ x ∈ l') : (firstOf l).length = l'.dedup.length :=
  ((List.perm_ext_iff_of_nodup (nodup_firstOf l) (List.nodup_dedup l')).2 fun x => by rw [mem_firstOf, List.mem_dedup, h]).length_eq

/-! ### The legs taken (03 R55) -/

theorem mem_victims {m : Manager} {ks : List Slot} {k : Slot} {v : Nat} : (k, v) ∈ m.victims ks ↔ k ∈ ks ∧ m.holder k = some v := by
  rw [Manager.victims, List.mem_filterMap]
  constructor
  · rintro ⟨j, hj, hv⟩
    obtain ⟨w, hw, heq⟩ := Option.map_eq_some_iff.1 hv
    cases heq
    exact ⟨hj, hw⟩
  · rintro ⟨hk, hv⟩
    exact ⟨k, hk, by rw [hv]; rfl⟩

theorem victims_map (m : Manager) (ks : List Slot) : (m.victims ks).map (·.2) = ks.filterMap m.holder := by
  rw [Manager.victims, List.map_filterMap]
  exact List.filterMap_congr fun k _ => by cases m.holder k <;> rfl

theorem victimsOf_eq (s : State) (ks : List Slot) : firstOf ((s.mgr.victims ks).map (·.2)) = s.victimsOf ks := by
  rw [victims_map, State.victimsOf]

theorem takesLeg_iff (s : State) (ks : List Slot) (v : Nat) (l : Leg) : s.takesLeg ks v l = true ↔ (l.slot, v) ∈ s.mgr.victims ks := by
  rw [State.takesLeg, decide_eq_true_eq, mem_victims]

/-- A record keeps no leg after a claim on the slots ks has taken its legs. -/
theorem falls_iff (s : State) (ks : List Slot) (m : Nat) : (!(s.taken ks m).legs.any Leg.kept) = s.falls ks m := by
  rw [Bool.eq_iff_iff, Bool.not_eq_true', List.any_eq_false, State.falls, List.all_eq_true]
  simp only [State.taken, List.mem_map, forall_exists_index, and_imp, forall_apply_eq_imp_iff₂]
  refine forall₂_congr fun l _ => ?_
  cases s.takesLeg ks m l <;> simp [Leg.kept]

/-- The legs of a record that it still carries (03 R57). -/
theorem carrying_taken (s : State) (ks : List Slot) (m : Nat) : (s.taken ks m).carrying = s.stillCarried ks m := by
  rw [Rec.carrying, State.taken, List.filter_map, List.map_map, State.stillCarried]
  refine congrArg₂ List.map (funext fun l => ?_) (List.filter_congr fun l _ => ?_)
  · show (if s.takesLeg ks m l then _ else l : Leg).slot = l.slot
    split <;> rfl
  · show (if s.takesLeg ks m l then _ else l : Leg).carries = (l.carries && !s.takesLeg ks m l)
    cases s.takesLeg ks m l <;> simp [Leg.carries]

namespace Eff.Reads

variable {s : State} {e : Eff} {recs : Nat → Rec} {offer : List Entry} {raise : Raise} {port : Port}

theorem takeLegs (h : e.Reads s recs offer raise port) (vs : List (Slot × Nat)) : (vs.foldl Eff.takeLeg e).Reads s
    (fun m => { recs m with legs := (recs m).legs.map fun l => if (l.slot, m) ∈ vs then { l with st := .breaking, yielded := true } else l })
    offer raise port := by
  induction vs generalizing e recs with
  | nil => exact h.of_recs fun m => by simp
  | cons p vs ih =>
    refine (ih (h.upd p.2 fun r => r.updLeg p.1 fun l => { l with st := .breaking, yielded := true })).of_recs fun m => ?_
    rw [changeOn_single]
    by_cases hm : m = p.2
    · subst hm
      rw [if_pos rfl]
      simp only [Rec.updLeg, List.map_map]
      refine congrArg (fun legs => ({ recs p.2 with legs := legs } : Rec)) (List.map_congr_left fun l _ => ?_)
      by_cases hl : l.slot = p.1
      · simp [hl]
      · have hne : (l.slot, p.2) ≠ p := fun hp => hl (by rw [← hp])
        simp [hl, hne]
    · have hne (l : Leg) : (l.slot, m) ≠ p := fun hp => hm (by rw [← hp])
      simp [hm, hne]

/-- The legs of a claim's victims, taken. -/
theorem taken (h : e.Reads s s.recordOf offer raise port) (ks : List Slot) :
    ((s.mgr.victims ks).foldl Eff.takeLeg e).Reads s (s.taken ks) offer raise port :=
  (h.takeLegs _).of_recs fun m => by simp only [State.taken, takesLeg_iff]

/-- A victim that keeps no leg has none that a test record displaces: taking it out of service changes no other record (03 R56). -/
theorem fallOut (h : e.Reads s recs offer raise port) {v : Nat} (hv : (recs v).legs.any Leg.kept = false) :
    ((e.takeOut v).setState v .breaking).Reads s (changeOn [v] Rec.fallenOut recs) offer raise port := by
  have hlinks : (recs v).links = [] := by
    refine List.filterMap_eq_nil_iff.2 fun l hl => if_neg fun hst => ?_
    have hkept : l.kept = false := by simpa using List.any_eq_false.1 hv l hl
    rw [Leg.kept, hst] at hkept
    exact absurd hkept (by decide)
  have hout := h.takeOut v (by rw [hlinks]; nofun)
  refine (hout.upd v fun r => { r with st := .breaking }).of_recs fun m => ?_
  rw [changeOn_single, changeOn_single]
  split
  · next hm => rw [hm, takenOut_of_mem List.mem_cons_self]; rfl
  · next hm => exact takenOut_stands hm (by rw [hlinks]; nofun)

theorem fallen (h : e.Reads s recs offer raise port) (v : Nat) : e.fallen v = !(recs v).legs.any Leg.kept := by rw [Eff.fallen, h.recs]

/-- The victims one by one: PREEMPTED, and BREAKING for one that keeps no leg (03 R55, R56). -/
theorem fallEach (h : e.Reads s recs offer raise port) (vs : List Nat) :
    (vs.foldl (fun e v => if (e.raiseOn v .preempted).fallen v then (((e.raiseOn v .preempted).takeOut v).setState v .breaking)
      else e.raiseOn v .preempted) e).Reads s
      (fun m => if m ∈ vs ∧ (recs m).legs.any Leg.kept = false then (recs m).fallenOut else recs m) offer
      (raise ++ vs.map fun v => (81 + v, .preempted)) port := by
  induction vs generalizing e recs raise with
  | nil =>
    rw [List.map_nil, List.append_nil]
    exact h.of_recs fun m => (if_neg fun hm => List.not_mem_nil hm.1).symm
  | cons v vs ih =>
    have hraised := h.raiseOn v .preempted
    rw [List.foldl_cons, hraised.fallen]
    cases hv : (recs v).legs.any Leg.kept with
    | true =>
      have htail := ih hraised
      rw [List.append_assoc] at htail
      refine htail.of_recs fun m => ?_
      by_cases hm : m = v
      · subst hm; simp [hv]
      · simp [hm]
    | false =>
      have hout : (recs v).fallenOut.legs.any Leg.kept = false := List.any_eq_false.2 fun l hl =>
        List.any_eq_false.1 hv l (List.mem_of_mem_filter hl)
      have hagain : (recs v).fallenOut.fallenOut = (recs v).fallenOut := by simp [Rec.fallenOut, Rec.outOfService, List.filter_filter]
      have htail := ih (hraised.fallOut hv)
      rw [List.append_assoc] at htail
      refine htail.of_recs fun m => ?_
      rw [changeOn_single]
      by_cases hm : m = v
      · subst hm; simp [hv, hout, hagain]
      · simp [hm]

/-- Preemption, before any partner is released (03 R55, R56). -/
theorem preempt (h : e.Reads s s.recordOf offer raise port) (ks : List Slot) : (e.preempt (s.mgr.victims ks)).Reads s (s.preempting ks) offer
    (raise ++ (s.victimsOf ks).map fun v => (81 + v, .preempted)) port := by
  unfold Eff.preempt
  simp only
  rw [victimsOf_eq]
  refine ((h.taken ks).fallEach (s.victimsOf ks)).of_recs fun m => ?_
  simp only [State.preempting, ← falls_iff, Bool.not_eq_true']

end Eff.Reads

/-! ### The partners released (03 R57) -/

/-- The partners that a claim releases, victim by victim. -/
theorem partnersOf_eq (s : State) (ks : List Slot) :
    (Eff.start s).partnersOf (s.mgr.victims ks) = (s.victimsOf ks).filterMap (s.releasedWith ks) := by
  have h := (Eff.Reads.start s).taken ks
  rw [Eff.partnersOf, Eff.releasedPartners, victimsOf_eq, List.filterMap_filter]
  generalize (s.mgr.victims ks).foldl Eff.takeLeg (Eff.start s) = e at h
  have hfallen (v : Nat) : e.fallen v = s.falls ks v := (h.fallen v).trans (falls_iff s ks v)
  have hvictim (q : Nat) : (s.victimsOf ks).contains q = ks.any fun j => decide (s.mgr.holder j = some q) := by
    rw [Bool.eq_iff_iff, List.contains_iff_mem, mem_victimsOf, List.any_eq_true]
    simp only [decide_eq_true_eq]
  refine List.filterMap_congr fun v _ => ?_
  simp only [hfallen, hvictim, h.recs, State.releasedWith]
  rw [show (s.taken ks v).partner = (s.recordOf v).partner from rfl]
  cases (s.recordOf v).partner with
  | none => rfl
  | some q => simp only [Bool.and_comm]

theorem mem_partnersOf {s : State} {ks : List Slot} {q : Nat} : q ∈ (Eff.start s).partnersOf (s.mgr.victims ks) ↔ q ∈ s.releasedOf ks := by
  rw [partnersOf_eq, List.mem_filterMap]
  constructor
  · rintro ⟨v, hv, hq⟩
    obtain ⟨k, hk, hh⟩ := mem_victimsOf.1 hv
    exact mem_releasedOf.2 ⟨k, hk, by rw [releasedBy_eq, hh]; exact hq⟩
  · exact releasedOf_some

/-- No partner is released twice when no two victims share one. -/
theorem partnersOf_released {s : State} {ks : List Slot}
    (hp : ∀ v ∈ s.victimsOf ks, ∀ w ∈ s.victimsOf ks, ∀ q, s.releasedWith ks v = some q → s.releasedWith ks w = some q → v = w) :
    (Eff.start s).partnersOf (s.mgr.victims ks) = s.releasedOf ks := by
  have hby : ks.filterMap (s.releasedBy ks) = (ks.filterMap s.mgr.holder).filterMap (s.releasedWith ks) := by
    rw [List.filterMap_filterMap]
    exact List.filterMap_congr fun k _ => releasedBy_eq s ks k
  rw [partnersOf_eq, State.releasedOf, hby, State.victimsOf]
  refine (firstOf_filterMap _ _ fun a ha b hb => hp a ?_ b ?_).symm
  · exact mem_firstOf.2 ha
  · exact mem_firstOf.2 hb

end Sys2Proof.Machine

/-! SUPPORT. The release of partners and the making of legs (03 R50, R57), and how many slots an offer has (03 R58). -/

namespace Sys2Proof.Machine

set_option Elab.async false

/-! ### The slots of an offer (03 R58) -/

/-- Taking a record out of service changes no leg in MAKING or LIVE. -/
theorem carrying_takeOut (e : Eff) (n m : Nat) : ((e.takeOut n).recOf m).carrying = (e.recOf m).carrying := by
  have hunlink : ∀ (links : List Nat) (e : Eff), ((links.foldl (fun e t => e.updRec t fun r => { r with displ := none }) e).recOf m).legs =
      (e.recOf m).legs := by
    intro links
    induction links with
    | nil => exact fun _ => rfl
    | cons t links ih =>
      refine fun e => (ih _).trans ?_
      rw [recOf_updRec]
      split
      · next hm => rw [hm]
      · rfl
  unfold Eff.takeOut
  simp only
  generalize (e.recOf n).legs.filterMap (fun l => if l.st = .displaced then l.link else none) = links
  have hlegs := hunlink links e
  generalize links.foldl (fun e t => e.updRec t fun r => { r with displ := none }) e = e' at hlegs
  rw [recOf_updRec]
  split
  · next hm =>
    subst hm
    have hfilter := filter_outOfService (e'.recOf m) (p := Leg.carries) fun l hl => by rcases (carries_iff l).1 hl with h | h <;> simp [h]
    rw [Rec.carrying, Rec.carrying, ← hlegs]
    exact congrArg (List.map _) hfilter
  · rw [Rec.carrying, Rec.carrying, hlegs]

/-- The slots that an effect offers. -/
def Eff.offered (e : Eff) : List Slot := e.offer.map (·.slot)

theorem offered_addEntries {β : Type} (l : List β) (k : β → Slot) (c : Eff → β → Content) (own : Eff → β → List LegOutcome) (e : Eff) :
    (l.foldl (fun e b => e.addEntry (k b) (c e b) (own e b)) e).offered = e.offered ++ l.map k := by
  induction l generalizing e with
  | nil => simp
  | cons b l ih => rw [List.foldl_cons, ih]; simp [Eff.offered]

theorem offered_takeOut (e : Eff) (n : Nat) : (e.takeOut n).offered = e.offered := by
  have hunlink : ∀ (links : List Nat) (e : Eff), (links.foldl (fun e t => e.updRec t fun r => { r with displ := none }) e).offered = e.offered := by
    intro links
    induction links with
    | nil => exact fun _ => rfl
    | cons t links ih => exact fun e => ih _
  exact hunlink _ e

/-- One partner released offers the slots that it carries, and carries none then (03 R57). -/
theorem releasePartner_carries (e : Eff) (p : Nat) :
    let e' := ((((e.takeOut p).breakLegs p Leg.carries).setState p .breaking).raiseOn p .partnerReleased)
    e'.offered = e.offered ++ (e.recOf p).carrying ∧ ∀ m, (e'.recOf m).carrying = if m = p then [] else (e.recOf m).carrying := by
  have hcarry := carrying_takeOut e p
  have hoffer := offered_takeOut e p
  generalize e.takeOut p = z at hcarry hoffer
  refine ⟨?_, fun m => ?_⟩
  · show (z.breakLegs p Leg.carries).offered = _
    unfold Eff.breakLegs
    refine (offered_addEntries (β := Leg) _ (·.slot) (fun _ _ => Content.idle) (fun e _ => [⟨e.handleOf p, .broken⟩]) _).trans ?_
    rw [← hcarry, ← hoffer]
    rfl
  · have hrec : ((((z.breakLegs p Leg.carries).setState p .breaking).raiseOn p .partnerReleased).recOf m).legs =
        if m = p then ((z.recOf p).breaking Leg.carries).legs else (z.recOf m).legs := by
      rw [recOf_raiseOn, Eff.setState, recOf_updRec]
      have hbreak (j : Nat) : (z.breakLegs p Leg.carries).recOf j = if j = p then (z.recOf p).breaking Leg.carries else z.recOf j := by
        unfold Eff.breakLegs
        exact (recOf_foldl_addEntry (fun _ (l : Leg) => l.slot) (fun _ _ => Content.idle) (fun e _ => [⟨e.handleOf p, .broken⟩]) _ j _).trans (recOf_updRec _ _ _ _)
      rw [hbreak, hbreak, if_pos rfl]
      split <;> rfl
    rw [Rec.carrying, hrec, ← hcarry]
    split
    · refine List.map_eq_nil_iff.2 (List.filter_eq_nil_iff.2 fun l hl => ?_)
      obtain ⟨o, _, rfl⟩ := List.mem_map.1 hl
      split
      · simp [Leg.carries]
      · next ho => exact ho
    · rfl

/-- The release of partners offers the slots that they carry (03 R57). -/
theorem mem_offered_releasePartners (ps : List Nat) (e : Eff) (k : Slot) :
    k ∈ (e.releasePartners ps).offered ↔ k ∈ e.offered ∨ ∃ p ∈ ps, k ∈ (e.recOf p).carrying := by
  induction ps generalizing e with
  | nil => simp [Eff.releasePartners]
  | cons p ps ih =>
    obtain ⟨hoffer, hcarry⟩ := releasePartner_carries e p
    refine (ih _).trans ?_
    rw [hoffer, List.mem_append]
    simp only [hcarry, List.mem_cons, exists_eq_or_imp, or_assoc]
    refine or_congr_right (or_congr_right' fun hk => exists_congr fun q => and_congr_right fun _ => ?_)
    split
    · next hq =>
      subst hq
      exact ⟨nofun, fun h => absurd h hk⟩
    · rfl

/-- The slots of a claim's offer, each counted once (03 R58): those of its own legs, and those that the released partners still carry. -/
theorem length_offerSlots {s : State} {ks : List Slot} {e : Eff} (hoffer : e.offered = ks)
    (hcarry : ∀ q ∈ s.releasedOf ks, (e.recOf q).carrying = s.stillCarried ks q) :
    (offerSlots (e.releasePartners ((Eff.start s).partnersOf (s.mgr.victims ks))).offer).length = (s.offerSlotsOf ks).length := by
  refine length_firstOf fun k => ?_
  rw [show (e.releasePartners _).offer.map (·.slot) = (e.releasePartners _).offered from rfl, mem_offered_releasePartners, List.mem_append, hoffer,
    List.mem_flatMap]
  refine or_congr_right (exists_congr fun q => ?_)
  rw [mem_partnersOf, mem_releasedOf, List.mem_filterMap]
  refine and_congr_right fun hq => ?_
  rw [hcarry q (mem_releasedOf.2 hq)]
  rfl

theorem overLimit_eq (e : Eff) : overLimit e = decide (8 < (offerSlots e.offer).length) := rfl

/-- An offer whose slots, each counted once, have room in the list is taken (02 R32). -/
theorem fits_of_offerSlots {list offer : List Entry} (h : list.length + (offerSlots offer).length ≤ 96) : fits list offer = true := by
  have h1 := List.length_filter_le (fun k => !(list.any fun y => decide (y.slot = k))) (offerSlots offer)
  refine decide_eq_true (Nat.le_trans h1 ?_)
  rw [Config.listRoom]
  omega

/-- The victim on a slot of a claim (03 R55). -/
theorem find_victim (m : Manager) {ks : List Slot} {k : Slot} (hk : k ∈ ks) :
    ((m.victims ks).find? fun p => decide (p.1 = k)) = (m.holder k).map fun v => (k, v) := by
  cases hh : m.holder k with
  | none =>
    refine List.find?_eq_none.2 fun ⟨j, v⟩ hp hj => ?_
    obtain rfl : j = k := of_decide_eq_true hj
    rw [(mem_victims.1 hp).2] at hh
    cases hh
  | some v =>
    cases hf : (m.victims ks).find? fun p => decide (p.1 = k) with
    | none => exact absurd (decide_eq_true rfl) (List.find?_eq_none.1 hf (k, v) (mem_victims.2 ⟨hk, hh⟩))
    | some p =>
      obtain ⟨j, w⟩ := p
      obtain rfl : j = k := by simpa using List.find?_some hf
      have hw := (mem_victims.1 (List.mem_of_find?_eq_some hf)).2
      rw [hh, Option.some.injEq] at hw
      rw [hw]
      rfl

/-! ### The release of partners (03 R57) -/

/-- Records with those named released, and their displacers' links gone. -/
def letGoAll (ps : List Nat) (recs : Nat → Rec) (m : Nat) : Rec :=
  if m ∈ ps then (recs m).letGo else if m ∈ ps.flatMap fun j => (recs j).links then { recs m with displ := none } else recs m

/-- One record after another, none of them a displacer of another. -/
theorem letGoAll_cons {n : Nat} {ps : List Nat} {recs : Nat → Rec} (hn : n ∉ ps) (hap : ∀ m ∈ n :: ps, ∀ o ∈ (recs m).links, o ∉ n :: ps) (m : Nat) :
    letGoAll ps (letGoAll [n] recs) m = letGoAll (n :: ps) recs m := by
  have hstand (j : Nat) (hj : j ∈ ps) : letGoAll [n] recs j = recs j := by
    have hjn : j ≠ n := fun h => hn (h ▸ hj)
    have hl : j ∉ (recs n).links := fun h => hap n List.mem_cons_self j h (List.mem_cons_of_mem _ hj)
    simp [letGoAll, hjn, hl]
  have hlinks : (ps.flatMap fun j => (letGoAll [n] recs j).links) = ps.flatMap fun j => (recs j).links :=
    List.flatMap_congr fun j hj => by rw [hstand j hj]
  by_cases hm : m ∈ ps
  · rw [letGoAll, if_pos hm, hstand m hm, letGoAll, if_pos (List.mem_cons_of_mem _ hm)]
  · conv_lhs => rw [letGoAll, if_neg hm, hlinks]
    by_cases hmn : m = n
    · subst hmn
      have hnl : m ∉ ps.flatMap fun j => (recs j).links := fun hl => by
        obtain ⟨j, hj, hl⟩ := List.mem_flatMap.1 hl
        exact hap j (List.mem_cons_of_mem _ hj) m hl List.mem_cons_self
      rw [if_neg hnl, letGoAll, if_pos List.mem_cons_self, letGoAll, if_pos List.mem_cons_self]
    · by_cases h1 : m ∈ (recs n).links <;> by_cases h2 : m ∈ ps.flatMap fun j => (recs j).links <;> simp [letGoAll, hmn, hm, h1, h2]

namespace Eff.Reads

variable {s : State} {e : Eff} {recs : Nat → Rec} {offer : List Entry} {raise : Raise} {port : Port}

theorem releasePartner (h : e.Reads s recs offer raise port) {p : Nat} (hp : ∀ o ∈ (recs p).links, o ≠ p) :
    ((((e.takeOut p).breakLegs p Leg.carries).setState p .breaking).raiseOn p .partnerReleased).Reads s (letGoAll [p] recs)
      (offer ++ (recs p).carrying.map (s.breakEntry p)) (raise ++ [(81 + p, .partnerReleased)]) port := by
  have hbroken := (((h.takeOut p hp).breakLegs p Leg.carries).upd p fun r => { r with st := .breaking }).raiseOn p .partnerReleased
  refine (hbroken.of_recs fun m => ?_).of_offer ?_
  · rw [changeOn_changeOn, changeOn_single]
    split
    · next hm => rw [hm, takenOut_of_mem List.mem_cons_self, letGoAll, if_pos List.mem_cons_self]; rfl
    · next hm => simp [takenOut, letGoAll, hm]
  · rw [takenOut_of_mem List.mem_cons_self, filter_outOfService _ fun l hl => by rcases (carries_iff l).1 hl with h | h <;> simp [h], Rec.carrying,
      List.map_map]
    rfl

theorem releasePartners (h : e.Reads s recs offer raise port) {ps : List Nat} (hps : ps.Nodup) (hap : ∀ p ∈ ps, ∀ o ∈ (recs p).links, o ∉ ps) :
    (e.releasePartners ps).Reads s (letGoAll ps recs) (offer ++ ps.flatMap fun p => (recs p).carrying.map (s.breakEntry p))
      (raise ++ ps.map fun p => (81 + p, .partnerReleased)) port := by
  induction ps generalizing e recs offer raise with
  | nil =>
    rw [List.flatMap_nil, List.map_nil, List.append_nil, List.append_nil]
    exact h.of_recs fun m => by simp [letGoAll]
  | cons p ps ih =>
    obtain ⟨hp, hps⟩ := List.nodup_cons.1 hps
    have hfirst := h.releasePartner (p := p) fun o ho hop => hap p List.mem_cons_self o ho (hop ▸ List.mem_cons_self)
    have hstand (j : Nat) (hj : j ∈ ps) : letGoAll [p] recs j = recs j := by
      have hjp : j ≠ p := fun h => hp (h ▸ hj)
      have hl : j ∉ (recs p).links := fun h => hap p List.mem_cons_self j h (List.mem_cons_of_mem _ hj)
      simp [letGoAll, hjp, hl]
    have hrest := ih hfirst hps fun q hq o ho hmem =>
      hap q (List.mem_cons_of_mem _ hq) o (hstand q hq ▸ ho) (List.mem_cons_of_mem _ hmem)
    have hentries : (ps.flatMap fun q => (letGoAll [p] recs q).carrying.map (s.breakEntry q)) =
        ps.flatMap fun q => (recs q).carrying.map (s.breakEntry q) := List.flatMap_congr fun q hq => by rw [hstand q hq]
    rw [hentries, List.append_assoc, List.append_assoc] at hrest
    exact hrest.of_recs (letGoAll_cons hp hap)

/-! ### The legs made (03 R50) -/

/-- The outcomes of an entry that makes a leg (03 R50, R55). -/
theorem makeOutcomes (h : e.Reads s recs offer raise port) (n : Nat) {ks : List Slot} {k : Slot} (hk : k ∈ ks) :
    e.makeOutcomes n (s.mgr.victims ks) k =
      (s.mgr.holder k).toList.map (fun v => (⟨s.handle v, .broken⟩ : LegOutcome)) ++ [⟨s.handle n, .made⟩] := by
  unfold Eff.makeOutcomes
  rw [find_victim s.mgr hk, h.handleOf]
  cases s.mgr.holder k with
  | none => rfl
  | some v =>
    simp only [Option.map_some, h.handleOf]
    rfl

/-- The entries that make legs of record n on slots of a claim, each with the victim's BROKEN (03 R50, R55). -/
theorem offerMakes (h : e.Reads s recs offer raise port) (n : Nat) (d : Drive) (u : Option (Fin 4)) {ks own : List Slot} (hown : ∀ k ∈ own, k ∈ ks) :
    (e.offerMakes n d u (s.mgr.victims ks) own).Reads s recs (offer ++ own.map (s.takingEntry n (recs n) d u)) raise port := by
  unfold Eff.offerMakes
  induction own generalizing e offer with
  | nil => simpa using h
  | cons k own ih =>
    have hk := hown k List.mem_cons_self
    have hfirst := h.addEntry k (e.content n d u) (e.makeOutcomes n (s.mgr.victims ks) k)
    rw [List.foldl_cons]
    refine (ih hfirst fun j hj => hown j (List.mem_cons_of_mem _ hj)).of_offer ?_
    rw [List.append_assoc, h.makeOutcomes n hk, h.content]
    refine congrArg (fun x => offer ++ (x :: _)) ?_
    unfold State.takingEntry
    simp only [List.append_assoc]
    cases s.mgr.holder k <;> rfl

end Eff.Reads

end Sys2Proof.Machine

/-! SUPPORT. An opening accepted, computed (03 R49, R53, R55-R58, 04 R75, R76): the records filled, the circuit started, the partners released. -/

namespace Sys2Proof.Machine

set_option Elab.async false

/-! ### The records of a claim that preempts -/

/-- What keeps the parts of a claim on the slots ks apart: no partner is released twice, or is a record of the claim's own; no displacer of a released
partner's leg is one, is released or falls; and no DISPLACED leg of a released partner is taken. -/
structure State.Apart (s : State) (ks : List Slot) (own : List Nat) : Prop where
  once : ∀ v ∈ s.victimsOf ks, ∀ w ∈ s.victimsOf ks, ∀ q, s.releasedWith ks v = some q → s.releasedWith ks w = some q → v = w
  own : ∀ q ∈ s.releasedOf ks, q ∉ own
  links : ∀ q ∈ s.releasedOf ks, ∀ o ∈ s.displacers q, o ∉ s.releasedOf ks ∧ ¬(o ∈ s.victimsOf ks ∧ s.falls ks o = true)
  untaken : ∀ q ∈ s.releasedOf ks, ∀ l ∈ (s.recordOf q).legs, l.st = .displaced → s.takesLeg ks q l = false

/-- The displacers of a record whose DISPLACED legs are not taken. -/
theorem links_taken {s : State} {ks : List Slot} {q : Nat} (h : ∀ l ∈ (s.recordOf q).legs, l.st = .displaced → s.takesLeg ks q l = false) :
    (s.taken ks q).links = s.displacers q := by
  rw [Rec.links, State.taken, State.displacers, List.filterMap_map]
  refine List.filterMap_congr fun l hl => ?_
  have hnot := h l hl
  cases htake : s.takesLeg ks q l with
  | false => simp [htake]
  | true =>
    have hst : l.st ≠ .displaced := fun hst => by rw [hnot hst] at htake; cases htake
    simp [htake, hst]

theorem releasedOf_nodup (s : State) (ks : List Slot) : (s.releasedOf ks).Nodup := nodup_firstOf _

theorem displ_none_eq {x : Rec} (h : x.displ = none) : { x with displ := none } = x := by
  rw [← h]

/-- The end of a claim that preempts: its partners released (03 R57). -/
theorem Eff.Reads.releaseAll {s s' : State} {ks : List Slot} {own : List Nat} {e : Eff} {recs : Nat → Rec} {offer : List Entry} {raise : Raise}
    {port : Port} (h : e.Reads s' recs offer raise port) (hap : s.Apart ks own) (hrecs : ∀ m, m ∉ own → recs m = s.preempting ks m)
    (hunlinked : ∀ m ∈ own, (∃ q ∈ s.releasedOf ks, m ∈ s.displacers q) → (recs m).displ = none) :
    (e.releasePartners ((Eff.start s).partnersOf (s.mgr.victims ks))).Reads s' (fun m => if m ∈ own then recs m else s.preempted ks m)
      (offer ++ (s.releasedOf ks).flatMap fun q => (s.stillCarried ks q).map (s'.breakEntry q))
      (raise ++ (s.releasedOf ks).map fun q => (81 + q, .partnerReleased)) port := by
  have htaken (q : Nat) (hq : q ∈ s.releasedOf ks) : recs q = s.taken ks q := (hrecs q (hap.own q hq)).trans (preempting_released hq)
  have hlinks (q : Nat) (hq : q ∈ s.releasedOf ks) : (recs q).links = s.displacers q := by rw [htaken q hq, links_taken (hap.untaken q hq)]
  have hall : ((s.releasedOf ks).flatMap fun q => (recs q).links) = (s.releasedOf ks).flatMap s.displacers := List.flatMap_congr hlinks
  rw [partnersOf_released hap.once]
  refine ((h.releasePartners (releasedOf_nodup s ks) fun q hq o ho => ?_).of_recs fun m => ?_).of_offer ?_
  · rw [hlinks q hq] at ho
    exact (hap.links q hq o ho).1
  · rw [letGoAll, hall]
    by_cases hown : m ∈ own
    · rw [if_pos hown, if_neg fun hm => hap.own m hm hown]
      split
      · next hlink =>
        exact displ_none_eq (hunlinked m hown (List.mem_flatMap.1 hlink))
      · rfl
    · rw [if_neg hown]
      by_cases hm : m ∈ s.releasedOf ks
      · rw [if_pos hm, htaken m hm, State.preempted, if_pos hm]
        rfl
      · rw [if_neg hm, hrecs m hown]
        simp only [State.preempted, if_neg hm]
        by_cases hlink : m ∈ (s.releasedOf ks).flatMap s.displacers
        · obtain ⟨q, hq, ho⟩ := List.mem_flatMap.1 hlink
          have hfall := (hap.links q hq m ho).2
          rw [if_pos hlink, State.preempting, if_neg hfall, if_neg hfall, if_pos hlink]
          rfl
        · rw [if_neg hlink, State.preempting]
          split <;> rfl
  · exact congrArg (offer ++ ·) (List.flatMap_congr fun q hq => by rw [htaken q hq, carrying_taken])

/-! ### Records filled (03 R49) -/

/-- The record that an opening fills, as the manager writes it and as the statements say it. -/
theorem fillRecord_eq {s : State} {m : Manager} {src : Source} (hf : m.faultOf src = s.sourceFault src) (r : Request) (c : CommonFields)
    (legs : List Slot) (partner : Option Nat) (hs : List Handle) (x : Rec) :
    fillRecord s.port.defaults m c (tagOf r.msg) src legs partner ⟨r.slot, r.sub, hs⟩ x = s.openedRecord r c src legs partner hs x.gen := by
  unfold fillRecord State.openedRecord
  rw [hf]
  rfl

theorem Eff.Reads.fill {s : State} {e : Eff} {recs : Nat → Rec} {offer : List Entry} {raise : Raise} {port : Port} (h : e.Reads s recs offer raise port)
    {m : Manager} {src : Source} (hf : m.faultOf src = s.sourceFault src) (n : Nat) (r : Request) (c : CommonFields)
    (legs : List Slot) (partner : Option Nat) (hs : List Handle) :
    (e.updRec n (fillRecord s.port.defaults m c (tagOf r.msg) src legs partner ⟨r.slot, r.sub, hs⟩)).Reads s
      (fun j => if j = n then s.openedRecord r c src legs partner hs (s.recordOf n).gen else recs j) offer raise port := by
  refine (h.upd n _).of_recs fun j => ?_
  rw [changeOn_single]
  split
  · next hj => rw [fillRecord_eq hf, hj, h.gens]
  · rfl

/-! ### The circuit started (03 R50, 04 R75, R76) -/

/-- What starting a circuit changes beside its legs: the verifier, the wait list, the record's state and verify field; and the drive of its entries. -/
structure OpenStart where
  ver : Verifier
  wait : List Handle
  drive : Drive
  unit : Option (Fin 4)
  change : Rec → Rec

/-- An OPEN for record n starts MAKING, VERIFYING on the lowest-numbered IDLE unit, or VERIFY_WAIT (03 R50, 04 R75, R76). -/
def State.openStart (s : State) (n : Nat) (f : OpenFields) : OpenStart :=
  match f.verify with
  | none => ⟨s.ver, s.mgr.wait, .source, none, id⟩
  | some v =>
    match s.ver.idleUnit with
    | some u => ⟨s.ver.assign u (s.handle n) (v.field f.legs), s.mgr.wait, .token, some u,
        fun x => { x with verify := some (v.field f.legs), st := .verifying }⟩
    | none => ⟨s.ver, s.mgr.wait ++ [s.handle n], .idle, none, fun x => { x with verify := some (v.field f.legs), st := .verifyWait }⟩

section OpenStart
variable {s : State} {n : Nat} {f : OpenFields}

theorem openStart_plain (hf : f.verify = none) : s.openStart n f = ⟨s.ver, s.mgr.wait, .source, none, id⟩ := by
  rw [State.openStart, hf]

theorem openStart_verifying {v : VerifyFields} {u : Fin 4} (hf : f.verify = some v) (hu : s.ver.idleUnit = some u) : s.openStart n f =
    ⟨s.ver.assign u (s.handle n) (v.field f.legs), s.mgr.wait, .token, some u,
      fun x => { x with verify := some (v.field f.legs), st := .verifying }⟩ := by
  unfold State.openStart
  simp only [hf, hu]

theorem openStart_waiting {v : VerifyFields} (hf : f.verify = some v) (hu : s.ver.idleUnit = none) : s.openStart n f =
    ⟨s.ver, s.mgr.wait ++ [s.handle n], .idle, none, fun x => { x with verify := some (v.field f.legs), st := .verifyWait }⟩ := by
  unfold State.openStart
  simp only [hf, hu]

end OpenStart

/-- The state with another verifier and another wait list. -/
def State.withStart (s : State) (o : OpenStart) : State := { s with ver := o.ver, mgr := { s.mgr with wait := o.wait } }

theorem Eff.Reads.startCircuit {s : State} {e : Eff} {recs : Nat → Rec} {offer : List Entry} {raise : Raise} {port : Port}
    (h : e.Reads s recs offer raise port) (n : Nat) (f : OpenFields) :
    (e.startCircuit n f (s.mgr.victims f.legs)).Reads (s.withStart (s.openStart n f)) (changeOn [n] (s.openStart n f).change recs)
      (offer ++ f.legs.map (s.takingEntry n (recs n) (s.openStart n f).drive (s.openStart n f).unit)) raise port := by
  unfold Eff.startCircuit State.openStart
  cases f.verify with
  | none => exact (h.offerMakes n .source none fun _ hk => hk).of_recs fun m => by simp [changeOn]
  | some v =>
    have hverify := h.upd n fun x => { x with verify := some (v.field f.legs) }
    simp only
    rw [show (e.updRec n fun x => { x with verify := some (v.field f.legs) }).ver.idleUnit = s.ver.idleUnit from congrArg Verifier.idleUnit h.ver]
    cases s.ver.idleUnit with
    | some u =>
      have hstate := hverify.upd n fun x => { x with st := .verifying }
      have hassign := (hstate.withVer (s.ver.assign u (s.handle n) (v.field f.legs))).offerMakes n .token (some u) (ks := f.legs) fun _ hk => hk
      simp only
      rw [show ((e.updRec n fun x => { x with verify := some (v.field f.legs) }).ver.assign u
        ((e.updRec n fun x => { x with verify := some (v.field f.legs) }).handleOf n) (v.field f.legs)) =
          s.ver.assign u (s.handle n) (v.field f.legs) by rw [hverify.handleOf, hverify.ver]]
      refine (hassign.of_recs (changeOn_changeOn _ _ _ _)).of_offer ?_
      rw [changeOn_self, changeOn_self]
      rfl
    | none =>
      have hstate := hverify.upd n fun x => { x with st := .verifyWait }
      have hwait := (hstate.withWait (s.mgr.wait ++ [s.handle n])).offerMakes n .idle none (ks := f.legs) fun _ hk => hk
      simp only
      rw [show ((e.updRec n fun x => { x with verify := some (v.field f.legs) }).setState n .verifyWait).mgr.wait ++
        [((e.updRec n fun x => { x with verify := some (v.field f.legs) }).setState n .verifyWait).handleOf n] = s.mgr.wait ++ [s.handle n] by
          rw [Eff.setState, hstate.handleOf, hstate.mgr]]
      refine (hwait.of_recs (changeOn_changeOn _ _ _ _)).of_offer ?_
      rw [changeOn_self, changeOn_self]
      rfl

/-! ### The acceptance of an OPEN -/

/-- The record that an accepted OPEN fills. -/
def State.openRecord (s : State) (r : Request) (f : OpenFields) (n : Nat) : Rec :=
  s.openedRecord r f.common f.source f.legs none [s.handle n] (s.recordOf n).gen

/-- An OPEN accepted, up to the release of partners (03 R49, R55, R56). -/
theorem acceptOpen_reads (s : State) (r : Request) (f : OpenFields) (n : Nat) : ∃ (e : Eff) (fan : Tbl (List Nat)),
    (Eff.start s).acceptOpen s.port.defaults r f n = e.releasePartners ((Eff.start s).partnersOf (s.mgr.victims f.legs)) ∧
    e.Reads ((s.withStart (s.openStart n f)).withFan fan) (fun m => if m = n then (s.openStart n f).change (s.openRecord r f n) else s.preempting f.legs m)
      (f.legs.map (s.takingEntry n (s.openRecord r f n) (s.openStart n f).drive (s.openStart n f).unit))
      ((s.victimsOf f.legs).map fun v => (81 + v, .preempted)) s.port ∧
    ∀ k : Slot, Tbl.get [] fan k.key = s.mgr.fanOf k ++ if f.source = .inbound k then [n] else [] := by
  have hpre := (Eff.Reads.start s).preempt f.legs
  have hfilled := hpre.fill (hpre.faultOf f.source) n r f.common f.legs none [s.handle n]
  have hjoined := hfilled.joinFan (some f.source) n
  have hstarted := hjoined.startCircuit n f
  rw [if_pos rfl] at hstarted
  refine ⟨_, _, ?_, hstarted.of_recs fun m => ?_, fun k => ?_⟩
  · have hhandle : ((Eff.start s).preempt ((Eff.start s).mgr.victims f.legs)).handleOf n = s.handle n := hpre.handleOf n
    unfold Eff.acceptOpen
    simp only [hhandle]
    rfl
  · rw [changeOn_single]
    split <;> rfl
  · refine (fanOf_joinFan _ f.source n k).trans ?_
    rw [hfilled.fanOf]

/-- An OPEN is over the offer limit when its slots, with those that released partners carry, are more than 8 (03 R58). -/
theorem overLimit_acceptOpen {s : State} {f : OpenFields} {n : Nat} (hn : n ∉ s.releasedOf f.legs) (r : Request) :
    overLimit ((Eff.start s).acceptOpen s.port.defaults r f n) = decide (8 < (s.offerSlotsOf f.legs).length) ∧
      (offerSlots ((Eff.start s).acceptOpen s.port.defaults r f n).offer).length = (s.offerSlotsOf f.legs).length := by
  obtain ⟨e, fan, he, h, _⟩ := acceptOpen_reads s r f n
  have hlen : (offerSlots ((Eff.start s).acceptOpen s.port.defaults r f n).offer).length = (s.offerSlotsOf f.legs).length := by
    rw [he]
    refine length_offerSlots ?_ fun q hq => ?_
    · rw [Eff.offered, h.offer, List.map_map]
      exact List.map_id _
    · rw [h.recs, if_neg fun hqn : q = n => hn (hqn ▸ hq), preempting_released hq, carrying_taken]
  exact ⟨by rw [overLimit_eq, hlen], hlen⟩

end Sys2Proof.Machine

/-! SUPPORT. OPEN: its checks in order, its refusals, and the circuit it makes (03 R43-R50, R55-R58, 04 R74-R76). -/

namespace Sys2Proof.Machine

set_option Elab.async false

/-! ### Allocation (01 R12, R13) -/

section Allocate
variable {s : State} {want other : Option Nat} {n : Nat}

theorem isFree_start (s : State) (n : Nat) : (Eff.start s).isFree n = true ↔ (s.recordOf n).st = .free := decide_eq_true_iff

theorem allocate_allocates (h : s.allocates want other n) : (Eff.start s).allocate want other = .ok n := by
  obtain ⟨hfree, hwant⟩ := h
  cases want with
  | some m =>
    obtain rfl : m = n := hwant
    exact if_pos ((isFree_start s m).2 hfree)
  | none =>
    obtain ⟨hn, hother, hlow⟩ := hwant
    have hfound : (Eff.start s).lowestFree 0 Config.testPool other = some n := by
      refine List.find?_range'_eq_some.2 ⟨?_, List.mem_range'_1.2 ⟨Nat.zero_le _, by rw [Nat.zero_add]; exact hn⟩, fun m _ hm => ?_⟩
      · rw [(isFree_start s n).2 hfree, Bool.true_and]
        exact decide_eq_true hother
      · rw [Bool.not_eq_true', Bool.and_eq_false_iff]
        by_cases hmo : some m = other
        · exact .inr (decide_eq_false fun h => h hmo)
        · exact .inl (Bool.eq_false_iff.2 fun h => hlow m hm hmo ((isFree_start s m).1 h))
    simp only [Eff.allocate, hfound]

/-- The record named is not FREE (01 R12). -/
theorem allocate_conflict {m : Nat} (h : (s.recordOf m).st ≠ .free) : (Eff.start s).allocate (some m) other = .error .stateConflict :=
  if_neg fun hf => h ((isFree_start s m).1 hf)

/-- No record of the control pool is FREE, another apart (01 R12, R13). -/
theorem allocate_noRecord (h : ∀ m, m < 480 → some m ≠ other → (s.recordOf m).st ≠ .free) : (Eff.start s).allocate none other = .error .noRecord := by
  have hnone : (Eff.start s).lowestFree 0 Config.testPool other = none := by
    refine List.find?_eq_none.2 fun m hm hfree => ?_
    obtain ⟨hf, hother⟩ := Bool.and_eq_true_iff.1 hfree
    obtain ⟨_, hlt⟩ := List.mem_range'_1.1 hm
    rw [Nat.zero_add] at hlt
    exact h m hlt (of_decide_eq_true hother) ((isFree_start s m).1 hf)
  simp only [Eff.allocate, hnone]

end Allocate

/-! ### The slots and the lists (03 R45, 01 R18) -/

theorem firstBusy_none {s : State} {cls : CircClass} {ks : List Slot} (h : ∀ k ∈ ks, s.mayTake cls k) : (Eff.start s).firstBusy cls none ks = none :=
  List.find?_eq_none.2 fun k hk hbusy => by
    have havail : (Eff.start s).mgr.available cls none k = true := (available_iff s cls k).2 (h k hk)
    rw [havail] at hbusy
    cases hbusy

theorem firstBusy_some {s : State} {cls : CircClass} {k : Slot} {pre post : List Slot} (hpre : ∀ j ∈ pre, s.mayTake cls j) (hk : ¬s.mayTake cls k) :
    (Eff.start s).firstBusy cls none (pre ++ k :: post) = some k := by
  refine List.find?_eq_some_iff_append.2 ⟨?_, pre, post, rfl, fun j hj => ?_⟩
  · rw [Bool.not_eq_true', Bool.eq_false_iff]
    exact fun h => hk ((available_iff s cls k).1 h)
  · rw [show (Eff.start s).mgr.available cls none j = true from (available_iff s cls j).2 (hpre j hj)]
    rfl

theorem fanRoom_full {s : State} {src : Source} {k : Slot} {more : Nat} (hk : src = .inbound k) (hfull : 8 < (s.mgr.fanOf k).length + more) :
    (Eff.start s).fanRoom src more = false :=
  Bool.eq_false_iff.2 fun h => Nat.not_le.2 hfull ((fanRoom_iff s src more).1 h k hk)

/-! ### The offer limit (03 R58; log 26) -/

/-- The victim on a slot of a claim falls with a partner to release exactly when the taking of the slot releases one (03 R58). -/
theorem releases_victim {s : State} {ks : List Slot} {j : Slot} {v : Nat} (hj : j ∈ ks) (hv : s.mgr.holder j = some v) :
    (s.falls ks v && match (s.recordOf v).partner with
      | some q => ((Eff.start s).partnersOf (s.mgr.victims ks)).contains q
      | none => false) = (s.releasedBy ks j).isSome := by
  rw [releasedBy_eq, hv, Option.bind_some]
  cases hfall : s.falls ks v with
  | false => simp [State.releasedWith, hfall]
  | true =>
    cases hp : (s.recordOf v).partner with
    | none => simp [State.releasedWith, hp]
    | some q =>
      rw [Bool.true_and, Bool.eq_iff_iff, List.contains_iff_mem, mem_partnersOf, Option.isSome_iff_exists]
      constructor
      · intro hq
        obtain ⟨w, _, hw⟩ := releasedOf_some hq
        exact ⟨q, releasedWith_of_falls hfall hp (releasedWith_some hw).2.2⟩
      · rintro ⟨q', hq'⟩
        obtain rfl : q' = q := Option.some.inj ((releasedWith_some hq').2.1.symm.trans hp)
        exact mem_releasedOf.2 ⟨j, hj, by rw [releasedBy_eq, hv]; exact hq'⟩

/-- The slot that a refusal over the offer limit names: the first whose taking releases a partner (log 26). -/
theorem limitSlot_eq {s : State} {ks pre post : List Slot} {k : Slot} (hks : ks = pre ++ k :: post) (hpre : ∀ j ∈ pre, s.releasedBy ks j = none)
    (hk : s.releasedBy ks k ≠ none) : limitSlot ((s.mgr.victims ks).foldl Eff.takeLeg (Eff.start s)) (s.mgr.victims ks) = some k := by
  have h := (Eff.Reads.start s).taken ks
  have hcond (j : Slot) (v : Nat) (hj : j ∈ ks) (hv : s.mgr.holder j = some v) :
      (((s.mgr.victims ks).foldl Eff.takeLeg (Eff.start s)).fallen v &&
        match (((s.mgr.victims ks).foldl Eff.takeLeg (Eff.start s)).recOf v).partner with
        | some q => ((Eff.start s).partnersOf (s.mgr.victims ks)).contains q
        | none => false) = (s.releasedBy ks j).isSome := by
    rw [h.fallen, falls_iff, h.recs]
    exact releases_victim hj hv
  obtain ⟨v, hv⟩ : ∃ v, s.mgr.holder k = some v := by
    cases hv : s.mgr.holder k with
    | none => exact absurd (by rw [releasedBy_eq, hv, Option.bind_none]) hk
    | some v => exact ⟨v, rfl⟩
  have hkmem : k ∈ ks := by rw [hks]; simp
  have hvictims : s.mgr.victims ks = s.mgr.victims pre ++ (k, v) :: s.mgr.victims post := by
    conv_lhs => rw [hks]
    simp only [Manager.victims, List.filterMap_append]
    rw [List.filterMap_cons_some (by rw [hv]; rfl)]
  refine Option.map_eq_some_iff.2 ⟨(k, v), List.find?_eq_some_iff_append.2 ⟨?_, _, _, hvictims, fun ⟨j, w⟩ hj => ?_⟩, rfl⟩
  · exact (hcond k v hkmem hv).trans (Option.isSome_iff_ne_none.2 hk)
  · obtain ⟨hjpre, hw⟩ := mem_victims.1 hj
    exact congrArg (!·) ((hcond j w (by rw [hks]; exact List.mem_append_left _ hjpre) hw).trans (by rw [hpre j hjpre, Option.isSome_none]))

/-! ### Units to verify on (04 R74, R75) -/

theorem idleUnit_none {v : Verifier} (h : ∀ u : Fin 4, (v.unit u).st ≠ .idle) : v.idleUnit = none :=
  List.find?_eq_none.2 fun u _ hu => h u (of_decide_eq_true hu)

theorem idleUnit_first {v : Verifier} {u : Fin 4} (hu : (v.unit u).st = .idle) (hf : ∀ w : Fin 4, w < u → (v.unit w).st ≠ .idle) :
    v.idleUnit = some u := by
  have hsplit : ∀ u : Fin 4, allUnits = allUnits.take u ++ u :: allUnits.drop (u + 1) := by decide
  have hlt : ∀ u w : Fin 4, w ∈ allUnits.take u → w < u := by decide
  refine List.find?_eq_some_iff_append.2 ⟨decide_eq_true hu, _, _, hsplit u, fun w hw => ?_⟩
  simpa using hf w (hlt u w hw)

/-! ### A request refused -/

/-- A request of the circuit manager whose effect, as the claim finds the part, is a refusal. -/
theorem managerRequest_refuses {s : State} {kind : Byte} {r : Request} {p : Port} {st : Status} {k : Option Slot} (ht : s.Takes .manager kind r p)
    (he : effRequest p.defaults r (Eff.start { s with port := p }) = (Eff.start { s with port := p }).refuse r st k) :
    s.managerRequest kind = { s with port := p.answerRequest r st (circuitFields r.msg ++ optSlotBytes k) } := by
  rw [managerRequest_takes ht, takeClaim_answers (p := p.answerRequest r st (circuitFields r.msg ++ optSlotBytes k))]
  exact he

/-- An OPEN refused: nothing but its slot changes. -/
theorem open_refused {s : State} {r : Request} {p : Port} {st : Status} (named : Option Slot) (ht : s.TakesWhole 0x01 25 r p)
    (he : effOpen p.defaults r (Eff.start { s with port := p }) = (Eff.start { s with port := p }).refuse r st named) :
    exec .openCircuit s = .next { s with
      port := p.answerRequest r st ([byteAt r.msg 4, byteAt r.msg 5, 0xFF, 0xFF] ++ optSlotBytes named) } := by
  have hk := kind_of_takeRequest ht.takes.head
  have hf : circuitFields r.msg = [byteAt r.msg 4, byteAt r.msg 5, 0xFF, 0xFF] := if_pos hk
  rw [← hf]
  exact congrArg Host.Outcome.next (managerRequest_refuses ht.takes ((effRequest_open _ _ _ hk).trans he))

/-! ### The checks of an OPEN, one after another (03 R48) -/

section Open
variable {s : State} {d : Defaults} {r : Request} {f : OpenFields} {n : Nat}

theorem open_unallocated {st : Status} (h : (Eff.start s).allocate f.record none = .error st) :
    (Eff.start s).open d r f = (Eff.start s).refuse r st none := by
  unfold Eff.open
  rw [h]

theorem open_busy {k : Slot} (ha : s.allocates f.record none n) (h : (Eff.start s).firstBusy f.common.cls none f.legs = some k) :
    (Eff.start s).open d r f = (Eff.start s).refuse r .slotBusy (some k) := by
  unfold Eff.open
  rw [allocate_allocates ha]
  simp only [h]

/-- An OPEN that finds its record and its slots goes on to the list of its source, the offer limit and the room to verify. -/
theorem open_allowed (ha : s.allocates f.record none n) (hmay : ∀ k ∈ f.legs, s.mayTake f.common.cls k) :
    (Eff.start s).open d r f =
      if !((Eff.start s).fanRoom f.source 1) then (Eff.start s).refuse r .fanoutLimit f.source.slot?
      else if overLimit ((Eff.start s).acceptOpen d r f n) then (Eff.start s).refuseLimit r (s.mgr.victims f.legs)
      else if f.verify.isSome && !(Eff.start s).verifyRoom then (Eff.start s).refuse r .noVerifyRoom none
      else (Eff.start s).acceptOpen d r f n := by
  unfold Eff.open
  rw [allocate_allocates ha]
  simp only [firstBusy_none hmay]
  rfl

theorem open_listFull {k : Slot} (ha : s.allocates f.record none n) (hmay : ∀ k ∈ f.legs, s.mayTake f.common.cls k) (hk : f.source = .inbound k)
    (hfull : 8 ≤ (s.mgr.fanOf k).length) : (Eff.start s).open d r f = (Eff.start s).refuse r .fanoutLimit (some k) := by
  rw [open_allowed ha hmay, fanRoom_full hk (Nat.lt_succ_of_le hfull), hk]
  rfl

/-- The list of the source has room. -/
theorem open_roomy (ha : s.allocates f.record none n) (hmay : ∀ k ∈ f.legs, s.mayTake f.common.cls k) (hfan : s.fanRoom f.source 1)
    (hn : n ∉ s.releasedOf f.legs) : (Eff.start s).open s.port.defaults r f =
      if 8 < (s.offerSlotsOf f.legs).length then (Eff.start s).refuseLimit r (s.mgr.victims f.legs)
      else if f.verify.isSome && !(Eff.start s).verifyRoom then (Eff.start s).refuse r .noVerifyRoom none
      else (Eff.start s).acceptOpen s.port.defaults r f n := by
  rw [open_allowed ha hmay, (fanRoom_iff s f.source 1).2 hfan, (overLimit_acceptOpen hn r).1]
  simp only [Bool.not_true, Bool.false_eq_true, if_false, decide_eq_true_eq]

end Open

/-- Settles O37: the fields are read by the lemmas on messages, and each refusal is the first of the checks that fails. -/
theorem openIsRefusedAtItsFirstFailingCheck : Obligations.OpenIsRefusedAtItsFirstFailingCheck := by
  refine ⟨parseOpen_iff, fun s r p ht => ?_⟩
  have hread {f : OpenFields} (hf : parseOpen r.msg = some f) (e : Eff) : effOpen p.defaults r e = e.open p.defaults r f := checked_some ht.whole hf
  refine ⟨fun hnone => open_refused none ht (checked_none ht.whole hnone), fun f hf => ⟨fun m hm hst => ?_, fun hany hst => ?_, fun n ha =>
    ⟨fun k pre post hlegs hpre hk => ?_, fun hmay => ⟨fun k hk hfull => ?_, fun hfan hown => ⟨fun k pre post hover hlegs hpre hk => ?_,
      fun hunder hverify hunits hwait => ?_⟩⟩⟩⟩⟩
  · refine open_refused none ht ((hread hf _).trans (open_unallocated ?_))
    rw [hm]
    exact allocate_conflict hst
  · refine open_refused none ht ((hread hf _).trans (open_unallocated ?_))
    rw [hany]
    exact allocate_noRecord fun m hm _ => hst m hm
  · refine open_refused (some k) ht ((hread hf _).trans (open_busy ha ?_))
    rw [hlegs]
    exact firstBusy_some hpre hk
  · exact open_refused (some k) ht ((hread hf _).trans (open_listFull ha hmay hk hfull))
  · have hn : n ∉ s.releasedOf f.legs := fun h => by
      obtain ⟨j, hj, hq⟩ := mem_releasedOf.1 h
      exact hown j hj hq
    refine open_refused (some k) ht ((hread hf _).trans ((open_roomy (s := { s with port := p }) ha hmay hfan hn).trans ((if_pos hover).trans ?_)))
    exact congrArg (Eff.refuse _ r .slotBusy) (limitSlot_eq (s := { s with port := p }) hlegs hpre hk)
  · have hn : n ∉ s.releasedOf f.legs := fun h => by
      obtain ⟨j, hj, hq⟩ := mem_releasedOf.1 h
      exact hown j hj hq
    refine open_refused none ht ((hread hf _).trans ((open_roomy (s := { s with port := p }) ha hmay hfan hn).trans
      ((if_neg (Nat.not_lt.2 hunder)).trans (if_pos ?_))))
    have hroom : (Eff.start { s with port := p }).verifyRoom = false := by
      rw [Eff.verifyRoom, start_ver, idleUnit_none hunits]
      exact decide_eq_false (Nat.not_lt.2 hwait)
    rw [hroom, Option.isSome_iff_ne_none.2 hverify]
    rfl

end Sys2Proof.Machine

/-! SUPPORT. OPEN accepted (03 R49-R50, R55-R58, 04 R75, R76): on slots that no one holds, and by preemption. -/

namespace Sys2Proof.Machine

set_option Elab.async false

/-! ### OPEN accepted -/

theorem verifyRoom_start (s : State) : (Eff.start s).verifyRoom = true ↔ s.ver.idleUnit ≠ none ∨ s.mgr.wait.length < 8 := by
  rw [Eff.verifyRoom, Bool.or_eq_true, Option.isSome_iff_ne_none]
  exact or_congr_right decide_eq_true_iff

/-- No opening starts with a displacement. -/
theorem openStart_displ (s : State) (r : Request) (f : OpenFields) (n : Nat) : ((s.openStart n f).change (s.openRecord r f n)).displ = none := by
  unfold State.openStart
  cases f.verify with
  | none => rfl
  | some v => cases s.ver.idleUnit <;> rfl

theorem openRecord_withPort {s : State} {p : Port} (h : p.defaults = s.port.defaults) (r : Request) (f : OpenFields) (n : Nat) :
    ({ s with port := p } : State).openRecord r f n = s.openRecord r f n := by
  simp only [State.openRecord, State.openedRecord, h]
  rfl

theorem State.Apart.withPort {s : State} {ks : List Slot} {own : List Nat} (h : s.Apart ks own) (p : Port) :
    ({ s with port := p } : State).Apart ks own := ⟨h.once, h.own, h.links, h.untaken⟩

/-- The next state of an OPEN accepted. -/
theorem exec_open {s : State} {r : Request} {p : Port} {f : OpenFields} {n : Nat} (ht : s.TakesWhole 0x01 25 r p) (hf : parseOpen r.msg = some f)
    (ha : s.allocates f.record none n) (hmay : ∀ k ∈ f.legs, s.mayTake f.common.cls k) (hfan : s.fanRoom f.source 1) (hfits : s.offerFits f.legs)
    (hap : s.Apart f.legs [n]) (hverify : f.verify ≠ none → s.ver.idleUnit ≠ none ∨ s.mgr.wait.length < 8) :
    ∃ t, exec .openCircuit s = .next t ∧
      (s.withStart (s.openStart n f)).circuitClaim t
        (f.legs.map (s.takingEntry n (s.openRecord r f n) (s.openStart n f).drive (s.openStart n f).unit) ++ s.partnerBreaks f.legs)
        (s.preemptionRaises f.legs) p ∧
      s.fanJoins t n f.source ∧ (s.recordsTake t f.legs [n] fun _ => (s.openStart n f).change (s.openRecord r f n)) ∧
      t.ver = (s.openStart n f).ver := by
  have hk := kind_of_takeRequest ht.takes.head
  have hdef := takeRequest_defaults ht.takes.head
  have hn : n ∉ s.releasedOf f.legs := fun h => hap.own n h List.mem_cons_self
  obtain ⟨e, fan, he, h, hlists⟩ := acceptOpen_reads { s with port := p } r f n
  obtain ⟨hunder, hroom⟩ := hfits
  have hfit := fits_of_offerSlots (list := s.sw.list) (offer := ((Eff.start { s with port := p }).acceptOpen p.defaults r f n).offer)
    (by rw [(overLimit_acceptOpen (s := { s with port := p }) hn r).2]; exact hroom)
  have hall := h.releaseAll (hap.withPort p) (fun m hm => if_neg fun hmn => hm (by rw [hmn]; exact List.mem_cons_self))
    fun m hm _ => by rw [if_pos (List.mem_singleton.1 hm)]; exact openStart_displ _ r f n
  rw [← he] at hall
  have heff : effect p.defaults (.request r) (Eff.start { s with port := p }) = (Eff.start { s with port := p }).acceptOpen p.defaults r f n := by
    refine (effRequest_open _ _ _ hk).trans ((checked_some ht.whole hf).trans ((open_roomy (s := { s with port := p }) ha hmay hfan hn).trans
      ((if_neg (Nat.not_lt.2 hunder)).trans (if_neg ?_))))
    rw [Bool.and_eq_true, Option.isSome_iff_ne_none]
    rintro ⟨hv, hnot⟩
    rw [(verifyRoom_start { s with port := p }).2 (hverify hv)] at hnot
    cases hnot
  have hoffer := hall.offer
  obtain ⟨t, hx, hclaim, hrecs, hfans, hver⟩ := exec_of_fan_reads (fan := fan) (v := (s.openStart n f).ver) (w := (s.openStart n f).wait)
    (.request .openCircuit 0x01 25 r p (by simp [requestKinds]) ht.takes) (by rw [heff]; exact hall) (hoffer ▸ hfit)
  rw [openRecord_withPort hdef] at hclaim
  refine ⟨t, hx, hclaim, fun k => (hfans k).trans (hlists k), fun m => ?_, hver⟩
  rw [hrecs, openRecord_withPort hdef]
  split
  · next hm => exact if_pos (List.mem_singleton.1 hm)
  · rfl

/-! ### Slots that no one holds -/

section Unheld
variable {s : State} {ks : List Slot} (h : ∀ k ∈ ks, s.mgr.holder k = none)
include h

theorem mayTake_unheld (cls : CircClass) : ∀ k ∈ ks, s.mayTake cls k := fun k hk v hv => by rw [h k hk] at hv; cases hv

theorem victimsOf_unheld : s.victimsOf ks = [] :=
  List.eq_nil_iff_forall_not_mem.2 fun v hv => by
    obtain ⟨k, hk, hh⟩ := mem_victimsOf.1 hv
    rw [h k hk] at hh
    cases hh

theorem releasedOf_unheld : s.releasedOf ks = [] :=
  List.eq_nil_iff_forall_not_mem.2 fun q hq => by
    obtain ⟨v, hv, _⟩ := releasedOf_some hq
    rw [victimsOf_unheld h] at hv
    cases hv

theorem apart_unheld (own : List Nat) : s.Apart ks own where
  once := by rw [victimsOf_unheld h]; nofun
  own := by rw [releasedOf_unheld h]; nofun
  links := by rw [releasedOf_unheld h]; nofun
  untaken := by rw [releasedOf_unheld h]; nofun

theorem partnerBreaks_unheld : s.partnerBreaks ks = [] := by rw [State.partnerBreaks, releasedOf_unheld h]; rfl

theorem preemptionRaises_unheld : s.preemptionRaises ks = [] := by rw [State.preemptionRaises, releasedOf_unheld h, victimsOf_unheld h]; rfl

theorem takingEntry_unheld (n : Nat) (x : Rec) (d : Drive) (u : Option (Fin 4)) : ∀ k ∈ ks, s.takingEntry n x d u k = s.legEntry n x d u .made k := by
  intro k hk
  simp only [State.takingEntry, State.legEntry, h k hk, Option.toList, List.map_nil, List.append_nil, List.nil_append]

theorem preempted_unheld (m : Nat) : s.preempted ks m = s.recordOf m := by
  have htaken := taken_of_not_victim (m := m) (by rw [victimsOf_unheld h]; nofun)
  unfold State.preempted
  simp only [releasedOf_unheld h, victimsOf_unheld h, List.not_mem_nil, false_and, if_false, List.flatMap_nil]
  exact htaken

theorem length_offerSlotsOf_unheld : (s.offerSlotsOf ks).length ≤ ks.length := by
  have hnone : ks.filterMap (s.releasedBy ks) = [] := List.filterMap_eq_nil_iff.2 fun k hk => by rw [releasedBy_eq, h k hk]; rfl
  rw [State.offerSlotsOf, hnone, List.flatMap_nil, List.append_nil]
  exact (List.dedup_sublist ks).length_le

theorem offerFits_unheld (hlen : ks.length ≤ 8) (hroom : s.sw.list.length + ks.length ≤ 96) : s.offerFits ks := by
  have := length_offerSlotsOf_unheld h
  exact ⟨by omega, by omega⟩

end Unheld

/-- The legs of an OPEN are at most four (03 R48). -/
theorem length_legs_of_parseOpen {m : List Byte} {f : OpenFields} (h : parseOpen m = some f) : f.legs.length ≤ 4 := by
  obtain ⟨_, _, _, ⟨_, _, h4, _⟩, _⟩ := (parseOpen_iff m f).1 h
  exact h4

/-- Settles O35: an OPEN accepted with no one on its slots takes no leg and releases no partner. -/
theorem openMakesItsCircuit : Obligations.OpenMakesItsCircuit := by
  intro s r p f n ht hf hverify ha hfree hfan hroom
  have h4 := length_legs_of_parseOpen hf
  have hstart := openStart_plain (s := s) (n := n) hverify
  obtain ⟨t, hx, hclaim, hjoins, hrecs, _⟩ := exec_open ht hf ha (mayTake_unheld hfree _) hfan (offerFits_unheld hfree (by omega) hroom)
    (apart_unheld hfree [n]) fun h => absurd hverify h
  rw [hstart, partnerBreaks_unheld hfree, preemptionRaises_unheld hfree, List.append_nil,
    List.map_congr_left (takingEntry_unheld hfree n _ _ _)] at hclaim
  refine ⟨t, hx, hclaim, fun m => (hrecs m).trans ?_, hjoins⟩
  rw [hstart, preempted_unheld hfree]
  simp only [List.mem_singleton]
  rfl

end Sys2Proof.Machine

/-! SUPPORT. OPEN_PAIR: its checks in order, its refusals, and the two circuits it makes (03 R52-R54, R58; 01 R13, R15). -/

namespace Sys2Proof.Machine

set_option Elab.async false

/-! ### The acceptance of an OPEN_PAIR -/

/-- The slots of a pair, in the order of its legs (03 R52). -/
def PairFields.slots (f : PairFields) : List Slot := [f.bOut, f.aOut]

/-- The two records that an accepted OPEN_PAIR fills, each the partner of the other (03 R53). -/
def State.pairRecord (s : State) (r : Request) (f : PairFields) (x y m : Nat) : Rec :=
  if m = x then s.openedRecord r f.common f.aIn [f.bOut] (some y) [s.handle x, s.handle y] (s.recordOf x).gen
  else s.openedRecord r f.common f.bIn [f.aOut] (some x) [s.handle x, s.handle y] (s.recordOf y).gen

/-- The entries of a pair's own legs, for b_out and then a_out (03 R53). -/
def State.pairEntries (s : State) (r : Request) (f : PairFields) (x y : Nat) : List Entry :=
  [s.takingEntry x (s.pairRecord r f x y x) .source none f.bOut, s.takingEntry y (s.pairRecord r f x y y) .source none f.aOut]

/-- An OPEN_PAIR accepted, up to the release of partners (03 R53, R55, R56). -/
theorem acceptPair_reads (s : State) (r : Request) (f : PairFields) {x y : Nat} (hne : x ≠ y) : ∃ (e : Eff) (fan : Tbl (List Nat)),
    (Eff.start s).acceptPair s.port.defaults r f x y = e.releasePartners ((Eff.start s).partnersOf (s.mgr.victims f.slots)) ∧
    e.Reads (s.withFan fan) (fun m => if m ∈ [x, y] then s.pairRecord r f x y m else s.preempting f.slots m) (s.pairEntries r f x y)
      ((s.victimsOf f.slots).map fun v => (81 + v, .preempted)) s.port ∧
    ∀ k : Slot, Tbl.get [] fan k.key = s.mgr.fanOf k ++ (if f.aIn = .inbound k then [x] else []) ++ if f.bIn = .inbound k then [y] else [] := by
  have hpre := (Eff.Reads.start s).preempt f.slots
  have hx := hpre.fill (hpre.faultOf f.aIn) x r f.common [f.bOut] (some y) [s.handle x, s.handle y]
  have hy := hx.fill (hpre.faultOf f.bIn) y r f.common [f.aOut] (some x) [s.handle x, s.handle y]
  have hfilled := hy.of_recs (recs' := fun m => if m ∈ [x, y] then s.pairRecord r f x y m else s.preempting f.slots m) fun m => by
    by_cases hmx : m = x
    · subst hmx
      simp [State.pairRecord, hne]
    · by_cases hmy : m = y
      · subst hmy
        simp [State.pairRecord, hmx]
      · simp [hmx, hmy]
  have hjoined := (hfilled.joinFan (some f.aIn) x).joinFan (some f.bIn) y
  have hmade := (hjoined.offerMakes x .source none (ks := f.slots) (own := [f.bOut]) (by simp [PairFields.slots])).offerMakes y .source none
    (ks := f.slots) (own := [f.aOut]) (by simp [PairFields.slots])
  rw [if_pos (by simp), if_pos (by simp)] at hmade
  refine ⟨_, _, ?_, hmade, fun k => ?_⟩
  · have hhandle (n : Nat) : ((Eff.start s).preempt ((Eff.start s).mgr.victims [f.bOut, f.aOut])).handleOf n = s.handle n := hpre.handleOf n
    unfold Eff.acceptPair
    simp only [hhandle]
    rfl
  · refine (fanOf_joinFan _ f.bIn y k).trans (congrArg (· ++ _) ((fanOf_joinFan _ f.aIn x k).trans ?_))
    rw [hfilled.fanOf]

/-- An OPEN_PAIR is over the offer limit when its slots, with those that released partners carry, are more than 8 (03 R58). -/
theorem overLimit_acceptPair {s : State} {f : PairFields} {x y : Nat} (hne : x ≠ y) (hn : ∀ n ∈ [x, y], n ∉ s.releasedOf f.slots) (r : Request) :
    overLimit ((Eff.start s).acceptPair s.port.defaults r f x y) = decide (8 < (s.offerSlotsOf f.slots).length) ∧
      (offerSlots ((Eff.start s).acceptPair s.port.defaults r f x y).offer).length = (s.offerSlotsOf f.slots).length := by
  obtain ⟨e, fan, he, h, _⟩ := acceptPair_reads s r f hne
  have hlen : (offerSlots ((Eff.start s).acceptPair s.port.defaults r f x y).offer).length = (s.offerSlotsOf f.slots).length := by
    rw [he]
    refine length_offerSlots (by rw [Eff.offered, h.offer]; rfl) fun q hq => ?_
    rw [h.recs, if_neg fun hqn => hn q hqn hq, preempting_released hq, carrying_taken]
  exact ⟨by rw [overLimit_eq, hlen], hlen⟩

/-! ### The checks of an OPEN_PAIR, one after another (03 R52) -/

/-- How many of a pair's records join a list (03 R52). -/
def PairFields.more (f : PairFields) : Nat := if f.aIn = f.bIn then 2 else 1

/-- A pair takes two records (01 R13). -/
theorem pair_ne {s : State} {m : List Byte} {f : PairFields} {x y : Nat} (hf : parsePair m = some f) (hx : s.allocates f.x f.y x)
    (hy : s.allocates f.y (some x) y) : x ≠ y := by
  obtain ⟨_, _, hxy, _⟩ := (parsePair_iff m f).1 hf
  intro h
  subst h
  cases hfy : f.y with
  | none =>
    obtain ⟨_, hwant⟩ := hy
    rw [hfy] at hwant
    exact hwant.2.1 rfl
  | some b =>
    have hb : b = x := by
      obtain ⟨_, hwant⟩ := hy
      rw [hfy] at hwant
      exact hwant
    obtain ⟨_, hwant⟩ := hx
    cases hfx : f.x with
    | none =>
      rw [hfx, hfy] at hwant
      exact hwant.2.1 (by rw [hb])
    | some a =>
      rw [hfx] at hwant
      have ha : a = x := hwant
      have hnone := hxy (by rw [hfx, hfy, ha, hb])
      rw [hfx] at hnone
      cases hnone

section OpenPair
variable {s : State} {d : Defaults} {r : Request} {f : PairFields} {x y : Nat}

theorem openPair_unallocated {st : Status} (h : (Eff.start s).allocatePair f = .error st) :
    (Eff.start s).openPair d r f = (Eff.start s).refuse r st none := by
  unfold Eff.openPair
  rw [h]

theorem allocatePair_first {st : Status} (h : (Eff.start s).allocate f.x f.y = .error st) : (Eff.start s).allocatePair f = .error st := by
  unfold Eff.allocatePair
  rw [h]

theorem allocatePair_second {st : Status} (hx : s.allocates f.x f.y x) (h : (Eff.start s).allocate f.y (some x) = .error st) :
    (Eff.start s).allocatePair f = .error st := by
  unfold Eff.allocatePair
  rw [allocate_allocates hx]
  simp only [h]

theorem allocatePair_both (hx : s.allocates f.x f.y x) (hy : s.allocates f.y (some x) y) : (Eff.start s).allocatePair f = .ok (x, y) := by
  unfold Eff.allocatePair
  rw [allocate_allocates hx]
  simp only [allocate_allocates hy]

theorem openPair_busy {k : Slot} (hx : s.allocates f.x f.y x) (hy : s.allocates f.y (some x) y)
    (h : (Eff.start s).firstBusy f.common.cls none f.slots = some k) : (Eff.start s).openPair d r f = (Eff.start s).refuse r .slotBusy (some k) := by
  rw [PairFields.slots] at h
  unfold Eff.openPair
  rw [allocatePair_both hx hy]
  simp only [h]

/-- An OPEN_PAIR that finds its records and its slots goes on to the lists of its sources. -/
theorem openPair_listFull {k : Slot} (hx : s.allocates f.x f.y x) (hy : s.allocates f.y (some x) y) (hmay : ∀ k ∈ f.slots, s.mayTake f.common.cls k)
    (h : (Eff.start s).pairFanFull f = some k) : (Eff.start s).openPair d r f = (Eff.start s).refuse r .fanoutLimit (some k) := by
  have hbusy := firstBusy_none hmay
  rw [PairFields.slots] at hbusy
  unfold Eff.openPair
  rw [allocatePair_both hx hy]
  simp only [hbusy, h]

/-- The lists of the sources have room. -/
theorem openPair_roomy (hx : s.allocates f.x f.y x) (hy : s.allocates f.y (some x) y) (hmay : ∀ k ∈ f.slots, s.mayTake f.common.cls k)
    (hfull : (Eff.start s).pairFanFull f = none) (hne : x ≠ y) (hn : ∀ n ∈ [x, y], n ∉ s.releasedOf f.slots) :
    (Eff.start s).openPair s.port.defaults r f =
      if 8 < (s.offerSlotsOf f.slots).length then (Eff.start s).refuseLimit r (s.mgr.victims f.slots)
      else (Eff.start s).acceptPair s.port.defaults r f x y := by
  have hbusy := firstBusy_none hmay
  rw [PairFields.slots] at hbusy
  unfold Eff.openPair
  rw [allocatePair_both hx hy]
  simp only [hbusy, hfull, (overLimit_acceptPair hne hn r).1, decide_eq_true_eq]
  rfl

theorem pairFanFull_first {k : Slot} (hk : f.aIn = .inbound k) (h : 8 < (s.mgr.fanOf k).length + f.more) : (Eff.start s).pairFanFull f = some k := by
  unfold Eff.pairFanFull
  simp only
  rw [show (if f.aIn = f.bIn then 2 else 1) = f.more from rfl, fanRoom_full hk h, hk]
  rfl

theorem pairFanFull_second {k : Slot} (ha : s.fanRoom f.aIn f.more) (hk : f.bIn = .inbound k) (h : 8 < (s.mgr.fanOf k).length + f.more) :
    (Eff.start s).pairFanFull f = some k := by
  unfold Eff.pairFanFull
  simp only
  rw [show (if f.aIn = f.bIn then 2 else 1) = f.more from rfl, (fanRoom_iff s f.aIn f.more).2 ha, fanRoom_full hk h, hk]
  rfl

theorem pairFanFull_none (ha : s.fanRoom f.aIn f.more) (hb : s.fanRoom f.bIn f.more) : (Eff.start s).pairFanFull f = none := by
  unfold Eff.pairFanFull
  simp only
  rw [show (if f.aIn = f.bIn then 2 else 1) = f.more from rfl, (fanRoom_iff s f.aIn f.more).2 ha, (fanRoom_iff s f.bIn f.more).2 hb]
  rfl

/-- An OPEN_PAIR refused: nothing but its slot changes. -/
theorem openPair_refused {p : Port} {st : Status} (named : Option Slot) (ht : s.TakesWhole 0x02 20 r p)
    (he : effOpenPair p.defaults r (Eff.start { s with port := p }) = (Eff.start { s with port := p }).refuse r st named) :
    exec .openPair s = .next { s with
      port := p.answerRequest r st ([byteAt r.msg 4, byteAt r.msg 5, byteAt r.msg 6, byteAt r.msg 7] ++ optSlotBytes named) } := by
  have hk := kind_of_takeRequest ht.takes.head
  have hf : circuitFields r.msg = [byteAt r.msg 4, byteAt r.msg 5, byteAt r.msg 6, byteAt r.msg 7] :=
    circuitFields_handle (by rw [hk]; decide) (by rw [hk]; decide) (by rw [hk]; decide)
  rw [← hf]
  exact congrArg Host.Outcome.next (managerRequest_refuses ht.takes ((effRequest_openPair _ _ _ hk).trans he))

theorem pairRecord_withPort {p : Port} (h : p.defaults = s.port.defaults) (m : Nat) :
    ({ s with port := p } : State).pairRecord r f x y m = s.pairRecord r f x y m := by
  simp only [State.pairRecord, State.openedRecord, h]
  rfl

/-- No opening of a pair starts with a displacement. -/
theorem pairRecord_displ (s : State) (r : Request) (f : PairFields) (x y m : Nat) : (s.pairRecord r f x y m).displ = none := by
  unfold State.pairRecord
  split <;> rfl

/-- The next state of an OPEN_PAIR accepted. -/
theorem exec_openPair {p : Port} (ht : s.TakesWhole 0x02 20 r p) (hf : parsePair r.msg = some f) (hx : s.allocates f.x f.y x)
    (hy : s.allocates f.y (some x) y) (hmay : ∀ k ∈ f.slots, s.mayTake f.common.cls k) (ha : s.fanRoom f.aIn f.more) (hb : s.fanRoom f.bIn f.more)
    (hfits : s.offerFits f.slots) (hap : s.Apart f.slots [x, y]) :
    ∃ t, exec .openPair s = .next t ∧ s.circuitClaim t (s.pairEntries r f x y ++ s.partnerBreaks f.slots) (s.preemptionRaises f.slots) p ∧
      (s.recordsTake t f.slots [x, y] (s.pairRecord r f x y)) ∧
      ∀ k, t.mgr.fanOf k = s.mgr.fanOf k ++ (if f.aIn = .inbound k then [x] else []) ++ if f.bIn = .inbound k then [y] else [] := by
  have hk := kind_of_takeRequest ht.takes.head
  have hdef := takeRequest_defaults ht.takes.head
  have hne := pair_ne hf hx hy
  have hn : ∀ n ∈ [x, y], n ∉ s.releasedOf f.slots := fun n hn h => hap.own n h hn
  obtain ⟨e, fan, he, h, hlists⟩ := acceptPair_reads { s with port := p } r f hne
  obtain ⟨hunder, hroom⟩ := hfits
  have hfit := fits_of_offerSlots (list := s.sw.list) (offer := ((Eff.start { s with port := p }).acceptPair p.defaults r f x y).offer)
    (by rw [(overLimit_acceptPair (s := { s with port := p }) hne hn r).2]; exact hroom)
  have hall := h.releaseAll (hap.withPort p) (fun m hm => if_neg hm) fun m hm _ => by rw [if_pos hm]; exact pairRecord_displ _ r f x y m
  rw [← he] at hall
  have heff : effect p.defaults (.request r) (Eff.start { s with port := p }) = (Eff.start { s with port := p }).acceptPair p.defaults r f x y :=
    (effRequest_openPair _ _ _ hk).trans ((checked_some ht.whole hf).trans ((openPair_roomy (s := { s with port := p }) hx hy hmay
      (pairFanFull_none (s := { s with port := p }) ha hb) hne hn).trans (if_neg (Nat.not_lt.2 hunder))))
  have hoffer := hall.offer
  obtain ⟨t, hx', hclaim, hrecs, hfans, _⟩ := exec_of_fan_reads (fan := fan) (v := s.ver) (w := s.mgr.wait)
    (.request .openPair 0x02 20 r p (by simp [requestKinds]) ht.takes) (by rw [heff]; exact hall) (hoffer ▸ hfit)
  rw [State.pairEntries, pairRecord_withPort hdef, pairRecord_withPort hdef] at hclaim
  refine ⟨t, hx', hclaim, fun m => ?_, fun k => (hfans k).trans (hlists k)⟩
  rw [hrecs, pairRecord_withPort hdef]
  split <;> rfl

end OpenPair

/-- Settles O39: the fields are read by the lemmas on messages, each refusal is the first of the checks that fails, and a pair accepted with no one on its
slots takes no leg and releases no partner. -/
theorem openPairMakesTwoPartners : Obligations.OpenPairMakesTwoPartners := by
  refine ⟨parsePair_iff, fun s r p ht => ?_, fun s r p f x y ht hf hx hy hb ha hfa hfb hroom => ?_⟩
  · have hread {f : PairFields} (hf : parsePair r.msg = some f) (e : Eff) : effOpenPair p.defaults r e = e.openPair p.defaults r f :=
      checked_some ht.whole hf
    refine ⟨fun hnone => openPair_refused none ht (checked_none ht.whole hnone), fun f hf => ⟨fun m hm hst => ?_, fun hany hst => ?_, fun x hx =>
      ⟨fun m hm hst => ?_, fun hany hst => ?_, fun y hy => ⟨fun hb => ?_, fun hb ha => ?_, fun hb ha => ⟨fun k hk hfull => ?_,
        fun hfa k hk hfull => ?_, fun hfa hfb hown k pre post hover hslots hpre hk => ?_⟩⟩⟩⟩⟩
    · refine openPair_refused none ht ((hread hf _).trans (openPair_unallocated (allocatePair_first ?_)))
      rw [hm]
      exact allocate_conflict hst
    · refine openPair_refused none ht ((hread hf _).trans (openPair_unallocated (allocatePair_first ?_)))
      rw [hany]
      exact allocate_noRecord hst
    · refine openPair_refused none ht ((hread hf _).trans (openPair_unallocated (allocatePair_second hx ?_)))
      rw [hm]
      exact allocate_conflict hst
    · refine openPair_refused none ht ((hread hf _).trans (openPair_unallocated (allocatePair_second hx ?_)))
      rw [hany]
      exact allocate_noRecord fun m hm hne => hst m hm fun hmx => hne (by rw [hmx])
    · exact openPair_refused (some f.bOut) ht ((hread hf _).trans (openPair_busy hx hy (firstBusy_some (pre := []) (by simp) hb)))
    · exact openPair_refused (some f.aOut) ht ((hread hf _).trans (openPair_busy hx hy
        (firstBusy_some (pre := [f.bOut]) (fun j hj => by rw [List.mem_singleton.1 hj]; exact hb) ha)))
    all_goals have hmay : ∀ k ∈ f.slots, s.mayTake f.common.cls k := by simpa [PairFields.slots] using ⟨hb, ha⟩
    · exact openPair_refused (some k) ht ((hread hf _).trans (openPair_listFull hx hy hmay (pairFanFull_first hk hfull)))
    · exact openPair_refused (some k) ht ((hread hf _).trans (openPair_listFull hx hy hmay
        (pairFanFull_second (s := { s with port := p }) hfa hk hfull)))
    · have hn : ∀ n ∈ [x, y], n ∉ s.releasedOf f.slots := fun n hn h => by
        obtain ⟨j, hj, hq⟩ := mem_releasedOf.1 h
        obtain ⟨hnx, hny⟩ := hown j hj
        rcases List.mem_cons.1 hn with rfl | hn
        · exact hnx hq
        · exact hny (List.mem_singleton.1 hn ▸ hq)
      refine openPair_refused (some k) ht ((hread hf _).trans ((openPair_roomy (s := { s with port := p }) hx hy hmay
        (pairFanFull_none (s := { s with port := p }) hfa hfb) (pair_ne hf hx hy) hn).trans ((if_pos hover).trans ?_)))
      exact congrArg (Eff.refuse _ r .slotBusy) (limitSlot_eq (s := { s with port := p }) hslots hpre hk)
  · have hfree : ∀ k ∈ f.slots, s.mgr.holder k = none := by simpa [PairFields.slots] using ⟨hb, ha⟩
    have hne := pair_ne hf hx hy
    obtain ⟨t, hx', hclaim, hrecs, hfans⟩ := exec_openPair ht hf hx hy (mayTake_unheld hfree _) hfa hfb
      (offerFits_unheld hfree (by simp [PairFields.slots]) hroom) (apart_unheld hfree _)
    have htaking := takingEntry_unheld hfree
    rw [partnerBreaks_unheld hfree, preemptionRaises_unheld hfree, List.append_nil, State.pairEntries, htaking _ _ _ _ _ (by simp [PairFields.slots]),
      htaking _ _ _ _ _ (by simp [PairFields.slots])] at hclaim
    simp only [State.pairRecord, if_true, if_neg hne.symm] at hclaim
    refine ⟨t, hx', hclaim, fun m => (hrecs m).trans ?_, hfans⟩
    rw [preempted_unheld hfree]
    rfl

end Sys2Proof.Machine

/-! SUPPORT. Requests that preempt, on a legal circuit table and on one slot of any table (03 R46, R55-R58, R60). -/

namespace Sys2Proof.Machine

set_option Elab.async false

/-! ### Preemption on a legal circuit table -/

section Legal
variable {s : State} (hl : s.circuitsLegal)
include hl

/-- A record outside the test pool's class, in use, is of the control pool (01 R1). -/
theorem lt_of_not_test {n : Nat} (hst : (s.recordOf n).st ≠ .free) (hc : (s.recordOf n).cls ≠ .test) : n < 480 := by
  obtain ⟨_, _, _, _, htest, _⟩ := hl
  exact Nat.lt_of_not_le fun hn => hc (htest n hn hst)

theorem displacers_test {q o : Nat} (ho : o ∈ s.displacers q) : 480 ≤ o := by
  obtain ⟨_, _, hdisp, _⟩ := hl
  obtain ⟨l, hlmem, hlink⟩ := List.mem_filterMap.1 ho
  split at hlink
  · next hst => exact (hdisp q l hlmem hst).2 o hlink
  · cases hlink

/-- A released partner has a partner in turn: the victim that fell (01 R15). -/
theorem releasedOf_partner {ks : List Slot} {q : Nat} (hq : q ∈ s.releasedOf ks) : ∃ v, (s.recordOf q).partner = some v ∧ q < 480 ∧ (s.recordOf q).st ≠ .free := by
  obtain ⟨hpart, _⟩ := hl
  obtain ⟨v, _, hv⟩ := releasedOf_some hq
  obtain ⟨_, _, hback, _⟩ := hpart v q (releasedWith_some hv).2.1
  obtain ⟨_, hlt, _, hst, _⟩ := hpart q v hback
  exact ⟨v, hback, hlt, hst⟩

/-- On a legal table the parts of a claim that preempts stand apart (01 R1, R7, R15). -/
theorem apart_legal {cls : CircClass} {ks : List Slot} {own : List Nat} (hmay : ∀ k ∈ ks, s.mayTake cls k) (hown : ∀ q ∈ s.releasedOf ks, q ∉ own) :
    s.Apart ks own where
  once v _ w _ q hv hw := by
    obtain ⟨hpart, _⟩ := hl
    obtain ⟨_, _, hback, _⟩ := hpart v q (releasedWith_some hv).2.1
    obtain ⟨_, _, hback', _⟩ := hpart w q (releasedWith_some hw).2.1
    exact Option.some.inj (hback.symm.trans hback')
  own := hown
  links q _ o ho := by
    have htest := displacers_test hl ho
    refine ⟨fun hrel => ?_, fun ⟨hvictim, _⟩ => ?_⟩
    · obtain ⟨_, _, hlt, _⟩ := releasedOf_partner hl hrel
      omega
    · obtain ⟨k, hk, hh⟩ := mem_victimsOf.1 hvictim
      obtain ⟨_, hnormal, _, hst, _⟩ := hmay k hk o hh
      have hlt : o < 480 := lt_of_not_test hl (by rcases hst with h | h <;> simp [h]) (by rw [hnormal]; decide)
      omega
  untaken q _ l hlmem hst := by
    obtain ⟨_, hslots, _⟩ := hl
    refine Bool.eq_false_iff.2 fun htake => ?_
    obtain ⟨hk, hh⟩ := of_decide_eq_true htake
    obtain ⟨_, _, _, _, l', hl', hholds, _⟩ := hmay _ hk q hh
    have hsame : l'.slot = l.slot ∧ l'.st ≠ .displaced := by
      simp only [Leg.holdsSlot, Bool.and_eq_true, decide_eq_true_eq] at hholds
      exact hholds.1
    obtain rfl := List.inj_on_of_nodup_map (hslots q) hl' hlmem hsame.1
    exact hsame.2 hst

end Legal

/-- A FREE record is not released. -/
theorem free_not_released {s : State} (hl : s.circuitsLegal) {ks : List Slot} {n q : Nat} (hn : (s.recordOf n).st = .free) (hq : q ∈ s.releasedOf ks) :
    q ≠ n := fun hqn => by
  obtain ⟨_, _, _, hst⟩ := releasedOf_partner hl hq
  exact hst (hqn ▸ hn)

/-! ### Units assigned (04 R75) -/

theorem unit_assign (v : Verifier) (u : Fin 4) (h : Handle) (f : VerifyField) (w : Fin 4) :
    (v.assign u h f).unit w = if w = u then VerifyUnit.afterAssign (viewUp v.view f.ret.lane) h f else v.unit w := by
  have key (x : VerifyUnit) : (v.setUnit u x).unit w = if w = u then x else v.unit w := by
    rw [unit_setUnit]
    exact if_congr Fin.ext_iff.symm rfl rfl
  unfold Verifier.assign VerifyUnit.afterAssign
  cases viewUp v.view f.ret.lane with
  | true => exact key _
  | false => exact key ((VerifyUnit.assigned h f).finish .returnLost 0)

theorem view_assign (v : Verifier) (u : Fin 4) (h : Handle) (f : VerifyField) : (v.assign u h f).view = v.view := by
  unfold Verifier.assign
  split <;> rfl

theorem outcomes_assign (v : Verifier) (u : Fin 4) (h : Handle) (f : VerifyField) :
    (v.assign u h f).outcomes = v.outcomes ++ if viewUp v.view f.ret.lane then [] else [⟨u, h, .returnLost⟩] := by
  unfold Verifier.assign
  split
  · exact (List.append_nil _).symm
  · rfl

/-! ### ADD_LEG by preemption (03 R60) -/

/-- A record with a leg more, in MAKING (03 R60). -/
def Rec.withLeg (x : Rec) (k : Slot) : Rec := { x with legs := x.legs ++ [⟨k, .making, false, none⟩] }

/-- A leg given to a circuit, up to the release of partners (03 R55, R56, R60). -/
theorem acceptLeg_preempts {s : State} {n : Nat} {k : Slot} (hn : n ∉ s.victimsOf [k]) : ∃ e : Eff,
    (Eff.start s).acceptLeg n k = e.releasePartners ((Eff.start s).partnersOf (s.mgr.victims [k])) ∧
    e.Reads s (fun m => if m = n then (s.recordOf n).withLeg k else s.preempting [k] m)
      [s.takingEntry n (s.recordOf n) (s.recordOf n).targetDrive none k] ((s.victimsOf [k]).map fun v => (81 + v, .preempted)) s.port := by
  have hadded := (((Eff.Reads.start s).preempt [k]).upd n (·.withLeg k)).of_recs
    (recs' := fun m => if m = n then (s.recordOf n).withLeg k else s.preempting [k] m) fun m => by
      rw [changeOn_single]
      split
      · next hm => rw [hm, preempting_of_not_victim hn]
      · rfl
  have hmade := hadded.offerMakes n (s.recordOf n).targetDrive none (ks := [k]) (own := [k]) fun _ hk => hk
  rw [if_pos rfl] at hmade
  refine ⟨_, ?_, hmade⟩
  have hdrive : ((((Eff.start s).preempt (s.mgr.victims [k])).updRec n (·.withLeg k)).recOf n).drive = (s.recordOf n).targetDrive := by
    rw [hadded.recs, if_pos rfl]
    exact drive_eq_targetDrive _
  unfold Eff.acceptLeg
  rw [← hdrive]
  rfl

/-- The next state of an ADD_LEG accepted. -/
theorem exec_addLeg {s : State} {r : Request} {p : Port} {n : Nat} {k : Slot} (ht : s.TakesWhole 0x03 6 r p) (hslot : parseSlot r.msg 8 = some k)
    (hn : s.Names r n false) (hs : (s.recordOf n).serving) (hlen : (s.recordOf n).legs.length < 4) (hlegs : ∀ l ∈ (s.recordOf n).legs, l.slot ≠ k)
    (hmay : s.mayTake (s.recordOf n).cls k) (hvictim : n ∉ s.victimsOf [k]) (hlink : ∀ q ∈ s.releasedOf [k], n ∉ s.displacers q)
    (hfits : s.offerFits [k]) (hap : s.Apart [k] [n]) :
    ∃ t, exec .addLeg s = .next t ∧
      s.circuitClaim t (s.takingEntry n (s.recordOf n) (s.recordOf n).targetDrive none k :: s.partnerBreaks [k]) (s.preemptionRaises [k])
        (p.answerRequest r .ok (handleBytes r.handle ++ [BitVec.ofNat 8 (s.recordOf n).legs.length])) ∧
      s.fanStands t ∧ s.recordsTake t [k] [n] fun _ => (s.recordOf n).withLeg k := by
  have hk := kind_of_takeRequest ht.takes.head
  obtain ⟨e, he, h⟩ := acceptLeg_preempts (s := { s with port := p }) (n := n) (k := k) hvictim
  obtain ⟨hunder, hroom⟩ := hfits
  have hslots : (offerSlots ((Eff.start { s with port := p }).acceptLeg n k).offer).length = (s.offerSlotsOf [k]).length := by
    rw [he]
    refine length_offerSlots (s := { s with port := p }) (by rw [Eff.offered, h.offer]; rfl) fun q hq => ?_
    rw [h.recs, if_neg fun hqn : q = n => hap.own q hq (by rw [hqn]; exact List.mem_cons_self), preempting_released hq, carrying_taken]
  have hall := h.releaseAll (hap.withPort p) (fun m hm => if_neg fun hmn => hm (by rw [hmn]; exact List.mem_cons_self)) fun m hm ⟨q, hq, ho⟩ =>
    absurd (List.mem_singleton.1 hm ▸ ho) (hlink q hq)
  rw [← he] at hall
  have heff : effect p.defaults (.request r) (Eff.start { s with port := p }) =
      ((Eff.start { s with port := p }).acceptLeg n k).ok r (handleBytes r.handle ++ [BitVec.ofNat 8 (s.recordOf n).legs.length]) := by
    refine (effAddLeg_eq hk ht hslot hn rfl).trans ((onServing_serving hs rfl).trans ((if_neg (Nat.not_le.2 hlen)).trans ((if_neg ?_).trans (if_neg ?_))))
    · have havail : s.mgr.available (s.recordOf n).cls (some n) k = true := (available_self_iff s _ n k).2 ⟨hlegs, hmay⟩
      rw [Bool.not_eq_true', Bool.eq_false_iff]
      exact fun hnot => hnot havail
    · rw [overLimit_eq, hslots, decide_eq_true_eq]
      exact Nat.not_lt.2 hunder
  have hfit : fits s.sw.list ((Eff.start { s with port := p }).acceptLeg n k).offer = true := fits_of_offerSlots (by rw [hslots]; exact hroom)
  have hanswer := hall.answer r.slot r.sub .ok (handleBytes r.handle ++ [BitVec.ofNat 8 (s.recordOf n).legs.length])
  obtain ⟨t, hx, hclaim, hrecs, hfan, _⟩ := exec_of_reads (v := s.ver) (w := s.mgr.wait)
    (.request .addLeg 0x03 6 r p (by simp [requestKinds]) ht.takes) (by rw [heff]; exact hanswer) (hall.offer ▸ hfit)
  refine ⟨t, hx, hclaim, hfan, fun m => (hrecs m).trans ?_⟩
  simp only [List.mem_singleton]
  split <;> rfl

/-! ### One slot, one victim (03 R55-R57) -/

/-- Slot k is held by record v, a preemptable NORMAL circuit in ACTIVE or HELD with one leg there, in MAKING or LIVE (03 R46). -/
structure State.Held (s : State) (k : Slot) (v : Nat) (l : Leg) : Prop where
  holder : s.mgr.holder k = some v
  normal : (s.recordOf v).cls = .normal
  preemptable : (s.recordOf v).preemptable = true
  serving : (s.recordOf v).serving
  leg : (s.recordOf v).legs.filter (fun o => decide (o.slot = k)) = [l]
  carries : l.carries = true
  holds : l.yielded = false

/-- A circuit keeps a leg elsewhere when its leg on slot k is taken (03 R56). -/
def Rec.keepsBut (x : Rec) (k : Slot) : Prop := ∃ o ∈ x.legs, o.slot ≠ k ∧ o.st ≠ .breaking

/-- The victim with its leg on slot k taken (03 R55; log 13). -/
def Rec.lostLeg (x : Rec) (k : Slot) : Rec :=
  { x with legs := x.legs.map fun o => if o.slot = k then { o with st := .breaking, yielded := true } else o }

/-- A released partner all of whose legs carry: BREAKING with every leg, and out of service (03 R57). -/
def Rec.releasedWhole (x : Rec) : Rec :=
  { x.breaking (fun _ => true) with st := .breaking, lease := none, reload := none, target := none }

section OneVictim
variable {s : State} {k : Slot} {v : Nat} {l : Leg} (h : s.Held k v l)
include h

theorem mayTake_held : s.mayTake .priority k := fun w hw => by
  rw [h.holder] at hw
  cases hw
  obtain ⟨hmem, hslot⟩ := mem_of_filter h.leg
  have hst : l.st ≠ .displaced := by rcases (carries_iff l).1 h.carries with hl | hl <;> simp [hl]
  refine ⟨rfl, h.normal, h.preemptable, h.serving, l, hmem, ?_, h.carries⟩
  simp [Leg.holdsSlot, hslot, hst, h.holds]

theorem victimsOf_held : s.victimsOf [k] = [v] := by
  rw [State.victimsOf, List.filterMap_cons_some h.holder]
  rfl

theorem takesLeg_held (o : Leg) : s.takesLeg [k] v o = true ↔ o.slot = k := by
  rw [State.takesLeg, decide_eq_true_eq, List.mem_singleton]
  exact ⟨And.left, fun ho => ⟨ho, by rw [ho]; exact h.holder⟩⟩

theorem taken_held : s.taken [k] v = (s.recordOf v).lostLeg k := by
  rw [State.taken, Rec.lostLeg]
  refine congrArg (fun legs => ({ s.recordOf v with legs := legs } : Rec)) (List.map_congr_left fun o _ => ?_)
  by_cases ho : o.slot = k
  · rw [if_pos ho, if_pos ((takesLeg_held h o).2 ho)]
  · rw [if_neg ho, if_neg fun ht => ho ((takesLeg_held h o).1 ht)]

theorem falls_held : s.falls [k] v = true ↔ ¬(s.recordOf v).keepsBut k := by
  rw [State.falls, List.all_eq_true, Rec.keepsBut]
  simp only [Bool.or_eq_true, decide_eq_true_eq, takesLeg_held h]
  push Not
  exact forall₂_congr fun o _ => ⟨fun ho hk => ho.resolve_right hk, fun ho => or_iff_not_imp_right.2 ho⟩

theorem releasedOf_held : s.releasedOf [k] = (s.releasedWith [k] v).toList := by
  rw [State.releasedOf, List.filterMap_cons, releasedBy_eq, h.holder, Option.bind_some]
  cases s.releasedWith [k] v <;> rfl

theorem releasedOf_keeps (hkeeps : (s.recordOf v).keepsBut k) : s.releasedOf [k] = [] := by
  rw [releasedOf_held h, State.releasedWith, if_neg fun hf => (falls_held h).1 hf hkeeps]
  rfl

theorem releasedOf_alone (hp : (s.recordOf v).partner = none) : s.releasedOf [k] = [] := by
  rw [releasedOf_held h, State.releasedWith, hp]
  split <;> rfl

theorem releasedOf_partnered {q : Nat} (hfalls : ¬(s.recordOf v).keepsBut k) (hp : (s.recordOf v).partner = some q) (hq : q ≠ v) :
    s.releasedOf [k] = [q] := by
  rw [releasedOf_held h, releasedWith_of_falls ((falls_held h).2 hfalls) hp fun ⟨hvictim, _⟩ => hq ?_]
  · rfl
  · rwa [victimsOf_held h, List.mem_singleton] at hvictim

/-- One victim releases one partner, without DISPLACED legs. -/
theorem apart_held {n : Nat} (hrel : ∀ q ∈ s.releasedOf [k], q ≠ n ∧ ∀ o ∈ (s.recordOf q).legs, o.carries = true) : s.Apart [k] [n] where
  once a ha b hb _ _ _ := by
    rw [victimsOf_held h, List.mem_singleton] at ha hb
    rw [ha, hb]
  own q hq hmem := (hrel q hq).1 (List.mem_singleton.1 hmem)
  links q hq o ho := by
    obtain ⟨l, hl, hlink⟩ := List.mem_filterMap.1 ho
    rw [if_neg fun hst => by have := (hrel q hq).2 l hl; rw [carries_iff, hst] at this; simp at this] at hlink
    cases hlink
  untaken q hq l hl hst := by
    have := (hrel q hq).2 l hl
    rw [carries_iff, hst] at this
    simp at this

theorem takingEntry_held (n : Nat) (x : Rec) : s.takingEntry n x .source none k =
    ⟨k, legContent n x .source none, s.kept [v, n] k ++ [⟨s.handle v, .broken⟩, ⟨s.handle n, .made⟩]⟩ := by
  simp only [State.takingEntry, h.holder, Option.toList, List.map_cons, List.map_nil, List.append_assoc]
  rfl

/-- A record apart from the victim and a released partner stands (03 R55-R57). -/
theorem preempted_stands {m : Nat} (hv : m ≠ v) (hrel : m ∉ s.releasedOf [k])
    (hcarry : ∀ q ∈ s.releasedOf [k], ∀ o ∈ (s.recordOf q).legs, o.carries = true) : s.preempted [k] m = s.recordOf m := by
  have hnot : m ∉ s.victimsOf [k] := by rwa [victimsOf_held h, List.mem_singleton]
  have htaken := taken_of_not_victim hnot
  unfold State.preempted
  simp only [if_neg hrel, if_neg fun hm : m ∈ s.victimsOf [k] ∧ s.falls [k] m = true => hnot hm.1]
  rw [if_neg fun hlink => ?_]
  · exact htaken
  · obtain ⟨q, hq, ho⟩ := List.mem_flatMap.1 hlink
    obtain ⟨l, hl, hst⟩ := List.mem_filterMap.1 ho
    rw [if_neg fun hd => by have := hcarry q hq l hl; rw [carries_iff, hd] at this; simp at this] at hst
    cases hst

/-- The victim that keeps a leg serves on (03 R56). -/
theorem preempted_keeps (hkeeps : (s.recordOf v).keepsBut k) : s.preempted [k] v = (s.recordOf v).lostLeg k := by
  have htaken := taken_held h
  unfold State.preempted
  simp only [releasedOf_keeps h hkeeps, List.not_mem_nil, if_false, List.flatMap_nil,
    if_neg fun hm : v ∈ s.victimsOf [k] ∧ s.falls [k] v = true => (falls_held h).1 hm.2 hkeeps]
  exact htaken

/-- The victim that keeps no leg is BREAKING (03 R56). -/
theorem preempted_falls (hfalls : ¬(s.recordOf v).keepsBut k) (hrel : v ∉ s.releasedOf [k]) : s.preempted [k] v =
    { (s.recordOf v).lostLeg k with st := .breaking, lease := none, reload := none, target := none } := by
  have hlegs : ((s.recordOf v).lostLeg k).legs.filter (fun o => decide (o.st ≠ .displaced)) = ((s.recordOf v).lostLeg k).legs := by
    refine List.filter_eq_self.2 fun o ho => ?_
    obtain ⟨o', ho', rfl⟩ := List.mem_map.1 ho
    by_cases hk : o'.slot = k
    · simp [hk]
    · have hst : o'.st = .breaking := Classical.not_not.1 fun hst => hfalls ⟨o', ho', hk, hst⟩
      simp [hk, hst]
  have hout : (s.taken [k] v).fallenOut = { (s.recordOf v).lostLeg k with st := .breaking, lease := none, reload := none, target := none } := by
    rw [taken_held h, Rec.fallenOut, Rec.outOfService, hlegs]
  unfold State.preempted
  simp only [if_neg hrel]
  rw [if_pos ⟨by rw [victimsOf_held h]; exact List.mem_cons_self, (falls_held h).2 hfalls⟩]
  exact hout

/-- The partner that a falling victim releases is BREAKING, with every leg (03 R57). -/
theorem preempted_partner {q : Nat} (hq : q ≠ v) (hrel : q ∈ s.releasedOf [k]) (hcarry : ∀ o ∈ (s.recordOf q).legs, o.carries = true) :
    s.preempted [k] q = (s.recordOf q).releasedWhole := by
  have hnot : q ∉ s.victimsOf [k] := by rwa [victimsOf_held h, List.mem_singleton]
  have hlegs : (s.recordOf q).legs.filter (fun o => decide (o.st ≠ .displaced)) = (s.recordOf q).legs :=
    List.filter_eq_self.2 fun o ho => by rcases (carries_iff o).1 (hcarry o ho) with hst | hst <;> simp [hst]
  have hbreak : ((s.recordOf q).legs.map fun o => if o.carries then { o with st := .breaking } else o) =
      (s.recordOf q).legs.map fun o => if true then { o with st := .breaking } else o := List.map_congr_left fun o ho => by rw [hcarry o ho]
  have hgo : (s.taken [k] q).letGo = (s.recordOf q).releasedWhole := by
    rw [taken_of_not_victim hnot, Rec.letGo, Rec.outOfService, Rec.breaking, hlegs, hbreak]
    rfl
  unfold State.preempted
  simp only [if_pos hrel]
  exact hgo

/-- The slots that a released partner breaks, none of its legs being on the slot taken. -/
theorem stillCarried_partner {q : Nat} (hcarry : ∀ o ∈ (s.recordOf q).legs, o.carries = true) (hq : q ≠ v) :
    s.stillCarried [k] q = (s.recordOf q).legs.map (·.slot) := by
  have hnot : q ∉ s.victimsOf [k] := by rwa [victimsOf_held h, List.mem_singleton]
  rw [← carrying_taken, taken_of_not_victim hnot, Rec.carrying, List.filter_eq_self.2 hcarry]

theorem length_offerSlotsOf_held : (s.offerSlotsOf [k]).length ≤ 1 + ((s.releasedOf [k]).flatMap (s.stillCarried [k])).length := by
  have hby : [k].filterMap (s.releasedBy [k]) = s.releasedOf [k] := by
    rw [releasedOf_held h, List.filterMap_cons, releasedBy_eq, h.holder, Option.bind_some]
    cases s.releasedWith [k] v <;> rfl
  rw [State.offerSlotsOf, hby]
  exact (List.dedup_sublist _).length_le.trans (by rw [List.length_append]; rfl)

end OneVictim

end Sys2Proof.Machine

/-! SUPPORT. The statement on preemption (03 R46, R55-R58, 04 R75-R77), part by part: one victim, an OPEN, an OPEN_PAIR, an ADD_LEG. -/

namespace Sys2Proof.Machine

set_option Elab.async false

/-! ### An OPEN of one leg -/

section OneLeg
variable {s : State} {r : Request} {p : Port} {f : OpenFields} {n v : Nat} {k : Slot} {l : Leg}

/-- The next state of an OPEN of one leg without verify on a slot that a victim holds. -/
theorem exec_open_held (h : s.Held k v l) (ht : s.TakesWhole 0x01 25 r p) (hf : parseOpen r.msg = some f) (hverify : f.verify = none)
    (hlegs : f.legs = [k]) (hcls : f.common.cls = .priority) (ha : s.allocates f.record none n) (hfan : s.fanRoom f.source 1)
    (hrel : ∀ q ∈ s.releasedOf [k], q ≠ n ∧ ∀ o ∈ (s.recordOf q).legs, o.carries = true) (hfits : s.offerFits [k]) :
    ∃ t, exec .openCircuit s = .next t ∧
      s.circuitClaim t (⟨k, legContent n (s.openRecord r f n) .source none, s.kept [v, n] k ++ [⟨s.handle v, .broken⟩, ⟨s.handle n, .made⟩]⟩ ::
        s.partnerBreaks [k]) (s.preemptionRaises [k]) p ∧
      s.fanJoins t n f.source ∧ ∀ m, t.recordOf m = if m = n then s.openRecord r f n else s.preempted [k] m := by
  have hstart := openStart_plain (s := s) (n := n) hverify
  have hmay : ∀ j ∈ f.legs, s.mayTake f.common.cls j := fun j hj => by
    rw [hlegs, List.mem_singleton] at hj
    rw [hj, hcls]
    exact mayTake_held h
  obtain ⟨t, hx, hclaim, hjoins, hrecs, _⟩ := exec_open ht hf ha hmay hfan (by rw [hlegs]; exact hfits) (by rw [hlegs]; exact apart_held h hrel)
    fun hv => absurd hverify hv
  rw [hstart, hlegs, List.map_cons, takingEntry_held h] at hclaim
  refine ⟨t, hx, hclaim, hjoins, fun m => (hrecs m).trans ?_⟩
  rw [hstart, hlegs]
  simp only [List.mem_singleton]
  rfl

/-- The victim serves on, or falls alone (03 R56). -/
theorem open_takes_alone (h : s.Held k v l) (ht : s.TakesWhole 0x01 25 r p) (hf : parseOpen r.msg = some f) (hverify : f.verify = none)
    (hlegs : f.legs = [k]) (hcls : f.common.cls = .priority) (ha : s.allocates f.record none n) (hfan : s.fanRoom f.source 1)
    (hrel : s.releasedOf [k] = []) (hroom : s.sw.list.length + 1 ≤ 96) :
    ∃ t, exec .openCircuit s = .next t ∧
      s.circuitClaim t [⟨k, legContent n (s.openRecord r f n) .source none, s.kept [v, n] k ++ [⟨s.handle v, .broken⟩, ⟨s.handle n, .made⟩]⟩]
        [(81 + v, .preempted)] p ∧
      s.fanJoins t n f.source ∧ s.recordsBecome t [n, v] fun m _ => if m = n then s.openRecord r f n else s.preempted [k] v := by
  have hlen := length_offerSlotsOf_held h
  rw [hrel, List.flatMap_nil, List.length_nil] at hlen
  obtain ⟨t, hx, hclaim, hjoins, hrecs⟩ := exec_open_held h ht hf hverify hlegs hcls ha hfan (by rw [hrel]; nofun) ⟨by omega, by omega⟩
  rw [State.partnerBreaks, State.preemptionRaises, hrel, victimsOf_held h] at hclaim
  refine ⟨t, hx, hclaim, hjoins, fun m => (hrecs m).trans ?_⟩
  by_cases hm : m = n
  · simp [hm]
  · by_cases hv : m = v
    · simp [hv]
    · rw [if_neg hm, if_neg (by simp [hm, hv])]
      exact preempted_stands h hv (by rw [hrel]; nofun) (by rw [hrel]; nofun)

/-- The victim falls and its partner is released (03 R57). -/
theorem open_takes_partner {q : Nat} (h : s.Held k v l) (ht : s.TakesWhole 0x01 25 r p) (hf : parseOpen r.msg = some f) (hverify : f.verify = none)
    (hlegs : f.legs = [k]) (hcls : f.common.cls = .priority) (ha : s.allocates f.record none n) (hfan : s.fanRoom f.source 1)
    (hrel : s.releasedOf [k] = [q]) (hqv : q ≠ v) (hqn : q ≠ n) (hcarry : ∀ o ∈ (s.recordOf q).legs, o.carries = true)
    (hlen : (s.recordOf q).legs.length ≤ 4) (hroom : s.sw.list.length + 1 + (s.recordOf q).legs.length ≤ 96) :
    ∃ t, exec .openCircuit s = .next t ∧
      s.circuitClaim t (⟨k, legContent n (s.openRecord r f n) .source none, s.kept [v, n] k ++ [⟨s.handle v, .broken⟩, ⟨s.handle n, .made⟩]⟩ ::
        (s.recordOf q).legs.map fun o => s.breakEntry q o.slot) [(81 + v, .preempted), (81 + q, .partnerReleased)] p ∧
      s.fanJoins t n f.source ∧ s.recordsBecome t [n, v, q] fun m y =>
        if m = n then s.openRecord r f n else if m = v then s.preempted [k] v else y.releasedWhole := by
  have hmem {j : Nat} (hj : j ∈ s.releasedOf [k]) : j = q := by rwa [hrel, List.mem_singleton] at hj
  have hstill : s.stillCarried [k] q = (s.recordOf q).legs.map (·.slot) := stillCarried_partner h hcarry hqv
  have hslots := length_offerSlotsOf_held h
  rw [hrel, List.flatMap_singleton, hstill, List.length_map] at hslots
  obtain ⟨t, hx, hclaim, hjoins, hrecs⟩ := exec_open_held h ht hf hverify hlegs hcls ha hfan
    (fun j hj => by rw [hmem hj]; exact ⟨hqn, hcarry⟩) ⟨by omega, by omega⟩
  rw [State.partnerBreaks, State.preemptionRaises, hrel, victimsOf_held h, List.flatMap_singleton, hstill, List.map_map] at hclaim
  refine ⟨t, hx, hclaim, hjoins, fun m => (hrecs m).trans ?_⟩
  by_cases hm : m = n
  · simp [hm]
  · by_cases hv : m = v
    · simp [hv]
    · by_cases hq : m = q
      · rw [if_neg hm, hq, preempted_partner h hqv (by rw [hrel]; exact List.mem_cons_self) hcarry]
        simp [hqv, hqn]
      · rw [if_neg hm, if_neg (by simp [hm, hv, hq])]
        exact preempted_stands h hv (fun hj => hq (hmem hj)) fun j hj => by rw [hmem hj]; exact hcarry

end OneLeg

/-! ### An OPEN, an OPEN_PAIR and an ADD_LEG on a legal circuit table -/

/-- The parts of an OPEN stand apart. -/
theorem apart_open {s : State} {f : OpenFields} {n : Nat} (hl : s.circuitsLegal) (ha : s.allocates f.record none n)
    (hmay : ∀ k ∈ f.legs, s.mayTake f.common.cls k) : s.Apart f.legs [n] :=
  apart_legal hl hmay fun _ hq hqn => free_not_released hl ha.1 hq (List.mem_singleton.1 hqn)

/-- The parts of an OPEN_PAIR stand apart. -/
theorem apart_pair {s : State} {f : PairFields} {x y : Nat} (hl : s.circuitsLegal) (hx : s.allocates f.x f.y x) (hy : s.allocates f.y (some x) y)
    (hmay : ∀ k ∈ f.slots, s.mayTake f.common.cls k) : s.Apart f.slots [x, y] :=
  apart_legal hl hmay fun _ hq hqn => by
    rcases List.mem_cons.1 hqn with hqx | hqy
    · exact free_not_released hl hx.1 hq hqx
    · exact free_not_released hl hy.1 hq (List.mem_singleton.1 hqy)

section Leg
variable {s : State} {n : Nat} {k : Slot}

/-- The parts of an ADD_LEG stand apart. -/
theorem apart_addLeg (hl : s.circuitsLegal) (hmay : s.mayTake (s.recordOf n).cls k) (hrel : s.releasedBy [k] k ≠ some n) : s.Apart [k] [n] :=
  apart_legal hl (fun j hj => by rw [List.mem_singleton.1 hj]; exact hmay) fun q hq hqn => by
    obtain ⟨j, hj, hby⟩ := mem_releasedOf.1 hq
    rw [List.mem_singleton.1 hj] at hby
    exact hrel (hby.trans (congrArg some (List.mem_singleton.1 hqn)))

/-- A record with no leg on a slot that may be taken is not its holder. -/
theorem not_victim_of_mayTake {cls : CircClass} (hmay : s.mayTake cls k) (hlegs : ∀ l ∈ (s.recordOf n).legs, l.slot ≠ k) : n ∉ s.victimsOf [k] := by
  intro hv
  obtain ⟨j, hj, hh⟩ := mem_victimsOf.1 hv
  rw [List.mem_singleton.1 hj] at hh
  obtain ⟨_, _, _, _, l, hlmem, hholds, _⟩ := hmay n hh
  simp only [Leg.holdsSlot, Bool.and_eq_true, decide_eq_true_eq] at hholds
  obtain ⟨⟨hslot, _⟩, _⟩ := hholds
  exact hlegs l hlmem hslot

/-- A record in service that is no TEST record displaces no leg (01 R1, R7). -/
theorem serving_not_displacer (hl : s.circuitsLegal) (hs : (s.recordOf n).serving) (hc : (s.recordOf n).cls ≠ .test) (q : Nat) : n ∉ s.displacers q := by
  intro ho
  have hst : (s.recordOf n).st ≠ .free := by rcases hs with h | h <;> simp [h]
  exact absurd (displacers_test hl ho) (Nat.not_le.2 (lt_of_not_test hl hst hc))

end Leg

/-! ### The statement -/

/-- Settles O38: each request takes its slots by one rule, which a single victim's slot and a legal circuit table both meet. -/
theorem priorityOpenPreemptsItsVictim : Obligations.PriorityOpenPreemptsItsVictim := by
  refine ⟨fun s r p f n v k l ht hf hverify hlegs hcls ha hfan hholder hnormal hpre hserving hleg hcarries hyielded => ?_,
    fun s r p f n ht hf hl ha hmay hfan hfits => ?_, fun s r p f x y ht hf hl hx hy hmay hfa hfb hfits => ?_,
    fun s r p n k ht hslot hn hl hs hlen hlegs hmay hrel hfits => ?_⟩
  · have h : s.Held k v l := ⟨hholder, hnormal, hpre, hserving, hleg, hcarries, hyielded⟩
    refine ⟨fun hkeeps hroom => ?_, fun hfalls hp hroom => ?_, fun q hfalls hp hqv hqn _ hlegsq hlenq hroom => ?_⟩
    · obtain ⟨t, hx, hclaim, hjoins, hrecs⟩ := open_takes_alone h ht hf hverify hlegs hcls ha hfan (releasedOf_keeps h hkeeps) hroom
      rw [preempted_keeps h hkeeps] at hrecs
      exact ⟨t, hx, hclaim, hjoins, hrecs⟩
    · have hnone := releasedOf_alone h hp
      obtain ⟨t, hx, hclaim, hjoins, hrecs⟩ := open_takes_alone h ht hf hverify hlegs hcls ha hfan hnone hroom
      rw [preempted_falls h hfalls (by rw [hnone]; nofun)] at hrecs
      exact ⟨t, hx, hclaim, hjoins, hrecs⟩
    · have hone := releasedOf_partnered h hfalls hp hqv
      have hcarry : ∀ o ∈ (s.recordOf q).legs, o.carries = true := fun o ho => (hlegsq o ho).1
      obtain ⟨t, hx, hclaim, hjoins, hrecs⟩ := open_takes_partner h ht hf hverify hlegs hcls ha hfan hone hqv hqn hcarry hlenq hroom
      rw [preempted_falls h hfalls (by rw [hone, List.mem_singleton]; exact hqv.symm)] at hrecs
      exact ⟨t, hx, hclaim, hjoins, hrecs⟩
  · have hnext := exec_open ht hf ha hmay hfan hfits (apart_open hl ha hmay)
    refine ⟨fun hverify => ?_, fun v hverify => ⟨fun u hu hfirst => ?_, fun hunits hwait => ?_⟩⟩
    · obtain ⟨t, hx, hclaim, hjoins, hrecs, _⟩ := hnext fun h => absurd hverify h
      rw [openStart_plain hverify] at hclaim hrecs
      exact ⟨t, hx, hclaim, hjoins, hrecs⟩
    · have hunit := idleUnit_first hu hfirst
      obtain ⟨t, hx, hclaim, hjoins, hrecs, hver⟩ := hnext fun _ => .inl (by rw [hunit]; nofun)
      rw [openStart_verifying hverify hunit] at hclaim hrecs hver
      refine ⟨t, hx, ?_, hjoins, hrecs, ?_, fun w => ?_, ?_⟩ <;> rw [hver]
      · exact hclaim
      · exact view_assign _ _ _ _
      · exact unit_assign _ _ _ _ _
      · exact outcomes_assign _ _ _ _
    · obtain ⟨t, hx, hclaim, hjoins, hrecs, _⟩ := hnext fun _ => .inr hwait
      rw [openStart_waiting hverify (idleUnit_none hunits)] at hclaim hrecs
      exact ⟨t, hx, hclaim, hjoins, hrecs⟩
  · obtain ⟨t, hx', hclaim, hrecs, hfans⟩ := exec_openPair ht hf hx hy hmay hfa hfb hfits (apart_pair hl hx hy hmay)
    simp only [State.pairEntries, State.pairRecord, if_true, if_neg (pair_ne hf hx hy).symm] at hclaim
    exact ⟨t, hx', hclaim, hrecs, hfans⟩
  · exact exec_addLeg ht hslot hn hs hlen hlegs hmay (not_victim_of_mayTake hmay hlegs)
      (fun q _ => serving_not_displacer hl hs (hn.notTest rfl) q) hfits (apart_addLeg hl hmay hrel)

end Sys2Proof.Machine

/-! SUPPORT. The token of a unit (04 R73, R80), the notices that start units (04 R79), and the lanes whose loss ends them (04 R82, 06 R120). -/

namespace Sys2Proof.Machine

set_option Elab.async false

/-! ### The token (04 R73, R80) -/

/-- Four whole repetitions of a token, byte by byte (04 R80). -/
theorem fourTokens_iff (u c : Nat) (rx : List Byte) :
    fourTokens u c rx = true ↔ rx.length = 32 ∧ ∃ r, r < 8 ∧ ∀ i, i < 32 → rx.getD i 0 = (token u c).getD ((r + i) % 8) 0 := by
  rw [fourTokens, Bool.and_eq_true, decide_eq_true_eq, List.any_eq_true]
  refine and_congr_right fun hlen => exists_congr fun r => and_congr List.mem_range ?_
  rw [beq_iff_eq]
  constructor
  · rintro rfl i hi
    simp [List.getD_eq_getElem?_getD, hi, tokenByte]
  · refine fun hbytes => List.ext_getElem (by simpa using hlen) fun i hi _ => ?_
    have hbyte := hbytes i (hlen ▸ hi)
    rw [List.getD_eq_getElem _ _ hi] at hbyte
    simpa [tokenByte] using hbyte

/-- A record number in its two bytes. -/
theorem record_bytes {c : Nat} (h : c < 512) : (BitVec.ofNat 8 (c / 256)).toNat * 256 + (BitVec.ofNat 8 c).toNat = c := by
  simp only [BitVec.toNat_ofNat]
  omega

/-- Settles O32: the token is written out by its definition, and four repetitions are read byte by byte. -/
theorem tokenIsEightBytes : Obligations.TokenIsEightBytes :=
  ⟨fun _ _ hc => ⟨_, _, record_bytes hc, rfl⟩, by decide, fun u c rx => fourTokens_iff u c rx⟩

/-! ### Events of a running part, and their messages -/

theorem whenRunning_run {s : State} (h : s.phase = .run) (f : State → State) : s.whenRunning f = f s := if_pos h

/-- The first element that satisfies p, in a list that shows it. -/
theorem takeFirst_append {α : Type} {p : α → Bool} {pre post : List α} {x : α} (hx : p x = true) (hpre : ∀ y ∈ pre, p y = false) :
    takeFirst p (pre ++ x :: post) = some (x, pre ++ post) := by
  induction pre with
  | nil => simp [takeFirst, hx]
  | cons y pre ih =>
    rw [List.cons_append, takeFirst, hpre y List.mem_cons_self, ih fun z hz => hpre z (List.mem_cons_of_mem _ hz)]
    rfl

/-- A unit number names the unit written, or another. -/
theorem unit_setUnit_fin (v : Verifier) (u w : Fin 4) (x : VerifyUnit) : (v.setUnit u x).unit w = if w = u then x else v.unit w :=
  (unit_setUnit v u w x).trans (if_congr Fin.ext_iff.symm rfl rfl)

/-! ### Token notices (04 R79) -/

section Notices
variable {s : State} {n : Notice} {pre post : List Notice}

/-- Unit u takes the first notice to it. -/
theorem exec_tokenNotice (hr : s.phase = .run) (hn : s.sw.notices = pre ++ n :: post) (hpre : ∀ x ∈ pre, x.unit ≠ n.unit) (atBoundary : Bool) :
    exec (.tokenNotice n.unit atBoundary) s =
      .next { s with sw := { s.sw with notices := pre ++ post }, ver := s.ver.takeNotice n atBoundary } := by
  have hfirst : takeFirst (fun x => decide (x.unit = n.unit)) s.sw.notices = some (n, pre ++ post) := by
    rw [hn]
    exact takeFirst_append (decide_eq_true rfl) fun y hy => decide_eq_false (hpre y hy)
  show Host.Outcome.next (s.whenRunning (State.takeNotice n.unit atBoundary)) = _
  rw [whenRunning_run hr, State.takeNotice, hfirst]

/-- A notice that the unit waits for starts it. -/
theorem takeNotice_starts {v : Verifier}
    (hm : (v.unit n.unit).st = .sending ∧ (v.unit n.unit).started = false ∧ (v.unit n.unit).circuit = some n.h) (atBoundary : Bool) :
    v.takeNotice n atBoundary = v.setUnit n.unit ((v.unit n.unit).start n.unit (atBoundary && n.fresh)) := if_pos hm

/-- Any other notice does nothing. -/
theorem takeNotice_idles {v : Verifier}
    (hm : ¬((v.unit n.unit).st = .sending ∧ (v.unit n.unit).started = false ∧ (v.unit n.unit).circuit = some n.h)) (atBoundary : Bool) :
    v.takeNotice n atBoundary = v := if_neg hm

/-- A unit started in time: its token frame 1 is the frame in progress (log 21). -/
theorem start_inTime {x : VerifyUnit} {u : Nat} {h : Handle} (hc : x.circuit = some h) : x.start u true =
    { x with started := true, count := 1, pos := some 0, shown := some ((token u h.num).getD 0 0) } := by
  rw [VerifyUnit.start, if_pos rfl, VerifyUnit.present, hc]
  rfl

end Notices

/-! ### Lane changes at the verifier (04 R82, 06 R120) -/

/-- A SENDING unit with its return slot on lane l (04 R82). -/
def VerifyUnit.returnsOn (l : Fin 16) (x : VerifyUnit) : Bool := decide (x.st = .sending ∧ x.ret.map (·.lane) = some l)

theorem returnsOn_iff (l : Fin 16) (x : VerifyUnit) : x.returnsOn l = true ↔ x.st = .sending ∧ ∃ k, x.ret = some k ∧ k.lane = l := by
  rw [VerifyUnit.returnsOn, decide_eq_true_eq, Option.map_eq_some_iff]

/-- A unit after lane l has left UP (04 R82; log 19). -/
def VerifyUnit.afterLoss (l : Fin 16) (x : VerifyUnit) : VerifyUnit := if x.returnsOn l then x.finish .returnLost x.frames else x

/-- What unit u hands when lane l leaves UP (04 R82). -/
def VerifyUnit.lossOutcome (l : Fin 16) (u : Fin 4) (x : VerifyUnit) : Option OutcomeClaim :=
  if x.returnsOn l then x.circuit.map fun h => ⟨u, h, .returnLost⟩ else none

/-- A unit that enters DONE hands its outcome, if it serves a circuit (04 R80-R82). -/
theorem handed_finish (u : Fin 4) (x : VerifyUnit) (o : VerifyOutcome) (k : Nat) :
    (x.finish o k).handed u = (x.circuit.map fun h => ⟨u, h, o⟩).toList := by
  unfold VerifyUnit.handed VerifyUnit.finish
  cases x.circuit <;> rfl

/-- A unit still SENDING hands nothing. -/
theorem handed_sending (u : Fin 4) {x : VerifyUnit} (h : x.st = .sending) : x.handed u = [] := by
  unfold VerifyUnit.handed
  rw [h]

/-- One unit's part in the loss of a lane: the others stand, and so does the view. -/
theorem loseReturn_spec (l : Fin 16) (v : Verifier) (u : Fin 4) : (Verifier.loseReturn l v u).view = v.view ∧
    (∀ w : Fin 4, (Verifier.loseReturn l v u).unit w = if w = u then (v.unit w).afterLoss l else v.unit w) ∧
    (Verifier.loseReturn l v u).outcomes = v.outcomes ++ ((v.unit u).lossOutcome l u).toList := by
  unfold VerifyUnit.afterLoss VerifyUnit.lossOutcome
  by_cases h : (v.unit u).returnsOn l = true
  · have hlose : Verifier.loseReturn l v u = { v.setUnit u ((v.unit u).finish .returnLost (v.unit u).frames) with
        outcomes := v.outcomes ++ ((v.unit u).finish .returnLost (v.unit u).frames).handed u } := if_pos (of_decide_eq_true h)
    rw [hlose, handed_finish, if_pos h]
    refine ⟨rfl, fun w => (unit_setUnit_fin v u w ((v.unit u).finish .returnLost (v.unit u).frames)).trans ?_, rfl⟩
    split
    · next hw => rw [hw, if_pos h]
    · rfl
  · have hlose : Verifier.loseReturn l v u = v := if_neg fun hh => h (decide_eq_true hh)
    rw [hlose, if_neg h]
    refine ⟨rfl, fun w => ?_, (List.append_nil _).symm⟩
    split
    · next hw => rw [hw, if_neg h]
    · rfl

/-- The units of a list, one after another. -/
theorem foldl_loseReturn (l : Fin 16) {us : List (Fin 4)} (hus : us.Nodup) (v : Verifier) : (us.foldl (Verifier.loseReturn l) v).view = v.view ∧
    (∀ w : Fin 4, (us.foldl (Verifier.loseReturn l) v).unit w = if w ∈ us then (v.unit w).afterLoss l else v.unit w) ∧
    (us.foldl (Verifier.loseReturn l) v).outcomes = v.outcomes ++ us.filterMap fun u : Fin 4 => (v.unit u).lossOutcome l u := by
  induction us generalizing v with
  | nil => exact ⟨rfl, fun _ => rfl, (List.append_nil _).symm⟩
  | cons u us ih =>
    obtain ⟨hu, hus⟩ := List.nodup_cons.1 hus
    obtain ⟨hview, hunit, hout⟩ := loseReturn_spec l v u
    obtain ⟨ihview, ihunit, ihout⟩ := ih hus (Verifier.loseReturn l v u)
    have hstand (w : Fin 4) (hw : w ∈ us) : (Verifier.loseReturn l v u).unit w = v.unit w :=
      (hunit w).trans (if_neg fun (hwu : w = u) => hu (hwu ▸ hw))
    refine ⟨ihview.trans hview, fun w => (ihunit w).trans ?_, ihout.trans ?_⟩
    · by_cases hw : w ∈ us
      · rw [if_pos hw, hstand w hw, if_pos (List.mem_cons_of_mem _ hw)]
      · rw [if_neg hw, hunit]
        exact if_congr (by simp [hw]) rfl rfl
    · rw [hout, List.append_assoc, List.filterMap_congr fun (w : Fin 4) hw => by rw [hstand w hw]]
      cases h : (v.unit u).lossOutcome l u <;> simp [h]

/-- A report of lane l takes it out of UP (04 R82). -/
def Verifier.losesLane (v : Verifier) (l : Fin 16) (st : LaneState) : Bool := viewUp v.view l && decide (st ≠ .up)

/-- The verifier takes a lane-change report: the view, and with the lane lost every unit that returns on it (06 R120). -/
theorem takeLane_spec (v : Verifier) (l : Fin 16) (st : LaneState) : (v.takeLane ⟨l, st⟩).view = setView v.view l st ∧
    (∀ w : Fin 4, (v.takeLane ⟨l, st⟩).unit w = if v.losesLane l st then (v.unit w).afterLoss l else v.unit w) ∧
    (v.takeLane ⟨l, st⟩).outcomes = v.outcomes ++
      if v.losesLane l st then allUnits.filterMap fun u : Fin 4 => (v.unit u).lossOutcome l u else [] := by
  have hlane : v.takeLane ⟨l, st⟩ = if v.losesLane l st then allUnits.foldl (Verifier.loseReturn l) { v with view := setView v.view l st }
      else { v with view := setView v.view l st } := rfl
  have hmem : ∀ w, w ∈ allUnits := by decide
  obtain ⟨hview, hunit, hout⟩ := foldl_loseReturn l (us := allUnits) (by decide) { v with view := setView v.view l st }
  rw [hlane]
  cases v.losesLane l st with
  | false => exact ⟨rfl, fun _ => rfl, (List.append_nil _).symm⟩
  | true => exact ⟨hview, fun w => (hunit w).trans (if_pos (hmem w)), hout⟩

theorem viewOf_setView (v : Tbl LaneState) (l m : Fin 16) (st : LaneState) : viewOf (setView v l st) m = if m = l then st else viewOf v m := by
  unfold viewOf setView
  split
  · next hm => rw [hm, Tbl.get_set_same]
  · next hm => exact Tbl.get_set_other _ _ _ fun hv => hm (Fin.ext hv)

/-- The verifier takes the first report of a lane. -/
theorem exec_verifierLane {s : State} {l : Fin 16} {st : LaneState} {pre post : List LaneReport} (hr : s.phase = .run)
    (hn : s.sup.toVerifier = pre ++ ⟨l, st⟩ :: post) (hpre : ∀ x ∈ pre, x.lane ≠ l) : exec (.verifierLaneChangeReport l) s =
      .next { s with sup := { s.sup with toVerifier := pre ++ post }, ver := s.ver.takeLane ⟨l, st⟩ } := by
  have hfirst : takeFirst (fun x => decide (x.lane = l)) s.sup.toVerifier = some (⟨l, st⟩, pre ++ post) := by
    rw [hn]
    exact takeFirst_append (decide_eq_true rfl) fun y hy => decide_eq_false (hpre y hy)
  show Host.Outcome.next (s.whenRunning (State.verifierLane l)) = _
  rw [whenRunning_run hr, State.verifierLane, hfirst]

/-- Settles O33: a notice writes its unit or nothing, and a report of a lost lane ends the units one by one. -/
theorem noticesStartUnitsAndLostReturnsEndThem : Obligations.NoticesStartUnitsAndLostReturnsEndThem := by
  refine ⟨fun s n pre post atBoundary hr hn hpre => ?_, fun s l st pre post hr hn hpre => ?_⟩
  · intro x mine
    have hexec := exec_tokenNotice hr hn hpre atBoundary
    refine ⟨fun hm => ?_, fun hm => ?_⟩
    · rw [takeNotice_starts hm] at hexec
      have hunit (w : Fin 4) := unit_setUnit_fin s.ver n.unit w (x.start n.unit (atBoundary && n.fresh))
      refine ⟨_, hexec, rfl, fun u hu => (hunit u).trans (if_neg hu), fun hb hf => ?_, fun hlate => ?_⟩
      · refine (hunit n.unit).trans ((if_pos rfl).trans ?_)
        rw [hb, hf]
        obtain ⟨_, _, hcircuit⟩ := hm
        exact start_inTime hcircuit
      · have hnot : (atBoundary && n.fresh) = false := by rcases hlate with h | h <;> simp [h]
        refine (hunit n.unit).trans ((if_pos rfl).trans ?_)
        rw [hnot]
        rfl
    · rw [takeNotice_idles hm] at hexec
      exact hexec
  · intro leaves hit
    obtain ⟨hview, hunit, hout⟩ := takeLane_spec s.ver l st
    have hhit (u : Fin 4) : hit u = (s.ver.losesLane l st && (s.ver.unit u).returnsOn l) := by
      rw [Bool.eq_iff_iff, Verifier.losesLane, Bool.and_eq_true, Bool.and_eq_true, returnsOn_iff, decide_eq_true_eq, decide_eq_true_eq]
    refine ⟨_, exec_verifierLane hr hn hpre, rfl, fun m => ?_, fun u => (hunit u).trans ?_, hout.trans ?_⟩
    · exact (congrArg (viewOf · m) hview).trans (viewOf_setView _ _ _ _)
    · rw [hhit]
      cases s.ver.losesLane l st <;> rfl
    · simp only [hhit]
      cases s.ver.losesLane l st
      · simp
      · rfl

end Sys2Proof.Machine

/-! SUPPORT. The end of a token frame (04 R80, R81): the judgement, and the two commands that make it. -/

namespace Sys2Proof.Machine

set_option Elab.async false

/-! ### Token frame ends (04 R80, R81) -/

/-- A unit that judges token frame k of its circuit (04 R80). -/
structure VerifyUnit.Judges (x : VerifyUnit) (k : Nat) (h : Handle) (ret : Slot) : Prop where
  due : x.due = some k
  st : x.st = .sending
  circuit : x.circuit = some h
  ret : x.ret = some ret

section FrameEnd
variable {s : State} {u : Fin 4} {k : Nat} {h : Handle} {ret : Slot}

/-- The judgement writes the unit and hands its outcome. -/
theorem judgeUnit_eq (hj : (s.ver.unit u).Judges k h ret) : s.judgeUnit u k = { s with ver := { s.ver with
    units := (s.ver.setUnit u ((s.ver.unit u).judge u h k (s.sw.storedByte ret))).units
    outcomes := s.ver.outcomes ++ ((s.ver.unit u).judge u h k (s.sw.storedByte ret)).handed u } } := by
  unfold State.judgeUnit
  simp only [hj.st, hj.circuit, hj.ret]
  rfl

theorem exec_tokenFrameEnd (hr : s.phase = .run) (hj : (s.ver.unit u).Judges k h ret) :
    exec (.tokenFrameEnd u) s = .next (s.judgeUnit u k) := by
  show Host.Outcome.next (s.whenRunning (State.tokenFrameEnd u)) = _
  rw [whenRunning_run hr, State.tokenFrameEnd, hj.due]

/-- VERIFY_TIMEOUT is the same event at the limit, and nothing below it (log 18). -/
theorem exec_verifyTimeout (hr : s.phase = .run) (hj : (s.ver.unit u).Judges k h ret) :
    exec (.verifyTimeout u) s = .next (if (s.ver.unit u).limit ≤ k then s.judgeUnit u k else s) := by
  show Host.Outcome.next (s.whenRunning (State.verifyTimeout u)) = _
  rw [whenRunning_run hr, State.verifyTimeout, hj.due]

end FrameEnd

section Judge
variable {x : VerifyUnit} {u : Nat} {h : Handle} {k : Nat} {b : Byte}

/-- The last 32 bytes received, the frame's among them (04 R80). -/
def VerifyUnit.received (x : VerifyUnit) (b : Byte) : List Byte := (x.rx ++ [b]).drop ((x.rx ++ [b]).length - 32)

theorem judge_detects (hk : 32 ≤ k) (hf : fourTokens u h.num (x.received b) = true) : x.judge u h k b = x.finish (.detected (k - 32)) k :=
  if_pos ⟨hk, hf⟩

theorem not_detects (hno : k < 32 ∨ fourTokens u h.num (x.received b) = false) : ¬(32 ≤ k ∧ fourTokens u h.num (x.received b) = true) := by
  rintro ⟨hk, hf⟩
  rcases hno with hno | hno
  · omega
  · exact Bool.false_ne_true (hno.symm.trans hf)

theorem judge_timesOut (hno : k < 32 ∨ fourTokens u h.num (x.received b) = false) (hl : x.limit ≤ k) : x.judge u h k b = x.finish .timedOut k :=
  (if_neg (not_detects hno)).trans (if_pos hl)

theorem judge_goesOn (hno : k < 32 ∨ fourTokens u h.num (x.received b) = false) (hl : k < x.limit) :
    x.judge u h k b = { x with rx := x.received b, due := none } := (if_neg (not_detects hno)).trans (if_neg (Nat.not_le.2 hl))

end Judge

/-- Settles O34: the two commands make one judgement, whose three results are read off its two questions. -/
theorem tokenFrameEndDetectsOrTimesOut : Obligations.TokenFrameEndDetectsOrTimesOut := by
  intro s u k h ret hr hdue hst hc hret x all rx becomes done
  have hj : x.Judges k h ret := ⟨hdue, hst, hc, hret⟩
  have hbecomes {c : Instr} {y : VerifyUnit} {handed : List OutcomeClaim} (hx : exec c s = .next (s.judgeUnit u k))
      (hy : x.judge u h k (s.sw.storedByte ret) = y) (hh : y.handed u = handed) : becomes c y handed := by
    refine ⟨_, hx, ?_, fun v => ?_⟩ <;> rw [judgeUnit_eq hj, hy]
    · rw [hh]
    · exact unit_setUnit_fin s.ver u v y
  have hdone (o : VerifyOutcome) : (done o).handed u = [⟨u, h, o⟩] := (handed_finish u x o k).trans (by rw [hc]; rfl)
  have hend := exec_tokenFrameEnd hr hj
  have hlimit (hl : x.limit ≤ k) := (exec_verifyTimeout hr hj).trans (congrArg Host.Outcome.next (if_pos hl))
  refine ⟨fun hk hf => ?_, fun hno hl => ?_, fun hno hl => ?_⟩
  · have hy := judge_detects hk hf
    exact ⟨hbecomes hend hy (hdone _), fun hl => hbecomes (hlimit hl) hy (hdone _)⟩
  · have hy := judge_timesOut hno hl
    exact ⟨hbecomes hend hy (hdone _), hbecomes (hlimit hl) hy (hdone _)⟩
  · refine ⟨hbecomes hend (judge_goesOn hno hl) ?_, (exec_verifyTimeout hr hj).trans (congrArg _ (if_neg (Nat.not_le.2 hl)))⟩
    exact handed_sending u hst

end Sys2Proof.Machine

/-! SUPPORT. OPEN with verify on slots that no one holds (04 R74-R77). -/

namespace Sys2Proof.Machine

set_option Elab.async false

/-! ### An OPEN with verify (04 R74-R77) -/

/-- The next state of an OPEN accepted on slots that no one holds. -/
theorem exec_open_unheld {s : State} {r : Request} {p : Port} {f : OpenFields} {n : Nat} (ht : s.TakesWhole 0x01 25 r p)
    (hf : parseOpen r.msg = some f) (ha : s.allocates f.record none n) (hfree : ∀ k ∈ f.legs, s.mgr.holder k = none) (hfan : s.fanRoom f.source 1)
    (hroom : s.sw.list.length + f.legs.length ≤ 96) (hverify : f.verify ≠ none → s.ver.idleUnit ≠ none ∨ s.mgr.wait.length < 8) :
    ∃ t, exec .openCircuit s = .next t ∧
      (s.withStart (s.openStart n f)).circuitClaim t
        (f.legs.map (s.legEntry n (s.openRecord r f n) (s.openStart n f).drive (s.openStart n f).unit .made)) [] p ∧
      s.recordBecomes t n ((s.openStart n f).change (s.openRecord r f n)) ∧ s.fanJoins t n f.source ∧ t.ver = (s.openStart n f).ver := by
  have h4 := length_legs_of_parseOpen hf
  obtain ⟨t, hx, hclaim, hjoins, hrecs, hver⟩ := exec_open ht hf ha (mayTake_unheld hfree _) hfan (offerFits_unheld hfree (by omega) hroom)
    (apart_unheld hfree [n]) hverify
  rw [partnerBreaks_unheld hfree, preemptionRaises_unheld hfree, List.append_nil, List.map_congr_left (takingEntry_unheld hfree n _ _ _)] at hclaim
  refine ⟨t, hx, hclaim, fun m => (hrecs m).trans ?_, hjoins, hver⟩
  rw [preempted_unheld hfree]
  simp only [List.mem_singleton]

/-- Settles O36: an OPEN accepted takes no leg, and starts on the lowest IDLE unit or joins the wait list. -/
theorem openWithVerifyTakesAUnitOrWaits : Obligations.OpenWithVerifyTakesAUnitOrWaits := by
  intro s r p f v n ht hf hverify ha hfree hfan hroom field x
  have hnext := exec_open_unheld ht hf ha hfree hfan hroom
  refine ⟨fun u hu hfirst => ?_, fun hunits hwait => ?_⟩
  · have hunit := idleUnit_first hu hfirst
    obtain ⟨t, hx, hclaim, hrecs, hjoins, hver⟩ := hnext fun _ => .inl (by rw [hunit]; nofun)
    rw [openStart_verifying hverify hunit] at hclaim hrecs hver
    have hunits (w : Fin 4) : t.ver.unit w = _ := (congrArg (·.unit w) hver).trans (unit_assign _ _ _ _ w)
    refine ⟨t, hx, ?_, hrecs, hjoins, ?_, fun w hw => (hunits w).trans (if_neg hw), (hunits u).trans (if_pos rfl), ?_⟩ <;> rw [hver]
    · exact hclaim
    · exact view_assign _ _ _ _
    · exact outcomes_assign _ _ _ _
  · obtain ⟨t, hx, hclaim, hrecs, hjoins, _⟩ := hnext fun _ => .inr hwait
    rw [openStart_waiting hverify (idleUnit_none hunits)] at hclaim hrecs
    exact ⟨t, hx, hclaim, hrecs, hjoins⟩

end Sys2Proof.Machine

/-! SUPPORT. The ends of a verification (04 R83-R87): a RELEASE, of a circuit that waits for a unit or is verified, and the outcomes of units. -/

namespace Sys2Proof.Machine

set_option Elab.async false

/-! ### The check of a release (05 R91) -/

theorem mayRelease_start (s : State) (n : Nat) : (Eff.start s).mayRelease n = true ↔ ∀ m ∈ s.circuit n, (s.recordOf m).st.mayRelease = true :=
  List.all_eq_true

/-- A record in service may be released (05 R91). -/
theorem mayRelease_of_serving {x : Rec} (h : x.serving) : x.st.mayRelease = true := by
  rcases h with h | h <;> rw [h] <;> rfl

/-- The records of a circuit that may be released (05 R91). -/
theorem State.Releasable.mayRelease {s : State} {n : Nat} (h : s.Releasable n) : ∀ m ∈ s.circuit n, (s.recordOf m).st.mayRelease = true := by
  intro m hm
  rcases h.serving with hs | hs
  · exact mayRelease_of_serving (hs m hm)
  · rw [hs m hm]; rfl

theorem circuit_alone {s : State} {n : Nat} (hp : (s.recordOf n).partner = none) : s.circuit n = [n] := by rw [State.circuit, hp]; rfl

/-- A circuit without a partner, in a state that R91 admits. -/
theorem mayRelease_alone {s : State} {n : Nat} {st : CircState} (hp : (s.recordOf n).partner = none) (hst : (s.recordOf n).st = st)
    (hmay : st.mayRelease = true) : ∀ m ∈ s.circuit n, (s.recordOf m).st.mayRelease = true := fun m hm => by
  rw [circuit_alone hp] at hm
  rw [List.mem_singleton.1 hm, hst, hmay]

/-- The clear-down parameter of a RELEASE in range: FFh is the record's own (05 R91). -/
theorem parseReleaseClear_eq {m : List Byte} (h : (byteAt m 8).toNat ≤ 200 ∨ byteAt m 8 = 0xFF) :
    parseReleaseClear m = some (if byteAt m 8 = 0xFF then none else some (byteAt m 8).toNat) := by
  unfold parseReleaseClear
  by_cases hff : byteAt m 8 = 0xFF
  · simp [hff]
  · have hle : (byteAt m 8).toNat ≤ 200 := h.resolve_right hff
    have hne : (byteAt m 8).toNat ≠ 255 := by omega
    simp only [if_neg hff, if_neg hne, if_pos hle]

/-- The clear-down of a RELEASE of record n (05 R91, R93). -/
def State.releaseClear (s : State) (r : Request) (n : Nat) : Nat :=
  if byteAt r.msg 8 = 0xFF then (s.recordOf n).clearDown else (byteAt r.msg 8).toNat

/-- A RELEASE whose checks pass releases its circuit (05 R91, R96). -/
theorem effect_release {s : State} {r : Request} {n : Nat} (hk : byteAt r.msg 0 = 0x08) (hw : byteAt r.msg 1 = BitVec.ofNat 8 5)
    (hclear : (byteAt r.msg 8).toNat ≤ 200 ∨ byteAt r.msg 8 = 0xFF) (hn : s.Names r n false)
    (hmay : ∀ m ∈ s.circuit n, (s.recordOf m).st.mayRelease = true) (d : Defaults) :
    effect d (.request r) (Eff.start s) =
      (Eff.start s).releaseCircuit n (s.releaseClear r n) (some ⟨r.slot, r.sub, r.handle, none, (s.recordOf n).partner.map s.handle⟩) := by
  refine (effRequest_release d r _ hk).trans ((checked_handle hw (parseReleaseClear_eq hclear) hn rfl).trans
    ((if_pos ((mayRelease_start s n).2 hmay)).trans ?_))
  unfold State.releaseClear
  split <;> rfl

/-- A RELEASE of a circuit without a partner, in a state that R91 admits. -/
theorem effect_release_alone {s : State} {r : Request} {n : Nat} {st : CircState} (hk : byteAt r.msg 0 = 0x08)
    (hw : byteAt r.msg 1 = BitVec.ofNat 8 5) (hclear : (byteAt r.msg 8).toNat ≤ 200 ∨ byteAt r.msg 8 = 0xFF) (hn : s.Names r n false)
    (hp : (s.recordOf n).partner = none) (hst : (s.recordOf n).st = st) (hmay : st.mayRelease = true) (d : Defaults) :
    effect d (.request r) (Eff.start s) =
      (Eff.start s).releaseCircuit n (s.releaseClear r n) (some ⟨r.slot, r.sub, r.handle, none, none⟩) := by
  rw [effect_release hk hw hclear hn (mayRelease_alone hp hst hmay) d, hp]
  rfl

/-! ### A wait for a unit ended by a RELEASE (04 R86) -/

section Claim
variable {s s' : State} {c : Instr} {k : Claim} {n : Nat} {ans : Option ReleaseAnswer}

/-- A record whose wait for a unit a release has ended, before it enters FREE. -/
def Rec.waitReleased (r : Rec) (ans : Option ReleaseAnswer) : Rec := (({ r with relAns := ans } : Rec).breaking fun _ => true).answered r.openAns

/-- A wait for a unit released, up to FREE (04 R86). -/
theorem releaseWaiting_reads (hp : (s.recordOf n).partner = none) : ∃ e : Eff, (Eff.start s).releaseWaiting n ans = [n].foldl Eff.enterFree e ∧
    e.Reads { s with mgr := { s.mgr with wait := s.mgr.wait.filter fun h => decide (h ≠ s.handle n) } }
      (fun m => if m = n then (s.recordOf m).waitReleased ans else s.recordOf m) ((s.recordOf n).legs.map fun l => s.breakEntry n l.slot) []
      (s.port.answerOpening (s.recordOf n).openAns .verifyAborted (failureResults (s.handle n) none 0)) := by
  have hleft := (Eff.Reads.start s).withWait (s.mgr.wait.filter fun h => decide (h ≠ s.handle n))
  have hbroken := (hleft.upd n (fun r => { r with relAns := ans })).breakLegs n fun _ => true
  have hanswered := hbroken.answerOpen n .verifyAborted (failureResults (s.handle n) none 0)
  simp only [changeOn_self] at hanswered
  rw [show ((({ s.recordOf n with relAns := ans } : Rec).breaking fun _ => true)).partner = none from hp, filter_all] at hanswered
  refine ⟨_, rfl, hanswered.of_recs fun m => ?_⟩
  simp only [Option.toList, changeOn_single]
  split
  · next hm => subst hm; rfl
  · rfl

/-- A claim that releases a circuit from its wait for a unit, with the release answer to write. -/
theorem exec_releasesWaiting (hh : s.Hands c k s') (he : effect s'.port.defaults k (Eff.start s') = (Eff.start s').releaseWaiting n ans)
    (hp : (s'.recordOf n).partner = none) (hroom : s'.sw.list.length + (s'.recordOf n).legs.length ≤ 96) :
    ∃ t, exec c s = .next t ∧
      ({ s' with mgr := { s'.mgr with wait := s'.mgr.wait.filter fun h => decide (h ≠ s'.handle n) } } : State).circuitClaim t
        ((s'.recordOf n).legs.map fun l => s'.breakEntry n l.slot) []
        ((s'.port.answerOpening (s'.recordOf n).openAns .verifyAborted
          (handleBytes (s'.handle n) ++ List.replicate 15 0 ++ [0xFF, 0, 0])).answerRelease ans) ∧
      s'.recordBecomes t n (Rec.free ((s'.recordOf n).gen + 1)) ∧ s'.fanLeaves t [n] := by
  obtain ⟨e, hfree, h⟩ := releaseWaiting_reads (ans := ans) hp
  have hsrc (m : Nat) : (if m = n then (s'.recordOf m).waitReleased ans else s'.recordOf m).source = (s'.recordOf m).source := by
    split
    · exact answered_source _ _
    · rfl
  have hrel : ((s'.recordOf n).waitReleased ans).relAns = ans := answered_relAns _ _
  obtain ⟨t, hx, hc, hrecs, hfan⟩ := exec_of_freed hh (List.nodup_singleton n) (he.trans hfree) h hsrc
    (fits_of_room (by rw [length_breaks]; exact hroom))
  rw [List.foldl_cons, List.foldl_nil, if_pos rfl, hrel, failureResults_waiting] at hc
  refine ⟨t, hx, hc, fun m => ?_, hfan⟩
  rw [hrecs]
  simp only [List.mem_singleton]
  split
  · next hm => rw [hm]
  · rfl

end Claim

/-! ### Verify outcomes (04 R83-R85) -/

section Outcome
variable {s : State} {n : Nat} {u : Fin 4}

/-- The outcome of the unit that serves a circuit in VERIFYING is valid (04 R83). -/
theorem outcomeValid_of_verifies (hv : s.Verifies n u) (o : VerifyOutcome) : (Eff.start s).outcomeValid ⟨u, s.handle n, o⟩ = true :=
  Bool.and_eq_true_iff.2 ⟨((Eff.Reads.start s).current _).trans (current_handle hv.range), decide_eq_true ⟨hv.st, serving_eq hv.unit hv.first⟩⟩

/-- No unit names a circuit: none serves it (04 R72). -/
theorem serving_none {v : Verifier} {h : Handle} (hu : ∀ w : Fin 4, (v.unit w).circuit ≠ some h) : v.serving h = none :=
  List.find?_eq_none.2 fun w _ => by simpa using hu w

/-- An outcome of a circuit that is stale, not VERIFYING, or served by no unit changes nothing (04 R83; 01 R11). -/
theorem effOutcome_stale {o : OutcomeClaim} (h : s.isCurrent o.h = false ∨ (s.recordOf o.h.num).st ≠ .verifying ∨
    ∀ v : Fin 4, (s.ver.unit v).circuit ≠ some o.h) : effOutcome o (Eff.start s) = Eff.start s := by
  refine if_neg fun hvalid => ?_
  obtain ⟨hcurrent, hrest⟩ := Bool.and_eq_true_iff.1 hvalid
  obtain ⟨hst, hserving⟩ := of_decide_eq_true hrest
  rcases h with h | h | h
  · exact Bool.false_ne_true (h.symm.trans (((Eff.Reads.start s).current _).symm.trans hcurrent))
  · exact h hst
  · exact Option.some_ne_none _ (hserving.symm.trans (serving_none h))

/-- A DETECTED outcome keeps the round trip and offers SOURCE entries (04 R84). -/
theorem detected_reads (hv : s.Verifies n u) (k : Nat) : (effOutcome ⟨u, s.handle n, .detected k⟩ (Eff.start s)).Reads s
    (changeOn [n] (fun r => { r with roundTrip := some k, target := some .source }) s.recordOf) (s.changeEntries n (s.recordOf n) .source none) []
    s.port := by
  have hkept := (Eff.Reads.start s).upd n fun r => { r with roundTrip := some k, target := some .source }
  have hoffered := hkept.offerLegs n .source none
  rw [changeOn_self] at hoffered
  have heff : effOutcome ⟨u, s.handle n, .detected k⟩ (Eff.start s) = _ := if_pos (outcomeValid_of_verifies hv (.detected k))
  rw [heff]
  exact hoffered

end Outcome

/-- A verification stands with the messages and the port changed. -/
theorem State.Verifies.congr {s s' : State} {n : Nat} {u : Fin 4} (hv : s.Verifies n u) (hm : s'.mgr = s.mgr) (hl : s'.sw.list = s.sw.list)
    (hu : s'.ver.units = s.ver.units) : s'.Verifies n u := by
  obtain ⟨hst, halone, hrange, hunit, hfirst, hroom⟩ := hv
  have hrec : s'.recordOf = s.recordOf := by funext m; rw [State.recordOf, hm]; rfl
  have hunits (w : Nat) : s'.ver.unit w = s.ver.unit w := by rw [Verifier.unit, hu]; rfl
  refine ⟨?_, ?_, hrange, ?_, ?_, ?_⟩ <;> simpa only [State.handle, hrec, hunits, hm, hl]

/-- Settles O46: each end is one rule, a DETECTED outcome changes one record, and an outcome that finds no unit computes to nothing. -/
theorem verificationSwitchesOrEnds : Obligations.VerificationSwitchesOrEnds := by
  refine ⟨fun s n u k rest hr hv hx => ?_, fun s n u o st rest hr hv ho hx => ?_, fun s o rest hr hx hstale => ?_,
    fun s r p n ht hn hclear => ⟨fun u hv => ?_, fun hst hp hroom => ?_⟩⟩
  · have hreads := detected_reads (s := { s with ver := { s.ver with outcomes := rest } }) (hv.congr rfl rfl rfl) k
    have hlen := length_changeEntries_le s n (s.recordOf n) .source none
    have hroom := hv.room
    obtain ⟨t, ht, hclaim, hrecs, hfan, _⟩ := exec_of_reads (v := { s.ver with outcomes := rest }) (w := s.mgr.wait) (.outcome _ rest hr hx) hreads
      (fits_of_room (show s.sw.list.length + (s.changeEntries n (s.recordOf n) .source none).length ≤ 96 by omega))
    exact ⟨t, ht, hclaim, recordBecomes_of_changeOn hrecs, hfan⟩
  · have hv' : ({ s with ver := { s.ver with outcomes := rest } } : State).Verifies n u := hv.congr rfl rfl rfl
    have hvalid := outcomeValid_of_verifies hv' o
    simp only [List.mem_cons, List.not_mem_nil, or_false, Prod.mk.injEq] at ho
    rcases ho with ⟨rfl, rfl⟩ | ⟨rfl, rfl⟩
    · exact exec_endsVerifying (.outcome _ rest hr hx) (if_pos hvalid) (Eff.Reads.start _) hv'
    · exact exec_endsVerifying (.outcome _ rest hr hx) (if_pos hvalid) (Eff.Reads.start _) hv'
  · exact exec_of_idle (.outcome o rest hr hx) (effOutcome_stale hstale)
  · have heff := effect_release_alone (s := { s with port := p }) (kind_of_takeRequest ht.takes.head) ht.whole hclear
      ⟨hn.num, hn.range, hn.notTest⟩ hv.alone hv.st rfl p.defaults
    exact exec_endsVerifying (.request .release 0x08 5 r p (by simp [requestKinds]) ht.takes) (heff.trans (releaseCircuit_verifying hv.st))
      (Eff.Reads.start _) (hv.congr rfl rfl rfl)
  · have heff := effect_release_alone (s := { s with port := p }) (kind_of_takeRequest ht.takes.head) ht.whole hclear
      ⟨hn.num, hn.range, hn.notTest⟩ hp hst rfl p.defaults
    exact exec_releasesWaiting (.request .release 0x08 5 r p (by simp [requestKinds]) ht.takes) (heff.trans (releaseCircuit_waiting hst)) hp hroom

end Sys2Proof.Machine

/-! SUPPORT. RELEASE_LINKED, HOLD_LINKED and suppression claims (07 R137, R138, 08 R150). -/

namespace Sys2Proof.Machine

set_option Elab.async false

/-! ### A watcher's claim on a circuit (07 R137, R138) -/

section Linked
variable {s s' : State} {c : Instr} {k : Claim} {w : Nat} {h : Handle}

/-- A claim that raises a cause on its watcher changes nothing else. -/
theorem exec_raisesWatcher {cause : Cause} (hh : s.Hands c k s')
    (he : effect s'.port.defaults k (Eff.start s') = (Eff.start s').raiseWatcher w cause) :
    exec c s = .next { s' with att := { s'.att with raises := s'.att.raises ++ [(.manager, [(17 + w, cause)])] } } := by
  rw [exec_of_fits hh he (fits_nil _)]
  simp only [Eff.commit, Eff.raiseWatcher, start_mgr, start_ver, start_wat, start_port, start_offer, start_raise, start_order, placeOffer,
    List.foldl_nil, Option.toList, List.append_nil, List.nil_append]
  rfl

theorem linkedOk_start : (Eff.start s).linkedOk h = true ↔ s.isCurrent h = true ∧ (s.recordOf h.num).cls ≠ .test := by
  rw [Eff.linkedOk, Bool.and_eq_true, decide_eq_true_eq, (Eff.Reads.start s).current]
  rfl

/-- A RELEASE_LINKED whose circuit may be released (07 R137). -/
theorem effReleaseLinked_releases (hc : s.isCurrent h = true) (ht : (s.recordOf h.num).cls ≠ .test)
    (hmay : ∀ m ∈ s.circuit h.num, (s.recordOf m).st.mayRelease = true) :
    effReleaseLinked w h (Eff.start s) = (Eff.start s).releaseCircuit h.num (s.recordOf h.num).clearDown none :=
  if_pos (Bool.and_eq_true_iff.2 ⟨linkedOk_start.2 ⟨hc, ht⟩, (mayRelease_start s h.num).2 hmay⟩)

/-- A RELEASE_LINKED with a stale handle, of a TEST circuit, or of a circuit past its release is refused (07 R137). -/
theorem effReleaseLinked_refused (hno : s.isCurrent h = false ∨ (s.recordOf h.num).cls = .test ∨ (s.recordOf h.num).st.mayRelease = false) :
    effReleaseLinked w h (Eff.start s) = (Eff.start s).raiseWatcher w .refused := by
  refine if_neg fun hok => ?_
  obtain ⟨hlinked, hmay⟩ := Bool.and_eq_true_iff.1 hok
  obtain ⟨hcurrent, htest⟩ := linkedOk_start.1 hlinked
  rcases hno with hno | hno | hno
  · exact Bool.false_ne_true (hno.symm.trans hcurrent)
  · exact htest hno
  · exact Bool.false_ne_true (hno.symm.trans ((mayRelease_start s h.num).1 hmay _ (mem_circuit s _)))

/-- The drive target of a HOLD_LINKED (07 R138). -/
def linkedTarget (confirmation : Bool) : Target := if confirmation then .hold else .source

theorem linkedTarget_other (confirmation : Bool) : (linkedTarget confirmation).other = if confirmation then .source else .hold := by
  cases confirmation <;> rfl

/-- A HOLD_LINKED whose circuit may be driven (07 R138). -/
theorem effHoldLinked_drives {confirmation : Bool} (hc : s.isCurrent h = true) (ht : (s.recordOf h.num).cls ≠ .test)
    (hmay : ∀ m ∈ h.num :: (s.recordOf h.num).partner.toList,
      (s.recordOf m).serving ∧ (s.recordOf m).target = some (linkedTarget confirmation).other) :
    effHoldLinked w h confirmation (Eff.start s) = (Eff.start s).driveCircuit h.num (linkedTarget confirmation) :=
  if_pos (Bool.and_eq_true_iff.2 ⟨linkedOk_start.2 ⟨hc, ht⟩, (mayDrive_start s h.num _).2 hmay⟩)

/-- A HOLD_LINKED with a stale handle, of a TEST circuit, or of a record that may not be driven is refused (07 R138). -/
theorem effHoldLinked_refused {confirmation : Bool} (hno : s.isCurrent h = false ∨ (s.recordOf h.num).cls = .test ∨
      ¬(s.recordOf h.num).serving ∨ (s.recordOf h.num).target ≠ some (linkedTarget confirmation).other) :
    effHoldLinked w h confirmation (Eff.start s) = (Eff.start s).raiseWatcher w .refused := by
  refine if_neg fun hok => ?_
  obtain ⟨hlinked, hmay⟩ := Bool.and_eq_true_iff.1 hok
  obtain ⟨hcurrent, htest⟩ := linkedOk_start.1 hlinked
  obtain ⟨hserving, htarget⟩ := (mayDrive_start s h.num _).1 hmay h.num List.mem_cons_self
  rcases hno with hno | hno | hno | hno
  · exact Bool.false_ne_true (hno.symm.trans hcurrent)
  · exact htest hno
  · exact hno hserving
  · exact hno htarget

/-- A claim that drives a circuit to a target (03 R66-R68). -/
theorem exec_drives {n : Nat} {t : Target} (hh : s.Hands c k s') (he : effect s'.port.defaults k (Eff.start s') = (Eff.start s').driveCircuit n t)
    (hp : (s'.recordOf n).partner ≠ some n) (hroom : s'.sw.list.length + ((s'.circuit n).flatMap fun m => (s'.recordOf m).carrying).length ≤ 96) :
    ∃ z, exec c s = .next z ∧
      s'.circuitClaim z ((s'.circuit n).flatMap fun m => s'.changeEntries m (s'.recordOf m) t.drive none) [] s'.port ∧
      s'.recordsBecome z (s'.circuit n) (fun _ x => x.driven t) ∧ s'.fanStands z := by
  have hdriven := (Eff.Reads.start s').driveCircuit t hp
  obtain ⟨z, hx, hclaim, hrecs, hfan, _⟩ := exec_of_reads (v := s'.ver) (w := s'.mgr.wait) hh (by rw [he]; exact hdriven)
    (fits_of_room ((congrArg (s'.sw.list.length + ·) (length_driveEntries s' _ _)).trans_le hroom))
  exact ⟨z, hx, hclaim, hrecs, hfan⟩

end Linked

/-- Settles O52: a claim that its checks refuse raises one cause, and the others are the releases and drive changes of a circuit. -/
theorem linkedActionsAndSuppression : Obligations.LinkedActionsAndSuppression := by
  intro s w rest hr s' raised
  have hstart := Eff.Reads.start s'
  refine ⟨fun hx => ?_, fun h hx hc ht hrel => ?_, fun h hx hc ht => ⟨fun hd => ?_, fun u hv => ?_, fun hst hp hroom => ?_⟩, fun h hx hno => ?_,
    fun h confirmation hx hc ht hp => ?_, fun h confirmation hx hno => ?_⟩
  · exact exec_raisesWatcher (.action _ rest hr hx) rfl
  · have heff := effReleaseLinked_releases (s := s') (w := w) hc ht hrel.mayRelease
    exact exec_releases (.action _ rest hr hx) (heff.trans (releaseCircuit_serving hrel.making_or_serving)) hstart
      ⟨hrel.serving, hrel.other, hrel.apart, hrel.leg, hrel.room⟩
  · have heff := effReleaseLinked_releases (s := s') (w := w) hc ht fun m hm => mayRelease_of_serving (hd.serving m hm)
    exact exec_freesAtOnce (.action _ rest hr hx) (heff.trans (releaseCircuit_serving (.inr (hd.serving _ (mem_circuit s _))))) hstart
      ⟨hd.serving, hd.legs, hd.other, hd.apart⟩
  · have heff := effReleaseLinked_releases (s := s') (w := w) hc ht (mayRelease_alone hv.alone hv.st rfl)
    exact exec_endsVerifying (.action _ rest hr hx) (heff.trans (releaseCircuit_verifying hv.st)) hstart (hv.congr rfl rfl rfl)
  · have heff := effReleaseLinked_releases (s := s') (w := w) hc ht (mayRelease_alone hp hst rfl)
    exact exec_endsWaiting (.action _ rest hr hx) (heff.trans (releaseCircuit_waiting hst)) hstart hp hroom
  · refine exec_raisesWatcher (.action _ rest hr hx) (effReleaseLinked_refused (s := s') (hno.imp_right (Or.imp_right fun hst => ?_)))
    rcases hst with hst | hst | hst <;> exact (congrArg CircState.mayRelease hst).trans rfl
  · rw [← linkedTarget_other]
    intro ms new after hdrive hroom
    have hclaim := exec_drives (.action _ rest hr hx) (effHoldLinked_drives (s := s') hc ht hdrive) hp hroom
    cases confirmation <;> exact hclaim
  · rw [← linkedTarget_other] at hno
    exact exec_raisesWatcher (.action _ rest hr hx) (effHoldLinked_refused (s := s') hno)

end Sys2Proof.Machine

/-! SUPPORT. The lease clock (05 R102, R103): what a lease event leaves of each lease, and the circuits that it claims, in order of record number. -/

namespace Sys2Proof.Machine

set_option Elab.async false

/-! ### Entries of a canonical table (log 32) -/

/-- The entries of a canonical table are what it reads, the reset value apart. -/
theorem Tbl.mem_iff_get {α : Type} [DecidableEq α] {d : α} {t : Tbl α} (h : Tbl.wf d t = true) (k : Nat) (v : α) :
    (k, v) ∈ t ↔ Tbl.get d t k = v ∧ v ≠ d := by
  induction t with
  | nil => simpa [Tbl.get] using fun hd : d = v => hd.symm
  | cons e t ih =>
    obtain ⟨j, x⟩ := e
    obtain ⟨hx, hj, ht⟩ := (Tbl.wf_cons d j x t).1 h
    rw [List.mem_cons, Prod.mk.injEq, ih ht, Tbl.get]
    by_cases hk : k = j
    · subst hk
      have hrest : Tbl.get d t k = d := Tbl.get_of_forall_ne d t k fun e he => (hj e he).ne'
      rw [if_pos rfl, hrest]
      constructor
      · rintro (⟨-, rfl⟩ | ⟨rfl, hv⟩)
        · exact ⟨rfl, hx⟩
        · exact absurd rfl hv
      · rintro ⟨rfl, -⟩
        exact .inl ⟨rfl, rfl⟩
    · simp only [hk, false_and, false_or, if_false]

/-- The numbers of a canonical table rise. -/
theorem Tbl.wf_rising {α : Type} [DecidableEq α] {d : α} {t : Tbl α} (h : Tbl.wf d t = true) : t.Pairwise fun a b => a.1 < b.1 := by
  induction t with
  | nil => exact .nil
  | cons e t ih =>
    obtain ⟨_, he, ht⟩ := (Tbl.wf_cons d e.1 e.2 t).1 h
    exact .cons he (ih ht)

/-! ### A lease event (05 R103) -/

/-- A lease event counts a running lease down by 1, and leaves every other as it is (05 R103). -/
theorem leaseTick_counts (r : Rec) : r.leaseTick = if r.st.leaseRuns then { r with lease := r.lease.map fun l => l - 1 } else r := rfl

/-- The records that a lease event claims: a lease that runs out, of a circuit alone or of the lower-numbered of a pair (05 R103). -/
theorem expiryOf_eq_some {n : Nat} {r : Rec} {h : Handle} : expiryOf n r = some h ↔
    h = ⟨n, r.gen⟩ ∧ r.st.leaseRuns = true ∧ r.lease = some 1 ∧ ∀ q, r.partner = some q → n < q := by
  unfold expiryOf Rec.runsOut
  cases r.partner with
  | none => grind
  | some q => grind

/-- The claims of a lease event (05 R103). -/
def State.leaseClaims (s : State) : List Handle := s.mgr.recs.filterMap fun e => expiryOf e.1 e.2

section Event
variable {s : State} (hw : Tbl.wf (Rec.free 0) s.mgr.recs = true)
include hw

theorem mem_leaseClaims (n : Nat) (g : BitVec 16) : (⟨n, g⟩ : Handle) ∈ s.leaseClaims ↔ g = (s.recordOf n).gen ∧
    (s.recordOf n).st.leaseRuns = true ∧ (s.recordOf n).lease = some 1 ∧ ∀ q, (s.recordOf n).partner = some q → n < q := by
  simp only [State.leaseClaims, List.mem_filterMap, Prod.exists, Tbl.mem_iff_get hw, expiryOf_eq_some, Handle.mk.injEq]
  constructor
  · rintro ⟨m, x, ⟨hx, -⟩, ⟨rfl, hg⟩, hruns⟩
    obtain rfl : s.recordOf n = x := hx
    exact ⟨hg, hruns⟩
  · rintro ⟨hg, hruns⟩
    have hbusy : s.recordOf n ≠ Rec.free 0 := fun hf => by rw [hf] at hruns; exact absurd hruns.1 (by decide)
    exact ⟨n, s.recordOf n, ⟨rfl, hbusy⟩, ⟨rfl, hg⟩, hruns⟩

/-- The claims stand in order of record number. -/
theorem leaseClaims_rising : (s.leaseClaims.map (·.num)).Pairwise (· < ·) := by
  rw [List.pairwise_map]
  refine List.pairwise_filterMap.2 ((Tbl.wf_rising hw).imp fun hlt h hh h' hh' => ?_)
  rw [(expiryOf_eq_some.1 hh).1, (expiryOf_eq_some.1 hh').1]
  exact hlt

theorem recordOf_leaseEvent (n : Nat) : s.leaseEvent.recordOf n = (s.recordOf n).leaseTick :=
  Tbl.get_mapAll (Rec.free 0) (fun _ r => r.leaseTick) s.mgr.recs n (fun _ => rfl) hw

end Event

/-- Settles O49: the records are read through the change of the whole table, and the claims through its entries. -/
theorem leaseEventCountsLeasesDown : Obligations.LeaseEventCountsLeasesDown := by
  intro s hr hw
  have hx : exec .leaseEvent s = .next s.leaseEvent := congrArg Host.Outcome.next (whenRunning_run hr State.leaseEvent)
  exact ⟨s.leaseEvent, s.leaseClaims, hx, rfl, fun n => (recordOf_leaseEvent hw n).trans (leaseTick_counts _), mem_leaseClaims hw,
    leaseClaims_rising hw⟩

end Sys2Proof.Machine

/-! SUPPORT. Clear-down counts that run out, and the engine's clearance order (05 R97, 02 R36, 03 R70). -/

namespace Sys2Proof.Machine

set_option Elab.async false

/-! ### Clear-down counts (05 R97) -/

/-- A count that has not started, or has not reached its length, has not run out. -/
theorem not_over {c : ClearCount} (h : c.started = true → c.done < c.n) : c.over = false := by
  refine Bool.eq_false_iff.2 fun ho => ?_
  obtain ⟨hs, hn⟩ := Bool.and_eq_true_iff.1 ho
  exact Nat.not_le.2 (h hs) (of_decide_eq_true hn)

/-- The first count that has run out is handed, and leaves its place. -/
theorem runOut_first {w : Switch} {c : ClearCount} {pre post : List ClearCount} (hc : w.counts = pre ++ c :: post) (ho : c.over = true)
    (hpre : ∀ x ∈ pre, x.over = false) : w.runOut = { w with counts := pre ++ post, ends := w.ends ++ [c.h] } := by
  rw [Switch.runOut, hc, takeFirst_append ho hpre]

/-! ### The clearance order (02 R36) -/

/-- The state with a clearance order taken from its place. -/
def State.ordered (s : State) (rest : List Nat) : State := { s with port := { s.port with toSwitch := rest } }

/-- The clearance order takes the held claim first if there is room for it (log 12), and then discards what waits (02 R36, 03 R70). -/
theorem exec_clearanceOrder {s : State} {id : Nat} {rest : List Nat} (hr : s.phase = .run) (ho : s.port.toSwitch = id :: rest) :
    exec .clearanceOrder s = .next { (s.ordered rest).takeHeld with
      sw := (s.ordered rest).takeHeld.sw.takeClearance (.engine id)
      mgr := { (s.ordered rest).takeHeld.mgr with held := none } } := by
  show Host.Outcome.next (s.whenRunning State.clearanceOrder) = _
  rw [whenRunning_run hr, State.clearanceOrder, ho]
  rfl

/-- Settles O21: the first count over is the one that the list shows, and a clearance order is the held claim's turn and what it then discards. -/
theorem clearDownEndsAndClearanceOrders : Obligations.ClearDownEndsAndClearanceOrders := by
  refine ⟨fun s c pre post hr hc hpre hs hn => ?_, fun s id rest hr ho hkept hcounts => ?_, fun s id rest hr ho => ?_⟩
  · have hover : c.over = true := Bool.and_eq_true_iff.2 ⟨hs, decide_eq_true hn⟩
    show Host.Outcome.next (s.whenRunning fun s => { s with sw := s.sw.runOut }) = _
    rw [whenRunning_run hr, runOut_first hc hover fun x hx => not_over (hpre x hx)]
  · have hheld : (s.ordered rest).takeHeld = s.ordered rest := takeHeld_noRoom hkept
    rw [exec_clearanceOrder hr ho, hheld, takeClearance_running (w := (s.ordered rest).sw) _ hcounts]
    rfl
  · exact ⟨_, exec_heldClaimTaken (s := s.ordered rest) hr, exec_clearanceOrder hr ho⟩

end Sys2Proof.Machine

/-! SUPPORT. RELEASE (05 R91-R96) of a circuit in MAKING, ACTIVE or HELD, and of one that its state does not let be released. -/

namespace Sys2Proof.Machine

set_option Elab.async false

/-- The states that a release refuses (05 R91). -/
theorem not_mayRelease {st : CircState} (h : st = .free ∨ st = .releasing ∨ st = .breaking) : st.mayRelease = false := by
  rcases h with rfl | rfl | rfl <;> rfl

/-- A RELEASE of a circuit one of whose records is FREE or being taken down (05 R91). -/
theorem effRelease_refused {s : State} {r : Request} {n : Nat} {e : Eff} (he : e.mgr = s.mgr) (hw : byteAt r.msg 1 = BitVec.ofNat 8 5)
    (hclear : (byteAt r.msg 8).toNat ≤ 200 ∨ byteAt r.msg 8 = 0xFF) (hn : s.Names r n false)
    (hst : ∃ m ∈ s.circuit n, (s.recordOf m).st.mayRelease = false) : effRelease r e = e.refuse r .stateConflict none := by
  obtain ⟨m, hm, hno⟩ := hst
  refine (checked_handle hw (parseReleaseClear_eq hclear) hn he).trans (if_neg fun hmay => ?_)
  have hstart : e.mayRelease n = (Eff.start s).mayRelease n := by simp only [Eff.mayRelease, Eff.members, Eff.recOf, he, start_mgr]
  exact Bool.false_ne_true (hno.symm.trans ((mayRelease_start s n).1 (hstart ▸ hmay) m hm))

/-- Settles O45: a RELEASE whose checks pass is the release of its circuit, and the release answer is that of the record named. -/
theorem releaseTakesACircuitDown : Obligations.ReleaseTakesACircuitDown := by
  intro s r p n ht hn hclear clear
  have hk := kind_of_takeRequest ht.takes.head
  have hh : s.Hands .release (.request r) { s with port := p } := .request .release 0x08 5 r p (by simp [requestKinds]) ht.takes
  have heff := effect_release (s := { s with port := p }) hk ht.whole hclear ⟨hn.num, hn.range, hn.notTest⟩
  have hstart := Eff.Reads.start { s with port := p }
  refine ⟨fun hrel => ?_, fun hd => ?_, fun ⟨m, hm, hst⟩ => ?_⟩
  · exact exec_releases hh ((heff hrel.mayRelease _).trans (releaseCircuit_serving hrel.making_or_serving)) hstart
      ⟨hrel.serving, hrel.other, hrel.apart, hrel.leg, hrel.room⟩
  · exact exec_freesAtOnce hh ((heff (fun m hm => mayRelease_of_serving (hd.serving m hm)) _).trans
      (releaseCircuit_serving (.inr (hd.serving n (mem_circuit s n))))) hstart ⟨hd.serving, hd.legs, hd.other, hd.apart⟩
  · exact exec_refused (len := 5) (test := false) (by simp [handleRequests]) ht fun hk e he d =>
      (effRequest_release d r e hk).trans (effRelease_refused he ht.whole hclear hn ⟨m, hm, not_mayRelease hst⟩)

end Sys2Proof.Machine

/-! SUPPORT. TOUCH (05 R105), and the requests that read the circuit table: QUERY, FIND_OUT, FIND_IN (01 R19-R21). -/

namespace Sys2Proof.Machine

set_option Elab.async false

/-! ### TOUCH (05 R105) -/

/-- The value that a TOUCH of a record gives: its own, or for 0 the record's reload value (05 R105). -/
def Rec.touchValue (x : Rec) (m : List Byte) : Option Nat := if wordAt m 8 = 0 then x.reload else some (wordAt m 8)

/-- A record whose lease a TOUCH has renewed (05 R105). -/
def Rec.renewed (v : Nat) (x : Rec) : Rec := { x with lease := some v, reload := some v }

/-- A TOUCH finds nothing against a record in the states in which a lease runs (05 R102, R105). -/
theorem touchStatus_eq_none {st : CircState} (h : st.leaseRuns = true) : st.touchStatus = none := by
  cases st with
  | making | verifyWait | verifying | active | held => rfl
  | free | releasing | breaking => cases h

section Touch
variable {s : State} {e : Eff} {r : Request} {n : Nat}

/-- A TOUCH whose message and handle pass goes on to the circuit (03 R43). -/
theorem effTouch_names (he : e.mgr = s.mgr) (hw : byteAt r.msg 1 = BitVec.ofNat 8 6) (hn : s.Names r n true) : effTouch r e = e.touch r n :=
  (checked_some hw rfl).trans (onHandle_names hn he)

/-- The state of the record itself speaks first (05 R105). -/
theorem touch_refused (he : e.mgr = s.mgr) {st : Status} (h : (s.recordOf n).st.touchStatus = some st) : e.touch r n = e.refuse r st none := by
  have hfirst : ((e.members n).findSome? fun m => (e.recOf m).st.touchStatus) = some st := by
    have hn : (e.recOf n).st.touchStatus = some st := by rw [Eff.recOf, he]; exact h
    rw [Eff.members, List.findSome?_cons, hn]
  rw [Eff.touch, hfirst]

section Running
variable (he : e.mgr = s.mgr) (h : ∀ m ∈ s.circuit n, (s.recordOf m).st.leaseRuns = true)
include he h

/-- Nothing stands against a TOUCH of a circuit whose leases run. -/
theorem touchStatus_running : ((e.members n).findSome? fun m => (e.recOf m).st.touchStatus) = none :=
  List.findSome?_eq_none_iff.2 fun m hm => by
    simp only [Eff.members, Eff.recOf, he] at hm ⊢
    exact touchStatus_eq_none (h m hm)

/-- Without a value to give it is refused. -/
theorem touch_noValue (hv : (s.recordOf n).touchValue r.msg = none) : e.touch r n = e.refuse r .stateConflict none := by
  have hvalue : (if wordAt r.msg 8 = 0 then (e.recOf n).reload else some (wordAt r.msg 8)) = none := by rw [Eff.recOf, he]; exact hv
  rw [Eff.touch, touchStatus_running he h]
  simp only [hvalue]

/-- It renews the leases of the circuit. -/
theorem touch_renews {v : Nat} (hv : (s.recordOf n).touchValue r.msg = some v) : e.touch r n =
    ((s.circuit n).foldl (fun e m => e.updRec m (Rec.renewed v)) e).ok r (handleBytes r.handle ++ bytes16 v ++ bytes16 v) := by
  have hvalue : (if wordAt r.msg 8 = 0 then (e.recOf n).reload else some (wordAt r.msg 8)) = some v := by rw [Eff.recOf, he]; exact hv
  have hmembers : e.members n = s.circuit n := by rw [Eff.members, Eff.recOf, he]; rfl
  rw [Eff.touch, touchStatus_running he h]
  simp only [hvalue, hmembers]
  rfl

end Running
end Touch

/-- A TOUCH that renews the leases of its circuit changes nothing else. -/
theorem exec_touch_renews {s : State} {r : Request} {p : Port} {n v : Nat} (ht : s.TakesWhole 0x09 6 r p) (hn : s.Names r n true)
    (hruns : ∀ m ∈ s.circuit n, (s.recordOf m).st.leaseRuns = true) (hv : (s.recordOf n).touchValue r.msg = some v) :
    ∃ t, exec .touch s = .next t ∧ s.circuitClaim t [] [] (p.answerRequest r .ok (handleBytes r.handle ++ bytes16 v ++ bytes16 v)) ∧
      s.recordsBecome t (s.circuit n) (fun _ x => x.renewed v) ∧ s.fanStands t := by
  have hreads := ((Eff.Reads.start { s with port := p }).updEach (s.circuit n) (Rec.renewed v) fun _ => rfl).answer r.slot r.sub .ok
    (handleBytes r.handle ++ bytes16 v ++ bytes16 v)
  have heff : effect p.defaults (.request r) (Eff.start { s with port := p }) = _ :=
    ((effRequest_touch _ r _ (kind_of_takeRequest ht.takes.head)).trans (effTouch_names (s := s) rfl ht.whole hn)).trans (touch_renews rfl hruns hv)
  obtain ⟨t, hx, hclaim, hrecs, hfan, _⟩ := exec_of_reads (v := s.ver) (w := s.mgr.wait)
    (.request .touch 0x09 6 r p (by simp [requestKinds]) ht.takes) (by rw [heff]; exact hreads) (fits_nil _)
  exact ⟨t, hx, hclaim, hrecs, hfan⟩

/-- A TOUCH refused changes nothing but its slot. -/
theorem exec_touch_refused {s : State} {r : Request} {p : Port} {n : Nat} {st : Status} (ht : s.TakesWhole 0x09 6 r p) (hn : s.Names r n true)
    (he : ∀ e : Eff, e.mgr = s.mgr → e.touch r n = e.refuse r st none) : exec .touch s = .next (s.handleRefused r p st) :=
  exec_refused (len := 6) (test := true) (by simp [handleRequests]) ht fun hk e hm d =>
    ((effRequest_touch d r e hk).trans (effTouch_names hm ht.whole hn)).trans (he e hm)

/-! ### QUERY, FIND_OUT and FIND_IN: their answers (01 R19-R21) -/

/-- A request whose effect is an answer changes nothing but its slot. -/
theorem exec_answered {c : Instr} {kind : Byte} {len : Nat} {s : State} {r : Request} {p : Port} {res : List Byte}
    (hm : (c, Owner.manager, kind, len) ∈ requestKinds) (ht : s.Takes .manager kind r p)
    (he : effRequest p.defaults r (Eff.start { s with port := p }) = (Eff.start { s with port := p }).ok r res) :
    exec c s = .next { s with port := p.answerRequest r .ok res } := by
  rw [exec_of_hands (.request c kind len r p hm ht), takeClaim_answers (s := { s with port := p }) (c := .request r) he]
  rfl

/-- A QUERY passes with its check OFF, or with the handle current (01 R19). -/
theorem effQuery_passes {s : State} {e : Eff} {r : Request} {check settings : Bool} (he : e.mgr = s.mgr) (hw : byteAt r.msg 1 = BitVec.ofNat 8 6)
    (hq : parseQuery r.msg = some (check, settings)) (hn : r.handle.num < 512)
    (hg : check = true → r.handle.gen = (s.recordOf r.handle.num).gen) : effQuery r e = e.queryAnswer r settings r.handle.num := by
  refine (checked_some hw hq).trans ?_
  cases check with
  | true => exact (if_pos rfl).trans (onHandle_names (s := s) ⟨congrArg (Handle.mk r.handle.num) (hg rfl), hn, nofun⟩ he)
  | false => exact (if_neg Bool.false_ne_true).trans (if_neg (not_records_le (Nat.le_of_lt_succ hn)))

/-- A FIND_IN of a lane slot, with a start in range (01 R21). -/
theorem parseFindIn_some {m : List Byte} {k : Slot} (hk : parseSlot m 4 = some k) (hs : (byteAt m 6).toNat ≤ 7) :
    parseFindIn m = some (k, (byteAt m 6).toNat) := by
  simp only [parseFindIn, hk, if_pos hs]

/-- A FIND_IN of no lane slot, or with a start above 7 (01 R21). -/
theorem parseFindIn_none {m : List Byte} (h : (16 ≤ (byteAt m 4).toNat ∨ 48 ≤ (byteAt m 5).toNat) ∨ 7 < (byteAt m 6).toNat) :
    parseFindIn m = none := by
  rcases h with h | h
  · simp only [parseFindIn, parseSlot_none (i := 4) h]
  · cases hk : parseSlot m 4 with
    | none => simp only [parseFindIn, hk]
    | some k => simp only [parseFindIn, hk, if_neg (Nat.not_le.2 h)]

/-- A FIND_IN in range is answered from the slot's list (01 R21). -/
theorem effFindIn_answers {e : Eff} {r : Request} {k : Slot} (hw : byteAt r.msg 1 = BitVec.ofNat 8 3) (hk : parseSlot r.msg 4 = some k)
    (hs : (byteAt r.msg 6).toNat ≤ 7) : effFindIn r e = e.ok r ([BitVec.ofNat 8 (e.mgr.fanOf k).length,
      BitVec.ofNat 8 (((e.mgr.fanOf k).drop (byteAt r.msg 6).toNat).take 6).length] ++
        (((e.mgr.fanOf k).drop (byteAt r.msg 6).toNat).take 6).flatMap fun n => handleBytes (e.handleOf n)) := by
  rw [effFindIn, checked_some hw (parseFindIn_some hk hs)]

/-- The circuit fields of a FIND_OUT or FIND_IN refused: there are none (log 17). -/
theorem circuitFields_find {m : List Byte} (h : byteAt m 0 = 0x0B ∨ byteAt m 0 = 0x0C) : circuitFields m = [0, 0, 0, 0] := by
  have hopen : byteAt m 0 ≠ 0x01 := by rcases h with h | h <;> rw [h] <;> decide
  rw [circuitFields, if_neg hopen, if_pos h]

/-- A FIND_OUT or FIND_IN out of range (log 17). -/
theorem find_refused {s : State} {kind : Byte} {r : Request} {p : Port} (hkind : kind = 0x0B ∨ kind = 0x0C) (ht : s.Takes .manager kind r p)
    (he : byteAt r.msg 0 = kind → ∀ (e : Eff) d, effRequest d r e = e.refuse r .badField none) :
    s.managerRequest kind = { s with port := p.answerRequest r .badField [0, 0, 0, 0, 0xFF, 0xFF] } := by
  have hk := kind_of_takeRequest ht.head
  rw [managerRequest_refused ht fun e _ => he hk e, circuitFields_find (by rw [hk]; exact hkind)]
  rfl

end Sys2Proof.Machine

/-! SUPPORT. The two views of a record, byte by byte (10.8). -/

namespace Sys2Proof.Machine

set_option Elab.async false

/-! ### Fields of an answer -/

theorem resultIs_byte {b : List Byte} {i v : Nat} (h : b.getD (i - 4) 0 = BitVec.ofNat 8 v) : resultIs b i 1 v := by
  intro j hj
  obtain rfl : j = 0 := by omega
  simpa using h

theorem resultIs_word {b : List Byte} {i v : Nat} (hhigh : b.getD (i - 4) 0 = BitVec.ofNat 8 (v / 256))
    (hlow : b.getD (i - 4 + 1) 0 = BitVec.ofNat 8 v) : resultIs b i 2 v := by
  intro j hj
  obtain rfl | rfl : j = 0 ∨ j = 1 := by omega
  · simpa using hhigh
  · simpa using hlow

/-- A byte's own value is read back. -/
theorem resultIs_toNat {b : List Byte} {i : Nat} {x : Byte} (h : b.getD (i - 4) 0 = x) : resultIs b i 1 x.toNat :=
  resultIs_byte (h.trans (by simp))

/-- A list of two bytes, byte by byte. -/
theorem eq_two_bytes {l : List Byte} (h : l.length = 2) : l = [l.getD 0 0, l.getD 1 0] := by
  obtain ⟨a, b, rfl⟩ := List.length_eq_two.1 h
  rfl

theorem length_sourceBytes (src : Option Source) : (sourceBytes src).length = 2 := by
  rcases src with _ | _ | _ <;> rfl

theorem length_optSlotBytes (k : Option Slot) : (optSlotBytes k).length = 2 := by cases k <;> rfl

/-! ### The CIRCUIT view -/

/-- One of the three bytes that stand for a leg, 00h for one that is not there: lane, timeslot, state (10.8). -/
def legByte (l : Option Leg) : Fin 3 → Byte
  | 0 => l.elim 0 fun l => BitVec.ofNat 8 l.slot.lane.val
  | 1 => l.elim 0 fun l => BitVec.ofNat 8 l.slot.ts.val
  | 2 => l.elim 0 fun l => l.st.toByte

/-- The bytes of the first four legs, three for each. -/
theorem legsBytes_eq (legs : List Leg) :
    legsBytes legs = [0, 1, 2, 3].flatMap fun i : Nat => [legByte legs[i]? 0, legByte legs[i]? 1, legByte legs[i]? 2] := by
  rcases legs with _ | ⟨a, _ | ⟨b, _ | ⟨c, _ | ⟨d, rest⟩⟩⟩⟩ <;> rfl

theorem legByte_none (j : Fin 3) : legByte none j = 0 := by fin_cases j <;> rfl

/-- The attributes byte, bit by bit (10.8). -/
theorem attributes_eq (n : Nat) (x : Rec) : attributes n x = BitVec.ofNat 8 ((if 480 ≤ n then 128 else 0) + x.cls.toByte.toNat * 32 +
    (if x.preemptable then 16 else 0) + (if x.fault then 8 else 0) + (if x.partner.isSome then 4 else 0) + (if x.lease.isSome then 2 else 0)) := by
  have hpool : bitNat (isTestPool n) 7 = if 480 ≤ n then 128 else 0 := by
    unfold bitNat isTestPool
    exact if_congr decide_eq_true_iff rfl rfl
  rw [attributes, hpool]
  rfl

/-- The answer of a QUERY for the CIRCUIT view. -/
def circuitAnswer (n : Nat) (x : Rec) : List Byte := handleBytes ⟨n, x.gen⟩ ++ circuitView n x

section Circuit
variable (n : Nat) (x : Rec)

/-- Byte by byte, every field in its place. -/
theorem circuitAnswer_eq : circuitAnswer n x = handleBytes ⟨n, x.gen⟩ ++ ([x.st.toByte, attributes n x] ++
    [(sourceBytes x.source).getD 0 0, (sourceBytes x.source).getD 1 0] ++ [BitVec.ofNat 8 x.legs.length] ++
    ([0, 1, 2, 3].flatMap fun i : Nat => [legByte x.legs[i]? 0, legByte x.legs[i]? 1, legByte x.legs[i]? 2]) ++
    bytes16 (x.partner.getD 0xFFFF) ++ bytes16 (x.lease.getD 0) ++ bytes16 x.tag.toNat) := by
  rw [circuitAnswer, circuitView, legsBytes_eq, ← eq_two_bytes (length_sourceBytes x.source)]

theorem circuitAnswer_legByte {i k : Nat} (hi : i < 4) (j : Fin 3) (hk : k = 9 + 3 * i + j) :
    (circuitAnswer n x).getD k 0 = legByte x.legs[i]? j := by
  subst hk
  rw [circuitAnswer_eq]
  interval_cases i <;> fin_cases j <;> rfl

/-- A leg: its slot, then its state. -/
theorem circuitAnswer_leg {i : Nat} {l : Leg} (hi : i < 4) (hl : x.legs[i]? = some l) :
    resultIsSlot (circuitAnswer n x) (13 + 3 * i) l.slot ∧ resultIs (circuitAnswer n x) (15 + 3 * i) 1 l.st.toByte.toNat := by
  have hbyte (j : Fin 3) (k : Nat) (hk : k = 9 + 3 * i + j) : (circuitAnswer n x).getD k 0 = legByte (some l) j :=
    (circuitAnswer_legByte n x hi j hk).trans (by rw [hl])
  exact ⟨⟨resultIs_byte (hbyte 0 _ (by simp; omega)), resultIs_byte (hbyte 1 _ (by simp; omega))⟩, resultIs_toNat (hbyte 2 _ (by simp; omega))⟩

/-- The place of a leg that is not there. -/
theorem circuitAnswer_noLeg {i : Nat} (hi : i < 4) (hl : x.legs[i]? = none) : resultIs (circuitAnswer n x) (13 + 3 * i) 3 0 := by
  intro j hj
  rw [circuitAnswer_legByte n x hi ⟨j, hj⟩ (by simp; omega), hl, legByte_none]
  simp

/-- The source: a lane slot, a generator, or none. -/
theorem circuitAnswer_source : (∀ k, x.source = some (.inbound k) → resultIsSlot (circuitAnswer n x) 10 k) ∧
    (∀ g : Fin 6, x.source = some (.gen g) → resultIs (circuitAnswer n x) 10 1 (0x80 + g.val) ∧ resultIs (circuitAnswer n x) 11 1 0) ∧
    (x.source = none → resultIs (circuitAnswer n x) 10 2 0xFFFF) := by
  rw [circuitAnswer_eq]
  refine ⟨fun k hk => ?_, fun g hg => ?_, fun hno => ?_⟩
  · rw [hk]
    exact ⟨resultIs_byte rfl, resultIs_byte rfl⟩
  · rw [hg]
    exact ⟨resultIs_byte rfl, resultIs_byte rfl⟩
  · rw [hno]
    exact resultIs_word rfl rfl

/-- The handle, the state and the attributes. -/
theorem circuitAnswer_head : resultIs (circuitAnswer n x) 4 2 n ∧ resultIs (circuitAnswer n x) 6 2 x.gen.toNat ∧
    resultIs (circuitAnswer n x) 8 1 x.st.toByte.toNat ∧ resultIs (circuitAnswer n x) 9 1 ((if 480 ≤ n then 128 else 0) + x.cls.toByte.toNat * 32 +
      (if x.preemptable then 16 else 0) + (if x.fault then 8 else 0) + (if x.partner.isSome then 4 else 0) + (if x.lease.isSome then 2 else 0)) := by
  rw [circuitAnswer_eq, attributes_eq]
  exact ⟨resultIs_word rfl rfl, resultIs_word rfl rfl, resultIs_toNat rfl, resultIs_byte rfl⟩

/-- The number of legs, the partner, the lease and the tag. -/
theorem circuitAnswer_rest : resultIs (circuitAnswer n x) 12 1 x.legs.length ∧ resultIs (circuitAnswer n x) 25 2 (x.partner.getD 0xFFFF) ∧
    resultIs (circuitAnswer n x) 27 2 (x.lease.getD 0) ∧ resultIs (circuitAnswer n x) 29 2 x.tag.toNat := by
  rw [circuitAnswer_eq]
  exact ⟨resultIs_byte rfl, resultIs_word rfl rfl, resultIs_word rfl rfl, resultIs_word rfl rfl⟩

theorem length_circuitAnswer : (circuitAnswer n x).length = 27 := by
  rw [circuitAnswer_eq]
  rfl

end Circuit

/-! ### The SETTINGS view -/

theorem length_displacementBytes (x : Rec) : (displacementBytes x).length = 4 := by
  unfold displacementBytes
  split <;> rfl

theorem eq_four_bytes {l : List Byte} (h : l.length = 4) : l = [l.getD 0 0, l.getD 1 0, l.getD 2 0, l.getD 3 0] := by
  obtain ⟨a, b, c, d, rfl⟩ := List.length_eq_four.1 h
  rfl

/-- A record holds a displacement link on one of its legs, or in its displacement field (01 R7). -/
theorem hasDisplacement_iff (x : Rec) : x.hasDisplacement = true ↔ (∃ l ∈ x.legs, l.st = .displaced) ∨ x.displ.isSome = true := by
  simp [Rec.hasDisplacement, or_comm]

/-- The byte of a leg displaced by record d (10.8). -/
theorem displacedByte_linked {l : Leg} {d : Nat} (hst : l.st = .displaced) (hd : l.link = some d) :
    displacedByte (some l) = BitVec.ofNat 8 (d - 480) := by
  obtain ⟨k, _, y, _⟩ := l
  cases hst
  cases hd
  rfl

/-- The byte of a place where no leg is displaced (10.8). -/
theorem displacedByte_unlinked {o : Option Leg} (h : ∀ l, o = some l → l.st = .displaced → l.link = none) : displacedByte o = 0xFF := by
  unfold displacedByte
  split
  · exact nomatch h _ rfl rfl
  · rfl

/-- Without a displacement field, a byte for each of the four leg places (10.8). -/
theorem displacementBytes_legs {x : Rec} (h : x.displ = none) {i : Nat} (hi : i < 4) : (displacementBytes x).getD i 0 = displacedByte x.legs[i]? := by
  simp only [displacementBytes, h]
  interval_cases i <;> rfl

/-- The answer of a QUERY for the SETTINGS view. -/
def settingsAnswer (n : Nat) (x : Rec) : List Byte := handleBytes ⟨n, x.gen⟩ ++ settingsView x

section Settings
variable (n : Nat) (x : Rec)

/-- Byte by byte, every field in its place. -/
theorem settingsAnswer_eq : settingsAnswer n x = handleBytes ⟨n, x.gen⟩ ++ ([x.cond, x.holdB, x.rel, BitVec.ofNat 8 x.clearDown,
      BitVec.ofNat 8 ((if x.reload.isSome then 1 else 0) + (if x.verify.isSome then 2 else 0) + (if x.hasDisplacement then 4 else 0) +
        (if x.watcher.isSome then 8 else 0))] ++
    bytes16 (x.reload.getD 0) ++ [(optSlotBytes (x.verify.map (·.ret))).getD 0 0, (optSlotBytes (x.verify.map (·.ret))).getD 1 0] ++
    bytes16 ((x.verify.map (·.tvfy)).getD 0) ++ [(displacementBytes x).getD 0 0, (displacementBytes x).getD 1 0, (displacementBytes x).getD 2 0,
      (displacementBytes x).getD 3 0] ++ [BitVec.ofNat 8 (x.watcher.getD 0xFF)]) := by
  have hwatcher : (match x.watcher with | some w => BitVec.ofNat 8 w | none => (0xFF : Byte)) = BitVec.ofNat 8 (x.watcher.getD 0xFF) := by
    cases x.watcher <;> rfl
  rw [settingsAnswer, settingsView, ← eq_two_bytes (length_optSlotBytes _), ← eq_four_bytes (length_displacementBytes x), ← hwatcher]
  rfl

theorem settingsAnswer_flags : (settingsAnswer n x).getD 8 0 = BitVec.ofNat 8 ((if x.reload.isSome then 1 else 0) +
    (if x.verify.isSome then 2 else 0) + (if x.hasDisplacement then 4 else 0) + (if x.watcher.isSome then 8 else 0)) := by
  rw [settingsAnswer_eq]
  rfl

/-- The verify field: return slot, then tVFY; without one FFFFh and 0000h (log 15). -/
theorem settingsAnswer_verify : (∀ v, x.verify = some v → resultIsSlot (settingsAnswer n x) 15 v.ret ∧ resultIs (settingsAnswer n x) 17 2 v.tvfy) ∧
    (x.verify = none → resultIs (settingsAnswer n x) 15 2 0xFFFF ∧ resultIs (settingsAnswer n x) 17 2 0) := by
  rw [settingsAnswer_eq]
  refine ⟨fun v hv => ?_, fun hv => ?_⟩ <;> rw [hv]
  · exact ⟨⟨resultIs_byte rfl, resultIs_byte rfl⟩, resultIs_word rfl rfl⟩
  · exact ⟨resultIs_word rfl rfl, resultIs_word rfl rfl⟩

/-- The byte of a place of the displacement field. -/
theorem settingsAnswer_displacement {i k : Nat} (hi : i < 4) (hk : k = 15 + i) : (settingsAnswer n x).getD k 0 = (displacementBytes x).getD i 0 := by
  subst hk
  rw [settingsAnswer_eq]
  interval_cases i <;> rfl

/-- The displacement of a test record: owner and loop slot. -/
theorem settingsAnswer_displ {o : Nat} {k : Slot} (h : x.displ = some (o, k)) :
    resultIs (settingsAnswer n x) 19 2 o ∧ resultIsSlot (settingsAnswer n x) 21 k := by
  have hbytes : displacementBytes x = bytes16 o ++ slotBytes k := by simp only [displacementBytes, h]
  have hbyte (i j : Nat) (hi : i < 4) (hj : j = 15 + i) : (settingsAnswer n x).getD j 0 = (bytes16 o ++ slotBytes k).getD i 0 :=
    (settingsAnswer_displacement n x hi hj).trans (by rw [hbytes])
  exact ⟨resultIs_word (hbyte 0 15 (by omega) rfl) (hbyte 1 16 (by omega) rfl), resultIs_byte (hbyte 2 17 (by omega) rfl),
    resultIs_byte (hbyte 3 18 (by omega) rfl)⟩

/-- The displacement of a record of the control pool: a byte for each leg place. -/
theorem settingsAnswer_legs (h : x.displ = none) {i : Nat} (hi : i < 4) :
    (∀ l d, x.legs[i]? = some l → l.st = .displaced → l.link = some d → resultIs (settingsAnswer n x) (19 + i) 1 (d - 480)) ∧
      ((∀ l, x.legs[i]? = some l → l.st = .displaced → l.link = none) → resultIs (settingsAnswer n x) (19 + i) 1 0xFF) := by
  have hbyte : (settingsAnswer n x).getD (19 + i - 4) 0 = displacedByte x.legs[i]? :=
    (settingsAnswer_displacement n x hi (by omega)).trans (displacementBytes_legs h hi)
  refine ⟨fun l d hl hst hd => resultIs_byte (hbyte.trans ?_), fun hno => resultIs_byte (hbyte.trans (displacedByte_unlinked hno))⟩
  rw [hl, displacedByte_linked hst hd]

/-- The handle, the three bytes and the clear-down. -/
theorem settingsAnswer_head : resultIs (settingsAnswer n x) 4 2 n ∧ resultIs (settingsAnswer n x) 6 2 x.gen.toNat ∧
    resultIs (settingsAnswer n x) 8 1 x.cond.toNat ∧ resultIs (settingsAnswer n x) 9 1 x.holdB.toNat ∧
    resultIs (settingsAnswer n x) 10 1 x.rel.toNat ∧ resultIs (settingsAnswer n x) 11 1 x.clearDown := by
  rw [settingsAnswer_eq]
  exact ⟨resultIs_word rfl rfl, resultIs_word rfl rfl, resultIs_toNat rfl, resultIs_toNat rfl, resultIs_toNat rfl, resultIs_byte rfl⟩

theorem settingsAnswer_reload : resultIs (settingsAnswer n x) 13 2 (x.reload.getD 0) := by
  rw [settingsAnswer_eq]
  exact resultIs_word rfl rfl

theorem settingsAnswer_watcher : resultIs (settingsAnswer n x) 23 1 (x.watcher.getD 0xFF) := by
  rw [settingsAnswer_eq]
  exact resultIs_byte rfl

theorem length_settingsAnswer : (settingsAnswer n x).length = 20 := by
  rw [settingsAnswer_eq]
  rfl

end Settings

/-! ### The statement -/

/-- Settles O44: a TOUCH is one change of the records of its circuit; a query is its answer, and each field of a view is read at its place. -/
theorem touchRenewsTheLeaseAndQueriesChangeNothing : Obligations.TouchRenewsTheLeaseAndQueriesChangeNothing := by
  refine ⟨fun s r p n ht hn => ⟨fun v hruns hv => ?_, fun hruns hv => ?_, fun hst => ?_, fun hst => ?_⟩,
    fun s r p n check settings ht hq hnum hn hg => ?_, fun s r p k ht hk => ?_, fun s r p k ht hk hs => ?_,
    fun s r p => ⟨fun ht hb => ?_, fun ht hb => ?_⟩, fun n x => ?_, fun n x => ?_, rfl, rfl, rfl, rfl⟩
  · exact exec_touch_renews ht hn hruns hv
  · exact exec_touch_refused ht hn fun e he => touch_noValue he hruns hv
  · exact exec_touch_refused ht hn fun e he => touch_refused he (by rcases hst with hst | hst <;> rw [hst] <;> rfl)
  · exact exec_touch_refused ht hn fun e he => touch_refused he (by rw [hst]; rfl)
  · subst hnum
    exact exec_answered (len := 6) (by simp [requestKinds]) ht.takes
      ((effRequest_query _ r _ (kind_of_takeRequest ht.takes.head)).trans (effQuery_passes (s := s) rfl ht.whole hq hn hg))
  · exact exec_answered (len := 2) (by simp [requestKinds]) ht.takes
      ((effRequest_findOut _ r _ (kind_of_takeRequest ht.takes.head)).trans (checked_some ht.whole hk))
  · exact exec_answered (len := 3) (by simp [requestKinds]) ht.takes
      ((effRequest_findIn _ r _ (kind_of_takeRequest ht.takes.head)).trans (effFindIn_answers ht.whole hk hs))
  · exact congrArg Host.Outcome.next (find_refused (.inl rfl) ht.takes fun hk e d =>
      (effRequest_findOut d r e hk).trans (checked_none ht.whole (parseSlot_none hb)))
  · exact congrArg Host.Outcome.next (find_refused (.inr rfl) ht.takes fun hk e d =>
      (effRequest_findIn d r e hk).trans (checked_none ht.whole (parseFindIn_none hb)))
  · obtain ⟨hnum, hgen, hst, hattr⟩ := circuitAnswer_head n x
    obtain ⟨hinbound, hg, hnone⟩ := circuitAnswer_source n x
    obtain ⟨hcount, hpartner, hlease, htag⟩ := circuitAnswer_rest n x
    exact ⟨length_circuitAnswer n x, hnum, hgen, hst, hattr, hinbound, hg, hnone, hcount, fun i l hi hl => circuitAnswer_leg n x hi hl,
      fun i hi hl => circuitAnswer_noLeg n x hi hl, hpartner, hlease, htag⟩
  · obtain ⟨hnum, hgen, hcond, hhold, hrel, hclear⟩ := settingsAnswer_head n x
    obtain ⟨hverify, hnone⟩ := settingsAnswer_verify n x
    refine ⟨length_settingsAnswer n x, hnum, hgen, hcond, hhold, hrel, hclear, fun hd => ?_, fun hl hd => ?_, settingsAnswer_reload n x, hverify, hnone,
      fun o k hd => settingsAnswer_displ n x hd, fun hd i hi => settingsAnswer_legs n x hd hi, settingsAnswer_watcher n x⟩
    · exact resultIs_byte ((settingsAnswer_flags n x).trans (by rw [if_pos ((hasDisplacement_iff x).2 hd)]))
    · have hno : ¬x.hasDisplacement = true := fun h => ((hasDisplacement_iff x).1 h).elim (fun ⟨l, hm, hst⟩ => hl l hm hst) (by simp [hd])
      exact resultIs_byte ((settingsAnswer_flags n x).trans (by rw [if_neg hno, Nat.add_zero]))

end Sys2Proof.Machine

/-! SUPPORT. The lane supervisor (06): LANE_SET and LANE_QUERY, and the judgement of a lane's frame. -/

namespace Sys2Proof.Machine

set_option Elab.async false

/-! ### Lanes and their reports -/

theorem lane_setLane (u : Supervisor) (l m : Nat) (v : Lane) : (u.setLane l v).lane m = if m = l then v else u.lane m := by
  unfold Supervisor.lane Supervisor.setLane
  split
  · next hm => rw [hm, Tbl.get_set_same]
  · next hm => exact Tbl.get_set_other _ _ _ hm

theorem parseLane_eq {b : Byte} {l : Fin 16} (h : b.toNat = l.val) : parseLane b = some l := by
  rw [parseLane, dif_pos (h ▸ l.isLt)]
  exact congrArg some (Fin.ext h)

theorem parseLane_none {b : Byte} (h : 16 ≤ b.toNat) : parseLane b = none := dif_neg (Nat.not_lt.2 h)

/-- A raise handed to the attention unit joins those on their way, unless it is of no cause (09 R172). -/
theorem hand_eq (a : Attention) (b : RaiseBlock) (r : Raise) :
    a.hand b r = { a with raises := a.raises ++ if r = [] then [] else [(b, r)] } := by
  unfold Attention.hand
  split <;> simp

/-! ### LANE_SET and LANE_QUERY (06 R114, R115) -/

section LaneRequests
variable {s : State} {r : Request} {p : Port}

/-- A request of another owner than the circuit manager, whole as a message, is given to the owner's own checks (10 R194). -/
theorem ownerTakes_whole {o : Owner} {kind : Byte} {len : Nat} (f : Request → State → State) (ht : s.Takes o kind r p)
    (hlen : byteAt r.msg 1 = BitVec.ofNat 8 len) : s.ownerTakes o kind len f = f r { s with port := p } := by
  have hm : messageOk len r.msg = true := by simp [messageOk, hlen]
  rw [ownerTakes_takes len f ht, if_pos hm]

theorem exec_laneSet (ht : s.Takes .supervisor 0x18 r p) (hlen : byteAt r.msg 1 = 3) :
    exec .laneSet s = .next (({ s with port := p } : State).laneSet r) := congrArg Host.Outcome.next (ownerTakes_whole State.laneSet ht hlen)

theorem exec_laneQuery (ht : s.Takes .supervisor 0x19 r p) (hlen : byteAt r.msg 1 = 1) :
    exec .laneQuery s = .next (({ s with port := p } : State).laneQuery r) :=
  congrArg Host.Outcome.next (ownerTakes_whole State.laneQuery ht hlen)

/-- A LANE_SET in range writes the two fields of its lane, and answers with them and the lane's state. -/
theorem laneSet_writes {l : Fin 16} (hl : (byteAt r.msg 4).toNat = l.val) (hok : laneSetOk (byteAt r.msg 5).toNat (byteAt r.msg 6).toNat = true) :
    s.laneSet r = { s with
      sup := s.sup.setLane l { s.sup.lane l with tlos := (byteAt r.msg 5).toNat, trsq := (byteAt r.msg 6).toNat }
      port := s.port.answerRequest r .ok [byteAt r.msg 4, byteAt r.msg 5, byteAt r.msg 6, (s.sup.lane l).st.toByte] } := by
  simp only [State.laneSet, parseLane_eq hl, hok, if_true]

/-- A LANE_SET with a field out of range is refused. -/
theorem laneSet_refuses (hbad : parseLane (byteAt r.msg 4) = none ∨ laneSetOk (byteAt r.msg 5).toNat (byteAt r.msg 6).toNat = false) :
    s.laneSet r = { s with port := s.port.answerRequest r .badField [] } := by
  cases hl : parseLane (byteAt r.msg 4) with
  | none => simp only [State.laneSet, hl]
  | some l =>
    have hok := hbad.resolve_left (by rw [hl]; exact Option.some_ne_none l)
    simp only [State.laneSet, hl, hok, Bool.false_eq_true, if_false]

theorem laneQuery_all (hb : byteAt r.msg 4 = 0xFF) : s.laneQuery r = { s with
    port := s.port.answerRequest r .ok ((List.range 16).map fun l => (s.sup.lane l).st.toByte) } := if_pos hb

theorem laneQuery_one {l : Fin 16} (hl : (byteAt r.msg 4).toNat = l.val) :
    s.laneQuery r = { s with port := s.port.answerRequest r .ok (laneBytes l (s.sup.lane l)) } := by
  have hne : byteAt r.msg 4 ≠ 0xFF := fun hb => by
    rw [hb] at hl
    exact absurd (hl ▸ l.isLt) (by decide)
  simp only [State.laneQuery, if_neg hne, parseLane_eq hl]

theorem laneQuery_refuses (hl : 16 ≤ (byteAt r.msg 4).toNat) (hne : byteAt r.msg 4 ≠ 0xFF) :
    s.laneQuery r = { s with port := s.port.answerRequest r .badField [] } := by
  simp only [State.laneQuery, if_neg hne, parseLane_none hl]

end LaneRequests

/-- LANE_SET's two fields are bytes, so only their lower bounds can fail (06 R114). -/
theorem laneSetOk_bytes (a b : Byte) : laneSetOk a.toNat b.toNat = true ↔ 8 ≤ a.toNat ∧ 1 ≤ b.toNat := by
  have ha := a.isLt
  have hb := b.isLt
  rw [laneSetOk, decide_eq_true_eq]
  omega

/-- Settles O22: each request is its answer, and LANE_SET one write of its lane besides. -/
theorem laneSetAndLaneQuery : Obligations.LaneSetAndLaneQuery := by
  refine ⟨fun s r p l ht hlen hl h5 h6 => ?_, fun s r p ht hlen hbad => ?_, fun s r p l ht hlen hl => ?_,
    fun s r p ht hlen => ⟨fun hb => ?_, fun hl hne => ?_⟩⟩
  · rw [exec_laneSet ht hlen, laneSet_writes hl ((laneSetOk_bytes _ _).2 ⟨h5, h6⟩)]
    refine ⟨_, rfl, rfl, fun m => (lane_setLane _ _ _ _).trans ?_⟩
    split
    · next hm => rw [hm]
    · rfl
  · rw [exec_laneSet ht hlen, laneSet_refuses]
    rcases hbad with hl | h5 | h6
    · exact .inl (parseLane_none hl)
    · exact .inr (Bool.eq_false_iff.2 fun hok => Nat.not_le.2 h5 ((laneSetOk_bytes _ _).1 hok).1)
    · refine .inr (Bool.eq_false_iff.2 fun hok => ?_)
      have hpos := ((laneSetOk_bytes _ _).1 hok).2
      rw [h6] at hpos
      exact absurd hpos (by decide)
  · have hbyte : BitVec.ofNat 8 l.val = byteAt r.msg 4 := by rw [← hl, BitVec.ofNat_toNat, BitVec.setWidth_eq]
    rw [exec_laneQuery ht hlen, laneQuery_one hl, laneBytes, hbyte]
  · rw [exec_laneQuery ht hlen, laneQuery_all hb]
  · rw [exec_laneQuery ht hlen, laneQuery_refuses hl hne]

/-! ### The judgement of a frame (06 R110-R112) -/

section LaneJudge
variable {x : Lane}

theorem judge_up_present (h : x.st = .up) : x.judge true = { x with absent := 0 } := by
  simp only [Lane.judge, h, if_true]

theorem judge_up_counts (h : x.st = .up) (hlt : x.absent + 1 < x.tlos) : x.judge false = { x with absent := x.absent + 1 } := by
  simp only [Lane.judge, h, if_neg (Nat.not_le.2 hlt), Bool.false_eq_true, if_false]

theorem judge_up_falls (h : x.st = .up) (hle : x.tlos ≤ x.absent + 1) : x.judge false = { x with st := .lost, absent := 0 } := by
  simp only [Lane.judge, h, if_pos hle, Bool.false_eq_true, if_false]

theorem judge_lost_present (h : x.st = .lost) : x.judge true = { x with st := .restoring, presence := 1 } := by
  simp only [Lane.judge, h, if_true]

theorem judge_lost_absent (h : x.st = .lost) : x.judge false = x := by
  simp only [Lane.judge, h, Bool.false_eq_true, if_false]

theorem judge_restoring_counts (h : x.st = .restoring) (hlt : x.presence + 1 < x.trsq * 80) :
    x.judge true = { x with presence := x.presence + 1 } := by
  simp only [Lane.judge, h, Config.unitFrames, if_neg (Nat.not_le.2 hlt), if_true]

theorem judge_restoring_rises (h : x.st = .restoring) (hle : x.trsq * 80 ≤ x.presence + 1) :
    x.judge true = { x with st := .up, absent := 0, presence := 0 } := by
  simp only [Lane.judge, h, Config.unitFrames, if_pos hle, if_true]

theorem judge_restoring_absent (h : x.st = .restoring) : x.judge false = { x with st := .lost, presence := 0 } := by
  simp only [Lane.judge, h, Bool.false_eq_true, if_false]

end LaneJudge

/-- The attention of a lane's step from one state to another (06 R112): LOST and UP are raised when they are entered. -/
def LaneState.entered (old new : LaneState) : List Cause :=
  if new = old then []
  else match new with
    | .lost => [.lost]
    | .restoring => []
    | .up => [.up]

/-- The raise of a change of a lane's state is of the cause entered, if any. -/
theorem hand_laneRaise (a : Attention) (l : Fin 16) {old new : LaneState} (h : new ≠ old) : a.hand .supervisor (laneRaise l new) =
    { a with raises := a.raises ++ (old.entered new).map fun c => (.supervisor, [(1 + l.val, c)]) } := by
  unfold LaneState.entered
  rw [hand_eq, if_neg h]
  cases new <;> rfl

section Judgement
variable {s : State} {l : Fin 16} {present : Bool}

/-- The judgement of a lane's frame, for the lane that it makes: the lane written, and a change of its state reported and raised. -/
theorem exec_laneFrameJudgement (hr : s.phase = .run) (he : (s.sup.lane l).ended = some present) {y : Lane}
    (hy : (s.sup.lane l).judge present = y) {cause : List Cause} (hc : (s.sup.lane l).st.entered y.st = cause) :
    ∃ t, exec (.laneFrameJudgement l) s = .next t ∧
      t = { s with
        sup := t.sup
        att := { s.att with raises := s.att.raises ++ cause.map fun c => (.supervisor, [(1 + l.val, c)]) } } ∧
      (∀ m, t.sup.lane m = if m = l.val then { y with ended := none } else s.sup.lane m) ∧
      t.sup.toManager = s.sup.toManager ++ (if y.st = (s.sup.lane l).st then [] else [⟨l, y.st⟩]) ∧
      t.sup.toWatchers = s.sup.toWatchers ++ (if y.st = (s.sup.lane l).st then [] else [⟨l, y.st⟩]) ∧
      t.sup.toVerifier = s.sup.toVerifier ++ (if y.st = (s.sup.lane l).st then [] else [⟨l, y.st⟩]) := by
  subst hc
  have hlane (m : Nat) := lane_setLane s.sup l.val m { y with ended := none }
  have hexec : exec (.laneFrameJudgement l) s = .next (s.judgeLane l) := congrArg Host.Outcome.next (whenRunning_run hr _)
  simp only [hexec, State.judgeLane, he, hy]
  by_cases hst : y.st = (s.sup.lane l).st
  · simp only [if_pos hst]
    refine ⟨_, rfl, ?_, hlane, ?_, ?_, ?_⟩ <;> simp [LaneState.entered, hst, Supervisor.setLane]
  · simp only [if_neg hst]
    exact ⟨_, rfl, by rw [State.laneChanged, hand_laneRaise _ _ hst], hlane, rfl, rfl, rfl⟩

end Judgement

/-- Settles O23: the eight cases of the judgement, each with the attention of the state it enters. -/
theorem laneFrameJudgement : Obligations.LaneFrameJudgement := by
  intro s l present hr he x becomes
  have hbecomes {y : Lane} {cause : List Cause} (hy : x.judge present = y) (hc : x.st.entered y.st = cause) : becomes y cause :=
    exec_laneFrameJudgement hr he hy hc
  refine ⟨fun h hp => ?_, fun h hp hlt => ?_, fun h hp hle => ?_, fun h hp => ?_, fun h hp => ?_, fun h hp hlt => ?_, fun h hp hle => ?_,
    fun h hp => ?_⟩ <;> subst hp
  · exact hbecomes (judge_up_present h) (if_pos rfl)
  · exact hbecomes (judge_up_counts h hlt) (if_pos rfl)
  · exact hbecomes (judge_up_falls h hle) (by rw [h]; rfl)
  · exact hbecomes (judge_lost_present h) (by rw [h]; rfl)
  · exact hbecomes (judge_lost_absent h) (if_pos rfl)
  · exact hbecomes (judge_restoring_counts h hlt) (if_pos rfl)
  · exact hbecomes (judge_restoring_rises h hle) (by rw [h]; rfl)
  · exact hbecomes (judge_restoring_absent h) (by rw [h]; rfl)

end Sys2Proof.Machine

/-! SUPPORT. A lane change at the circuit manager (06 R113, R116, R117): the view, and the source faults of the records fed from the lane. -/

namespace Sys2Proof.Machine

set_option Elab.async false

/-! ### The records fed from a lane (06 R116, R117) -/

/-- A record with a source fault (06 R116). -/
def Rec.withFault (fault : Bool) (r : Rec) : Rec := { r with fault := fault }

/-- What record n, being x, raises when it takes a lane's fault (06 R116, R117). -/
def laneFaultRaise (fault : Bool) (n : Nat) (x : Rec) : Option (Nat × Cause) := (laneCause x fault).map fun c => (81 + n, c)

/-- A record that has the fault already raises nothing. -/
theorem laneFaultRaise_withFault (fault : Bool) (n : Nat) (x : Rec) : laneFaultRaise fault n (x.withFault fault) = none := by
  unfold laneFaultRaise laneCause Rec.withFault
  split <;> cases fault <;> rfl

/-- The raise in the words of the statement: `up` is whether the lane is UP. -/
theorem laneFaultRaise_not (up : Bool) (n : Nat) (x : Rec) : laneFaultRaise (!up) n x =
    if x.st = .active ∨ x.st = .held ∨ x.st = .releasing then
      if x.fault = false ∧ up = false then some (81 + n, .sourceFault)
      else if x.fault = true ∧ up = true then some (81 + n, .sourceOk) else none
    else none := by
  unfold laneFaultRaise laneCause
  split
  · cases x.fault <;> cases up <;> rfl
  · rfl

namespace Eff.Reads

variable {s : State} {e : Eff} {recs : Nat → Rec} {offer : List Entry} {raise : Raise} {port : Port} (h : e.Reads s recs offer raise port)
include h

theorem raiseOpt (n : Nat) (c : Option Cause) : (e.raiseOpt n c).Reads s recs offer (raise ++ (c.map fun c => (81 + n, c)).toList) port := by
  cases c with
  | none => exact { h with raise := h.raise.trans (List.append_nil _).symm }
  | some c => exact h.raiseOn n c

theorem laneFault (fault : Bool) (n : Nat) : (e.laneFault fault n).Reads s (changeOn [n] (Rec.withFault fault) recs) offer
    (raise ++ (laneFaultRaise fault n (recs n)).toList) port := by
  unfold Eff.laneFault
  rw [h.recs]
  exact (h.upd n (Rec.withFault fault)).raiseOpt n _

/-- The records of a list take the fault one after another; one that stands in it twice raises at its first place only. -/
theorem laneFaults (fault : Bool) (ns : List Nat) : (ns.foldl (fun e n => e.laneFault fault n) e).Reads s
    (changeOn ns (Rec.withFault fault) recs) offer (raise ++ (firstOf ns).filterMap fun n => laneFaultRaise fault n (recs n)) port := by
  induction ns generalizing e recs raise with
  | nil => simpa [changeOn, firstOf] using h
  | cons n ns ih =>
    have hrest : ((firstOf ns).filterMap fun m => laneFaultRaise fault m (changeOn [n] (Rec.withFault fault) recs m)) =
        ((firstOf ns).filter (· ≠ n)).filterMap fun m => laneFaultRaise fault m (recs m) := by
      rw [List.filterMap_filter]
      refine List.filterMap_congr fun m _ => ?_
      rw [changeOn_single]
      by_cases hm : m = n
      · simp [hm, laneFaultRaise_withFault]
      · simp [hm]
    have hraise : raise ++ (firstOf (n :: ns)).filterMap (fun m => laneFaultRaise fault m (recs m)) =
        raise ++ (laneFaultRaise fault n (recs n)).toList ++
          ((firstOf ns).filter (· ≠ n)).filterMap fun m => laneFaultRaise fault m (recs m) := by
      rw [firstOf, List.filterMap_cons, List.append_assoc]
      cases laneFaultRaise fault n (recs n) <;> rfl
    have hall := ih (h.laneFault fault n)
    rw [hrest, ← hraise] at hall
    refine hall.of_recs fun m => ?_
    simp only [changeOn, List.mem_cons, List.not_mem_nil, or_false]
    by_cases hm : m = n
    · subst hm; simp [Rec.withFault]
    · simp [hm]

end Eff.Reads

/-! ### The lane-change claim -/

/-- The state with the manager's view of lane l set (06 R113). -/
def State.withView (s : State) (l : Fin 16) (st : LaneState) : State := { s with mgr := { s.mgr with view := setView s.mgr.view l st } }

/-- The manager's view of whether lane l is UP stands under a report (06 R113). -/
def State.sameUp (s : State) (l : Fin 16) (st : LaneState) : Bool := decide (viewUp s.mgr.view l = decide (st = .up))

/-- What a lane-change claim raises (06 R116, R117). -/
def State.laneRaises (s : State) (l : Fin 16) (st : LaneState) : Raise :=
  if s.sameUp l st then []
  else (firstOf (s.mgr.fedFrom l)).filterMap fun n => laneFaultRaise (!decide (st = .up)) n (s.recordOf n)

/-- The records that a lane-change claim gives the fault (06 R116, R117). -/
def State.laneFed (s : State) (l : Fin 16) (st : LaneState) : List Nat := if s.sameUp l st then [] else s.mgr.fedFrom l

theorem mem_laneFed {s : State} {l : Fin 16} {st : LaneState} {n : Nat} :
    n ∈ s.laneFed l st ↔ s.sameUp l st = false ∧ n ∈ s.mgr.fedFrom l := by
  unfold State.laneFed
  cases s.sameUp l st <;> simp

/-- A lane-change claim sets the view, and with UP changed gives every record fed from the lane its fault; it offers nothing. -/
theorem effLane_reads (s : State) (l : Fin 16) (st : LaneState) : (effLane ⟨l, st⟩ (Eff.start s)).Reads (s.withView l st)
    (changeOn (s.laneFed l st) (Rec.withFault (!decide (st = .up))) s.recordOf) [] (s.laneRaises l st) s.port := by
  have hstart := Eff.Reads.start (s.withView l st)
  have heff : effLane ⟨l, st⟩ (Eff.start s) = if viewUp s.mgr.view l = decide (st = .up) then Eff.start (s.withView l st)
      else (s.mgr.fedFrom l).foldl (fun e n => e.laneFault (!decide (st = .up)) n) (Eff.start (s.withView l st)) := rfl
  rw [heff]
  unfold State.laneFed State.laneRaises State.sameUp
  by_cases hup : viewUp s.mgr.view l = decide (st = .up)
  · simp only [hup, decide_true, if_true]
    exact hstart
  · simp only [hup, decide_false, Bool.false_eq_true, if_false]
    exact hstart.laneFaults _ _

/-- The first report of a lane in a list of reports. -/
theorem takeFirst_report {l : Fin 16} {st : LaneState} {pre post : List LaneReport} (hpre : ∀ x ∈ pre, x.lane ≠ l) :
    takeFirst (fun x : LaneReport => decide (x.lane = l)) (pre ++ ⟨l, st⟩ :: post) = some (⟨l, st⟩, pre ++ post) :=
  takeFirst_append (decide_eq_true rfl) fun y hy => decide_eq_false (hpre y hy)

/-- The manager takes the first report of a lane as a claim. -/
theorem exec_laneChangeClaim {s : State} {l : Fin 16} {st : LaneState} {pre post : List LaneReport} (hr : s.Ready)
    (hn : s.sup.toManager = pre ++ ⟨l, st⟩ :: post) (hpre : ∀ x ∈ pre, x.lane ≠ l) : exec (.laneChangeClaim l) s =
      .next (({ s with sup := { s.sup with toManager := pre ++ post } } : State).takeClaim (.lane ⟨l, st⟩)) := by
  have hfree : s.managerFree = true := by simp [State.managerFree, State.running, hr.run, hr.free]
  show Host.Outcome.next (s.claimLane l) = _
  simp only [State.claimLane, hfree, if_true, hn, takeFirst_report hpre]

/-- What a lane-change claim makes of the part. -/
theorem takeClaim_lane (s : State) (l : Fin 16) (st : LaneState) : ∃ t, s.takeClaim (.lane ⟨l, st⟩) = t ∧
    t = { s with
      mgr := { s.mgr with view := setView s.mgr.view l st, recs := t.mgr.recs }
      att := { s.att with raises := s.att.raises ++ if s.laneRaises l st = [] then [] else [(.manager, s.laneRaises l st)] } } ∧
    ∀ n, t.recordOf n = changeOn (s.laneFed l st) (Rec.withFault (!decide (st = .up))) s.recordOf n := by
  have h := effLane_reads s l st
  rw [State.takeClaim, effect]
  generalize effLane ⟨l, st⟩ (Eff.start s) = e at h
  refine ⟨_, settle_fits (by rw [h.offer]; exact fits_nil _), ?_, h.recs⟩
  have hmgr : e.mgr = { s.mgr with view := setView s.mgr.view l st, recs := e.mgr.recs } := h.mgr
  have hver : e.ver = s.ver := h.ver
  have hwat : e.wat = s.wat := h.wat
  simp only [Eff.commit, hver, hwat, h.port, h.offer, h.order, h.raise, hand_eq, placeOffer, List.foldl_nil, Option.toList, List.append_nil]
  rw [hmgr]

/-- Settles O24: the claim's view, its raise, and its change of the records fed from the lane. -/
theorem laneChangeClaimMovesTheSourceFaults : Obligations.LaneChangeClaimMovesTheSourceFaults := by
  intro s l st pre post hr hn hpre up same cause raises
  obtain ⟨t, hclaim, ht, hrecs⟩ := takeClaim_lane { s with sup := { s.sup with toManager := pre ++ post } } l st
  have hcause (n : Nat) : laneFaultRaise (!up) n (s.recordOf n) = cause n := laneFaultRaise_not up n _
  have hraises : ({ s with sup := { s.sup with toManager := pre ++ post } } : State).laneRaises l st = raises :=
    if_congr Iff.rfl rfl (List.filterMap_congr fun n _ => hcause n)
  have hview : t.mgr.view = setView s.mgr.view l st := by rw [ht]
  rw [hraises] at ht
  refine ⟨t, (exec_laneChangeClaim hr hn hpre).trans (congrArg _ hclaim), ?_, fun m => ?_, fun n => (hrecs n).trans (if_congr mem_laneFed rfl rfl)⟩
  · rw [hview]
    exact ht
  · rw [hview, viewOf_setView]

end Sys2Proof.Machine

/-! SUPPORT. A lane change at the watcher unit (06 R119, 07 R134, R135): the armed chains with a member on the lane freeze and thaw. -/

namespace Sys2Proof.Machine

set_option Elab.async false

/-! ### Chains of an unchanged configuration (07 R124) -/

/-- Every follower, and every watcher between it and the first, has its chain flag set. -/
theorem chain_of_mem_followers (u : WatcherUnit) {m j : Nat} : ∀ (k n : Nat), m ∈ u.followers n k → n ≤ j → j ≤ m → (u.watcher j).cfg.chain = true
  | 0, n, h, _, _ => by simp [WatcherUnit.followers] at h
  | k + 1, n, h, hn, hm => by
    unfold WatcherUnit.followers at h
    split at h
    · next hc =>
      rcases Nat.eq_or_lt_of_le hn with rfl | hlt
      · exact hc.2
      · rcases List.mem_cons.1 h with rfl | h
        · omega
        · exact chain_of_mem_followers u k (n + 1) h hlt hm
    · simp at h

/-- A watcher without a chain flag begins its chain, so it stands in no chain of a lower head (07 R124). -/
theorem head_le_of_mem_members {u : WatcherUnit} {h g m : Nat} (hg : (u.watcher g).cfg.chain = false) (hm : m ∈ u.members h) (hgm : g ≤ m) :
    g ≤ h := by
  rcases List.mem_cons.1 hm with rfl | hm
  · exact hgm
  · refine Nat.le_of_not_lt fun hlt => ?_
    have hc := chain_of_mem_followers u _ _ hm hlt hgm
    rw [hg] at hc
    exact Bool.false_ne_true hc

theorem le_of_mem_members {u : WatcherUnit} {h m : Nat} (hm : m ∈ u.members h) : h ≤ m := by
  rcases List.mem_cons.1 hm with rfl | hm
  · exact Nat.le_refl _
  · exact Nat.le_of_succ_le (le_of_mem_followers u _ _ hm).1

/-- Two chains whose heads have no chain flag share no watcher (07 R124). -/
theorem head_unique {u : WatcherUnit} {h g m : Nat} (hh : (u.watcher h).cfg.chain = false) (hg : (u.watcher g).cfg.chain = false)
    (hmh : m ∈ u.members h) (hmg : m ∈ u.members g) : h = g :=
  Nat.le_antisymm (head_le_of_mem_members hh hmg (le_of_mem_members hmh)) (head_le_of_mem_members hg hmh (le_of_mem_members hmg))

section Congr
variable {u v : WatcherUnit} (hcfg : ∀ m, (v.watcher m).cfg = (u.watcher m).cfg)
include hcfg

theorem followers_congr : ∀ k n, v.followers n k = u.followers n k
  | 0, _ => rfl
  | k + 1, n => by rw [WatcherUnit.followers, WatcherUnit.followers, hcfg, followers_congr k]

/-- The chains depend on the configurations only. -/
theorem members_congr (h : Nat) : v.members h = u.members h := congrArg (h :: ·) (followers_congr hcfg _ _)

theorem lanesUp_congr (hview : v.view = u.view) (h : Nat) : v.lanesUp h = u.lanesUp h := by
  unfold WatcherUnit.lanesUp
  rw [members_congr hcfg, hview]
  simp only [hcfg]

end Congr

/-! ### Freezing and thawing (07 R134, R135) -/

/-- A member that stands before a fresh interval, its sampling stopped. -/
def WatchRun.stilled (r : WatchRun) : WatchRun := { r with pos := 0, misses := 0, wpos := 0, crc := 0xFFFF, inFrame := false, due := false }

/-- A head that freezes, going back from CANDIDATE to ARMED (07 R134). -/
def WatchRun.frozenHead (r : WatchRun) : WatchRun := { r.stilled with
  frozen := true
  st := if r.st = .candidate then .armed else r.st
  present := if r.st = .candidate then 0 else r.present }

/-- Member m of the chain of head h when the chain is looked at again: `frozen` is whether it is frozen, `up` whether every member's lane is UP. -/
def WatchRun.refrozen (frozen up : Bool) (h m : Nat) (r : WatchRun) : WatchRun :=
  if frozen = false ∧ up = false then (if m = h then r.frozenHead else r.stilled)
  else if frozen = true ∧ up = true then { r.stilled with phase := none, frozen := if m = h then false else r.frozen }
  else r

theorem freeze_eq (u : WatcherUnit) (h : Nat) : u.freeze h = u.updChain h (WatchRun.refrozen false false h) := by
  refine congrArg (u.updChain h) (funext fun m => funext fun r => ?_)
  unfold WatchRun.refrozen WatchRun.frozenHead WatchRun.stilled
  by_cases hm : m = h
  · by_cases hst : r.st = .candidate <;> simp [hm, hst]
  · simp [hm]

theorem thaw_eq (u : WatcherUnit) (h : Nat) : u.thaw h = u.updChain h (WatchRun.refrozen true true h) := by
  refine congrArg (u.updChain h) (funext fun m => funext fun r => ?_)
  unfold WatchRun.refrozen WatchRun.stilled
  by_cases hm : m = h <;> simp [hm]

/-- The chain of a head looked at again: its members are changed, the other watchers stand. -/
theorem watcher_refreeze (u : WatcherUnit) (h m : Nat) : (u.refreeze h).watcher m =
    if m ∈ u.members h then { u.watcher m with run := (u.watcher m).run.refrozen (u.watcher h).run.frozen (u.lanesUp h) h m }
    else u.watcher m := by
  unfold WatcherUnit.refreeze
  cases hf : (u.watcher h).run.frozen <;> cases hup : u.lanesUp h
  · exact (congrArg (·.watcher m) (freeze_eq u h)).trans (watcher_updChain _ _ _ _)
  · exact (ite_self _).symm
  · exact (ite_self _).symm
  · exact (congrArg (·.watcher m) (thaw_eq u h)).trans (watcher_updChain _ _ _ _)

theorem refreeze_frame (u : WatcherUnit) (h : Nat) : u.refreeze h = { u with table := (u.refreeze h).table } := by
  unfold WatcherUnit.refreeze
  split
  · exact updChain_frame _ _ _
  · exact updChain_frame _ _ _
  · rfl

theorem cfg_refreeze (u : WatcherUnit) (h m : Nat) : ((u.refreeze h).watcher m).cfg = (u.watcher m).cfg := by
  rw [watcher_refreeze]
  split <;> rfl

theorem foldl_refreeze_frame (hs : List Nat) (u : WatcherUnit) :
    hs.foldl WatcherUnit.refreeze u = { u with table := (hs.foldl WatcherUnit.refreeze u).table } := by
  induction hs generalizing u with
  | nil => rfl
  | cons h hs ih => rw [List.foldl_cons, ih, refreeze_frame]

/-- Heads without a chain flag looked at one after another: each chain changes as it stood before all of them, and no other watcher changes. -/
theorem watcher_foldl_refreeze {hs : List Nat} (hnd : hs.Nodup) {u : WatcherUnit} (hhead : ∀ h ∈ hs, (u.watcher h).cfg.chain = false) :
    (∀ h ∈ hs, ∀ m ∈ u.members h, (hs.foldl WatcherUnit.refreeze u).watcher m =
      { u.watcher m with run := (u.watcher m).run.refrozen (u.watcher h).run.frozen (u.lanesUp h) h m }) ∧
    ∀ m, (∀ h ∈ hs, m ∉ u.members h) → (hs.foldl WatcherUnit.refreeze u).watcher m = u.watcher m := by
  induction hs generalizing u with
  | nil => exact ⟨fun h hh => absurd hh List.not_mem_nil, fun _ _ => rfl⟩
  | cons g hs ih =>
    obtain ⟨hg, hnd⟩ := List.nodup_cons.1 hnd
    have hcfg := cfg_refreeze u g
    have hmem := members_congr hcfg
    have hup := lanesUp_congr hcfg (by rw [refreeze_frame])
    have hin {m : Nat} (hm : m ∈ u.members g) := (watcher_refreeze u g m).trans (if_pos hm)
    have hout {m : Nat} (hm : m ∉ u.members g) := (watcher_refreeze u g m).trans (if_neg hm)
    have happart {h m : Nat} (hh : h ∈ hs) (hm : m ∈ u.members h) : m ∉ u.members g := fun hmg =>
      hg (head_unique (hhead g List.mem_cons_self) (hhead h (List.mem_cons_of_mem _ hh)) hmg hm ▸ hh)
    obtain ⟨ihchain, ihrest⟩ := ih hnd fun h hh => (congrArg (·.chain) (hcfg h)).trans (hhead h (List.mem_cons_of_mem _ hh))
    simp only [hmem, hup] at ihchain ihrest
    refine ⟨fun h hh m hm => ?_, fun m hm => ?_⟩
    · rcases List.mem_cons.1 hh with rfl | hh
      · exact (ihrest m fun h' hh' hm' => happart hh' hm' hm).trans (hin hm)
      · rw [List.foldl_cons, ihchain h hh m hm, hout (happart hh hm), hout (happart hh (mem_members_self u h))]
    · exact (ihrest m fun h hh => hm h (List.mem_cons_of_mem _ hh)).trans (hout (hm g List.mem_cons_self))

/-! ### The report (06 R119) -/

/-- The armed heads whose chains have a member on lane l. -/
def WatcherUnit.headsOn (u : WatcherUnit) (l : Fin 16) : List Nat :=
  u.armedHeads.filter fun h => (u.members h).any fun m => decide ((u.watcher m).cfg.target.lane = l)

theorem mem_headsOn {u : WatcherUnit} {l : Fin 16} {h : Nat} : h ∈ u.headsOn l ↔
    h < 64 ∧ (u.watcher h).run.st.armedHead = true ∧ ∃ m ∈ u.members h, (u.watcher m).cfg.target.lane = l := by
  simp only [WatcherUnit.headsOn, WatcherUnit.armedHeads, List.mem_filter, List.mem_range, Config.watchers, List.any_eq_true, decide_eq_true_eq,
    and_assoc]

theorem nodup_headsOn (u : WatcherUnit) (l : Fin 16) : (u.headsOn l).Nodup := (List.nodup_range.filter _).filter _

/-- The watcher unit takes the first report of a lane. -/
theorem exec_watcherLane {s : State} {l : Fin 16} {st : LaneState} {pre post : List LaneReport} (hr : s.phase = .run)
    (hn : s.sup.toWatchers = pre ++ ⟨l, st⟩ :: post) (hpre : ∀ x ∈ pre, x.lane ≠ l) : exec (.watcherLaneChangeReport l) s =
      .next { s with sup := { s.sup with toWatchers := pre ++ post }, wat := s.wat.takeLane ⟨l, st⟩ } := by
  show Host.Outcome.next (s.whenRunning (State.watcherLane l)) = _
  rw [whenRunning_run hr, State.watcherLane, hn, takeFirst_report hpre]

/-- Settles O30: the report looks again at each armed chain on the lane, and armed heads' chains are apart. -/
theorem laneChangeFreezesAndThawsChains : Obligations.LaneChangeFreezesAndThawsChains := by
  intro s l st pre post hr hn hpre hchain view up touched
  let v : WatcherUnit := { s.wat with view := view }
  have hmem : ∀ h, v.members h = s.wat.members h := members_congr fun _ => rfl
  have hup (h : Nat) : v.lanesUp h = up h := by
    rw [WatcherUnit.lanesUp, hmem]
    rfl
  have htouched (h : Nat) : h ∈ v.headsOn l ↔ touched h := by
    rw [mem_headsOn, hmem]
    rfl
  have htake : s.wat.takeLane ⟨l, st⟩ = (v.headsOn l).foldl WatcherUnit.refreeze v := rfl
  obtain ⟨hchains, hrest⟩ := watcher_foldl_refreeze (u := v) (nodup_headsOn v l) fun h hh => hchain h ((htouched h).1 hh).2.1
  refine ⟨_, exec_watcherLane hr hn hpre, ?_, fun h hh m hm => ?_, fun m hm => ?_⟩
  · rw [htake, foldl_refreeze_frame]
  · refine (congrArg (·.watcher m) htake).trans ((hchains h ((htouched h).2 hh) m ((hmem h).symm ▸ hm)).trans ?_)
    rw [hup]
    rfl
  · refine (congrArg (·.watcher m) htake).trans (hrest m fun h hh hmh => ?_)
    exact hm h ((htouched h).1 hh) (hmem h ▸ hmh)

end Sys2Proof.Machine

/-! SUPPORT. A watcher's judgement of a byte (07 R125-R128): the phases of a REPEAT code, the windows of a SIGNATURE, and the CRC register. -/

namespace Sys2Proof.Machine

set_option Elab.async false

/-! ### The CRC register (07 R128) -/

theorem crcBit_eq (reg : BitVec 16) (x : Bool) : crcBit reg x = (reg <<< 1) ^^^ (if reg.getLsbD 15 ^^ x then 0x1021 else 0) := by
  have hmsb : reg.msb = reg.getLsbD 15 := BitVec.msb_eq_getLsbD_last reg
  rw [crcBit, hmsb]
  split
  · rfl
  · exact BitVec.xor_zero.symm

/-- A byte enters the register bit by bit, the most significant first. -/
theorem crcByte_eq (reg : BitVec 16) (b : Byte) : crcByte reg b = [7, 6, 5, 4, 3, 2, 1, 0].foldl (fun r i => crcBit r (b.getLsbD i)) reg := by
  rw [crcByte, List.foldl_map]
  rfl

/-- Settles O28: a bit step and a byte are their equations, and the check value is the nine byte steps. -/
theorem signatureCrcIsCrc16 : Obligations.SignatureCrcIsCrc16 := ⟨crcBit_eq, crcByte_eq, by decide +kernel⟩

/-! ### REPEAT (07 R126) -/

section Repeat
variable {c : RepeatCode} {b : Byte} {q : Nat}

/-- A code of length 8 has one phase: every frame is judged against its value. -/
theorem phaseByte_whole (h : c.len = 8) (p : Nat) : c.phaseByte p = c.value := if_pos h

theorem phaseByte_code (h : c.len ≠ 8) (p : Nat) : c.phaseByte p = codeByte c.len c.value p := if_neg h

theorem findPhase_lowest (hq : q < c.len) (hb : c.phaseByte q = b) (hlow : ∀ j, j < q → c.phaseByte j ≠ b) : findPhase c b = some q := by
  simp only [findPhase, List.find?_range_eq_some, decide_eq_true_eq, List.mem_range, Bool.not_eq_true', decide_eq_false_iff_not]
  exact ⟨hb, hq, hlow⟩

theorem findPhase_unfit (h : ∀ j, j < c.len → c.phaseByte j ≠ b) : findPhase c b = none := by
  simpa [findPhase] using h

/-- The phase before the byte: the held one, or with none held the lowest that fits. -/
theorem hitPhase_fits {held : Option Nat} (h : held = some q ∨ (held = none ∧ q < c.len ∧ ∀ j, j < q → c.phaseByte j ≠ b))
    (hb : c.phaseByte q = b) : hitPhase c held b = some q := by
  rcases h with rfl | ⟨rfl, hq, hlow⟩
  · exact if_pos hb
  · exact findPhase_lowest hq hb hlow

theorem hitPhase_misses {held : Option Nat}
    (h : (∃ q, held = some q ∧ c.phaseByte q ≠ b) ∨ (held = none ∧ ∀ j, j < c.len → c.phaseByte j ≠ b)) : hitPhase c held b = none := by
  rcases h with ⟨q, rfl, hne⟩ | ⟨rfl, hunfit⟩
  · exact if_neg hne
  · exact findPhase_unfit hunfit

end Repeat

/-! ### A sample (07 R125-R127) -/

section Sample
variable {x : Watcher} {b : Byte}

/-- A sample of a REPEAT member that fits moves its phase on 8 bits. -/
theorem sample_hit {c : RepeatCode} {q : Nat} (hc : x.cfg.code = some c) (hg : x.cfg.sig = none) (h : hitPhase c x.run.phase b = some q) :
    x.sample b = { x.run with phase := some ((q + 8) % c.len) } := by
  simp only [Watcher.sample, hc, hg, WatchRun.sampleRepeat, h]

theorem sample_miss {c : RepeatCode} (hc : x.cfg.code = some c) (hg : x.cfg.sig = none) (h : hitPhase c x.run.phase b = none) :
    x.sample b = { x.run with phase := none, misses := x.run.misses + 1 } := by
  simp only [Watcher.sample, hc, hg, WatchRun.sampleRepeat, h]

/-- The CRC register after the window frame in progress: a selected frame enters it. -/
def WatchRun.windowCrc (r : WatchRun) (g : Signature) (b : Byte) : BitVec 16 := if g.mask.getLsbD r.wpos then crcByte r.crc b else r.crc

theorem sample_signature {g : Signature} (hg : x.cfg.sig = some g) : x.sample b = x.run.sampleSignature g b := by
  unfold Watcher.sample
  rw [hg]
  cases x.cfg.code <;> rfl

theorem sample_inWindow {g : Signature} (hg : x.cfg.sig = some g) (hw : x.run.wpos + 1 < g.window) :
    x.sample b = { x.run with crc := x.run.windowCrc g b, wpos := x.run.wpos + 1 } := (sample_signature hg).trans (if_pos hw)

theorem sample_windowEnd {g : Signature} (hg : x.cfg.sig = some g) (hw : g.window ≤ x.run.wpos + 1) : x.sample b =
    { x.run with crc := 0xFFFF, wpos := 0, misses := if x.run.windowCrc g b = g.crc then x.run.misses else x.run.misses + 1 } :=
  (sample_signature hg).trans (if_neg (Nat.not_lt.2 hw))

theorem sample_rightCrc {g : Signature} (hg : x.cfg.sig = some g) (hw : g.window ≤ x.run.wpos + 1) (hcrc : x.run.windowCrc g b = g.crc) :
    x.sample b = { x.run with crc := 0xFFFF, wpos := 0 } := by rw [sample_windowEnd hg hw, if_pos hcrc]

theorem sample_wrongCrc {g : Signature} (hg : x.cfg.sig = some g) (hw : g.window ≤ x.run.wpos + 1) (hcrc : x.run.windowCrc g b ≠ g.crc) :
    x.sample b = { x.run with crc := 0xFFFF, wpos := 0, misses := x.run.misses + 1 } := by rw [sample_windowEnd hg hw, if_neg hcrc]

end Sample

/-- One write of a watcher is the change of that watcher alone. -/
theorem watchersBecome_setWatcher {s t : State} {w : Nat} {x : Watcher} {f : Nat → Watcher → Watcher}
    (ht : t.wat = s.wat.setWatcher w x) (hf : f w (s.wat.watcher w) = x) : s.watchersBecome t [w] f := by
  intro m
  rw [ht, watcher_setWatcher]
  by_cases hm : m = w
  · rw [if_pos hm, if_pos (List.mem_singleton.2 hm), hm, hf]
  · rw [if_neg hm, if_neg (mt List.mem_singleton.1 hm)]

/-- A due sample taken: the watcher's run state is that of the sample, nothing is due, and a head's interval has moved on. -/
theorem exec_watcherSample {s : State} {w : Fin 64} {r : WatchRun} (hr : s.phase = .run) (hdue : (s.wat.watcher w).run.due = true)
    (hs : (s.wat.watcher w).sample (s.sw.storedByte (s.wat.watcher w).cfg.target) = r) :
    ∃ t, exec (.watcherSample w) s = .next t ∧ t = { s with wat := { s.wat with table := t.wat.table } } ∧
      s.watchersBecome t [w.val] fun _ y =>
        { y with run := { r with due := false, pos := if s.wat.headOf w = w.val then r.pos + 1 else r.pos } } := by
  have he : exec (.watcherSample w) s = .next (s.whenRunning (State.sampleWatcher w)) := rfl
  rw [he, whenRunning_run hr, State.sampleWatcher, if_pos hdue, hs]
  exact ⟨_, rfl, rfl, watchersBecome_setWatcher rfl rfl⟩

/-- Settles O27: each clause is one outcome of a sample. -/
theorem watcherSampleJudgesTheByte : Obligations.WatcherSampleJudgesTheByte := by
  refine ⟨fun c p => ⟨fun h => phaseByte_whole h p, fun h => phaseByte_code h p⟩, ?_⟩
  intro s w hr hdue x b base becomes
  refine ⟨fun c q hc hg hphase hb => ?_, fun c hc hg hmiss => ?_, fun g hg => ⟨fun hw => ?_, fun hw hcrc => ?_, fun hw hcrc => ?_⟩⟩
  · exact exec_watcherSample hr hdue (sample_hit hc hg (hitPhase_fits hphase hb))
  · exact exec_watcherSample hr hdue (sample_miss hc hg (hitPhase_misses hmiss))
  · exact exec_watcherSample hr hdue (sample_inWindow hg hw)
  · exact exec_watcherSample hr hdue (sample_rightCrc hg hw hcrc)
  · exact exec_watcherSample hr hdue (sample_wrongCrc hg hw hcrc)

end Sys2Proof.Machine

/-! SUPPORT. The end of an interval (07 R125, R129-R133, R136, 08 R149): when it is over, the head's four states, and the claim of its action. -/

namespace Sys2Proof.Machine

set_option Elab.async false

/-! ### When an interval is over (07 R125) -/

theorem armedHead_iff (st : WatchState) : st.armedHead = true ↔ st = .armed ∨ st = .candidate ∨ st = .confirmed ∨ st = .clearing :=
  decide_eq_true_iff

theorem intervalOver_iff (u : WatcherUnit) (h : Nat) : u.intervalOver h = true ↔
    ((u.watcher h).run.st = .armed ∨ (u.watcher h).run.st = .candidate ∨ (u.watcher h).run.st = .confirmed ∨ (u.watcher h).run.st = .clearing) ∧
      (u.watcher h).run.frozen = false ∧ 800 ≤ (u.watcher h).run.pos ∧ ∀ m ∈ u.members h, (u.watcher m).run.due = false := by
  simp only [WatcherUnit.intervalOver, Bool.and_eq_true, Bool.not_eq_true', decide_eq_true_eq, List.all_eq_true, armedHead_iff, and_assoc]
  rfl

/-- Before the interval is over its end does nothing. -/
theorem exec_intervalEnd_early {s : State} {h : Fin 64} (hover : s.wat.intervalOver h = false) : exec (.intervalEnd h) s = .next s := by
  have hend : s.endInterval h = s := if_neg (Bool.eq_false_iff.1 hover)
  exact congrArg Host.Outcome.next ((congrArg (ite (s.phase = .run) · s) hend).trans (ite_self s))

/-! ### The head's states (07 R131, R132) -/

/-- A member at the start of the next interval (07 R125, R127). -/
def WatchRun.fresh (r : WatchRun) : WatchRun := { r with pos := 0, misses := 0, wpos := 0, crc := 0xFFFF }

/-- The head that a confirmation leaves. -/
def WatchRun.confirmedHead (r : WatchRun) : WatchRun := { r with st := .confirmed, present := 0, absent := 0 }

/-- A head whose confirmation is counted, to 255 and no further (07 R133). -/
def WatchRun.counted (r : WatchRun) : WatchRun := { r with confirmations := min 255 (r.confirmations + 1) }

/-- The head that a clearing leaves. -/
def WatchRun.clearedHead (r : WatchRun) : WatchRun := { r with st := .armed, present := 0, absent := 0 }

section Judged
variable {r : WatchRun} {c : WatchConfig}

theorem judged_armed (hst : r.st = .armed) (present : Bool) : r.fresh.judged c present =
    if present then
      if c.persistence ≤ 1 then (r.fresh.confirmedHead, .confirmation) else ({ r.fresh with st := .candidate, present := 1 }, .none)
    else (r.fresh, .none) := by
  cases present <;> simp only [WatchRun.judged, WatchRun.fresh, hst] <;> rfl

theorem judged_candidate (hst : r.st = .candidate) (present : Bool) : r.fresh.judged c present =
    if present then
      if c.persistence ≤ r.present + 1 then (r.fresh.confirmedHead, .confirmation) else ({ r.fresh with present := r.present + 1 }, .none)
    else ({ r.fresh with st := .armed, present := 0 }, .none) := by
  cases present <;> simp only [WatchRun.judged, WatchRun.fresh, hst] <;> rfl

theorem judged_confirmed (hst : r.st = .confirmed) (present : Bool) : r.fresh.judged c present =
    if present then (r.fresh, .none)
    else if c.dropout ≤ 1 then (r.fresh.clearedHead, .clearing) else ({ r.fresh with st := .clearing, absent := 1 }, .none) := by
  cases present <;> simp only [WatchRun.judged, WatchRun.fresh, hst] <;> rfl

theorem judged_clearing (hst : r.st = .clearing) (present : Bool) : r.fresh.judged c present =
    if present then ({ r.fresh with st := .confirmed, absent := 0 }, .none)
    else if c.dropout ≤ r.absent + 1 then (r.fresh.clearedHead, .clearing) else ({ r.fresh with absent := r.absent + 1 }, .none) := by
  cases present <;> simp only [WatchRun.judged, WatchRun.fresh, hst] <;> rfl

end Judged

/-! ### The claim of the head's action (07 R136, 08 R149, 02 R41) -/

/-- The outbound pair of a slot carries a generator whose access-request flag is set (02 R41). -/
theorem suppressed_iff (s : State) (k : Slot) : s.suppressed k = true ↔
    (s.sw.entry k).drive = .source ∧ ∃ n : Fin 6, (s.sw.entry k).source = some (.gen n) ∧ (generatorOf s.gens n).flag = true := by
  unfold State.suppressed
  simp only
  split
  · next n hd hn => simp [hd, hn]
  · next hno =>
    simp only [Bool.false_eq_true, false_iff]
    rintro ⟨hd, n, hn, _⟩
    exact hno n hd hn

/-! ### A confirmation and a clearing (07 R133) -/

/-- Claims handed on a condition are the claims, or none, handed. -/
theorem handClaims_if (s : State) (b : Bool) (l : List ActionClaim) :
    (if b then s.handClaims l else s) = s.handClaims (if b then l else []) := by
  cases b
  · show s = { s with wat := { s.wat with claims := s.wat.claims ++ [] } }
    rw [List.append_nil]
  · rfl

/-- A confirmation of watcher x: the count to 255, the attention, and in AUTOMATIC mode the claims. -/
theorem watchEvent_confirmation {s : State} {w : Nat} {x : Watcher} (hx : s.wat.watcher w = x) : s.watchEvent w .confirmation = { s with
    wat := { s.wat with
      table := (s.wat.updRun w WatchRun.counted).table
      claims := s.wat.claims ++ if x.cfg.auto then s.confirmClaim w x else [] }
    att := { s.att with raises := s.att.raises ++ [(.watcherUnit, [(17 + w, .confirmed)])] } } := by
  subst hx
  exact handClaims_if _ _ _

theorem watchEvent_clearing {s : State} {w : Nat} {x : Watcher} (hx : s.wat.watcher w = x) : s.watchEvent w .clearing = { s with
    wat := { s.wat with claims := s.wat.claims ++ if x.cfg.auto then clearClaim w x else [] }
    att := { s.att with raises := s.att.raises ++ [(.watcherUnit, [(17 + w, .cleared)])] } } := by
  subst hx
  exact handClaims_if _ _ _

/-! ### The end of an interval (07 R129-R133) -/

theorem watcher_nextInterval (u : WatcherUnit) (h m : Nat) : (u.nextInterval h).watcher m =
    if m ∈ u.members h then { u.watcher m with run := (u.watcher m).run.fresh } else u.watcher m := watcher_updChain _ _ _ _

/-- The interval of head h ends: each member begins a fresh interval, the head changes by f besides, the causes are raised on it, and in AUTOMATIC
mode the claims are handed. -/
def State.intervalEnds (s : State) (h : Fin 64) (f : WatchRun → WatchRun) (causes : List Cause) (claims : List ActionClaim) : Prop :=
  ∃ t, exec (.intervalEnd h) s = .next t ∧
    t = { s with
      wat := { s.wat with table := t.wat.table, claims := s.wat.claims ++ (if (s.wat.watcher h).cfg.auto then claims else []) }
      att := { s.att with raises := s.att.raises ++ causes.map fun c => (.watcherUnit, [(17 + h.val, c)]) } } ∧
    s.watchersBecome t (s.wat.members h) fun m y => { y with run := if m = h.val then f y.run.fresh else y.run.fresh }

/-- The watcher unit when the next interval has begun for the chain of head h and the head's run state is r. -/
def WatcherUnit.nextWithHead (u : WatcherUnit) (h : Nat) (r : WatchRun) : WatcherUnit := (u.nextInterval h).updRun h fun _ => r

theorem nextWithHead_frame (u : WatcherUnit) (h : Nat) (r : WatchRun) :
    u.nextWithHead h r = { u with table := (u.nextWithHead h r).table } := by
  unfold WatcherUnit.nextWithHead WatcherUnit.updRun WatcherUnit.setWatcher WatcherUnit.nextInterval
  rw [updChain_frame]

theorem watcher_nextWithHead (u : WatcherUnit) (h m : Nat) (r : WatchRun) : (u.nextWithHead h r).watcher m =
    if m ∈ u.members h then { u.watcher m with run := if m = h then r else (u.watcher m).run.fresh } else u.watcher m := by
  rw [WatcherUnit.nextWithHead, watcher_updRun, watcher_nextInterval]
  by_cases hm : m = h
  · subst hm
    simp only [if_pos, mem_members_self]
  · simp only [if_neg hm]

theorem head_nextWithHead (u : WatcherUnit) (h : Nat) (r : WatchRun) : (u.nextWithHead h r).watcher h = { u.watcher h with run := r } := by
  rw [watcher_nextWithHead, if_pos (mem_members_self u h), if_pos rfl]

/-- The head changed once more. -/
theorem watcher_updRun_nextWithHead (u : WatcherUnit) (h m : Nat) (r : WatchRun) (f : WatchRun → WatchRun) :
    (WatcherUnit.updRun { u with table := (u.nextWithHead h r).table } h f).watcher m = (u.nextWithHead h (f r)).watcher m := by
  rw [← nextWithHead_frame, watcher_updRun]
  by_cases hm : m = h
  · rw [if_pos hm, hm, head_nextWithHead, head_nextWithHead]
  · simp only [watcher_nextWithHead, if_neg hm]

section IntervalEnd
variable {s : State} {h : Fin 64}

/-- An interval over, of a head without a linked test circuit: the next one begins, the head is judged, and the event of the judgement follows. -/
theorem exec_intervalEnd_judged (hr : s.phase = .run) (hover : s.wat.intervalOver h = true) (hl : (s.wat.watcher h).run.link = none)
    {r : WatchRun} {e : IntervalEvent}
    (hj : (s.wat.watcher h).run.fresh.judged (s.wat.watcher h).cfg (s.wat.intervalPresent h) = (r, e)) :
    exec (.intervalEnd h) s = .next ({ s with wat := { s.wat with table := (s.wat.nextWithHead h r).table } }.watchEvent h e) := by
  have he : exec (.intervalEnd h) s = .next (s.whenRunning (State.endInterval h)) := rfl
  have hfresh : ((s.wat.nextInterval h).watcher h).run = (s.wat.watcher h).run.fresh := by
    rw [watcher_nextInterval, if_pos (mem_members_self _ _)]
  rw [← nextWithHead_frame, he, whenRunning_run hr, State.endInterval, if_pos hover]
  simp only [hl, Option.isSome_none, Bool.false_eq_true, if_false, hfresh, hj]
  rfl

/-- With a linked test circuit only a fresh interval begins. -/
theorem intervalEnds_linked (hr : s.phase = .run) (hover : s.wat.intervalOver h = true) (hl : (s.wat.watcher h).run.link.isSome = true) :
    s.intervalEnds h id [] [] := by
  have he : exec (.intervalEnd h) s = .next (s.whenRunning (State.endInterval h)) := rfl
  rw [whenRunning_run hr, State.endInterval, if_pos hover, if_pos hl] at he
  refine ⟨_, he, ?_, fun m => ?_⟩
  · simp only [ite_self, List.append_nil, List.map_nil]
    unfold WatcherUnit.nextInterval
    rw [updChain_frame]
  · exact (watcher_nextInterval _ _ _).trans (by simp only [id_eq, ite_self])

/-- The watchers of a chain in their next interval, when the head's run state is r. -/
theorem watchersBecome_nextWithHead {t : State} (f : WatchRun → WatchRun) {r : WatchRun}
    (ht : ∀ m, t.wat.watcher m = (s.wat.nextWithHead h r).watcher m) (hf : f (s.wat.watcher h).run.fresh = r) :
    s.watchersBecome t (s.wat.members h) fun m y => { y with run := if m = h.val then f y.run.fresh else y.run.fresh } := by
  intro m
  rw [ht, watcher_nextWithHead]
  by_cases hm : m = h.val
  · subst hm
    simp only [if_true, hf]
  · simp only [if_neg hm]

variable (hr : s.phase = .run) (hover : s.wat.intervalOver h = true) (hl : (s.wat.watcher h).run.link = none)
include hr hover hl

theorem intervalEnds_quiet {f : WatchRun → WatchRun}
    (hj : (s.wat.watcher h).run.fresh.judged (s.wat.watcher h).cfg (s.wat.intervalPresent h) = (f (s.wat.watcher h).run.fresh, .none)) :
    s.intervalEnds h f [] [] := by
  refine ⟨_, exec_intervalEnd_judged hr hover hl hj, ?_, watchersBecome_nextWithHead f (fun _ => rfl) rfl⟩
  simp only [ite_self, List.append_nil, List.map_nil]
  rfl

/-- A confirmation is counted on the head, raised, and in AUTOMATIC mode hands the claim of the head's action. -/
theorem intervalEnds_confirmation
    (hj : (s.wat.watcher h).run.fresh.judged (s.wat.watcher h).cfg (s.wat.intervalPresent h) =
      ((s.wat.watcher h).run.fresh.confirmedHead, .confirmation)) :
    s.intervalEnds h (fun r => r.confirmedHead.counted) [.confirmed] (s.confirmClaim h (s.wat.watcher h)) := by
  have he := (exec_intervalEnd_judged hr hover hl hj).trans
    (congrArg Host.Outcome.next (watchEvent_confirmation (head_nextWithHead s.wat h _)))
  exact ⟨_, he, rfl, watchersBecome_nextWithHead (fun r => r.confirmedHead.counted) (fun m => watcher_updRun_nextWithHead s.wat h m _ _) rfl⟩

/-- A clearing is raised, and in AUTOMATIC mode hands the claim of the head's action. -/
theorem intervalEnds_clearing
    (hj : (s.wat.watcher h).run.fresh.judged (s.wat.watcher h).cfg (s.wat.intervalPresent h) =
      ((s.wat.watcher h).run.fresh.clearedHead, .clearing)) :
    s.intervalEnds h WatchRun.clearedHead [.cleared] (clearClaim h (s.wat.watcher h)) := by
  have he := (exec_intervalEnd_judged hr hover hl hj).trans
    (congrArg Host.Outcome.next (watchEvent_clearing (head_nextWithHead s.wat h _)))
  exact ⟨_, he, rfl, watchersBecome_nextWithHead WatchRun.clearedHead (fun _ => rfl) rfl⟩

end IntervalEnd

/-- Settles O29: the four states, each with a present and an absent interval, and what their events hand. -/
theorem intervalEndMovesTheHead : Obligations.IntervalEndMovesTheHead := by
  refine ⟨intervalOver_iff, fun s h => exec_intervalEnd_early, ?_⟩
  intro s h hr hover x present becomes pair suppressed confirmation clearing confirm clear
  have ends {f : WatchRun → WatchRun} {causes : List Cause} {claims : List ActionClaim} (he : s.intervalEnds h f causes claims) :
      becomes f causes claims := he
  clear_value becomes
  have hsuppressed : s.suppressed x.cfg.target = suppressed := Bool.eq_iff_iff.2 ((suppressed_iff s _).trans decide_eq_true_iff.symm)
  have hconfirmation : s.confirmClaim h x = confirmation := by
    unfold State.confirmClaim
    cases ha : x.cfg.action <;> simp only [confirmation, ha, hsuppressed]
  have hclearing : clearClaim h x = clearing := by
    unfold clearClaim
    cases ha : x.cfg.action <;> simp only [clearing, ha]
  have quiet {f : WatchRun → WatchRun} (hl : x.run.link = none) (hj : x.run.fresh.judged x.cfg present = (f x.run.fresh, .none)) :
      becomes f [] [] := ends (intervalEnds_quiet hr hover hl hj)
  have confirms (hl : x.run.link = none) (hj : x.run.fresh.judged x.cfg present = (x.run.fresh.confirmedHead, .confirmation)) :
      becomes confirm [.confirmed] confirmation := ends (hconfirmation ▸ intervalEnds_confirmation hr hover hl hj)
  have clears (hl : x.run.link = none) (hj : x.run.fresh.judged x.cfg present = (x.run.fresh.clearedHead, .clearing)) :
      becomes clear [.cleared] clearing := ends (hclearing ▸ intervalEnds_clearing hr hover hl hj)
  have no (hp : present = false) : ¬present = true := Bool.eq_false_iff.1 hp
  refine ⟨fun hl => ends (intervalEnds_linked hr hover hl), fun hl => ⟨fun hst hp => ?_, fun hst hp hn => ?_, fun hst hp hn => ?_,
    fun hst hp => ?_, fun hst hp hn => ?_, fun hst hp hn => ?_, fun hst hp => ?_, fun hst hp hn => ?_, fun hst hp hn => ?_,
    fun hst hp => ?_, fun hst hp hn => ?_, fun hst hp hn => ?_⟩⟩
  · exact quiet hl ((judged_armed hst _).trans (if_neg (no hp)))
  · exact quiet hl ((judged_armed hst _).trans ((if_pos hp).trans (if_neg (Nat.not_le.2 hn))))
  · exact confirms hl ((judged_armed hst _).trans ((if_pos hp).trans (if_pos hn)))
  · exact quiet hl ((judged_candidate hst _).trans (if_neg (no hp)))
  · exact quiet hl ((judged_candidate hst _).trans ((if_pos hp).trans (if_neg (Nat.not_le.2 hn))))
  · exact confirms hl ((judged_candidate hst _).trans ((if_pos hp).trans (if_pos hn)))
  · exact quiet hl ((judged_confirmed hst _).trans (if_pos hp))
  · exact quiet hl ((judged_confirmed hst _).trans ((if_neg (no hp)).trans (if_neg (Nat.not_le.2 hn))))
  · exact clears hl ((judged_confirmed hst _).trans ((if_neg (no hp)).trans (if_pos hn)))
  · exact quiet hl ((judged_clearing hst _).trans (if_pos hp))
  · exact quiet hl ((judged_clearing hst _).trans ((if_neg (no hp)).trans (if_neg (Nat.not_le.2 hn))))
  · exact clears hl ((judged_clearing hst _).trans ((if_neg (no hp)).trans (if_pos hn)))

end Sys2Proof.Machine

/-! SUPPORT. WATCH_ARM and WATCH_DISARM (07 R142, R143): the head that they name, what refuses them, and the chain armed or disarmed. -/

namespace Sys2Proof.Machine

set_option Elab.async false

/-! ### The head named -/

theorem parseWatcher_iff (b : Byte) (w : Fin 64) : parseWatcher b = some w ↔ b.toNat = w.val := by
  unfold parseWatcher
  split
  · rw [Option.some.injEq, Fin.ext_iff]
  · next hb =>
    have hw := w.isLt
    simp only [reduceCtorEq, false_iff]
    omega

theorem parseWatcher_none {b : Byte} (h : 64 ≤ b.toNat) : parseWatcher b = none := dif_neg (Nat.not_lt.2 h)

section Named
variable {u : WatcherUnit} {b : Byte}

/-- A watcher without a chain flag is the head of its chain (07 R124), and may be named. -/
theorem namedHead_head (h : b.toNat < 64 ∧ (u.watcher b.toNat).cfg.chain = false) : u.namedHead b = some ⟨b.toNat, h.1⟩ := by
  obtain ⟨hlt, hc⟩ := h
  simp only [WatcherUnit.namedHead, (parseWatcher_iff b ⟨b.toNat, hlt⟩).2 rfl, hc, Bool.false_eq_true, if_false]

theorem namedHead_none (h : ¬(b.toNat < 64 ∧ (u.watcher b.toNat).cfg.chain = false)) : u.namedHead b = none := by
  by_cases hlt : b.toNat < 64
  · have hc : (u.watcher b.toNat).cfg.chain = true := Bool.eq_true_of_not_eq_false fun hf => h ⟨hlt, hf⟩
    simp only [WatcherUnit.namedHead, (parseWatcher_iff b ⟨b.toNat, hlt⟩).2 rfl, hc, if_true]
  · simp only [WatcherUnit.namedHead, parseWatcher_none (Nat.le_of_not_lt hlt)]

end Named

/-! ### What refuses the requests -/

theorem armConflict_iff (u : WatcherUnit) (h : Nat) : u.armConflict h = true ↔ ¬((u.watcher h).run.st = .disarmed ∧
    (u.watcher h).cfg.action ≠ .accessDown ∧ ∀ m ∈ u.members h, (u.watcher m).cfg.configured = true) := by
  simp only [WatcherUnit.armConflict, Bool.or_eq_true, decide_eq_true_eq, List.any_eq_true, Bool.not_eq_true', not_and_or, ne_eq, not_not,
    not_forall, exists_prop, or_assoc, Bool.not_eq_true]

/-- Of a watcher that is not DISARMED. -/
theorem disarmConflict_iff {u : WatcherUnit} {h : Nat} (hst : (u.watcher h).run.st ≠ .disarmed) : u.disarmConflict h = true ↔
    ¬(¬((u.watcher h).cfg.action = .accessUp ∧ (u.watcher h).run.link.isSome = true) ∧ (u.watcher h).cfg.action ≠ .accessDown) := by
  rw [not_and_or, not_not, not_not]
  simp only [WatcherUnit.disarmConflict, decide_eq_true_eq, ne_eq, hst, not_false_eq_true, and_true]

/-! ### A chain armed, a chain disarmed -/

/-- A chain armed: the head ARMED, frozen unless every member's lane is UP, and serving the access given; every follower LINKED; confirmations and the
linked test circuit kept (07 R123, R142). -/
theorem watcher_armChain (u : WatcherUnit) (h m : Nat) (served : Option Handle) : (u.armChain h served).watcher m =
    if m ∈ u.members h then { u.watcher m with run := { WatchRun.initial with
      confirmations := (u.watcher m).run.confirmations
      link := (u.watcher m).run.link
      st := if m = h then .armed else .linked
      frozen := decide (m = h) && !u.lanesUp h
      served := if m = h then served else none } } else u.watcher m := by
  rw [WatcherUnit.armChain, watcher_updChain]
  by_cases hm : m = h
  · simp only [hm, if_true, decide_true, Bool.true_and]
    rfl
  · simp only [hm, if_false, decide_false, Bool.false_and]
    rfl

theorem armChain_frame (u : WatcherUnit) (h : Nat) (served : Option Handle) :
    u.armChain h served = { u with table := (u.armChain h served).table } := updChain_frame _ _ _

theorem watcher_disarmChain (u : WatcherUnit) (h m : Nat) : (u.disarmChain h).watcher m =
    if m ∈ u.members h then { u.watcher m with run := (u.watcher m).run.restart } else u.watcher m := watcher_updChain _ _ _ _

theorem disarmChain_frame (u : WatcherUnit) (h : Nat) : u.disarmChain h = { u with table := (u.disarmChain h).table } := updChain_frame _ _ _

/-! ### The requests -/

section Requests
variable {s : State} {r : Request} {p : Port} {h : Fin 64} (hlen : byteAt r.msg 1 = 1)
include hlen

section Arm
variable (ht : s.Takes .watchers 0x21 r p)
include ht

theorem exec_watchArm : exec .watchArm s = .next (({ s with port := p } : State).watchArm r) :=
  congrArg Host.Outcome.next (ownerTakes_whole State.watchArm ht hlen)

theorem exec_watchArm_noHead (hn : s.wat.namedHead (byteAt r.msg 4) = none) :
    exec .watchArm s = .next { s with port := p.answerRequest r .badField [] } := by
  rw [exec_watchArm hlen ht]
  simp only [State.watchArm, hn]
  rfl

theorem exec_watchArm_conflict (hn : s.wat.namedHead (byteAt r.msg 4) = some h) (hc : s.wat.armConflict h = true) :
    exec .watchArm s = .next { s with port := p.answerRequest r .stateConflict [] } := by
  rw [exec_watchArm hlen ht]
  simp only [State.watchArm, hn, hc, if_true]
  rfl

theorem exec_watchArm_arms (hn : s.wat.namedHead (byteAt r.msg 4) = some h) (hc : s.wat.armConflict h = false) :
    exec .watchArm s = .next { s with
      wat := s.wat.armChain h none
      port := p.answerRequest r .ok [byteAt r.msg 4, 1, flagByte (!s.wat.lanesUp h), BitVec.ofNat 8 (s.wat.members h).length] } := by
  rw [exec_watchArm hlen ht]
  simp only [State.watchArm, hn, hc, Bool.false_eq_true, if_false]
  rfl

end Arm

section Disarm
variable (ht : s.Takes .watchers 0x22 r p)
include ht

theorem exec_watchDisarm : exec .watchDisarm s = .next (({ s with port := p } : State).watchDisarm r) :=
  congrArg Host.Outcome.next (ownerTakes_whole State.watchDisarm ht hlen)

theorem exec_watchDisarm_noHead (hn : s.wat.namedHead (byteAt r.msg 4) = none) :
    exec .watchDisarm s = .next { s with port := p.answerRequest r .badField [] } := by
  rw [exec_watchDisarm hlen ht]
  simp only [State.watchDisarm, hn]
  rfl

/-- A chain DISARMED already is left as it is. -/
theorem exec_watchDisarm_disarmed (hn : s.wat.namedHead (byteAt r.msg 4) = some h) (hst : (s.wat.watcher h).run.st = .disarmed) :
    exec .watchDisarm s = .next { s with port := p.answerRequest r .ok [byteAt r.msg 4, 0, 0] } := by
  rw [exec_watchDisarm hlen ht]
  simp only [State.watchDisarm, hn, hst, if_true]
  rfl

theorem exec_watchDisarm_conflict (hn : s.wat.namedHead (byteAt r.msg 4) = some h) (hst : (s.wat.watcher h).run.st ≠ .disarmed)
    (hc : s.wat.disarmConflict h = true) : exec .watchDisarm s = .next { s with port := p.answerRequest r .stateConflict [] } := by
  rw [exec_watchDisarm hlen ht]
  simp only [State.watchDisarm, hn, hst, hc, if_false, if_true]
  rfl

theorem exec_watchDisarm_disarms (hn : s.wat.namedHead (byteAt r.msg 4) = some h) (hst : (s.wat.watcher h).run.st ≠ .disarmed)
    (hc : s.wat.disarmConflict h = false) : exec .watchDisarm s = .next { s with
      wat := s.wat.disarmChain h
      port := p.answerRequest r .ok [byteAt r.msg 4, (s.wat.watcher h).run.st.toByte, 0] } := by
  rw [exec_watchDisarm hlen ht]
  simp only [State.watchDisarm, hn, hst, hc, Bool.false_eq_true, if_false]
  rfl

end Disarm

end Requests

/-- Settles O26: the outcomes of the two requests, one after another, and the chain that each changes. -/
theorem watchArmAndWatchDisarm : Obligations.WatchArmAndWatchDisarm := by
  intro s r p hlen h x named mayArm mayDisarm
  refine ⟨fun ht => ⟨fun hn hmay => ?_, fun hn hmay => ?_, fun hn => ?_⟩,
    fun ht => ⟨fun hn hst => ?_, fun hn hst hmay => ?_, fun hn hst hmay => ?_, fun hn => ?_⟩⟩
  · have hc : s.wat.armConflict h = false := Bool.eq_false_iff.2 fun hc => (armConflict_iff _ _).1 hc hmay
    have hfrozen : flagByte (!s.wat.lanesUp h) = if s.wat.lanesUp h then 0 else 1 := by cases s.wat.lanesUp h <;> rfl
    refine ⟨_, exec_watchArm_arms hlen ht (namedHead_head hn) hc, ?_, fun m => (watcher_armChain _ _ _ _).trans ?_⟩
    · rw [armChain_frame, hfrozen]
    · rw [ite_self]
      rfl
  · exact exec_watchArm_conflict hlen ht (namedHead_head hn) ((armConflict_iff _ _).2 hmay)
  · exact exec_watchArm_noHead hlen ht (namedHead_none hn)
  · exact exec_watchDisarm_disarmed hlen ht (namedHead_head hn) hst
  · have hc : s.wat.disarmConflict h = false := Bool.eq_false_iff.2 fun hc => (disarmConflict_iff hst).1 hc hmay
    refine ⟨_, exec_watchDisarm_disarms hlen ht (namedHead_head hn) hst hc, ?_, fun m => watcher_disarmChain _ _ _⟩
    rw [disarmChain_frame]
  · exact exec_watchDisarm_conflict hlen ht (namedHead_head hn) hst ((disarmConflict_iff hst).2 hmay)
  · exact exec_watchDisarm_noHead hlen ht (namedHead_none hn)

end Sys2Proof.Machine

/-! SUPPORT. The fields of WATCH_SET (07 R139, R140, 10.8), read exactly when each stands in its place and in its range. -/

namespace Sys2Proof.Machine

set_option Elab.async false

/-! ### Flags, actions, kinds -/

theorem parseFlag_iff (b : Byte) (x : Bool) : parseFlag b = some x ↔ b = if x then 1 else 0 := by
  constructor
  · intro h
    rcases parseFlag_some h with rfl | rfl <;> cases h <;> rfl
  · rintro rfl
    cases x <;> rfl

theorem parseAction_toByte (a : Action) : parseAction a.toByte = some a := by cases a <;> rfl

theorem parseAction_iff (b : Byte) (a : Action) : parseAction b = some a ↔ b = a.toByte := by
  refine ⟨fun h => ?_, fun h => h ▸ parseAction_toByte a⟩
  revert h
  simp only [parseAction]
  repeat' split
  all_goals rintro ⟨⟩
  all_goals assumption

/-- Two bytes of a message are a number below 65536. -/
theorem wordAt_lt (m : List Byte) (i : Nat) : wordAt m i < 65536 := by
  have h1 := (byteAt m i).isLt
  have h2 := (byteAt m (i + 1)).isLt
  unfold wordAt
  omega

theorem toNat_maskAt (m : List Byte) (i : Nat) : (maskAt m i).toNat = wordAt m i * 65536 + wordAt m (i + 2) := by
  have h1 := wordAt_lt m i
  have h2 := wordAt_lt m (i + 2)
  exact Nat.mod_eq_of_lt (by omega)

/-- The REPEAT code of a message (07 R139). -/
def readsRepeat (m : List Byte) (code : Option RepeatCode) : Prop :=
  code = some ⟨(byteAt m 8).toNat, byteAt m 9⟩ ∧ 3 ≤ (byteAt m 8).toNat ∧ (byteAt m 8).toNat ≤ 8 ∧ (byteAt m 9).toNat < 2 ^ (byteAt m 8).toNat

/-- The SIGNATURE of a message (07 R139). -/
def readsSignature (m : List Byte) (sig : Option Signature) : Prop :=
  ∃ g, sig = some g ∧ g.window = (byteAt m 10).toNat ∧ 1 ≤ g.window ∧ g.window ≤ 32 ∧ g.mask.toNat = wordAt m 11 * 65536 + wordAt m 13 ∧
    g.mask ≠ 0 ∧ g.mask.toNat < 2 ^ g.window ∧ g.crc.toNat = wordAt m 15

theorem parseRepeat_iff (m : List Byte) (c : RepeatCode) : parseRepeat m = some c ↔ readsRepeat m (some c) := by
  unfold parseRepeat readsRepeat
  simp only
  split
  · next h => simp only [Option.some.injEq, h, and_self, and_true, eq_comm]
  · next h => simp only [reduceCtorEq, h, and_false]

theorem parseSignature_iff (m : List Byte) (g : Signature) : parseSignature m = some g ↔ readsSignature m (some g) := by
  obtain ⟨w, mask, crc⟩ := g
  have hmask : mask.toNat = wordAt m 11 * 65536 + wordAt m 13 ↔ maskAt m 11 = mask := by
    rw [← toNat_maskAt, BitVec.toNat_inj, eq_comm]
  have hcrc : crc.toNat = wordAt m 15 ↔ BitVec.ofNat 16 (wordAt m 15) = crc := by
    rw [← BitVec.toNat_inj, BitVec.toNat_ofNat, Nat.mod_eq_of_lt (wordAt_lt m 15), eq_comm]
  unfold parseSignature readsSignature
  simp only [Option.some.injEq, exists_eq_left', hmask, hcrc]
  split
  · next h =>
    simp only [Option.some.injEq, Signature.mk.injEq]
    constructor
    · rintro ⟨rfl, rfl, rfl⟩
      obtain ⟨h1, h32, hne, hlt⟩ := h
      exact ⟨rfl, h1, h32, rfl, hne, hlt, rfl⟩
    · rintro ⟨rfl, _, _, rfl, _, _, rfl⟩
      exact ⟨rfl, rfl, rfl⟩
  · next h =>
    simp only [reduceCtorEq, false_iff]
    rintro ⟨rfl, h1, h2, rfl, h3, h4, _⟩
    exact h ⟨h1, h2, h3, h4⟩

theorem parseKind_iff (m : List Byte) (code : Option RepeatCode) (sig : Option Signature) : parseKind m = some (code, sig) ↔
    (byteAt m 7 = 0 → sig = none ∧ readsRepeat m code) ∧ (byteAt m 7 ≠ 0 → byteAt m 7 = 1 ∧ code = none ∧ readsSignature m sig) := by
  unfold parseKind
  by_cases h0 : byteAt m 7 = 0
  · rw [if_pos h0]
    constructor
    · intro h
      obtain ⟨c, hc, ⟨⟩⟩ := Option.map_eq_some_iff.1 h
      exact ⟨fun _ => ⟨rfl, (parseRepeat_iff m c).1 hc⟩, fun hn => absurd h0 hn⟩
    · rintro ⟨hread, _⟩
      obtain ⟨rfl, hcode⟩ := hread h0
      obtain ⟨rfl, _⟩ := id hcode
      exact Option.map_eq_some_iff.2 ⟨_, (parseRepeat_iff m _).2 hcode, rfl⟩
  · rw [if_neg h0]
    constructor
    · intro h
      split at h
      · next h1 =>
        obtain ⟨g, hg, ⟨⟩⟩ := Option.map_eq_some_iff.1 h
        exact ⟨fun hn => absurd hn h0, fun _ => ⟨h1, rfl, (parseSignature_iff m g).1 hg⟩⟩
      · cases h
    · rintro ⟨_, hread⟩
      obtain ⟨h1, rfl, hsig⟩ := hread h0
      obtain ⟨g, rfl, _⟩ := id hsig
      rw [if_pos h1]
      exact Option.map_eq_some_iff.2 ⟨g, (parseSignature_iff m g).2 hsig, rfl⟩

/-! ### The action's fields -/

/-- The loop slot of an ACCESS_UP: FFFFh is DEFAULT, the outbound pair of the target (07 R140). -/
theorem parseLoop_iff (m : List Byte) (i : Nat) (target loop : Slot) : (parseSlotOrDefault m i).map (·.getD target) = some loop ↔
    (wordAt m i = 0xFFFF → loop = target) ∧ (wordAt m i ≠ 0xFFFF → readsSlot m i loop) := by
  unfold parseSlotOrDefault
  by_cases hdef : wordAt m i = 0xFFFF
  · simp [hdef, eq_comm]
  · rw [if_neg hdef, ← parseSlot_iff]
    cases parseSlot m i <;> simp [hdef]

/-- The fields of an ACCESS_UP in a message (07 R139). -/
def readsUp (m : List Byte) (w : Fin 64) (target : Slot) (f : AccessFields) : Prop :=
  f.partner = (byteAt m 23).toNat ∧ f.partner < 64 ∧ f.partner ≠ w.val ∧ f.lease = wordAt m 28 ∧ (wordAt m 30 = 0xFFFF → f.loop = target) ∧
    (wordAt m 30 ≠ 0xFFFF → readsSlot m 30 f.loop)

theorem parseActionFields_up (m : List Byte) (w : Fin 64) (target : Slot) (up : Option AccessFields) (linked : Option Handle) :
    parseActionFields m w target .accessUp = some (up, linked) ↔ linked = none ∧ ∃ f, up = some f ∧ readsUp m w target f := by
  unfold parseActionFields readsUp
  simp only [← parseLoop_iff]
  cases parseSlotOrDefault m 30 with
  | none => simp
  | some loop =>
    simp only [Option.map_some, Option.some.injEq]
    split
    · next hbad =>
      simp only [reduceCtorEq, false_iff]
      rintro ⟨_, f, _, hp, h64, hne, _⟩
      omega
    · next hok =>
      simp only [Option.some.injEq, Prod.mk.injEq]
      constructor
      · rintro ⟨rfl, rfl⟩
        exact ⟨rfl, _, rfl, rfl, by simp only; omega, fun h => hok (.inr h), rfl, rfl⟩
      · rintro ⟨rfl, ⟨_, _, _⟩, rfl, rfl, _, _, rfl, rfl⟩
        exact ⟨rfl, rfl⟩

/-- The linked circuit of a RELEASE_LINKED or HOLD_LINKED: a record of the control pool (07 R139). -/
theorem parseActionFields_linked (m : List Byte) (w : Fin 64) (target : Slot) {a : Action} (ha : a = .releaseLinked ∨ a = .holdLinked)
    (up : Option AccessFields) (linked : Option Handle) : parseActionFields m w target a = some (up, linked) ↔
      up = none ∧ linked = some ⟨wordAt m 24, BitVec.ofNat 16 (wordAt m 26)⟩ ∧ wordAt m 24 < 480 := by
  have hif : (if Config.testPool ≤ wordAt m 24 then none else some (none, some (parseHandle m 24))) = some (up, linked) ↔
      up = none ∧ linked = some ⟨wordAt m 24, BitVec.ofNat 16 (wordAt m 26)⟩ ∧ wordAt m 24 < 480 := by
    split
    · next hbad =>
      have hbad : 480 ≤ wordAt m 24 := hbad
      simp only [reduceCtorEq, false_iff]
      omega
    · next hok =>
      have hok : wordAt m 24 < 480 := Nat.lt_of_not_le hok
      simp only [Option.some.injEq, Prod.mk.injEq, hok, and_true, eq_comm, parseHandle]
  rcases ha with rfl | rfl <;> exact hif

theorem parseActionFields_iff (m : List Byte) (w : Fin 64) (target : Slot) (a : Action) (up : Option AccessFields) (linked : Option Handle) :
    parseActionFields m w target a = some (up, linked) ↔
      (a = .accessUp → linked = none ∧ ∃ f, up = some f ∧ readsUp m w target f) ∧
      (a = .releaseLinked ∨ a = .holdLinked →
        up = none ∧ linked = some ⟨wordAt m 24, BitVec.ofNat 16 (wordAt m 26)⟩ ∧ wordAt m 24 < 480) ∧
      (a = .none ∨ a = .accessDown → up = none ∧ linked = none) := by
  cases a with
  | accessUp => simp [parseActionFields_up]
  | releaseLinked => simp [parseActionFields_linked]
  | holdLinked => simp [parseActionFields_linked]
  | none => simp [parseActionFields, eq_comm]
  | accessDown => simp [parseActionFields, eq_comm]

/-! ### The message -/

/-- A WATCH_SET is read field by field, each by its own reader. -/
theorem parseWatch_eq_some (m : List Byte) (w : Fin 64) (c : WatchConfig) : parseWatch m = some (w, c) ↔
    parseWatcher (byteAt m 4) = some w ∧ parseSlot m 5 = some c.target ∧ parseKind m = some (c.code, c.sig) ∧
    parseFlag (byteAt m 20) = some c.auto ∧ parseAction (byteAt m 21) = some c.action ∧ parseFlag (byteAt m 22) = some c.chain ∧
    ¬(byteAt m 18 = 0 ∨ byteAt m 19 = 0 ∨ (c.chain = true ∧ w.val = 0)) ∧
    parseActionFields m w c.target c.action = some (c.up, c.linked) ∧ c.configured = true ∧ c.signature = c.sig.isSome ∧
    c.tolerance = (byteAt m 17).toNat ∧ c.persistence = (byteAt m 18).toNat ∧ c.dropout = (byteAt m 19).toNat := by
  constructor
  · intro h
    unfold parseWatch at h
    split at h
    · next w' target code sig auto action chain hw ht hk ha hact hch =>
      split at h
      · cases h
      · next hok =>
        split at h
        · cases h
        · next up linked hf =>
          cases h
          exact ⟨hw, ht, hk, ha, hact, hch, hok, hf, rfl, rfl, rfl, rfl, rfl⟩
    · cases h
  · obtain ⟨configured, target, signature, code, sig, tolerance, persistence, dropout, auto, action, chain, up, linked⟩ := c
    simp only
    rintro ⟨hw, ht, hk, ha, hact, hch, hok, hf, rfl, rfl, rfl, rfl, rfl⟩
    simp only [parseWatch, hw, ht, hk, ha, hact, hch, hf, if_neg hok]

/-- The kind flag of a configuration that is read says which settings it holds. -/
theorem parseKind_signature_iff (m : List Byte) (c : WatchConfig) : parseKind m = some (c.code, c.sig) ∧ c.signature = c.sig.isSome ↔
    (byteAt m 7 = 0 → c.signature = false ∧ c.sig = none ∧ readsRepeat m c.code) ∧
    (byteAt m 7 ≠ 0 → byteAt m 7 = 1 ∧ c.signature = true ∧ c.code = none ∧ readsSignature m c.sig) := by
  rw [parseKind_iff]
  by_cases h0 : byteAt m 7 = 0
  · simp only [h0, true_implies, ne_eq, not_true_eq_false, false_implies, and_true]
    constructor
    · rintro ⟨⟨hsig, hcode⟩, hflag⟩
      exact ⟨hflag.trans (by rw [hsig]; rfl), hsig, hcode⟩
    · rintro ⟨hflag, hsig, hcode⟩
      exact ⟨⟨hsig, hcode⟩, hflag.trans (by rw [hsig]; rfl)⟩
  · simp only [h0, false_implies, true_and, ne_eq, not_false_eq_true, true_implies]
    constructor
    · rintro ⟨⟨h1, hcode, hsig⟩, hflag⟩
      obtain ⟨g, hg, _⟩ := id hsig
      exact ⟨h1, hflag.trans (by rw [hg]; rfl), hcode, hsig⟩
    · rintro ⟨h1, hflag, hcode, hsig⟩
      obtain ⟨g, hg, _⟩ := id hsig
      exact ⟨⟨h1, hcode, hsig⟩, hflag.trans (by rw [hg]; rfl)⟩

theorem one_le_toNat_iff (b : Byte) : 1 ≤ b.toNat ↔ b ≠ 0 := by
  rw [Nat.one_le_iff_ne_zero]
  exact not_congr (BitVec.toNat_inj (y := (0 : Byte)))

theorem parseWatch_iff (m : List Byte) (w : Fin 64) (c : WatchConfig) : parseWatch m = some (w, c) ↔
    (byteAt m 4).toNat = w.val ∧ c.configured = true ∧ readsSlot m 5 c.target ∧
    ((byteAt m 7 = 0 → c.signature = false ∧ c.sig = none ∧ readsRepeat m c.code) ∧
      (byteAt m 7 ≠ 0 → byteAt m 7 = 1 ∧ c.signature = true ∧ c.code = none ∧ readsSignature m c.sig)) ∧
    c.tolerance = (byteAt m 17).toNat ∧ (c.persistence = (byteAt m 18).toNat ∧ 1 ≤ c.persistence) ∧
    (c.dropout = (byteAt m 19).toNat ∧ 1 ≤ c.dropout) ∧
    byteAt m 20 = (if c.auto then 1 else 0) ∧ byteAt m 21 = c.action.toByte ∧ byteAt m 22 = (if c.chain then 1 else 0) ∧
    (c.chain = true → w ≠ 0) ∧
    (c.action = .accessUp → c.linked = none ∧ ∃ f, c.up = some f ∧ readsUp m w c.target f) ∧
    (c.action = .releaseLinked ∨ c.action = .holdLinked →
      c.up = none ∧ c.linked = some ⟨wordAt m 24, BitVec.ofNat 16 (wordAt m 26)⟩ ∧ wordAt m 24 < 480) ∧
    (c.action = .none ∨ c.action = .accessDown → c.up = none ∧ c.linked = none) := by
  have hw : w.val = 0 ↔ w = 0 := Fin.val_eq_zero_iff
  rw [parseWatch_eq_some, parseWatcher_iff, parseSlot_iff, parseFlag_iff, parseFlag_iff, parseAction_iff, parseActionFields_iff,
    ← parseKind_signature_iff, not_or, not_or, not_and, hw]
  constructor
  · rintro ⟨hnum, htarget, hkind, hauto, haction, hchain, ⟨hp, hd, hhead⟩, hfields, hconf, hsig, htol, hpers, hdrop⟩
    exact ⟨hnum, hconf, htarget, ⟨hkind, hsig⟩, htol, ⟨hpers, hpers ▸ (one_le_toNat_iff _).2 hp⟩,
      ⟨hdrop, hdrop ▸ (one_le_toNat_iff _).2 hd⟩, hauto, haction, hchain, hhead, hfields⟩
  · rintro ⟨hnum, hconf, htarget, ⟨hkind, hsig⟩, htol, ⟨hpers, hp⟩, ⟨hdrop, hd⟩, hauto, haction, hchain, hhead, hfields⟩
    exact ⟨hnum, htarget, hkind, hauto, haction, hchain, ⟨(one_le_toNat_iff _).1 (hpers ▸ hp), (one_le_toNat_iff _).1 (hdrop ▸ hd), hhead⟩,
      hfields, hconf, hsig, htol, hpers, hdrop⟩

end Sys2Proof.Machine

/-! SUPPORT. The chain of a watcher (07 R124): its head and its members. -/

namespace Sys2Proof.Machine

set_option Elab.async false

theorem headOf_le (u : WatcherUnit) : ∀ w, u.headOf w ≤ w
  | 0 => Nat.le_refl 0
  | n + 1 => by
    unfold WatcherUnit.headOf
    split
    · exact Nat.le_succ_of_le (headOf_le u n)
    · exact Nat.le_refl _

/-- A head above watcher 0 has no chain flag. -/
theorem chain_headOf (u : WatcherUnit) : ∀ w, u.headOf w ≠ 0 → (u.watcher (u.headOf w)).cfg.chain = false
  | 0, h => absurd rfl h
  | n + 1, h => by
    unfold WatcherUnit.headOf at h ⊢
    split
    · next hc => exact chain_headOf u n (by rwa [if_pos hc] at h)
    · next hc => exact Bool.eq_false_iff.2 hc

/-- The watchers above the head, up to the watcher itself, have their chain flags set. -/
theorem chain_above_headOf (u : WatcherUnit) {m : Nat} : ∀ w, u.headOf w < m → m ≤ w → (u.watcher m).cfg.chain = true
  | 0, hlt, hle => absurd (Nat.lt_of_lt_of_le hlt hle) (Nat.lt_irrefl _)
  | n + 1, hlt, hle => by
    unfold WatcherUnit.headOf at hlt
    split at hlt
    · next hc =>
      rcases Nat.eq_or_lt_of_le hle with rfl | hn
      · exact hc
      · exact chain_above_headOf u n hlt (Nat.le_of_lt_succ hn)
    · omega

/-- The followers from n on: the watchers of the table reached over chain flags without a break. -/
theorem mem_followers_iff (u : WatcherUnit) {m : Nat} : ∀ k n, m ∈ u.followers n k ↔
    n ≤ m ∧ m < n + k ∧ m < 64 ∧ ∀ j, n ≤ j → j ≤ m → (u.watcher j).cfg.chain = true
  | 0, n => by
    simp only [WatcherUnit.followers, List.not_mem_nil, false_iff]
    omega
  | k + 1, n => by
    refine ⟨fun h => ?_, ?_⟩
    · obtain ⟨hle, hlt⟩ := le_of_mem_followers u _ _ h
      refine ⟨hle, hlt, ?_, fun j => chain_of_mem_followers u _ _ h⟩
      unfold WatcherUnit.followers at h
      split at h
      · next hn =>
        rcases List.mem_cons.1 h with rfl | h
        · exact hn.1
        · obtain ⟨_, _, h64, _⟩ := (mem_followers_iff u k (n + 1)).1 h
          exact h64
      · cases h
    · rintro ⟨hle, hlt, h64, hchain⟩
      have hn : n < Config.watchers ∧ (u.watcher n).cfg.chain = true := ⟨Nat.lt_of_le_of_lt hle h64, hchain n (Nat.le_refl n) hle⟩
      rw [WatcherUnit.followers, if_pos hn, List.mem_cons]
      rcases Nat.eq_or_lt_of_le hle with rfl | hne
      · exact .inl rfl
      · exact .inr ((mem_followers_iff u k (n + 1)).2 ⟨hne, by omega, h64, fun j hj => hchain j (Nat.le_of_succ_le hj)⟩)

/-- The members of a chain: the head, and the watchers of the table after it over chain flags without a break (07 R124). -/
theorem mem_members_iff (u : WatcherUnit) (w m : Nat) : m ∈ u.members w ↔
    m = w ∨ (w < m ∧ m < 64 ∧ ∀ j, w < j → j ≤ m → (u.watcher j).cfg.chain = true) := by
  rw [WatcherUnit.members, List.mem_cons, mem_followers_iff]
  refine or_congr_right ⟨fun ⟨hlt, _, h64, hchain⟩ => ⟨hlt, h64, hchain⟩, fun ⟨hlt, h64, hchain⟩ => ⟨hlt, ?_, h64, hchain⟩⟩
  exact Nat.lt_of_lt_of_le h64 (Nat.le_add_left 64 (w + 1))

end Sys2Proof.Machine

/-! SUPPORT. The answers of WATCH_SET and WATCH_QUERY byte by byte (10.8, 07 R144; log 15), and the two requests (07 R140, R144). -/

namespace Sys2Proof.Machine

set_option Elab.async false

/-! ### Fields of an answer -/

theorem resultIs_zeros {b : List Byte} {i n : Nat} (h : ∀ j, j < n → b.getD (i - 4 + j) 0 = 0) : resultIs b i n 0 := by
  intro j hj
  rw [h j hj, Nat.zero_div]
  rfl

/-- Four bytes of an answer, most significant first. -/
theorem resultIs_four {b : List Byte} {i v : Nat} (h0 : b.getD (i - 4) 0 = BitVec.ofNat 8 (v / 65536 / 256))
    (h1 : b.getD (i - 4 + 1) 0 = BitVec.ofNat 8 (v / 65536)) (h2 : b.getD (i - 4 + 2) 0 = BitVec.ofNat 8 (v / 256))
    (h3 : b.getD (i - 4 + 3) 0 = BitVec.ofNat 8 v) : resultIs b i 4 v := by
  intro j hj
  obtain rfl | rfl | rfl | rfl : j = 0 ∨ j = 1 ∨ j = 2 ∨ j = 3 := by omega
  · simpa [Nat.div_div_eq_div_mul] using h0
  · simpa using h1
  · simpa using h2
  · simpa using h3

theorem flagByte_eq (x : Bool) : flagByte x = BitVec.ofNat 8 (if x then 1 else 0) := by cases x <;> rfl

/-- A list of known length, byte by byte. -/
theorem eq_map_getD {l : List Byte} {n : Nat} (h : l.length = n) : l = (List.range n).map fun i => l.getD i 0 := by
  subst h
  refine List.ext_getElem (by simp) fun i h1 _ => ?_
  simp [h1]

/-! ### The configuration as WATCH_SET gives it -/

/-- The linked handle of a configuration, 00000000h for one that is absent (log 15). -/
def linkedBytes (c : WatchConfig) : List Byte := match c.linked with | some h => handleBytes h | none => [0, 0, 0, 0]

theorem length_linkedBytes (c : WatchConfig) : (linkedBytes c).length = 4 := by
  unfold linkedBytes
  split <;> rfl

section WatchBytes
variable (w : Nat) (c : WatchConfig)

/-- Byte by byte, every field in its place. -/
theorem watchBytes_eq : watchBytes w c = [BitVec.ofNat 8 w] ++ slotBytes c.target ++
    [BitVec.ofNat 8 (if c.signature then 1 else 0), BitVec.ofNat 8 ((c.code.map (·.len)).getD 0), (c.code.map (·.value)).getD 0,
      BitVec.ofNat 8 ((c.sig.map (·.window)).getD 0)] ++
    maskBytes ((c.sig.map (·.mask)).getD 0) ++ bytes16 ((c.sig.map Signature.crc).getD 0).toNat ++
    [BitVec.ofNat 8 c.tolerance, BitVec.ofNat 8 c.persistence, BitVec.ofNat 8 c.dropout, BitVec.ofNat 8 (if c.auto then 1 else 0), c.action.toByte,
      BitVec.ofNat 8 (if c.chain then 1 else 0), BitVec.ofNat 8 ((c.up.map (·.partner)).getD 0)] ++
    (List.range 4).map (fun i => (linkedBytes c).getD i 0) ++ bytes16 ((c.up.map (·.lease)).getD 0) ++
    (List.range 2).map (fun i => (optSlotBytes (c.up.map (·.loop))).getD i 0) := by
  rw [← eq_map_getD (length_linkedBytes c), ← eq_map_getD (length_optSlotBytes _), ← flagByte_eq, ← flagByte_eq, ← flagByte_eq]
  rfl

theorem length_watchBytes : (watchBytes w c).length = 28 := by
  rw [watchBytes_eq]
  rfl

/-- The watcher, the target and the kind. -/
theorem watchBytes_head : resultIs (watchBytes w c) 4 1 w ∧ resultIsSlot (watchBytes w c) 5 c.target ∧
    resultIs (watchBytes w c) 7 1 (if c.signature then 1 else 0) := by
  rw [watchBytes_eq]
  exact ⟨resultIs_byte rfl, ⟨resultIs_byte rfl, resultIs_byte rfl⟩, resultIs_byte rfl⟩

/-- The REPEAT code, 0000h for one that is absent. -/
theorem watchBytes_code : (∀ x, c.code = some x → resultIs (watchBytes w c) 8 1 x.len ∧ resultIs (watchBytes w c) 9 1 x.value.toNat) ∧
    (c.code = none → resultIs (watchBytes w c) 8 2 0) := by
  rw [watchBytes_eq]
  refine ⟨fun x hx => ?_, fun hx => ?_⟩ <;> rw [hx]
  · exact ⟨resultIs_byte rfl, resultIs_toNat rfl⟩
  · exact resultIs_word rfl rfl

/-- The SIGNATURE, 00h in each byte of one that is absent. -/
theorem watchBytes_sig : (∀ g, c.sig = some g → resultIs (watchBytes w c) 10 1 g.window ∧ resultIs (watchBytes w c) 11 4 g.mask.toNat ∧
      resultIs (watchBytes w c) 15 2 g.crc.toNat) ∧
    (c.sig = none → resultIs (watchBytes w c) 10 7 0) := by
  rw [watchBytes_eq]
  refine ⟨fun g hg => ?_, fun hg => ?_⟩ <;> rw [hg]
  · exact ⟨resultIs_byte rfl, resultIs_four rfl rfl rfl rfl, resultIs_word rfl rfl⟩
  · refine resultIs_zeros fun j hj => ?_
    interval_cases j <;> rfl

/-- Tolerance, persistence, dropout, mode, action and chain flag. -/
theorem watchBytes_counts : resultIs (watchBytes w c) 17 1 c.tolerance ∧ resultIs (watchBytes w c) 18 1 c.persistence ∧
    resultIs (watchBytes w c) 19 1 c.dropout ∧ resultIs (watchBytes w c) 20 1 (if c.auto then 1 else 0) ∧
    resultIs (watchBytes w c) 21 1 c.action.toByte.toNat ∧ resultIs (watchBytes w c) 22 1 (if c.chain then 1 else 0) := by
  rw [watchBytes_eq]
  exact ⟨resultIs_byte rfl, resultIs_byte rfl, resultIs_byte rfl, resultIs_byte rfl, resultIs_toNat rfl, resultIs_byte rfl⟩

/-- The fields of an ACCESS_UP; without them 00h in each byte, and FFFFh for the loop slot. -/
theorem watchBytes_up : (∀ f, c.up = some f → resultIs (watchBytes w c) 23 1 f.partner ∧ resultIs (watchBytes w c) 28 2 f.lease ∧
      resultIsSlot (watchBytes w c) 30 f.loop) ∧
    (c.up = none → resultIs (watchBytes w c) 23 1 0 ∧ resultIs (watchBytes w c) 28 2 0 ∧ resultIs (watchBytes w c) 30 2 0xFFFF) := by
  rw [watchBytes_eq]
  refine ⟨fun f hf => ?_, fun hf => ?_⟩ <;> rw [hf]
  · exact ⟨resultIs_byte rfl, resultIs_word rfl rfl, resultIs_byte rfl, resultIs_byte rfl⟩
  · exact ⟨resultIs_byte rfl, resultIs_word rfl rfl, resultIs_word rfl rfl⟩

/-- The linked handle, 00000000h for one that the action does not use (log 15). -/
theorem watchBytes_linked : (∀ h, c.linked = some h → resultIs (watchBytes w c) 24 2 h.num ∧ resultIs (watchBytes w c) 26 2 h.gen.toNat) ∧
    (c.linked = none → resultIs (watchBytes w c) 24 4 0) := by
  rw [watchBytes_eq]
  unfold linkedBytes
  refine ⟨fun h hh => ?_, fun hh => ?_⟩ <;> rw [hh]
  · exact ⟨resultIs_word rfl rfl, resultIs_word rfl rfl⟩
  · exact resultIs_four rfl rfl rfl rfl

end WatchBytes

/-! ### What WATCH_QUERY shows -/

section Parts
variable {c : WatchConfig}

theorem kindBytes_signature {g : Signature} (hg : c.sig = some g) :
    kindBytes c = [BitVec.ofNat 8 g.window] ++ maskBytes g.mask ++ bytes16 g.crc.toNat := by
  unfold kindBytes
  rw [hg]

theorem kindBytes_repeat {x : RepeatCode} (hg : c.sig = none) (hx : c.code = some x) :
    kindBytes c = [BitVec.ofNat 8 x.len, x.value, 0, 0, 0, 0, 0] := by
  unfold kindBytes
  rw [hg, hx]

theorem kindBytes_absent (hg : c.sig = none) (hx : c.code = none) : kindBytes c = List.replicate 7 0 := by
  unfold kindBytes
  rw [hg, hx]
  rfl

theorem length_kindBytes (c : WatchConfig) : (kindBytes c).length = 7 := by
  unfold kindBytes
  split <;> rfl

theorem actionBytes_up {f : AccessFields} (hf : c.up = some f) :
    actionBytes c = [BitVec.ofNat 8 f.partner] ++ bytes16 f.lease ++ slotBytes f.loop := by
  unfold actionBytes
  rw [hf]

theorem actionBytes_linked {h : Handle} (hf : c.up = none) (hh : c.linked = some h) : actionBytes c = handleBytes h ++ [0] := by
  unfold actionBytes
  rw [hf, hh]

theorem actionBytes_absent (hf : c.up = none) (hh : c.linked = none) : actionBytes c = List.replicate 5 0 := by
  unfold actionBytes
  rw [hf, hh]
  rfl

theorem length_actionBytes (c : WatchConfig) : (actionBytes c).length = 5 := by
  unfold actionBytes
  split <;> rfl

/-- The count of present or absent intervals that a head shows (10.8). -/
theorem countByte_eq (r : WatchRun) : countByte r =
    BitVec.ofNat 8 (if r.st = .candidate then r.present else if r.st = .clearing then r.absent else 0) := by
  unfold countByte
  cases r.st <;> rfl

theorem accessByte_link {r : WatchRun} {h : Handle} (hl : r.link = some h) : accessByte r = BitVec.ofNat 8 (h.num - 480) := by
  unfold accessByte
  rw [hl]
  rfl

theorem accessByte_served {r : WatchRun} {h : Handle} (hl : r.link = none) (hs : r.served = some h) :
    accessByte r = BitVec.ofNat 8 (h.num - 480) := by
  unfold accessByte
  rw [hl, hs]
  rfl

theorem accessByte_absent {r : WatchRun} (hl : r.link = none) (hs : r.served = none) : accessByte r = 0xFF := by
  unfold accessByte
  rw [hl, hs]

end Parts

section QueryBytes
variable (u : WatcherUnit) (w : Nat)

/-- The configured, kind, mode and chain flags of a configuration, and its action (10.8). -/
def WatchConfig.flags (c : WatchConfig) : Nat :=
  (if c.configured then 128 else 0) + (if c.signature then 64 else 0) + (if c.auto then 32 else 0) + (if c.chain then 16 else 0) +
    c.action.toByte.toNat

/-- Byte by byte, every field in its place. -/
theorem queryBytes_eq : u.queryBytes w = slotBytes (u.watcher w).cfg.target ++ [BitVec.ofNat 8 (u.watcher w).cfg.flags] ++
    (List.range 7).map (fun i => (kindBytes (u.watcher w).cfg).getD i 0) ++
    [BitVec.ofNat 8 (u.watcher w).cfg.tolerance, BitVec.ofNat 8 (u.watcher w).cfg.persistence, BitVec.ofNat 8 (u.watcher w).cfg.dropout] ++
    (List.range 5).map (fun i => (actionBytes (u.watcher w).cfg).getD i 0) ++
    [BitVec.ofNat 8 ((u.watcher w).run.st.toByte.toNat * 32 + (if (u.watcher (u.headOf w)).run.frozen then 16 else 0) +
      (u.watcher w).run.phase.getD 15), BitVec.ofNat 8 (u.headOf w), BitVec.ofNat 8 (u.members (u.headOf w)).length] ++
    bytes16 (u.watcher (u.headOf w)).run.pos ++ bytes16 (u.watcher w).run.misses ++
    [countByte (u.watcher (u.headOf w)).run, BitVec.ofNat 8 (u.watcher (u.headOf w)).run.confirmations,
      accessByte (u.watcher (u.headOf w)).run] := by
  rw [← eq_map_getD (length_kindBytes _), ← eq_map_getD (length_actionBytes _)]
  rfl

theorem length_queryBytes : (u.queryBytes w).length = 28 := by
  rw [queryBytes_eq]
  rfl

theorem queryBytes_head : resultIsSlot (u.queryBytes w) 4 (u.watcher w).cfg.target ∧ resultIs (u.queryBytes w) 6 1 (u.watcher w).cfg.flags := by
  rw [queryBytes_eq]
  exact ⟨⟨resultIs_byte rfl, resultIs_byte rfl⟩, resultIs_byte rfl⟩

/-- The kind's settings, 00h where there are none. -/
theorem queryBytes_kind :
    (∀ g, (u.watcher w).cfg.sig = some g → resultIs (u.queryBytes w) 7 1 g.window ∧ resultIs (u.queryBytes w) 8 4 g.mask.toNat ∧
      resultIs (u.queryBytes w) 12 2 g.crc.toNat) ∧
    (∀ x, (u.watcher w).cfg.sig = none → (u.watcher w).cfg.code = some x → resultIs (u.queryBytes w) 7 1 x.len ∧
      resultIs (u.queryBytes w) 8 1 x.value.toNat ∧ resultIs (u.queryBytes w) 9 5 0) ∧
    ((u.watcher w).cfg.sig = none → (u.watcher w).cfg.code = none → resultIs (u.queryBytes w) 7 7 0) := by
  rw [queryBytes_eq]
  refine ⟨fun g hg => ?_, fun x hg hx => ?_, fun hg hx => ?_⟩
  · rw [kindBytes_signature hg]
    exact ⟨resultIs_byte rfl, resultIs_four rfl rfl rfl rfl, resultIs_word rfl rfl⟩
  · rw [kindBytes_repeat hg hx]
    refine ⟨resultIs_byte rfl, resultIs_toNat rfl, resultIs_zeros fun j hj => ?_⟩
    interval_cases j <;> rfl
  · rw [kindBytes_absent hg hx]
    refine resultIs_zeros fun j hj => ?_
    interval_cases j <;> rfl

theorem queryBytes_counts : resultIs (u.queryBytes w) 14 1 (u.watcher w).cfg.tolerance ∧
    resultIs (u.queryBytes w) 15 1 (u.watcher w).cfg.persistence ∧ resultIs (u.queryBytes w) 16 1 (u.watcher w).cfg.dropout := by
  rw [queryBytes_eq]
  exact ⟨resultIs_byte rfl, resultIs_byte rfl, resultIs_byte rfl⟩

/-- The action's fields, 00h in the places that it does not use. -/
theorem queryBytes_action :
    (∀ f, (u.watcher w).cfg.up = some f → resultIs (u.queryBytes w) 17 1 f.partner ∧ resultIs (u.queryBytes w) 18 2 f.lease ∧
      resultIsSlot (u.queryBytes w) 20 f.loop) ∧
    (∀ h, (u.watcher w).cfg.up = none → (u.watcher w).cfg.linked = some h → resultIs (u.queryBytes w) 17 2 h.num ∧
      resultIs (u.queryBytes w) 19 2 h.gen.toNat ∧ resultIs (u.queryBytes w) 21 1 0) ∧
    ((u.watcher w).cfg.up = none → (u.watcher w).cfg.linked = none → resultIs (u.queryBytes w) 17 5 0) := by
  rw [queryBytes_eq]
  refine ⟨fun f hf => ?_, fun h hf hh => ?_, fun hf hh => ?_⟩
  · rw [actionBytes_up hf]
    exact ⟨resultIs_byte rfl, resultIs_word rfl rfl, resultIs_byte rfl, resultIs_byte rfl⟩
  · rw [actionBytes_linked hf hh]
    exact ⟨resultIs_word rfl rfl, resultIs_word rfl rfl, resultIs_byte rfl⟩
  · rw [actionBytes_absent hf hh]
    refine resultIs_zeros fun j hj => ?_
    interval_cases j <;> rfl

/-- The watcher's own state and counts, and its head's (07 R144). -/
theorem queryBytes_run :
    resultIs (u.queryBytes w) 22 1 ((u.watcher w).run.st.toByte.toNat * 32 + (if (u.watcher (u.headOf w)).run.frozen then 16 else 0) +
      (u.watcher w).run.phase.getD 15) ∧
    resultIs (u.queryBytes w) 23 1 (u.headOf w) ∧ resultIs (u.queryBytes w) 24 1 (u.members (u.headOf w)).length ∧
    resultIs (u.queryBytes w) 25 2 (u.watcher (u.headOf w)).run.pos ∧ resultIs (u.queryBytes w) 27 2 (u.watcher w).run.misses ∧
    resultIs (u.queryBytes w) 29 1 (if (u.watcher (u.headOf w)).run.st = .candidate then (u.watcher (u.headOf w)).run.present
      else if (u.watcher (u.headOf w)).run.st = .clearing then (u.watcher (u.headOf w)).run.absent else 0) ∧
    resultIs (u.queryBytes w) 30 1 (u.watcher (u.headOf w)).run.confirmations := by
  rw [queryBytes_eq, countByte_eq]
  exact ⟨resultIs_byte rfl, resultIs_byte rfl, resultIs_byte rfl, resultIs_word rfl rfl, resultIs_word rfl rfl, resultIs_byte rfl, resultIs_byte rfl⟩

/-- The head's linked test circuit, or the access it serves. -/
theorem queryBytes_access :
    (∀ h, (u.watcher (u.headOf w)).run.link = some h → resultIs (u.queryBytes w) 31 1 (h.num - 480)) ∧
    (∀ h, (u.watcher (u.headOf w)).run.link = none → (u.watcher (u.headOf w)).run.served = some h →
      resultIs (u.queryBytes w) 31 1 (h.num - 480)) ∧
    ((u.watcher (u.headOf w)).run.link = none → (u.watcher (u.headOf w)).run.served = none → resultIs (u.queryBytes w) 31 1 0xFF) := by
  have hbyte : (u.queryBytes w).getD 27 0 = accessByte (u.watcher (u.headOf w)).run := by
    rw [queryBytes_eq]
    rfl
  refine ⟨fun h hl => ?_, fun h hl hs => ?_, fun hl hs => ?_⟩
  · exact resultIs_byte (hbyte.trans (accessByte_link hl))
  · exact resultIs_byte (hbyte.trans (accessByte_served hl hs))
  · exact resultIs_byte (hbyte.trans (accessByte_absent hl hs))

end QueryBytes

/-! ### The requests -/

section Requests
variable {s : State} {r : Request} {p : Port}

theorem setConflict_iff (u : WatcherUnit) (w : Nat) (c : WatchConfig) : u.setConflict w c = true ↔
    ¬((u.watcher w).run.st = .disarmed ∧ (c.chain = true → (u.watcher (w - 1)).run.st = .disarmed)) := by
  simp only [WatcherUnit.setConflict, Bool.or_eq_true, Bool.and_eq_true, decide_eq_true_eq, not_and_or, Classical.not_imp, ne_eq]

section Set
variable (ht : s.Takes .watchers 0x20 r p) (hlen : byteAt r.msg 1 = 28)
include ht hlen

theorem exec_watchSet : exec .watchSet s = .next (({ s with port := p } : State).watchSet r) :=
  congrArg Host.Outcome.next (ownerTakes_whole State.watchSet ht hlen)

theorem exec_watchSet_badField (hp : parseWatch r.msg = none) : exec .watchSet s = .next { s with port := p.answerRequest r .badField [] } := by
  rw [exec_watchSet ht hlen]
  simp only [State.watchSet, hp]
  rfl

theorem exec_watchSet_conflict {w : Fin 64} {c : WatchConfig} (hp : parseWatch r.msg = some (w, c)) (hc : s.wat.setConflict w c = true) :
    exec .watchSet s = .next { s with port := p.answerRequest r .stateConflict [] } := by
  rw [exec_watchSet ht hlen]
  simp only [State.watchSet, hp, hc, if_true]
  rfl

theorem exec_watchSet_writes {w : Fin 64} {c : WatchConfig} (hp : parseWatch r.msg = some (w, c)) (hc : s.wat.setConflict w c = false) :
    exec .watchSet s = .next { s with
      wat := s.wat.setWatcher w ⟨c, { (s.wat.watcher w).run with confirmations := 0 }⟩
      port := p.answerRequest r .ok (watchBytes w c) } := by
  rw [exec_watchSet ht hlen]
  simp only [State.watchSet, hp, hc, Bool.false_eq_true, if_false]
  rfl

end Set

section Query
variable (ht : s.Takes .watchers 0x23 r p) (hlen : byteAt r.msg 1 = 1)
include ht hlen

theorem exec_watchQuery : exec .watchQuery s = .next (({ s with port := p } : State).watchQuery r) :=
  congrArg Host.Outcome.next (ownerTakes_whole State.watchQuery ht hlen)

theorem exec_watchQuery_answers (hw : (byteAt r.msg 4).toNat < 64) :
    exec .watchQuery s = .next { s with port := p.answerRequest r .ok (s.wat.queryBytes (byteAt r.msg 4).toNat) } := by
  rw [exec_watchQuery ht hlen]
  simp only [State.watchQuery, (parseWatcher_iff _ ⟨_, hw⟩).2 rfl]
  rfl

theorem exec_watchQuery_badField (hw : 64 ≤ (byteAt r.msg 4).toNat) :
    exec .watchQuery s = .next { s with port := p.answerRequest r .badField [] } := by
  rw [exec_watchQuery ht hlen]
  simp only [State.watchQuery, parseWatcher_none hw]
  rfl

end Query

end Requests

/-! ### The statement -/

/-- Settles O25: the message field by field, the outcomes of the two requests, the chain of a watcher, and each field of the answers at its place. -/
theorem watchSetAndWatchQuery : Obligations.WatchSetAndWatchQuery := by
  refine ⟨fun m w c => ?_, ⟨fun s r p w c ht hlen hp => ⟨fun hclear => ?_, fun hclear => ?_⟩, fun s r p ht hlen hp => ?_,
    fun s r p ht hlen => ⟨fun hw => ?_, fun hw => ?_⟩⟩, fun u w => ?_, fun w c => ?_, fun u w => ?_, rfl, rfl⟩
  · rw [parseWatch_iff]
    simp only [and_assoc, readsSlot, readsRepeat, readsSignature, readsUp]
  · have hc : s.wat.setConflict w c = false := Bool.eq_false_iff.2 fun hc => (setConflict_iff _ _ _).1 hc hclear
    exact ⟨_, exec_watchSet_writes ht hlen hp hc, rfl, watchersBecome_setWatcher rfl rfl⟩
  · exact exec_watchSet_conflict ht hlen hp ((setConflict_iff _ _ _).2 hclear)
  · exact exec_watchSet_badField ht hlen hp
  · exact exec_watchQuery_answers ht hlen hw
  · exact exec_watchQuery_badField ht hlen hw
  · exact ⟨headOf_le u w, chain_headOf u w, fun m => chain_above_headOf u w, nodup_members u w, mem_members_iff u w⟩
  · obtain ⟨hnum, htarget, hkind⟩ := watchBytes_head w c
    obtain ⟨hcode, hnocode⟩ := watchBytes_code w c
    obtain ⟨hsig, hnosig⟩ := watchBytes_sig w c
    obtain ⟨htol, hpers, hdrop, hauto, haction, hchain⟩ := watchBytes_counts w c
    obtain ⟨hup, hnoup⟩ := watchBytes_up w c
    exact ⟨length_watchBytes w c, hnum, htarget, hkind, hcode, hnocode, hsig, hnosig, htol, hpers, hdrop, hauto, haction, hchain, hup, hnoup,
      watchBytes_linked w c⟩
  · obtain ⟨htarget, hflags⟩ := queryBytes_head u w
    obtain ⟨hsig, hcode, hnone⟩ := queryBytes_kind u w
    obtain ⟨htol, hpers, hdrop⟩ := queryBytes_counts u w
    obtain ⟨hup, hlinked, hunused⟩ := queryBytes_action u w
    obtain ⟨hstate, hhead, hmembers, hpos, hmisses, hcount, hconf⟩ := queryBytes_run u w
    exact ⟨length_queryBytes u w, htarget, hflags, hsig, hcode, hnone, htol, hpers, hdrop, hup, hlinked, hunused, hstate, hhead, hmembers, hpos,
      hmisses, hcount, hconf, queryBytes_access u w⟩

end Sys2Proof.Machine

/-! SUPPORT. The circuit manager's orders to the watcher unit (08 R157, R165): what each asks of the watchers, and the chain it arms, disarms or returns.
The watcher unit's soft reset order (07 R147). -/

namespace Sys2Proof.Machine

set_option Elab.async false

/-! ### An order taken -/

/-- The state with the first of the watcher unit's orders taken, the rest being as given. -/
def State.afterOrder (s : State) (rest : List WatchOrder) : State := { s with wat := { s.wat with orders := rest } }

@[simp] theorem watcher_afterOrder (s : State) (rest : List WatchOrder) (w : Nat) : (s.afterOrder rest).wat.watcher w = s.wat.watcher w := rfl

@[simp] theorem members_afterOrder (s : State) (rest : List WatchOrder) (h : Nat) : (s.afterOrder rest).wat.members h = s.wat.members h :=
  members_congr (fun _ => rfl) h

@[simp] theorem lanesUp_afterOrder (s : State) (rest : List WatchOrder) (h : Nat) : (s.afterOrder rest).wat.lanesUp h = s.wat.lanesUp h :=
  lanesUp_congr (fun _ => rfl) rfl h

theorem dropOrder_eq {s : State} {o : WatchOrder} {rest : List WatchOrder} (hx : s.wat.orders = o :: rest) : s.dropOrder = s.afterOrder rest := by
  rw [State.dropOrder, hx]
  rfl

section Taken
variable {s : State} {rest : List WatchOrder} {d w n : Nat} {h : Handle} (hr : s.phase = .run)
include hr

theorem exec_armingOrder (hx : s.wat.orders = .arm d w h :: rest) : exec .armingOrder s = .next ((s.afterOrder rest).orderArm d w h) := by
  show Host.Outcome.next (s.whenRunning State.takeArm) = _
  rw [whenRunning_run hr, ← dropOrder_eq hx]
  simp only [State.takeArm, hx]

theorem exec_disarmingOrder (hx : s.wat.orders = .disarm d h :: rest) : exec .disarmingOrder s = .next ((s.afterOrder rest).orderDisarm d h) := by
  show Host.Outcome.next (s.whenRunning State.takeDisarm) = _
  rw [whenRunning_run hr, ← dropOrder_eq hx]
  simp only [State.takeDisarm, hx]

theorem exec_returnOrder (hx : s.wat.orders = .giveBack w h n :: rest) : exec .returnOrder s = .next ((s.afterOrder rest).orderReturn w n) := by
  show Host.Outcome.next (s.whenRunning State.takeReturn) = _
  rw [whenRunning_run hr, ← dropOrder_eq hx]
  simp only [State.takeReturn, hx]

end Taken

/-! ### The chain that an order changes -/

/-- A down watcher can be armed, as the watcher unit asks it and as the statements say it (08 R157). -/
theorem armFits_iff (u : WatcherUnit) (d w : Nat) : u.armFits d w = true ↔ (u.watcher d).cfg.configured = true ∧ (u.watcher d).run.st = .disarmed ∧
    (u.watcher d).cfg.chain = false ∧ (u.watcher d).cfg.action = .accessDown ∧ (u.watcher d).cfg.target.lane = (u.watcher w).cfg.target.lane ∧
    ∀ m ∈ u.members d, (u.watcher m).cfg.configured = true := by
  simp only [WatcherUnit.armFits, Bool.and_eq_true, decide_eq_true_eq, List.all_eq_true, and_assoc]

/-- A chain returned to ARMED: the head with fresh counts, its served access kept; every follower stays in its state; confirmations and the linked test
circuit kept (08 R165; log 46). -/
theorem watcher_returnChain (u : WatcherUnit) (w m : Nat) : (u.returnChain w).watcher m =
    if m ∈ u.members w then { u.watcher m with run := { WatchRun.initial with
      confirmations := (u.watcher m).run.confirmations
      link := (u.watcher m).run.link
      st := if m = w then .armed else (u.watcher m).run.st
      frozen := decide (m = w) && !u.lanesUp w
      served := if m = w then (u.watcher m).run.served else none } } else u.watcher m := by
  rw [WatcherUnit.returnChain, watcher_updChain]
  by_cases hm : m = w
  · simp only [hm, if_true, decide_true, Bool.true_and]
    rfl
  · simp only [hm, if_false, decide_false, Bool.false_and]
    rfl

theorem returnChain_frame (u : WatcherUnit) (w : Nat) : u.returnChain w = { u with table := (u.returnChain w).table } := updChain_frame _ _ _

/-- Every watcher after a soft reset: its run state at its starting values, its configuration kept (07 R147). -/
theorem watcher_softReset {u : WatcherUnit} (hwf : Tbl.wf Watcher.initial u.table = true) (w : Nat) :
    u.softReset.watcher w = { u.watcher w with run := WatchRun.initial } :=
  Tbl.get_mapAll Watcher.initial (fun _ x => { x with run := WatchRun.initial }) u.table w (fun _ => rfl) hwf

/-- A change of one chain at the taking of an order: nothing but the table and the orders changes, and in the table the members of the chain alone. -/
theorem chainOrder_changes {s : State} {rest : List WatchOrder} {u : WatcherUnit} {h : Nat} {f : Nat → Watcher → Watcher}
    (hframe : u = { (s.afterOrder rest).wat with table := u.table })
    (hw : ∀ m, u.watcher m = if m ∈ (s.afterOrder rest).wat.members h then f m ((s.afterOrder rest).wat.watcher m) else (s.afterOrder rest).wat.watcher m) :
    ({ s.afterOrder rest with wat := u } : State) = { s with wat := { s.wat with table := u.table, orders := rest } } ∧
      s.watchersBecome { s.afterOrder rest with wat := u } (s.wat.members h) f := by
  refine ⟨?_, fun m => (hw m).trans ?_⟩
  · conv_lhs => rw [hframe]
    rfl
  · rw [members_afterOrder]
    rfl

/-! ### The statement -/

/-- Settles O31: each order asks what the statement asks, and changes the chain of the watcher it names; a soft reset changes every watcher. -/
theorem ordersToTheWatcherUnit : Obligations.OrdersToTheWatcherUnit := by
  refine ⟨fun s rest hr => ?_, fun s id rest hr hx hwf => ?_⟩
  · intro drop
    refine ⟨fun d w hd hx hl => ?_, fun d w hd hx hl => ?_, fun d hd hx => ?_, fun w hd n hx => ?_⟩
    · intro x fits
      have hmay : (s.afterOrder rest).wat.armFits d w = true ↔ fits := by
        rw [armFits_iff, members_afterOrder]
        rfl
      have hexec : exec .armingOrder s = .next (if (s.afterOrder rest).wat.armFits d w then
          { s.afterOrder rest with wat := (s.afterOrder rest).wat.armChain d (some hd) } else (s.afterOrder rest).raiseWatch w .refused) :=
        (exec_armingOrder hr hx).trans (congrArg _ (if_pos hl))
      refine ⟨fun hfits => ⟨_, hexec.trans (by rw [if_pos (hmay.2 hfits)]), chainOrder_changes (armChain_frame _ _ _) fun m => ?_⟩,
        fun hfits => hexec.trans (by rw [if_neg (mt hmay.1 hfits)]; rfl)⟩
      rw [watcher_armChain, lanesUp_afterOrder]
    · exact (exec_armingOrder hr hx).trans (congrArg _ (if_neg hl))
    · intro mine
      exact ⟨fun hm => ⟨_, (exec_disarmingOrder hr hx).trans (congrArg _ (if_pos hm)),
        chainOrder_changes (disarmChain_frame _ _) fun m => watcher_disarmChain _ _ _⟩,
        fun hm => (exec_disarmingOrder hr hx).trans (congrArg _ (if_neg hm))⟩
    · intro mine
      refine ⟨fun hm => ⟨_, (exec_returnOrder hr hx).trans (congrArg _ (if_pos hm)), chainOrder_changes (returnChain_frame _ _) fun m => ?_⟩,
        fun hm => (exec_returnOrder hr hx).trans (congrArg _ (if_neg hm))⟩
      rw [watcher_returnChain, lanesUp_afterOrder]
  · have hexec : exec .watcherSoftResetOrder s = .next s.watcherReset := congrArg Host.Outcome.next (whenRunning_run hr _)
    have hreset : s.watcherReset = { s with
        wat := s.wat.softReset
        port := { s.port with toWatchers := rest, acks := s.port.acks ++ [(.watcherUnit, id)] } } := by
      simp only [State.watcherReset, hx]
    exact ⟨_, hexec.trans (congrArg _ hreset), rfl, watcher_softReset hwf⟩

end Sys2Proof.Machine

/-! SUPPORT. The next state of a claim that changes the watcher unit, and an access claim (08 R151-R157): the test circuit that it makes, the leg that it
displaces, and the grounds of its refusal. -/

namespace Sys2Proof.Machine

set_option Elab.async false

/-! ### The next state of a claim that changes the watcher unit (08 R148) -/

namespace Eff.Reads

variable {s : State} {e : Eff} {recs : Nat → Rec} {offer : List Entry} {raise : Raise} {port : Port} (h : e.Reads s recs offer raise port)
include h

theorem withWat (u : WatcherUnit) : ({ e with wat := u } : Eff).Reads { s with wat := u } recs offer raise port := { h with wat := rfl }

/-- The claim made: its records, those of `ms` having entered FREE at its end, its offer, raises, answers and fan-out lists. -/
theorem commit_freed {ms : List Nat} (hms : ms.Nodup) (hsrc : ∀ m ∈ ms, (recs m).source = (s.recordOf m).source) :
    let t := (ms.foldl Eff.enterFree e).commit offer none s
    s.circuitClaim t offer raise (ms.foldl (fun p m => p.answerRelease (recs m).relAns) port) ∧
      (∀ m, t.recordOf m = if m ∈ ms then Rec.free ((s.recordOf m).gen + 1) else recs m) ∧ s.fanLeaves t ms ∧ t.wat = s.wat := by
  have hf := freed_foldl_enterFree hms e
  have hr := fun m => recOf_foldl_enterFree ms e m hms
  generalize ms.foldl Eff.enterFree e = e' at hf hr
  have hoffer : e'.offer = offer := hf.offer.trans h.offer
  have horder : e'.order = none := hf.order.trans h.order
  have hport : e'.port = ms.foldl (fun p m => p.answerRelease (recs m).relAns) port := by
    rw [hf.port, h.port]
    exact List.foldl_ext _ _ _ fun p m _ => by rw [h.recs]
  have hc : s.circuitClaim (e'.commit e'.offer e'.order s) e'.offer e'.raise e'.port :=
    commit_circuitClaim (by rw [hf.mgr, h.mgr]) (hf.ver.trans h.ver) (hf.wat.trans h.wat) horder
  rw [hoffer, horder, hf.raise.trans h.raise, hport] at hc
  refine ⟨hc, fun m => ?_, fun k => ?_, hf.wat.trans h.wat⟩
  · show e'.recOf m = _
    rw [hr, h.recs, h.gens]
  · show e'.mgr.fanOf k = _
    rw [hf.fan, h.fanOf]
    refine List.filter_congr fun m _ => ?_
    by_cases hm : m ∈ ms
    · rw [h.recs, hsrc m hm]
    · simp [hm]

end Eff.Reads

/-- The next state of a claim that changes the watcher unit and fan-out lists, and ends with records entering FREE. -/
theorem exec_of_wat_freed {s s' : State} {c : Instr} {k : Claim} (hh : s.Hands c k s') {u : WatcherUnit} {fan : Tbl (List Nat)} {e : Eff}
    {recs : Nat → Rec} {offer : List Entry} {raise : Raise} {port : Port} {ms : List Nat} (hms : ms.Nodup)
    (he : effect s'.port.defaults k (Eff.start s') = ms.foldl Eff.enterFree e)
    (h : e.Reads (({ s' with wat := u } : State).withFan fan) recs offer raise port)
    (hsrc : ∀ m ∈ ms, (recs m).source = (s'.recordOf m).source) (hfit : fits s'.sw.list offer = true) :
    ∃ t, exec c s = .next t ∧
      ({ s' with wat := u } : State).circuitClaim t offer raise (ms.foldl (fun p m => p.answerRelease (recs m).relAns) port) ∧
      (∀ m, t.recordOf m = if m ∈ ms then Rec.free ((s'.recordOf m).gen + 1) else recs m) ∧ (s'.withFan fan).fanLeaves t ms ∧ t.wat = u := by
  obtain ⟨hc, hrecs, hfan, hwat⟩ := h.commit_freed hms hsrc
  have hf := freed_foldl_enterFree hms e
  have hx := exec_of_fits hh he (by rw [hf.offer, h.offer]; exact hfit)
  rw [hf.offer, hf.order, h.offer, h.order] at hx
  exact ⟨_, hx, hc, hrecs, hfan, hwat⟩

/-! ### The test circuit of an access (08 R153-R157) -/

/-- The watcher unit with the up watcher of an access linked and the arming order for its partner given (08 R156, R157). -/
def WatcherUnit.accessLinked (u : WatcherUnit) (a : AccessRequest) (h : Handle) : WatcherUnit :=
  { u.updRun a.watcher fun x => { x with link := some h } with orders := u.orders ++ [.arm a.partner a.watcher h] }

theorem watcher_accessLinked (u : WatcherUnit) (a : AccessRequest) (h : Handle) (m : Nat) : (u.accessLinked a h).watcher m =
    if m = a.watcher then { u.watcher m with run := { (u.watcher m).run with link := some h } } else u.watcher m :=
  watcher_updRun u a.watcher m fun x => { x with link := some h }

/-- The test record of an access in the words of the statements (08 R153). -/
def State.accessRecord (s : State) (a : AccessRequest) (displ : Option (Nat × Slot)) (gen : BitVec 16) : Rec :=
  { Rec.free gen with
    st := .making
    cls := .test
    source := some (.inbound a.target)
    legs := [⟨a.loop, .making, false, none⟩]
    cond := s.port.defaults.cond
    holdB := s.port.defaults.holdB
    rel := s.port.defaults.rel
    clearDown := s.port.defaults.clearDown
    lease := if a.lease = 0 then none else some a.lease
    reload := if a.lease = 0 then none else some a.lease
    fault := s.sourceFault (.inbound a.target)
    displ := displ
    watcher := some a.watcher
    down := some a.partner
    tag := BitVec.ofNat 16 a.watcher
    target := some .source }

theorem testRecord_eq (s : State) (a : AccessRequest) (displ : Option (Nat × Slot)) (r : Rec) :
    testRecord s.port.defaults s.mgr a displ r = s.accessRecord a displ r.gen := by
  rw [testRecord, faultOf_eq]
  rfl

/-- An owner's record with its leg on a loop slot displaced by test record t (08 R154). -/
def Rec.displaced (r : Rec) (k : Slot) (t : Nat) : Rec := r.updLeg k fun l => { l with st := .displaced, link := some t }

/-- The fan-out lists once test record t has joined that of its source (01 R18). -/
def State.accessFan (s : State) (a : AccessRequest) (t : Nat) : Tbl (List Nat) := ((Eff.start s).joinFan (some (.inbound a.target)) t).mgr.fan

theorem accessFan_get (s : State) (a : AccessRequest) (t : Nat) (k : Slot) : Tbl.get [] (s.accessFan a t) k.key =
    s.mgr.fanOf k ++ if Source.inbound a.target = .inbound k then [t] else [] := fanOf_joinFan (Eff.start s) (.inbound a.target) t k

section Access
variable {s : State} {a : AccessRequest} {t o : Nat}

namespace Eff.Reads

variable {e : Eff} {recs : Nat → Rec} {offer : List Entry} {raise : Raise} {port : Port} (h : e.Reads s recs offer raise port)
include h

theorem linkTest (a : AccessRequest) (t : Nat) (own : List LegOutcome) : (e.linkTest a t own).Reads { s with wat := s.wat.accessLinked a (s.handle t) } recs
    (offer ++ [⟨a.loop, legContent t (recs t) .source none, s.kept (own.map (·.h.num)) a.loop ++ own⟩]) raise port := by
  have hentry := (h.addEntry a.loop (legContent t (recs t) .source none) own).withWat (s.wat.accessLinked a (s.handle t))
  unfold Eff.linkTest
  rw [h.content, h.handleOf, h.wat]
  exact hentry

end Eff.Reads

/-- The test record made, CREATED raised, and the record on the list of its source (08 R153). -/
theorem createTest_reads (s : State) (a : AccessRequest) (t : Nat) :
    (((Eff.start s).createTest s.port.defaults a t).joinFan (some (.inbound a.target)) t).Reads (s.withFan (s.accessFan a t))
      (changeOn [t] (fun r => s.accessRecord a ((s.mgr.holder a.loop).map fun o => (o, a.loop)) r.gen) s.recordOf) [] [(81 + t, .created)] s.port := by
  have hmade := (Eff.Reads.start s).upd t (testRecord s.port.defaults s.mgr a ((s.mgr.holder a.loop).map fun o => (o, a.loop)))
  simp only [funext (testRecord_eq s a _)] at hmade
  have hjoined := (hmade.raiseOn t .created).joinFan (some (.inbound a.target)) t
  simp only [Eff.createTest, start_mgr, funext (testRecord_eq s a _)]
  exact hjoined

/-- An access whose loop slot no one holds (08 R153). -/
theorem makeAccess_free (ho : s.mgr.holder a.loop = none) : ((Eff.start s).makeAccess s.port.defaults a t).Reads
    (({ s with wat := s.wat.accessLinked a (s.handle t) } : State).withFan (s.accessFan a t)) (changeOn [t] (fun r => s.accessRecord a none r.gen) s.recordOf)
    [⟨a.loop, legContent t (s.accessRecord a none (s.recordOf t).gen) .source none, s.kept [t] a.loop ++ [⟨s.handle t, .made⟩]⟩]
    [(81 + t, .created)] s.port := by
  have hcreated := createTest_reads s a t
  rw [ho] at hcreated
  have hlinked := hcreated.linkTest a t [⟨s.handle t, .made⟩]
  rw [changeOn_self] at hlinked
  have hmake : (Eff.start s).makeAccess s.port.defaults a t =
      (((Eff.start s).createTest s.port.defaults a t).joinFan (some (.inbound a.target)) t).linkTest a t [⟨s.handle t, .made⟩] := by
    rw [← withFan_handle s (s.accessFan a t) t, ← hcreated.handleOf]
    simp only [Eff.makeAccess, Eff.createTest, start_mgr, ho]
    rfl
  rw [hmake]
  exact hlinked

/-- An access whose loop slot has an owner: its leg there is displaced (08 R154). -/
theorem makeAccess_owned (ho : s.mgr.holder a.loop = some o) (hne : o ≠ t) : ((Eff.start s).makeAccess s.port.defaults a t).Reads
    (({ s with wat := s.wat.accessLinked a (s.handle t) } : State).withFan (s.accessFan a t))
    (changeOn [o] (·.displaced a.loop t) (changeOn [t] (fun r => s.accessRecord a (some (o, a.loop)) r.gen) s.recordOf))
    [⟨a.loop, legContent t (s.accessRecord a (some (o, a.loop)) (s.recordOf t).gen) .source none,
      s.kept [o, t] a.loop ++ [⟨s.handle o, .changed⟩, ⟨s.handle t, .made⟩]⟩]
    [(81 + t, .created), (81 + o, .displaced)] s.port := by
  have hcreated := createTest_reads s a t
  rw [ho] at hcreated
  have hdisplaced := (hcreated.upd o (·.displaced a.loop t)).raiseOn o .displaced
  have hlinked := hdisplaced.linkTest a t [⟨s.handle o, .changed⟩, ⟨s.handle t, .made⟩]
  rw [changeOn_single o _ _ t, if_neg hne.symm, changeOn_self t] at hlinked
  have hmake : (Eff.start s).makeAccess s.port.defaults a t =
      ((((Eff.start s).createTest s.port.defaults a t).joinFan (some (.inbound a.target)) t).displace o a.loop t).linkTest a t
        [⟨s.handle o, .changed⟩, ⟨s.handle t, .made⟩] := by
    rw [← withFan_handle s (s.accessFan a t) t, ← withFan_handle s (s.accessFan a t) o, ← hdisplaced.handleOf, ← hdisplaced.handleOf]
    simp only [Eff.makeAccess, Eff.createTest, start_mgr, ho]
    rfl
  rw [hmake]
  exact hlinked

/-! ### An access claim refused (08 R151, R152, R169) -/

/-- No record of the test pool is FREE (01 R14). -/
theorem lowestFree_test_none {e : Eff} (h : ∀ m, 480 ≤ m → m < 512 → (e.recOf m).st ≠ .free) :
    e.lowestFree Config.testPool (Config.records - Config.testPool) none = none := by
  refine List.find?_eq_none.2 fun m hm => ?_
  obtain ⟨hlo, hhi⟩ := List.mem_range'_1.1 hm
  simp [Eff.isFree, h m hlo hhi]

/-- The state with the first of the watcher unit's claims taken, the rest being as given. -/
def State.afterClaim (s : State) (rest : List ActionClaim) : State := { s with wat := { s.wat with claims := rest } }

/-- The judgements on watchers do not read the claims that wait. -/
theorem watchersFit_afterClaim (s : State) (a : AccessRequest) (rest : List ActionClaim) : (s.afterClaim rest).WatchersFit a ↔ s.WatchersFit a :=
  (accessFits_iff (s.afterClaim rest) a).symm.trans (accessFits_iff s a)

/-- The grounds on which an access claim is refused. -/
theorem effAccess_refuses (d : Defaults) (h : ¬s.WatchersFit a ∨ ¬s.mayLoop a.loop ∨ 8 ≤ (s.mgr.fanOf a.target).length ∨
    ∀ m, 480 ≤ m → m < 512 → (s.recordOf m).st ≠ .free) : effAccess d a (Eff.start s) = (Eff.start s).raiseWatcher a.watcher .refused := by
  unfold effAccess
  split
  · next hok =>
    simp only [Bool.and_eq_true] at hok
    obtain ⟨⟨hfit, hloop⟩, hroom⟩ := hok
    rcases h with h | h | h | h
    · exact absurd ((accessFits_iff s a).1 hfit) h
    · exact absurd ((loopFree_iff s a.loop).1 hloop) h
    · have hlen := (fanRoom_iff s (.inbound a.target) 1).1 hroom a.target rfl
      omega
    · rw [lowestFree_test_none (e := Eff.start s) h]
  · rfl

end Access

/-! ### The statement -/

/-- An access claim accepted: the next state, with the watcher unit and the fan-out lists in the words of the statements. -/
theorem exec_accessClaim {s : State} {a : AccessRequest} {rest : List ActionClaim} {t0 : Nat} (hr : s.Ready) (hx : s.wat.claims = .access a :: rest)
    (hfit : s.WatchersFit a) (hmay : s.mayLoop a.loop) (h0 : 480 ≤ t0) (h1 : t0 < 512) (hfree : (s.recordOf t0).st = .free)
    (hlow : ∀ m, 480 ≤ m → m < t0 → (s.recordOf m).st ≠ .free) (hroom : s.fanRoom (.inbound a.target) 1)
    {recs : Nat → Rec} {x : Entry} {raise : Raise} (hlist : s.sw.list.length + 1 ≤ 96)
    (hmake : ((Eff.start (s.afterClaim rest)).makeAccess s.port.defaults a t0).Reads
      (({ s.afterClaim rest with wat := (s.afterClaim rest).wat.accessLinked a (s.handle t0) } : State).withFan ((s.afterClaim rest).accessFan a t0))
      recs [x] raise s.port) :
    ∃ t, exec .accessClaim s = .next t ∧
      (t.wat = { s.wat with table := t.wat.table, claims := rest, orders := s.wat.orders ++ [.arm a.partner a.watcher (s.handle t0)] } ∧
        (s.watchersBecome t [a.watcher] fun _ y => { y with run := { y.run with link := some (s.handle t0) } }) ∧
        s.fanJoins t t0 (.inbound a.target)) ∧
      ({ s.afterClaim rest with wat := t.wat } : State).circuitClaim t [x] raise s.port ∧ ∀ m, t.recordOf m = recs m := by
  have heff := effAccess_accepts (d := s.port.defaults) ((watchersFit_afterClaim s a rest).2 hfit) hmay hroom h0 h1 hfree hlow
  obtain ⟨t, ht, hc, hrecs, hfan, hwat⟩ := exec_of_wat_freed (ms := []) (.action (.access a) rest hr hx) List.nodup_nil heff hmake nofun
    (fits_of_room hlist)
  rw [← hwat] at hc
  refine ⟨t, ht, ⟨by rw [hwat]; rfl, fun m => ?_, fun k => ?_⟩, hc, fun m => (hrecs m).trans (if_neg List.not_mem_nil)⟩
  · rw [hwat, watcher_accessLinked]
    simp only [List.mem_singleton]
    rfl
  · rw [hfan, List.filter_eq_self.2 fun m _ => by simp]
    exact accessFan_get _ a t0 k

/-- Settles O53: the claim's effect is computed with and without an owner of the loop slot, and each ground of refusal leaves only the raise. -/
theorem accessClaimMakesATestCircuitOrIsRefused : Obligations.AccessClaimMakesATestCircuitOrIsRefused := by
  refine ⟨fun s a rest t0 hr hx hfit h0 h1 hfree hlow hroom hlist => ?_, fun s a rest hr hx hno => ?_⟩
  · intro s' lease x linked
    refine ⟨fun ho => ?_, fun o ho hcls hserving hne hleg => ?_⟩
    · have hmay : s.mayLoop a.loop := fun o hoo => nomatch ho.symm.trans hoo
      obtain ⟨t, ht, hlinked, hc, hrecs⟩ := exec_accessClaim hr hx hfit hmay h0 h1 hfree hlow hroom hlist (makeAccess_free (s := s') ho)
      exact ⟨t, ht, hlinked, hc, becomes_of_changeOn hrecs⟩
    · have hmay : s.mayLoop a.loop := fun o' hoo => by
        cases ho.symm.trans hoo
        exact ⟨hcls, hserving, hleg⟩
      obtain ⟨t, ht, hlinked, hc, hrecs⟩ := exec_accessClaim hr hx hfit hmay h0 h1 hfree hlow hroom hlist (makeAccess_owned (s := s') ho hne)
      refine ⟨t, ht, hlinked, hc, fun m => (hrecs m).trans ?_⟩
      rw [changeOn_single, changeOn_single]
      by_cases hmt : m = t0
      · subst hmt
        rw [if_neg hne.symm, if_pos rfl, if_pos List.mem_cons_self]
        exact (if_pos rfl).symm
      · by_cases hmo : m = o
        · subst hmo
          rw [if_pos rfl, if_neg hmt, if_pos (by simp)]
          exact (if_neg hmt).symm
        · rw [if_neg hmo, if_neg hmt, if_neg (by simp [hmt, hmo])]
          rfl
  · have heff := effAccess_refuses (s := s.afterClaim rest) s.port.defaults (hno.imp_left (mt (watchersFit_afterClaim s a rest).1))
    exact exec_raisesWatcher (.action (.access a) rest hr hx) heff

end Sys2Proof.Machine

/-! SUPPORT. A test circuit's return to FREE (08 R164, R165): RESTORED on its owner, the watchers' link removed and the orders given, and the circuit-level
changes of the report that brings it. -/

namespace Sys2Proof.Machine

set_option Elab.async false

/-! ### The end of a test access at its report (08 R164, R165) -/

/-- A generation that has stepped is another (01 R10). -/
theorem gen_step_ne (g : BitVec 16) : g + 1 ≠ g := by simp

/-- RESTORED on the owner whose leg on the loop slot is LIVE (08 R164). -/
def State.restoredRaises (s : State) (recs : Nat → Rec) : Option (Handle × Slot) → Raise
  | none => []
  | some (o, k) => if s.isCurrent o = true ∧ ∃ x ∈ (recs o.num).legs, x.slot = k ∧ x.st = .live then [(81 + o.num, .restored)] else []

/-- The watcher unit with the up watcher's link removed, and the disarming and return orders given (08 R164, R165). -/
def WatcherUnit.accessUnlinked (u : WatcherUnit) (w d : Nat) (h : Handle) (resets : Nat) : WatcherUnit :=
  { u.updRun w fun x => { x with link := none } with orders := u.orders ++ [.disarm d h] ++ [.giveBack w h resets] }

theorem watcher_accessUnlinked (u : WatcherUnit) (w d : Nat) (h : Handle) (resets m : Nat) : (u.accessUnlinked w d h resets).watcher m =
    if m = w then { u.watcher m with run := { (u.watcher m).run with link := none } } else u.watcher m :=
  watcher_updRun u w m fun x => { x with link := none }

/-- A claim that raises what is given, and leaves the watcher unit as it is given. -/
def Eff.withMessages (e : Eff) (raise : Raise) (u : WatcherUnit) : Eff := { e with raise := raise, wat := u }

theorem enterFree_withMessages (e : Eff) (n : Nat) (raise : Raise) (u : WatcherUnit) :
    (e.withMessages raise u).enterFree n = (e.enterFree n).withMessages raise u := by
  rw [enterFree_eq, enterFree_eq]
  unfold Eff.leaveFan
  rw [show (e.withMessages raise u).recOf n = e.recOf n from rfl]
  split <;> rfl

/-- RESTORED on the owner whose leg on the loop slot is LIVE, as the claim raises it (08 R164). -/
def Eff.restore (e : Eff) : Option (Handle × Slot) → Eff
  | none => e
  | some (o, k) => if e.current o && (e.recOf o.num).legs.any fun l => decide (l.slot = k ∧ l.st = .live) then e.raiseOn o.num .restored else e

/-- The watcher unit with a watcher's link removed, if it has one to this test circuit (08 R164). -/
def WatcherUnit.unlink (u : WatcherUnit) (w : Nat) (h : Handle) : WatcherUnit :=
  if (u.watcher w).run.link = some h then u.updRun w fun x => { x with link := none } else u

/-- The up watcher's link removed, and the orders given (08 R164, R165). -/
def Eff.unlinkTest (e : Eff) (watcher down : Option Nat) (h : Handle) : Eff :=
  match watcher with
  | none => e
  | some w => { e with
      wat := { e.wat.unlink w h with
        orders := (e.wat.unlink w h).orders ++ (down.map fun d => WatchOrder.disarm d h).toList ++ [.giveBack w h e.mgr.resets] } }

/-- The return of a test record to FREE, part by part (08 R164, R165). -/
theorem freeTest_parts (e : Eff) (n : Nat) : e.freeTest n =
    (((e.restore (e.recOf n).restoring).enterFree n).raiseOn n .accessEnded).unlinkTest (e.recOf n).watcher (e.recOf n).down (e.handleOf n) := by
  unfold Eff.freeTest
  dsimp only
  cases (e.recOf n).restoring <;> cases (e.recOf n).watcher <;> rfl

namespace Eff.Reads

variable {s : State} {e : Eff} {recs : Nat → Rec} {offer : List Entry} {raise : Raise} {port : Port} (h : e.Reads s recs offer raise port)
include h

theorem withMessages (raise' : Raise) (u : WatcherUnit) : (e.withMessages raise' u).Reads { s with wat := u } recs offer raise' port :=
  { h with wat := rfl, raise := rfl }

theorem restore (owner : Option (Handle × Slot)) : e.restore owner = e.withMessages (raise ++ s.restoredRaises recs owner) s.wat := by
  have hsame : e.withMessages (raise ++ []) s.wat = e := by rw [List.append_nil, Eff.withMessages, ← h.raise, ← h.wat]
  cases owner with
  | none => exact hsame.symm
  | some ok =>
    obtain ⟨o, k⟩ := ok
    have hcond : (e.current o && (e.recOf o.num).legs.any fun l => decide (l.slot = k ∧ l.st = .live)) = true ↔
        s.isCurrent o = true ∧ ∃ x ∈ (recs o.num).legs, x.slot = k ∧ x.st = .live := by
      simp only [Bool.and_eq_true, h.current, h.recs, List.any_eq_true, decide_eq_true_eq]
    unfold Eff.restore State.restoredRaises
    by_cases hc : s.isCurrent o = true ∧ ∃ x ∈ (recs o.num).legs, x.slot = k ∧ x.st = .live
    · simp only [if_pos (hcond.2 hc), if_pos hc]
      rw [Eff.withMessages, ← h.raise, ← h.wat]
      rfl
    · simp only [if_neg (mt hcond.1 hc), if_neg hc]
      exact hsame.symm

/-- The return of a test record to FREE: it enters FREE, and beside it stand the raises, the link removed and the orders (08 R164, R165). -/
theorem freeTest {n w d : Nat} (hw : (recs n).watcher = some w) (hd : (recs n).down = some d)
    (hlink : (s.wat.watcher w).run.link = some (s.handle n)) : e.freeTest n =
      (e.withMessages (raise ++ s.restoredRaises recs (recs n).restoring ++ [(81 + n, .accessEnded)])
        (s.wat.accessUnlinked w d (s.handle n) s.mgr.resets)).enterFree n := by
  have hresets : (e.enterFree n).mgr.resets = s.mgr.resets := by rw [(freed_enterFree e n).mgr, h.mgr]
  rw [freeTest_parts, h.restore, h.recs, h.handleOf, hw, hd, enterFree_withMessages, enterFree_withMessages, ← hresets]
  have hunlink : s.wat.unlink w (s.handle n) = s.wat.updRun w fun x => { x with link := none } := if_pos hlink
  unfold Eff.unlinkTest
  simp only [raiseOn_wat, Eff.withMessages, hunlink]
  rfl

end Eff.Reads

/-! ### The circuit-level changes of the report (03 R59, 08 R164) -/

section Phase
variable {e : Eff} {hd : Handle} {hds : List Handle} {f : Eff → Nat → Eff}

@[simp] theorem phase_nil : e.phase [] f = e := rfl

theorem phase_cons_current (hc : e.current hd = true) : e.phase (hd :: hds) f = (f e hd.num).phase hds f := by
  unfold Eff.phase
  rw [List.foldl_cons, if_pos hc]

theorem phase_cons_stale (hc : e.current hd = false) : e.phase (hd :: hds) f = e.phase hds f := by
  unfold Eff.phase
  rw [List.foldl_cons, hc, if_neg Bool.false_ne_true]

end Phase

/-- Record x of number n as the report of its restoration finds it: a BREAKING test circuit with no leg left, linked to its up watcher. -/
structure State.TestEnding (s : State) (x : Rec) (n w d : Nat) : Prop where
  cls : x.cls = .test
  st : x.st = .breaking
  legs : x.legs = []
  watcher : x.watcher = some w
  down : x.down = some d
  link : (s.wat.watcher w).run.link = some (s.handle n)

/-- A claim that raises what is given and then ACCESS_ENDED, the link removed and the orders given. -/
def Eff.accessOver (e : Eff) (s : State) (raise : Raise) (n w d : Nat) : Eff :=
  e.withMessages (raise ++ [(81 + n, .accessEnded)]) (s.wat.accessUnlinked w d (s.handle n) s.mgr.resets)

/-- A BREAKING circuit with a leg left, or one in another state, is not taken to FREE (05 R100). -/
theorem tryFree_of_left {e : Eff} {n : Nat} (h : (e.recOf n).st ≠ .breaking ∨ ∃ m ∈ e.members n, (e.recOf m).legs ≠ []) : e.tryFree n = e := by
  refine if_neg fun ⟨hst, hall⟩ => ?_
  rcases h with h | ⟨m, hm, hl⟩
  · exact h hst
  · exact hl (List.isEmpty_iff.1 (List.all_eq_true.1 hall m hm))

/-- A BREAKING circuit with no leg left is taken to FREE (05 R100). -/
theorem tryFree_of_none {e : Eff} {n : Nat} (hst : (e.recOf n).st = .breaking) (h : ∀ m ∈ e.members n, (e.recOf m).legs = []) :
    e.tryFree n = (e.members n).foldl Eff.enterFree e :=
  if_pos ⟨hst, List.all_eq_true.2 fun m hm => List.isEmpty_iff.2 (h m hm)⟩

namespace Eff.Reads

variable {s : State} {e : Eff} {recs : Nat → Rec} {offer : List Entry} {raise : Raise} {port : Port} (h : e.Reads s recs offer raise port) {n w d : Nat}
include h

/-- The handle of a record that has entered FREE is stale (01 R10). -/
theorem current_enterFree_self : (e.enterFree n).current (s.handle n) = false := by
  refine decide_eq_false fun ⟨_, hgen⟩ => gen_step_ne (s.recordOf n).gen ?_
  rw [show (s.handle n).num = n from rfl, recOf_enterFree, if_pos rfl, h.recs, h.gens] at hgen
  exact hgen

theorem current_enterFree_other {m : Nat} (hm : m < 512) (hne : m ≠ n) : (e.enterFree n).current (s.handle m) = true := by
  refine decide_eq_true ⟨hm, ?_⟩
  rw [show (s.handle m).num = m from rfl, recOf_enterFree, if_neg hne, h.recs, h.gens]
  rfl

theorem accessOver (raise' : Raise) : (e.accessOver s raise' n w d).Reads
    { s with wat := s.wat.accessUnlinked w d (s.handle n) s.mgr.resets } recs offer (raise' ++ [(81 + n, .accessEnded)]) port := h.withMessages _ _

theorem completeTest_ends (hx : s.TestEnding (recs n) n w d) :
    e.completeTest n = (e.accessOver s (raise ++ s.restoredRaises recs (recs n).restoring) n w d).enterFree n := by
  have hcond : (e.recOf n).cls = .test ∧ (e.recOf n).st = .breaking ∧ (e.recOf n).legs = [] := by
    rw [h.recs]
    exact ⟨hx.cls, hx.st, hx.legs⟩
  exact (if_pos hcond).trans (h.freeTest hx.watcher hx.down hx.link)

/-- A report that names the test circuit alone (08 R164). -/
theorem completed_test (hn : n < 512) (hx : s.TestEnding (recs n) n w d) :
    e.completed [s.handle n] = (e.accessOver s (raise ++ s.restoredRaises recs (recs n).restoring) n w d).enterFree n := by
  have hst := hx.st
  have hstale : ((e.accessOver s (raise ++ s.restoredRaises recs (recs n).restoring) n w d).enterFree n).current (s.handle n) = false :=
    (h.accessOver _).current_enterFree_self
  unfold Eff.completed
  rw [h.phase_single hn, h.completeMake_stands (.inl (by simp [hst])), h.phase_single hn, h.completeDrive_stands (.inr (by simp [hst])),
    h.phase_single hn, h.completeVerify_stands (.inl (by simp [hst])), h.phase_single hn, h.completeTest_ends hx]
  exact phase_cons_stale hstale

/-- A report that names the test circuit and its displaced owner: the owner's drive change, the end of the access, and the owner's return to FREE
if it is BREAKING with no leg left. -/
theorem completed_restoration {o : Nat} {recs' : Nat → Rec} (hn : n < 512) (ho : o < 512) (hne : o ≠ n) (hst : (recs n).st = .breaking)
    (hmaking : (recs o).st ≠ .making) (h' : (e.completeDrive o).Reads s recs' offer raise port) (hx : s.TestEnding (recs' n) n w d)
    (hverifying : (recs' o).st ≠ .verifying) (hcls : (recs' o).cls ≠ .test) : e.completed [s.handle n, s.handle o] =
      (((e.completeDrive o).accessOver s (raise ++ s.restoredRaises recs' (recs' n).restoring) n w d).enterFree n).tryFree o := by
  have hdrive : e.completeDrive n = e := h.completeDrive_stands (.inr (by simp [hst]))
  have hx' := hx.st
  have hover := h'.accessOver (n := n) (w := w) (d := d) (raise ++ s.restoredRaises recs' (recs' n).restoring)
  have hends := h'.completeTest_ends hx
  unfold Eff.completed
  rw [h.phase_pair_stands hn ho (h.completeMake_stands (.inl (by simp [hst]))) (h.completeMake_stands (.inl hmaking)),
    h.phase_pair hn ho (by rw [hdrive]; exact h), hdrive,
    h'.phase_pair_stands hn ho (h'.completeVerify_stands (.inl (by simp [hx']))) (h'.completeVerify_stands (.inl hverifying))]
  generalize (e.completeDrive o).accessOver s (raise ++ s.restoredRaises recs' (recs' n).restoring) n w d = e' at hover hends
  have hself : (e'.enterFree n).current (s.handle n) = false := hover.current_enterFree_self
  have hother : (e'.enterFree n).current (s.handle o) = true := hover.current_enterFree_other ho hne
  have htest : (e'.enterFree n).completeTest o = e'.enterFree n := if_neg fun ⟨hc, _⟩ => hcls (by
    rw [recOf_enterFree, if_neg hne, hover.recs] at hc
    exact hc)
  have hcurrent : (e.completeDrive o).current (s.handle n) = true := (h'.current _).trans (current_handle hn)
  rw [phase_cons_current hcurrent, show (e.completeDrive o).completeTest (s.handle n).num = _ from hends, phase_cons_current hother,
    show (e'.enterFree n).completeTest (s.handle o).num = _ from htest, phase_nil, phase_cons_stale hself, phase_cons_current hother, phase_nil]
  rfl

end Eff.Reads

end Sys2Proof.Machine

/-! SUPPORT. An end of access (08 R162, R166, R167), by the down watcher's claim or by ACCESS_END, and the boundary report of its restoration (08 R164,
R165): the test circuit FREE, and the displaced owner with its leg again, with its leg gone, or FREE too. -/

namespace Sys2Proof.Machine

set_option Elab.async false

/-! ### The claim and the request -/

/-- A test record whose access may be ended (08 R162). -/
theorem mayEndAccess_iff (r : Rec) : r.mayEndAccess = true ↔ r.cls = .test ∧ (r.st = .making ∨ r.st = .active) := decide_eq_true_iff

section Claim
variable {s : State} {w n : Nat}

theorem effEndOfAccess_ends (hn : n < 512) (hfits : (s.recordOf n).mayEndAccess = true) :
    effEndOfAccess w (some (s.handle n)) (Eff.start s) = (Eff.start s).endAccess n none :=
  if_pos (Bool.and_eq_true_iff.2 ⟨((Eff.Reads.start s).current _).trans (current_handle hn), hfits⟩)

/-- An end-of-access claim is refused without a current handle of a test circuit in MAKING or ACTIVE (08 R166). -/
theorem effEndOfAccess_refuses {c : Option Handle} (h : ∀ hd, c = some hd → s.isCurrent hd = false ∨ ¬(s.recordOf hd.num).mayEndAccess = true) :
    effEndOfAccess w c (Eff.start s) = (Eff.start s).raiseWatcher w .refused := by
  cases c with
  | none => rfl
  | some hd =>
    refine if_neg fun hok => ?_
    obtain ⟨hcurrent, hmay⟩ := Bool.and_eq_true_iff.1 hok
    rw [(Eff.Reads.start s).current] at hcurrent
    rcases h hd rfl with hno | hno
    · exact Bool.false_ne_true (hno.symm.trans hcurrent)
    · exact hno hmay

end Claim

section Request
variable {s : State} {r : Request} {p : Port} {n : Nat}

theorem effAccessEnd_eq {d : Defaults} {e : Eff} (hk : byteAt r.msg 0 = 0x0D) (ht : s.TakesWhole 0x0D 4 r p) (hn : s.Names r n true)
    (he : e.mgr = s.mgr) : effRequest d r e = e.accessEnd r n :=
  (effRequest_accessEnd d r e hk).trans ((checked_some ht.whole rfl).trans (onHandle_names hn he))

end Request

/-! ### The report (08 R164) -/

theorem changeOn_keeps {α : Type} (g : Rec → α) {f : Rec → Rec} (hf : ∀ r, g (f r) = g r) (ms : List Nat) (recs : Nat → Rec) (m : Nat) :
    g (changeOn ms f recs m) = g (recs m) := by
  unfold changeOn
  split
  · exact hf _
  · rfl

section Report
variable {s : State} {n o w d : Nat} {k : Slot}

/-- A report of the test circuit's break, the other outcomes in it being stale. -/
theorem effReport_broken (hn : n < 512) {more : List LegOutcome} (hmore : ∀ x ∈ more, s.isCurrent x.h = false) :
    ∃ e : Eff, e.Reads s (s.legsMoved n [(k, .broken)]) [] [] s.port ∧
      effReport [(k, ⟨s.handle n, .broken⟩ :: more)] (Eff.start s) = e.completed [s.handle n] := by
  have h := Eff.Reads.start s
  have hmoved : ((Eff.start s).takeOutcome k ⟨s.handle n, .broken⟩).Reads s (s.legsMoved n [(k, .broken)]) [] [] s.port := h.takeOutcomes hn [(k, .broken)]
  have hstale : more.foldl (fun e x => e.takeOutcome k x) ((Eff.start s).takeOutcome k ⟨s.handle n, .broken⟩) =
      (Eff.start s).takeOutcome k ⟨s.handle n, .broken⟩ :=
    foldl_fixed fun x hx => if_neg (by rw [hmoved.current, hmore x hx]; exact Bool.false_ne_true)
  have hnamed : (Eff.start s).namedIn [(k, ⟨s.handle n, .broken⟩ :: more)] = [s.handle n] := by
    have hothers : (more.map (·.h)).filter (Eff.start s).current = [] := List.filter_eq_nil_iff.2 fun hd hhd => by
      obtain ⟨x, hx, rfl⟩ := List.mem_map.1 hhd
      rw [h.current, hmore x hx]
      exact Bool.false_ne_true
    rw [Eff.namedIn, List.flatMap_singleton, List.map_cons, List.filter_cons_of_pos ((h.current _).trans (current_handle hn)), hothers]
    rfl
  refine ⟨_, hmoved, ?_⟩
  unfold effReport
  rw [hnamed, List.foldl_cons, List.foldl_nil, List.foldl_cons, hstale]
  rfl

/-- The records once the outcomes of a restoration have moved the legs of the test circuit and of its owner. -/
def State.restorationMoved (s : State) (n o : Nat) (k : Slot) (kind : OutcomeKind) : Nat → Rec :=
  changeOn [o] (fun r => { r with legs := r.legsAfter [(k, kind)] }) (s.legsMoved n [(k, .broken)])

/-- A report of the test circuit's break with an outcome for its displaced owner. -/
theorem effReport_restoration (hn : n < 512) (ho : o < 512) (hne : o ≠ n) (kind : OutcomeKind) :
    ∃ e : Eff, e.Reads s (s.restorationMoved n o k kind) [] [] s.port ∧
      effReport [(k, [⟨s.handle n, .broken⟩, ⟨s.handle o, kind⟩])] (Eff.start s) = e.completed [s.handle n, s.handle o] := by
  have h := Eff.Reads.start s
  have hmoved := (h.takeOutcomes hn [(k, .broken)]).takeOutcomes ho [(k, kind)]
  have hnamed : (Eff.start s).namedIn [(k, [⟨s.handle n, .broken⟩, ⟨s.handle o, kind⟩])] = [s.handle n, s.handle o] := by
    have hcur {m : Nat} (hm : m < 512) : (Eff.start s).current (s.handle m) = true := (h.current _).trans (current_handle hm)
    have hnd : [s.handle n, s.handle o].Nodup := by simp [State.handle, hne.symm]
    rw [Eff.namedIn, List.flatMap_singleton, show ([⟨s.handle n, .broken⟩, ⟨s.handle o, kind⟩] : List LegOutcome).map (·.h) = [s.handle n, s.handle o] from rfl,
      List.filter_eq_self.2 (by simp [hcur hn, hcur ho]), firstOf_of_nodup hnd]
  refine ⟨_, hmoved, ?_⟩
  unfold effReport
  rw [hnamed]
  rfl

/-- What the statement says of the watcher unit, the fan-out lists, the raises and the answers at the end of an access. -/
def State.endsTest (s t : State) (rest : List Report) (n w d : Nat) (freed : List Nat) (raises : Raise) : Prop :=
  t.wat = { s.wat with
    table := t.wat.table, orders := s.wat.orders ++ [.disarm d (s.handle n), .giveBack w (s.handle n) s.mgr.resets] } ∧
  (s.watchersBecome t [w] fun _ y => { y with run := { y.run with link := none } }) ∧
  ({ s with wat := t.wat, sw := { s.sw with reports := rest } } : State).circuitClaim t [] (raises ++ [(81 + n, .accessEnded)])
    (s.answersReleases freed) ∧
  s.fanLeaves t freed

/-- The report at the command at which the manager takes it: the records named enter FREE, the test circuit first. -/
theorem exec_endsTest {rest : List Report} {x : Report} (hr : s.Ready) (hx : s.sw.reports = x :: rest) {e : Eff} {recs : Nat → Rec}
    (h : e.Reads (s.afterReport rest) recs [] [] s.port) {freed : List Nat} {raises : Raise} (hfreed : freed.Nodup)
    (heff : effReport x (Eff.start (s.afterReport rest)) = freed.foldl Eff.enterFree (e.accessOver (s.afterReport rest) raises n w d))
    (hkeep : ∀ m, (recs m).source = (s.recordOf m).source ∧ (recs m).relAns = (s.recordOf m).relAns) :
    ∃ t, exec .boundaryReport s = .next t ∧ s.endsTest t rest n w d freed raises ∧
      ∀ m, t.recordOf m = if m ∈ freed then Rec.free ((s.recordOf m).gen + 1) else recs m := by
  obtain ⟨t, ht, hc, hrecs, hfan, hwat⟩ := exec_of_wat_freed (u := s.wat.accessUnlinked w d (s.handle n) s.mgr.resets) (fan := s.mgr.fan)
    (.report x rest hr hx) hfreed heff (h.accessOver (n := n) (w := w) (d := d) raises) (fun m _ => (hkeep m).1) (fits_nil _)
  have hport : freed.foldl (fun p m => p.answerRelease (recs m).relAns) s.port = s.answersReleases freed := by
    rw [answersReleases_eq]
    exact List.foldl_ext _ _ _ fun p m _ => by rw [(hkeep m).2]
  rw [← hwat, hport] at hc
  refine ⟨t, ht, ⟨?_, fun m => ?_, hc, hfan⟩, hrecs⟩
  · rw [hwat, WatcherUnit.accessUnlinked, List.append_assoc]
    rfl
  · rw [hwat, watcher_accessUnlinked]
    simp only [List.mem_singleton]

/-- The test circuit once the report has removed its leg. -/
theorem testEnding_legsMoved {l : Leg} (hst : (s.recordOf n).st = .breaking) (hcls : (s.recordOf n).cls = .test) (hlegs : (s.recordOf n).legs = [l])
    (hk : l.slot = k) (hl : l.st = .breaking) (hw : (s.recordOf n).watcher = some w) (hd : (s.recordOf n).down = some d)
    (hlink : (s.wat.watcher w).run.link = some (s.handle n)) : s.TestEnding (s.legsMoved n [(k, .broken)] n) n w d := by
  rw [legsMoved_self]
  refine ⟨hcls, hst, ?_, hw, hd, hlink⟩
  rw [Rec.legsAfter, hlegs]
  simp [hk, hl]

/-- The taking of the report does not touch what the end of the access reads. -/
theorem State.TestEnding.afterReport {x : Rec} (h : s.TestEnding x n w d) (rest : List Report) : (s.afterReport rest).TestEnding x n w d :=
  ⟨h.cls, h.st, h.legs, h.watcher, h.down, h.link⟩

/-- The moves of legs leave what a record's return to FREE reads. -/
theorem legsMoved_keeps (outs : List (Slot × OutcomeKind)) (m : Nat) : (s.legsMoved n outs m).source = (s.recordOf m).source ∧
    (s.legsMoved n outs m).relAns = (s.recordOf m).relAns :=
  ⟨changeOn_keeps (f := fun r => { r with legs := r.legsAfter outs }) (·.source) (fun _ => rfl) [n] s.recordOf m,
    changeOn_keeps (f := fun r => { r with legs := r.legsAfter outs }) (·.relAns) (fun _ => rfl) [n] s.recordOf m⟩

/-- The report of the break without a displaced owner to restore, or with one whose handle is stale. -/
theorem report_ends_alone {rest : List Report} {more : List LegOutcome} (hr : s.Ready) (hn : n < 512)
    (hx : s.sw.reports = [(k, ⟨s.handle n, .broken⟩ :: more)] :: rest) (hend : s.TestEnding (s.legsMoved n [(k, .broken)] n) n w d)
    (hmore : ∀ x ∈ more, s.isCurrent x.h = false) (howner : ∀ h j, (s.recordOf n).restoring = some (h, j) → s.isCurrent h = false) :
    ∃ t, exec .boundaryReport s = .next t ∧ s.endsTest t rest n w d [n] [] ∧ s.recordBecomes t n (Rec.free ((s.recordOf n).gen + 1)) := by
  obtain ⟨e, h, he⟩ := effReport_broken (s := s.afterReport rest) (k := k) hn hmore
  have hnone : (s.afterReport rest).restoredRaises (s.legsMoved n [(k, .broken)]) (s.legsMoved n [(k, .broken)] n).restoring = [] := by
    rw [legsMoved_self]
    unfold State.restoredRaises
    split
    · rfl
    · next hd j hj => exact if_neg fun hc => Bool.false_ne_true ((howner hd j hj).symm.trans hc.1)
  have hc := h.completed_test hn (hend.afterReport rest)
  rw [show (s.afterReport rest).legsMoved n [(k, .broken)] = s.legsMoved n [(k, .broken)] from rfl, hnone] at hc
  obtain ⟨t, ht, hends, hrecs⟩ := exec_endsTest (freed := [n]) hr hx h (List.nodup_singleton n) (he.trans hc) (legsMoved_keeps _)
  refine ⟨t, ht, hends, fun m => (hrecs m).trans ?_⟩
  by_cases hm : m = n
  · rw [if_pos (List.mem_singleton.2 hm), if_pos hm, hm]
  · rw [if_neg (mt List.mem_singleton.1 hm), if_neg hm]
    exact legsMoved_other s _ hm

/-- The records at the end of a restoration: the test circuit without its leg, and its owner with its legs moved and in the state given. -/
def State.restoredRecs (s : State) (n o : Nat) (k : Slot) (kind : OutcomeKind) (st : CircState) : Nat → Rec :=
  changeOn [o] (fun r => { r with legs := r.legsAfter [(k, kind)], st := st }) (s.legsMoved n [(k, .broken)])

section Owner
variable {kind : OutcomeKind} {st : CircState}

theorem restoredRecs_other {m : Nat} (hmn : m ≠ n) (hmo : m ≠ o) : s.restoredRecs n o k kind st m = s.recordOf m :=
  ((changeOn_single o _ _ m).trans (if_neg hmo)).trans (legsMoved_other s _ hmn)

theorem restoredRecs_keeps (m : Nat) : (s.restoredRecs n o k kind st m).source = (s.recordOf m).source ∧
    (s.restoredRecs n o k kind st m).relAns = (s.recordOf m).relAns :=
  ⟨(changeOn_keeps (f := fun r => { r with legs := r.legsAfter [(k, kind)], st := st }) (·.source) (fun _ => rfl) [o] _ m).trans (legsMoved_keeps _ m).1,
    (changeOn_keeps (f := fun r => { r with legs := r.legsAfter [(k, kind)], st := st }) (·.relAns) (fun _ => rfl) [o] _ m).trans (legsMoved_keeps _ m).2⟩

/-- The owner of a restoration at its report, and the state that the report leaves it in: that of its drive target in service (03 R68), else its own,
RELEASING or BREAKING. -/
def Rec.restoresTo (r : Rec) (st : CircState) : Prop :=
  (∃ tg, r.serving ∧ r.target = some tg ∧ st = tg.state) ∨ ((r.st = .releasing ∨ r.st = .breaking) ∧ st = r.st)

theorem restoresTo_not_making {r : Rec} (h : r.restoresTo st) : r.st ≠ .making := by
  rcases h with ⟨_, hs | hs, _⟩ | ⟨hs | hs, _⟩ <;> rw [hs] <;> decide

theorem restoresTo_not_verifying {r : Rec} (h : r.restoresTo st) : st ≠ .verifying := by
  rcases h with ⟨tg, _, _, rfl⟩ | ⟨hs | hs, rfl⟩
  · cases tg <;> decide
  · rw [hs]; decide
  · rw [hs]; decide

variable (hne : o ≠ n)
include hne

theorem restoredRecs_test : s.restoredRecs n o k kind st n = s.legsMoved n [(k, .broken)] n := (changeOn_single o _ _ n).trans (if_neg hne.symm)

theorem restoredRecs_owner : s.restoredRecs n o k kind st o =
    { s.recordOf o with legs := (s.recordOf o).legsAfter [(k, kind)], st := st } := by
  rw [State.restoredRecs, changeOn_self, legsMoved_other s _ hne]

theorem restorationMoved_owner : s.restorationMoved n o k kind o = { s.recordOf o with legs := (s.recordOf o).legsAfter [(k, kind)] } := by
  rw [State.restorationMoved, changeOn_self, legsMoved_other s _ hne]

/-- What the report makes of the owner's drive change (03 R68). -/
theorem completeDrive_owner {e : Eff} (h : e.Reads s (s.restorationMoved n o k kind) [] [] s.port) (hst : (s.recordOf o).restoresTo st) :
    (e.completeDrive o).Reads s (s.restoredRecs n o k kind st) [] [] s.port := by
  have howner := restorationMoved_owner (s := s) (k := k) (kind := kind) hne
  rcases hst with ⟨tg, hserving, htarget, rfl⟩ | ⟨hst, rfl⟩
  · exact (h.completeDrive (n := o) (by rw [howner]; exact htarget) (by rw [howner]; exact hserving)).of_recs (changeOn_changeOn [o] _ _ _)
  · rw [h.completeDrive_stands (.inr (by rw [howner]; rcases hst with hst | hst <;> simp [hst]))]
    refine h.of_recs fun m => ?_
    by_cases hm : m = o
    · rw [hm, howner, restoredRecs_owner hne]
    · exact ((changeOn_single o _ _ m).trans (if_neg hm)).trans ((changeOn_single o _ _ m).trans (if_neg hm)).symm

/-- RESTORED, at the report that makes the owner's leg (08 R164). -/
def State.ownerRestored (s : State) (o : Nat) (k : Slot) (kind : OutcomeKind) : Raise :=
  if ∃ x ∈ (s.recordOf o).legsAfter [(k, kind)], x.slot = k ∧ x.st = .live then [(81 + o, .restored)] else []

variable (hn : n < 512) (ho : o < 512) (hend : s.TestEnding (s.legsMoved n [(k, .broken)] n) n w d)
  (howner : (s.recordOf n).restoring = some (s.handle o, k)) (hcls : (s.recordOf o).cls ≠ .test) (hst : (s.recordOf o).restoresTo st)
include hn ho hend howner hcls hst

/-- The report of a restoration: the owner's leg and drive, the test circuit FREE, and the owner's own return to FREE if it comes to that. -/
theorem effReport_restores : ∃ e : Eff, e.Reads s (s.restoredRecs n o k kind st) [] [] s.port ∧
    effReport [(k, [⟨s.handle n, .broken⟩, ⟨s.handle o, kind⟩])] (Eff.start s) =
      ((e.accessOver s (s.ownerRestored o k kind) n w d).enterFree n).tryFree o := by
  obtain ⟨e, h, he⟩ := effReport_restoration (s := s) (k := k) hn ho hne kind
  have hdrive := completeDrive_owner hne h hst
  have htest := restoredRecs_test (s := s) (k := k) (kind := kind) (st := st) hne
  have hrec := restoredRecs_owner (s := s) (k := k) (kind := kind) (st := st) hne
  have hmoved : s.restorationMoved n o k kind n = s.legsMoved n [(k, .broken)] n := (changeOn_single o _ _ n).trans (if_neg hne.symm)
  have hraise : s.restoredRaises (s.restoredRecs n o k kind st) (s.restoredRecs n o k kind st n).restoring = s.ownerRestored o k kind := by
    rw [htest, legsMoved_self]
    simp only [howner, State.restoredRaises, current_handle ho, true_and]
    rw [show (s.handle o).num = o from rfl, hrec]
    rfl
  have hc := h.completed_restoration hn ho hne (by rw [hmoved]; exact hend.st)
    (by rw [restorationMoved_owner hne]; exact restoresTo_not_making hst) hdrive (by rw [htest]; exact hend)
    (by rw [hrec]; exact restoresTo_not_verifying hst) (by rw [hrec]; exact hcls)
  rw [hraise] at hc
  exact ⟨_, hdrive, he.trans hc⟩

variable {rest : List Report} (hr : s.Ready) (hx : s.sw.reports = [(k, [⟨s.handle n, .broken⟩, ⟨s.handle o, kind⟩])] :: rest)
  (hp : ∀ q, (s.recordOf o).partner = some q → q ≠ n ∧ q ≠ o)
include hr hx hp

/-- The report of a restoration whose owner stays. -/
theorem report_restores (hleft : st ≠ .breaking ∨ (s.recordOf o).legsAfter [(k, kind)] ≠ [] ∨
      ∃ q, (s.recordOf o).partner = some q ∧ (s.recordOf q).legs ≠ []) :
    ∃ t, exec .boundaryReport s = .next t ∧ s.endsTest t rest n w d [n] (s.ownerRestored o k kind) ∧
      s.recordsBecome t [n, o] fun m z => if m = n then Rec.free (z.gen + 1) else
        { s.recordOf o with legs := (s.recordOf o).legsAfter [(k, kind)], st := st } := by
  obtain ⟨e, h, he⟩ := effReport_restores (s := s.afterReport rest) (kind := kind) hne hn ho (hend.afterReport rest) howner hcls hst
  have hrec (m : Nat) (hm : m ≠ n) : ((e.accessOver (s.afterReport rest) (s.ownerRestored o k kind) n w d).enterFree n).recOf m =
      s.restoredRecs n o k kind st m := (recOf_enterFree _ n m).trans ((if_neg hm).trans (h.recs m))
  have howns := (hrec o hne).trans (restoredRecs_owner hne)
  have hstays : ((e.accessOver (s.afterReport rest) (s.ownerRestored o k kind) n w d).enterFree n).tryFree o =
      (e.accessOver (s.afterReport rest) (s.ownerRestored o k kind) n w d).enterFree n := by
    refine tryFree_of_left ?_
    rw [Eff.members, howns]
    rcases hleft with hleft | hleft | ⟨q, hq, hleft⟩
    · exact .inl hleft
    · exact .inr ⟨o, List.mem_cons_self, by rw [howns]; exact hleft⟩
    · obtain ⟨hqn, hqo⟩ := hp q hq
      exact .inr ⟨q, by simp [hq], by rw [hrec q hqn, restoredRecs_other hqn hqo]; exact hleft⟩
  obtain ⟨t, ht, hends, hrecs⟩ := exec_endsTest (freed := [n]) hr hx h (List.nodup_singleton n) (he.trans hstays) restoredRecs_keeps
  refine ⟨t, ht, hends, fun m => (hrecs m).trans ?_⟩
  by_cases hmn : m = n
  · rw [if_pos (List.mem_singleton.2 hmn), if_pos (by simp [hmn])]
    exact (if_pos hmn).symm
  · rw [if_neg (mt List.mem_singleton.1 hmn)]
    by_cases hmo : m = o
    · rw [if_pos (by simp [hmo]), hmo]
      exact (restoredRecs_owner hne).trans (if_neg hne).symm
    · rw [if_neg (by simp [hmn, hmo])]
      exact restoredRecs_other hmn hmo

/-- The report of a restoration whose owner is BREAKING with no leg left, nor has its partner one: both are FREE (05 R100). -/
theorem report_frees_owner (hbreaking : st = .breaking) (hlegs : (s.recordOf o).legsAfter [(k, kind)] = [])
    (hq : ∀ q, (s.recordOf o).partner = some q → (s.recordOf q).legs = []) :
    ∃ t, exec .boundaryReport s = .next t ∧ s.endsTest t rest n w d (n :: o :: (s.recordOf o).partner.toList) [] ∧
      s.recordsBecome t (n :: o :: (s.recordOf o).partner.toList) fun _ z => Rec.free (z.gen + 1) := by
  obtain ⟨e, h, he⟩ := effReport_restores (s := s.afterReport rest) (kind := kind) hne hn ho (hend.afterReport rest) howner hcls hst
  have hnone : (s.afterReport rest).ownerRestored o k kind = [] := if_neg fun ⟨x, hx, _⟩ => by
    rw [show ((s.afterReport rest).recordOf o).legsAfter [(k, kind)] = [] from hlegs] at hx
    cases hx
  rw [hnone] at he
  have hrec (m : Nat) (hm : m ≠ n) : ((e.accessOver (s.afterReport rest) [] n w d).enterFree n).recOf m = s.restoredRecs n o k kind st m :=
    (recOf_enterFree _ n m).trans ((if_neg hm).trans (h.recs m))
  have howns := (hrec o hne).trans (restoredRecs_owner hne)
  have hmembers : ((e.accessOver (s.afterReport rest) [] n w d).enterFree n).members o = o :: (s.recordOf o).partner.toList := by
    rw [Eff.members, howns]
  have hfrees : ((e.accessOver (s.afterReport rest) [] n w d).enterFree n).tryFree o =
      (n :: o :: (s.recordOf o).partner.toList).foldl Eff.enterFree (e.accessOver (s.afterReport rest) [] n w d) := by
    rw [List.foldl_cons, ← hmembers]
    refine tryFree_of_none (by rw [howns]; exact hbreaking) fun m hm => ?_
    rw [hmembers] at hm
    rcases List.mem_cons.1 hm with rfl | hm
    · rw [howns]
      exact hlegs
    · obtain ⟨hmn, hmo⟩ := hp m (Option.mem_toList.1 hm)
      rw [hrec m hmn, restoredRecs_other hmn hmo]
      exact hq m (Option.mem_toList.1 hm)
  have hnodup : (n :: o :: (s.recordOf o).partner.toList).Nodup := by
    cases hpo : (s.recordOf o).partner with
    | none => simp [hne.symm]
    | some q =>
      obtain ⟨hqn, hqo⟩ := hp q hpo
      simp [hne.symm, hqn.symm, hqo.symm]
  obtain ⟨t, ht, hends, hrecs⟩ := exec_endsTest hr hx h hnodup (he.trans hfrees) restoredRecs_keeps
  refine ⟨t, ht, hends, fun m => (hrecs m).trans ?_⟩
  by_cases hm : m ∈ n :: o :: (s.recordOf o).partner.toList
  · rw [if_pos hm, if_pos hm]
  · rw [if_neg hm, if_neg hm]
    exact restoredRecs_other (fun hmn => hm (by simp [hmn])) fun hmo => hm (by simp [hmo])

end Owner

end Report

/-! ### The statement -/

/-- Settles O54: a claim and a request that end an access, or are refused, and the report of the restoration by what has become of the owner. -/
theorem endOfAccessGivesTheSlotBack : Obligations.EndOfAccessGivesTheSlotBack := by
  refine ⟨fun s w n rest hr hn hx hd => ?_, fun s w c rest hr hx hstale => ?_, fun s r p n ht hn hd => ?_,
    fun s rest n w d k l hr hn hst hcls hp hlegs hk hl hw hdown hlink => ?_⟩
  · intro s' fits
    have hh := State.Hands.action (.endOfAccess w (some (s.handle n))) rest hr hx
    refine ⟨fun hfits hroom => ?_, fun hfits => ?_⟩
    · exact exec_endsAccess hh (effEndOfAccess_ends (s := s') hn ((mayEndAccess_iff _).2 hfits)) (Eff.Reads.start s') hd (by exact hroom)
    · have hno : ∀ hd, some (s.handle n) = some hd → s'.isCurrent hd = false ∨ ¬(s'.recordOf hd.num).mayEndAccess = true := fun _ hsome => by
        cases hsome
        exact .inr (mt (mayEndAccess_iff _).1 hfits)
      exact exec_raisesWatcher hh (effEndOfAccess_refuses hno)
  · exact exec_raisesWatcher (.action (.endOfAccess w c) rest hr hx) (effEndOfAccess_refuses (s := s.afterClaim rest) fun h hc => .inl (hstale h hc))
  · intro fits
    have hk := kind_of_takeRequest ht.takes.head
    refine ⟨fun hfits hroom => ?_, fun hfits => ?_⟩
    · have heff : effect p.defaults (.request r) (Eff.start { s with port := p }) = (Eff.start { s with port := p }).endAccess n (some ⟨r.slot, r.sub,
          r.handle, (s.recordOf n).legs.head?.map (·.slot), (s.recordOf n).displ.map fun d => s.handle d.1⟩) :=
        (effAccessEnd_eq hk ht hn rfl).trans (if_pos ((mayEndAccess_iff _).2 hfits))
      exact exec_endsAccess (.request .accessEnd 0x0D 4 r p (by simp [requestKinds]) ht.takes) heff (Eff.Reads.start { s with port := p }) hd hroom
    · refine exec_refused (len := 4) (test := true) (by simp [handleRequests]) ht fun _ e he d => ?_
      refine (effAccessEnd_eq hk ht hn he).trans (if_neg ?_)
      rw [Eff.recOf, he]
      exact mt (mayEndAccess_iff _).1 hfits
  · intro ends
    have hend := testEnding_legsMoved hst hcls hlegs hk hl hw hdown hlink
    refine ⟨fun more hx hmore howner => report_ends_alone hr hn hx hend hmore howner, fun o kind hx howner hne ho hocls hpartner => ?_⟩
    intro y legs restored becomes
    refine ⟨fun tg hserving htarget => ?_, fun hstays => ?_, fun hbreaking hnone hq => ?_⟩
    · have hto : y.restoresTo tg.state := .inl ⟨tg, hserving, htarget, rfl⟩
      have hstate : tg.state = if tg = .hold then .held else .active := by cases tg <;> rfl
      rw [← hstate]
      exact report_restores hne hn ho hend howner hocls hto hr hx hpartner (.inl (by cases tg <;> decide))
    · have hto : y.restoresTo y.st := .inr ⟨hstays.imp_right And.left, rfl⟩
      refine report_restores hne hn ho hend howner hocls hto hr hx hpartner ?_
      rcases hstays with hstays | ⟨_, hleft⟩
      · exact .inl (by rw [hstays]; decide)
      · exact .inr hleft
    · exact report_frees_owner hne hn ho hend howner hocls (.inr ⟨.inr hbreaking, rfl⟩) hr hx hpartner hbreaking hnone hq

end Sys2Proof.Machine

/-! SUPPORT. COLLECT (09 R175, R176): the entities that it finds are those that it clears, and its seven places. -/

namespace Sys2Proof.Machine

set_option Elab.async false

/-! ### What COLLECT clears, and what it answers -/

/-- The flags of the entities found are clear, those of the others as before (09 R176). -/
theorem flagsOf_collected (a : Attention) (found : List Nat) (e : Nat) :
    (a.collected found).flagsOf e = if e ∈ found then 0 else a.flagsOf e := by
  have hread (t : Tbl (BitVec 16)) : Tbl.get 0 (found.foldl (fun t e => Tbl.set 0 t e 0) t) e = if e ∈ found then 0 else Tbl.get 0 t e := by
    induction found generalizing t with
    | nil => rfl
    | cons x found ih =>
      rw [List.foldl_cons, ih]
      by_cases hx : e = x
      · simp [hx]
      · simp [hx, Tbl.get_set_other]
  exact hread a.flags

theorem length_entries (a : Attention) (found : List Nat) : (found.flatMap a.entryBytes).length = 4 * found.length := by
  induction found with
  | nil => rfl
  | cons e found ih =>
    rw [List.flatMap_cons, List.length_append, ih, List.length_cons, show (a.entryBytes e).length = 4 from rfl]
    omega

/-- At most seven entries stand first in their seven places, and the places without one are marked empty (10.8). -/
theorem collectBytes_eq (a : Attention) {found : List Nat} (h : found.length ≤ 7) :
    a.collectBytes found = found.flatMap a.entryBytes ++ (List.replicate (7 - found.length) [0xFF, 0xFF, 0, 0]).flatten := by
  have hplaces : List.replicate 7 ([0xFF, 0xFF, 0, 0] : List Byte) =
      List.replicate (7 - found.length) [0xFF, 0xFF, 0, 0] ++ List.replicate found.length [0xFF, 0xFF, 0, 0] := by
    rw [List.replicate_append_replicate, Nat.sub_add_cancel h]
  rw [Attention.collectBytes, hplaces, List.flatten_append, ← List.append_assoc]
  refine List.take_left' ?_
  simp only [List.length_append, length_entries, List.length_flatten, List.map_replicate, List.sum_replicate_nat, List.length_cons, List.length_nil]
  omega

/-! ### The request -/

section Collect
variable {s : State} {r : Request} {p : Port}

theorem exec_collect (ht : s.Takes .attention 0x28 r p) (hlen : byteAt r.msg 1 = 1) :
    exec .collect s = .next (({ s with port := p } : State).collect r) := congrArg Host.Outcome.next (ownerTakes_whole State.collect ht hlen)

/-- A limit from 1 to 7: the entities found are answered and cleared. -/
theorem collect_returns (h1 : 1 ≤ (byteAt r.msg 4).toNat) (h7 : (byteAt r.msg 4).toNat ≤ 7) :
    s.collect r = { s with
      att := s.att.collected (s.att.found (byteAt r.msg 4).toNat)
      port := s.port.answerRequest r .ok (s.att.collectBytes (s.att.found (byteAt r.msg 4).toNat)) } :=
  if_neg (by omega)

/-- Any other limit is refused (09 R175). -/
theorem collect_refuses (h : (byteAt r.msg 4).toNat = 0 ∨ 7 < (byteAt r.msg 4).toNat) :
    s.collect r = { s with port := s.port.answerRequest r .badField [] } := if_pos h

end Collect

/-- Settles O14: a limit in range collects what the scan finds, any other is refused. -/
theorem collectReturnsAndClearsPendingEntities : Obligations.CollectReturnsAndClearsPendingEntities := by
  intro s r p ht hlen limit found
  refine ⟨fun h1 h7 => ?_, fun hbad => ?_⟩
  · have hroom : found.length ≤ 7 := (List.length_take_le _ _).trans h7
    have hbytes := collectBytes_eq s.att hroom
    refine ⟨_, exec_collect ht hlen, ?_, ?_, ?_⟩ <;> rw [collect_returns h1 h7]
    · exact congrArg (fun bytes => ({ s with att := s.att.collected found, port := p.answerRequest r .ok bytes } : State)) hbytes
    · exact flagsOf_collected s.att found
    · rfl
  · rw [exec_collect ht hlen, collect_refuses hbad]

end Sys2Proof.Machine

/-! SUPPORT. MASK_SET (09 R179), raises (09 R172), the soft reset order (09 R182), and the level of ATTN_N (09 R173, R174). -/

namespace Sys2Proof.Machine

set_option Elab.async false

/-! ### MASK_SET (09 R179) -/

theorem parseEnables_iff (m : List Byte) (l : List Bool) :
    parseEnables m = some l ↔ 17 = l.length ∧ ∀ i (h : i < l.length), byteAt m (4 + i) = if l[i] then 1 else 0 := by
  simp only [parseEnables, allSome_iff, map_range_eq_iff, parseFlag_iff]

/-- Seventeen flag bytes are the enables. -/
theorem parseEnables_eq {m : List Byte} (h : ∀ i, i < 17 → byteAt m (4 + i) = 0 ∨ byteAt m (4 + i) = 1) :
    parseEnables m = some ((List.range 17).map fun i => decide (byteAt m (4 + i) = 1)) := by
  refine (parseEnables_iff _ _).2 ⟨by simp, fun i hi => ?_⟩
  rw [List.length_map, List.length_range] at hi
  rcases h i hi with hb | hb <;> simp [hb]

/-- One byte that is no flag spoils all. -/
theorem parseEnables_none {m : List Byte} {i : Nat} (hi : i < 17) (h0 : byteAt m (4 + i) ≠ 0) (h1 : byteAt m (4 + i) ≠ 1) :
    parseEnables m = none := by
  refine Option.eq_none_iff_forall_ne_some.2 fun l hl => ?_
  obtain ⟨hlen, hbytes⟩ := (parseEnables_iff m l).1 hl
  have hb := hbytes i (hlen ▸ hi)
  split at hb
  · exact h1 hb
  · exact h0 hb

section MaskSet
variable {s : State} {r : Request} {p : Port} (ht : s.Takes .attention 0x29 r p) (hlen : byteAt r.msg 1 = 17)
include ht hlen

theorem exec_maskSet : exec .maskSet s = .next (({ s with port := p } : State).maskSet r) :=
  congrArg Host.Outcome.next (ownerTakes_whole State.maskSet ht hlen)

theorem maskSet_replaces (h : ∀ i, i < 17 → byteAt r.msg (4 + i) = 0 ∨ byteAt r.msg (4 + i) = 1) : exec .maskSet s = .next { s with
    att := { s.att with enables := (List.range 17).map fun i => decide (byteAt r.msg (4 + i) = 1) }
    port := p.answerRequest r .ok ((List.range 17).map fun i => byteAt r.msg (4 + i)) } := by
  have hbytes : ((List.range 17).map fun i => decide (byteAt r.msg (4 + i) = 1)).map flagByte =
      (List.range 17).map fun i => byteAt r.msg (4 + i) := by
    rw [List.map_map]
    exact List.map_congr_left fun i hi => flagByte_decide (h i (List.mem_range.1 hi))
  rw [exec_maskSet ht hlen, State.maskSet, parseEnables_eq h]
  simp only [hbytes]

theorem maskSet_refuses {i : Nat} (hi : i < 17) (h0 : byteAt r.msg (4 + i) ≠ 0) (h1 : byteAt r.msg (4 + i) ≠ 1) :
    exec .maskSet s = .next { s with port := p.answerRequest r .badField [] } := by
  rw [exec_maskSet ht hlen, State.maskSet, parseEnables_none hi h0 h1]

end MaskSet

/-! ### Raises (09 R172) -/

/-- A cause's field is the power of two of its bit. -/
theorem getLsbD_mask (c : Cause) (i : Nat) : c.mask.getLsbD i = decide (c.bit = i) := by
  have hbit : c.bit < 16 := by cases c <;> decide
  rw [Cause.mask, ← BitVec.twoPow_eq, BitVec.getLsbD_twoPow, decide_eq_true hbit, Bool.true_and]

theorem getLsbD_setFlag (a : Attention) (x : Nat × Cause) (e i : Nat) : ((a.setFlag x.1 x.2).flagsOf e).getLsbD i =
    ((a.flagsOf e).getLsbD i || (decide (x.1 = e) && decide (x.2.bit = i))) := by
  unfold Attention.flagsOf Attention.setFlag
  by_cases h : x.1 = e
  · simp [← h, getLsbD_mask]
  · simp [h, Tbl.get_upd_other _ _ _ (Ne.symm h)]

/-- A raise sets the flags that it names and no other. -/
theorem getLsbD_takeRaise (x : Raise) (a : Attention) (e i : Nat) : ((a.takeRaise x).flagsOf e).getLsbD i =
    ((a.flagsOf e).getLsbD i || x.any fun y => decide (y.1 = e) && decide (y.2.bit = i)) := by
  induction x generalizing a with
  | nil => simp [Attention.takeRaise]
  | cons y x ih =>
    rw [List.any_cons, ← Bool.or_assoc, ← getLsbD_setFlag a y e i]
    exact ih (a.setFlag y.1 y.2)

/-- A raise changes flags only. -/
theorem takeRaise_frame (x : Raise) (a : Attention) : a.takeRaise x = { a with flags := (a.takeRaise x).flags } := by
  induction x generalizing a with
  | nil => rfl
  | cons y x ih => exact ih (a.setFlag y.1 y.2)

/-- The attention unit takes the first raise of block b. -/
theorem exec_attentionRaise {s : State} {b : RaiseBlock} {x : Raise} {pre post : List (RaiseBlock × Raise)} (hr : s.phase = .run)
    (hx : s.att.raises = pre ++ (b, x) :: post) (hpre : ∀ y ∈ pre, y.1 ≠ b) :
    exec (.attentionRaise b) s = .next { s with att := ({ s.att with raises := pre ++ post } : Attention).takeRaise x } := by
  have hfirst : takeFirst (fun y => decide (y.1 = b)) s.att.raises = some ((b, x), pre ++ post) := by
    rw [hx]
    exact takeFirst_append (decide_eq_true rfl) fun y hy => decide_eq_false (hpre y hy)
  show Host.Outcome.next (s.whenRunning (State.takeRaise b)) = _
  rw [whenRunning_run hr, State.takeRaise, hfirst]

/-! ### The soft reset order (09 R182) -/

theorem exec_attentionSoftResetOrder {s : State} {id : Nat} {rest : List Nat} (hr : s.phase = .run) (ho : s.port.toAttention = id :: rest) :
    exec .attentionSoftResetOrder s = .next { s with
      att := { s.att with flags := [], cursor := 0 }
      port := { s.port with toAttention := rest, acks := s.port.acks ++ [(.attention, id)] } } := by
  show Host.Outcome.next (s.whenRunning State.attentionReset) = _
  rw [whenRunning_run hr, State.attentionReset, ho]

/-! ### ATTN_N (09 R173, R174) -/

theorem enabledPending_iff (a : Attention) (e : Nat) (f : BitVec 16) :
    enabledPending a e f = true ↔ ∃ i k, f.getLsbD i = true ∧ (enablesOf e)[i]? = some k ∧ a.on k = true := by
  simp only [enabledPending, List.any_eq_true, Prod.exists, List.mem_zipIdx_iff_getElem?, Bool.and_eq_true]
  constructor
  · rintro ⟨k, i, hk, hf, hon⟩
    exact ⟨i, k, hf, hk, hon⟩
  · rintro ⟨i, k, hf, hk, hon⟩
    exact ⟨k, i, hk, hf, hon⟩

/-- In a canonical table the entities with a pending enabled flag are those that have one by the flags read. -/
theorem any_enabledPending_iff {a : Attention} (h : Tbl.wf 0 a.flags = true) :
    (a.flags.any fun x => enabledPending a x.1 x.2) = true ↔ ∃ e, enabledPending a e (a.flagsOf e) = true := by
  rw [List.any_eq_true]
  constructor
  · rintro ⟨⟨e, f⟩, hmem, hp⟩
    obtain ⟨rfl, -⟩ := (Tbl.mem_iff_get h e f).1 hmem
    exact ⟨e, hp⟩
  · rintro ⟨e, hp⟩
    have hpending : a.flagsOf e ≠ 0 := fun h0 => by
      obtain ⟨i, k, hf, -⟩ := (enabledPending_iff a e _).1 hp
      simp [h0] at hf
    exact ⟨(e, a.flagsOf e), (Tbl.mem_iff_get h e _).2 ⟨rfl, hpending⟩, hp⟩

theorem someDone_iff (p : Port) : p.someDone = true ↔ ∃ n : Fin 4, (p.slot n).st = .done := by
  have hall : ∀ n : Fin 4, n ∈ ([0, 1, 2, 3] : List (Fin 4)) := by decide
  simp only [Port.someDone, List.any_eq_true, decide_eq_true_eq, hall, true_and]

theorem attnLow_iff {s : State} (h : Tbl.wf 0 s.att.flags = true) : attnLow s = true ↔
    (s.att.on globalEnable = true ∧
        ∃ e i k, (s.att.flagsOf e).getLsbD i = true ∧ (enablesOf e)[i]? = some k ∧ s.att.on k = true) ∨
      (s.att.on requestDoneEnable = true ∧ ∃ n : Fin 4, (s.port.slot n).st = .done) := by
  simp only [attnLow, Bool.or_eq_true, Bool.and_eq_true, any_enabledPending_iff h, enabledPending_iff, someDone_iff]

/-- Settles O15: the request with its two outcomes, a raise, the soft reset order, and the pin by the flags read. -/
theorem enablesFlagsAndTheAttentionReset : Obligations.EnablesFlagsAndTheAttentionReset := by
  refine ⟨fun s r p ht hlen => ⟨maskSet_replaces ht hlen, fun ⟨i, hi, h0, h1⟩ => maskSet_refuses ht hlen hi h0 h1⟩,
    ⟨fun s b x pre post hr hx hpre => ?_, fun s id rest hr ho => exec_attentionSoftResetOrder hr ho⟩, fun s hwf => attnLow_iff hwf⟩
  exact ⟨_, exec_attentionRaise hr hx hpre, congrArg (fun a => ({ s with att := a } : State)) (takeRaise_frame x _), getLsbD_takeRaise x _⟩

end Sys2Proof.Machine

/-! SUPPORT. What every command but the events of the pins keeps: the queue of commands and the phase, the routing queues beside the QUEUED slots
(10 R193), the pending-change list in its room (02 R31, R32), and the held claim beside its offer (03 R69). -/

namespace Sys2Proof.Machine

set_option Elab.async false

/-! ### The routing queues (10 R193) -/

/-- The routing queues hold exactly the QUEUED slots: `State.routed`, which speaks of the port alone, with a name for each part. -/
structure Port.Routed (p : Port) : Prop where
  once : (p.queue.map (·.2)).Nodup
  queued : ∀ n, (p.slot n).st = .queued ↔ n ∈ p.queue.map (·.2)
  owner : ∀ x ∈ p.queue, ownerOf (byteAt (p.slot x.2).request 0) = some x.1

theorem routed_iff (s : State) : s.routed ↔ s.port.Routed :=
  ⟨fun ⟨h1, h2, h3⟩ => ⟨h1, h2, h3⟩, fun h => ⟨h.once, h.queued, h.owner⟩⟩

/-- A slot is read past the queue. -/
theorem slot_setSlot_queue (p : Port) (n m : Fin 4) (v : PortSlot) (q : List (Owner × Fin 4)) :
    ({ p.setSlot n v with queue := q } : Port).slot m = if m = n then v else p.slot m := slot_setSlot p n m v

/-- With no slot QUEUED and no request in the queues, all is routed. -/
theorem Port.Routed.of_nil {p : Port} (hq : p.queue = []) (hs : ∀ n, (p.slot n).st ≠ .queued) : p.Routed := by
  refine ⟨?_, fun n => ?_, ?_⟩ <;> simp [hq, hs]

namespace Port.Routed

variable {p : Port} (h : p.Routed)
include h

/-- The routing queues are read from the slots and the queue alone. -/
theorem of_same {q : Port} (hs : q.slots = p.slots := by rfl) (hq : q.queue = p.queue := by rfl) : q.Routed := by
  have hslot (n : Fin 4) : q.slot n = p.slot n := by rw [Port.slot, hs, Port.slot]
  exact ⟨hq ▸ h.once, fun n => by rw [hslot, hq]; exact h.queued n, fun x hx => by rw [hslot]; exact h.owner x (hq ▸ hx)⟩

/-- Writing a slot that is not QUEUED, and does not become so. -/
theorem setSlot {n : Fin 4} {v : PortSlot} (hn : (p.slot n).st ≠ .queued) (hv : v.st ≠ .queued) : (p.setSlot n v).Routed := by
  have hout : n ∉ p.queue.map (·.2) := mt (h.queued n).2 hn
  refine ⟨h.once, fun m => ?_, fun x hx => ?_⟩
  · rw [slot_setSlot]
    split
    · next hm => exact iff_of_false hv (hm ▸ hout)
    · exact h.queued m
  · have hne : x.2 ≠ n := fun he => hout (he ▸ List.mem_map_of_mem hx)
    rw [slot_setSlot_other p v hne]
    exact h.owner x hx

theorem answer (n : Fin 4) (sub : Nat) (st : Status) (res : List Byte) : (p.answer n sub st res).Routed := by
  rcases answer_eq p n sub st res with he | ⟨v, hw, hd, _, _, _, he⟩
  · rw [he]; exact h
  · rw [he]; exact h.setSlot (by rw [hw]; decide) (by rw [hd]; decide)

/-- An owner's taking of a request withdraws it from the queue, and its slot is no longer QUEUED. -/
theorem takeRequest {q : Port} {o : Owner} {kind : Byte} {r : Request} (ht : p.takeRequest o kind = some (r, q)) : q.Routed := by
  obtain ⟨pre, post, hq, _, _, _, _, rfl⟩ := takeRequest_some ht
  have hperm : (p.queue.map (·.2)).Perm (r.slot :: (pre ++ post).map (·.2)) := by
    rw [hq]
    exact (List.perm_middle (l₁ := pre)).map Prod.snd
  obtain ⟨hout, hnodup⟩ := List.nodup_cons.1 (hperm.nodup_iff.1 h.once)
  have hmem (m : Fin 4) : m ∈ p.queue.map (·.2) ↔ m = r.slot ∨ m ∈ (pre ++ post).map (·.2) := hperm.mem_iff.trans List.mem_cons
  refine ⟨hnodup, fun m => ?_, fun x hx => ?_⟩
  · rw [slot_setSlot]
    split
    · next hm => exact iff_of_false (by simp) (hm ▸ hout)
    · next hm => exact (h.queued m).trans ((hmem m).trans (or_iff_right hm))
  · have hne : x.2 ≠ r.slot := fun he => hout (he ▸ List.mem_map_of_mem hx)
    rw [slot_setSlot_other _ _ hne]
    exact h.owner x (hq ▸ List.perm_middle.mem_iff.2 (List.mem_cons_of_mem _ hx))

/-- A slot that becomes QUEUED joins the tail of the queues for the owner of its kind (10 R189). -/
theorem enqueue {n : Fin 4} {v : PortSlot} {o : Owner} (hn : (p.slot n).st ≠ .queued) (hv : v.st = .queued)
    (ho : ownerOf (byteAt v.request 0) = some o) : ({ p.setSlot n v with queue := p.queue ++ [(o, n)] } : Port).Routed := by
  have hout : n ∉ p.queue.map (·.2) := mt (h.queued n).2 hn
  have hmap : (p.queue ++ [(o, n)]).map (·.2) = p.queue.map (·.2) ++ [n] := List.map_append
  refine ⟨?_, fun m => ?_, fun x hx => ?_⟩
  · rw [hmap]
    exact h.once.append (List.nodup_singleton n) (List.disjoint_singleton.2 hout)
  · rw [slot_setSlot_queue, hmap, List.mem_append, List.mem_singleton]
    split
    · next hm => exact iff_of_true hv (.inr hm)
    · next hm => exact (h.queued m).trans (or_iff_left hm).symm
  · rw [slot_setSlot_queue]
    rcases List.mem_append.1 hx with hx | hx
    · have hne : x.2 ≠ n := fun he => hout (he ▸ List.mem_map_of_mem hx)
      rw [if_neg hne]
      exact h.owner x hx
    · obtain rfl := List.mem_singleton.1 hx
      rw [if_pos rfl]
      exact ho

theorem record (x : SoftReset) : (p.record x).Routed := by
  unfold Port.record
  split
  · exact answer (p := { p with soft := none }) h.of_same _ _ _ _
  · exact h.of_same

theorem takeAck (b : ResetBlock) : (p.takeAck b).Routed := by
  unfold Port.takeAck
  split
  · exact h
  · next rest _ =>
    simp only
    split
    · split
      · exact record (p := { p with acks := rest }) h.of_same _
      · exact h.of_same
    · exact h.of_same

end Port.Routed

/-! ### The slots under a SOFT_RESET (10 R199) -/

/-- Step 1 of R199 on slot n, as a slot. -/
def PortSlot.aborted (x : PortSlot) : PortSlot :=
  if x.st = .queued ∨ x.st = .working then { x with st := .done, response := responseOf x.request .resetAborted [] } else x

theorem slot_abort (p : Port) (n m : Fin 4) : (p.abort n).slot m = if m = n then (p.slot m).aborted else p.slot m := by
  unfold Port.abort PortSlot.aborted
  simp only
  by_cases hm : m = n
  · subst hm
    rw [if_pos rfl]
    split
    · exact slot_setSlot_same _ _ _
    · rfl
  · rw [if_neg hm]
    split
    · exact slot_setSlot_other _ _ hm
    · rfl

theorem slot_foldl_abort (m : Fin 4) : ∀ (l : List (Fin 4)) (p : Port), l.Nodup →
    (l.foldl Port.abort p).slot m = if m ∈ l then (p.slot m).aborted else p.slot m
  | [], p, _ => by simp
  | n :: l, p, h => by
    obtain ⟨hn, hl⟩ := List.nodup_cons.1 h
    rw [List.foldl_cons, slot_foldl_abort m l _ hl, slot_abort]
    by_cases hm : m = n
    · subst hm; simp [hn]
    · simp [hm]

/-- A SOFT_RESET completes every slot but its own (10 R199). -/
theorem slot_softReset (p : Port) (r : Request) (m : Fin 4) :
    (p.softReset r).slot m = if m = r.slot then p.slot m else (p.slot m).aborted := by
  have hall : ∀ n : Fin 4, n ∈ allSlots := by decide
  have hnodup : (allSlots.filter (· ≠ r.slot)).Nodup := List.Nodup.filter _ (by decide)
  refine (slot_foldl_abort m _ p hnodup).trans ?_
  by_cases hm : m = r.slot <;> simp [hm, hall]

theorem aborted_not_queued (x : PortSlot) : x.aborted.st ≠ .queued := by
  unfold PortSlot.aborted
  split
  · exact fun h => by cases h
  · next h => exact fun hq => h (.inl hq)

/-- A SOFT_RESET leaves no request in the queues and no slot QUEUED, its own having been taken (10 R199). -/
theorem routed_softReset {p : Port} {r : Request} (h : (p.slot r.slot).st ≠ .queued) : (p.softReset r).Routed := by
  refine .of_nil rfl fun n => ?_
  rw [slot_softReset]
  split
  · next hn => exact hn ▸ h
  · exact aborted_not_queued _

/-- The request that an owner has taken stands WORKING in its slot. -/
theorem slot_of_takeRequest {p q : Port} {o : Owner} {kind : Byte} {r : Request} (ht : p.takeRequest o kind = some (r, q)) :
    q.slot r.slot = { p.slot r.slot with st := .working } ∧ ∀ m, m ≠ r.slot → q.slot m = p.slot m := by
  obtain ⟨pre, post, _, _, _, _, _, rfl⟩ := takeRequest_some ht
  exact ⟨slot_setSlot_same _ _ _, fun m hm => slot_setSlot_other _ _ hm⟩

/-! ### The pending-change list (02 R31, R32) -/

/-- The slots of the list when one entry has been put in it. -/
theorem slots_placeOne (list : List Entry) (x : Entry) :
    (placeOne list x).map (·.slot) = if x.slot ∈ list.map (·.slot) then list.map (·.slot) else list.map (·.slot) ++ [x.slot] := by
  have hany : (list.any fun y => decide (y.slot = x.slot)) = true ↔ x.slot ∈ list.map (·.slot) := by simp
  unfold placeOne
  by_cases h : x.slot ∈ list.map (·.slot)
  · rw [if_pos (hany.2 h), if_pos h, List.map_map]
    refine List.map_congr_left fun y _ => ?_
    show (if y.slot = x.slot then x else y).slot = y.slot
    split
    · next he => exact he.symm
    · rfl
  · rw [if_neg (mt hany.1 h), if_neg h, List.map_append]
    rfl

/-- An offer put in a list with one entry for each slot leaves it so, on the slots of both. -/
theorem slots_placeOffer (offer : List Entry) : ∀ {list : List Entry}, (list.map (·.slot)).Nodup →
    ((placeOffer list offer).map (·.slot)).Nodup ∧
      ∀ k ∈ (placeOffer list offer).map (·.slot), k ∈ list.map (·.slot) ∨ k ∈ offer.map (·.slot) := by
  induction offer with
  | nil => exact fun h => ⟨h, fun k hk => .inl hk⟩
  | cons x offer ih =>
    intro list h
    have hone := slots_placeOne list x
    have hnodup : ((placeOne list x).map (·.slot)).Nodup := by
      rw [hone]
      split
      · exact h
      · next hx => exact h.append (List.nodup_singleton _) (List.disjoint_singleton.2 hx)
    obtain ⟨hn, hsub⟩ := ih hnodup
    refine ⟨hn, fun k hk => ?_⟩
    rcases hsub k hk with hk | hk
    · rw [hone] at hk
      split at hk
      · exact .inl hk
      · rcases List.mem_append.1 hk with hk | hk
        · exact .inl hk
        · exact .inr (by simp [List.mem_singleton.1 hk])
    · exact .inr (List.mem_cons_of_mem _ hk)

/-- An offer that the switch takes leaves the list in its room (02 R32). -/
theorem inRoom_placeOffer {list offer : List Entry} (hroom : list.length ≤ Config.listRoom) (hn : (list.map (·.slot)).Nodup)
    (hf : fits list offer = true) :
    (placeOffer list offer).length ≤ Config.listRoom ∧ ((placeOffer list offer).map (·.slot)).Nodup := by
  obtain ⟨hnodup, hsub⟩ := slots_placeOffer offer hn
  refine ⟨?_, hnodup⟩
  have hnew : ((placeOffer list offer).map (·.slot)).length ≤
      (list.map (·.slot) ++ (offerSlots offer).filter fun k => !(list.any fun y => decide (y.slot = k))).length := by
    refine (hnodup.subperm fun k hk => ?_).length_le
    by_cases hold : k ∈ list.map (·.slot)
    · exact List.mem_append_left _ hold
    · refine List.mem_append_right _ (List.mem_filter.2 ⟨mem_firstOf.2 ((hsub k hk).resolve_left hold), ?_⟩)
      simpa using hold
  have hfit := of_decide_eq_true hf
  rw [List.length_map, List.length_append, List.length_map] at hnew
  omega

/-! ### What a command keeps -/

/-- What every command but the events of the pins keeps of the part: the queue of commands and the phase stand; the routing queues stay those of the
QUEUED slots, the list in its room, and a held claim beside its offer. -/
structure State.Keeps (s t : State) : Prop where
  pending : t.pending = s.pending
  phase : t.phase = s.phase
  routed : s.port.Routed → t.port.Routed
  list : s.listInRoom → t.listInRoom
  held : s.heldHasOffer → t.heldHasOffer

namespace State.Keeps

variable {s t u : State}

theorem refl (s : State) : s.Keeps s := ⟨rfl, rfl, id, id, id⟩

theorem trans (h : s.Keeps t) (h' : t.Keeps u) : s.Keeps u :=
  ⟨h'.pending.trans h.pending, h'.phase.trans h.phase, h'.routed ∘ h.routed, h'.list ∘ h.list, h'.held ∘ h.held⟩

/-- A change of what is neither the port, the list, nor a held claim or its offer. -/
theorem same (hpending : t.pending = s.pending := by rfl) (hphase : t.phase = s.phase := by rfl) (hport : t.port = s.port := by rfl)
    (hlist : t.sw.list = s.sw.list := by rfl) (hheld : t.mgr.held = s.mgr.held := by rfl) (hkept : t.sw.kept = s.sw.kept := by rfl) : s.Keeps t :=
  ⟨hpending, hphase, fun h => hport ▸ h, fun h => by rw [State.listInRoom, hlist]; exact h,
    fun h => by rw [State.heldHasOffer, hheld, hkept]; exact h⟩

theorem withPort {p : Port} (h : s.port.Routed → p.Routed) : s.Keeps { s with port := p } := ⟨rfl, rfl, h, id, id⟩

theorem choose {c : Prop} [Decidable c] (ht : s.Keeps t) (hu : s.Keeps u) : s.Keeps (if c then t else u) := by
  split
  · exact ht
  · exact hu

variable (s)

theorem whenRunning {f : State → State} (h : s.Keeps (f s)) : s.Keeps (s.whenRunning f) := choose h (refl s)

/-! ### The control port and request engine -/

theorem setFaults (f : PortFaults → PortFaults) : s.Keeps (s.setFaults f) := withPort fun h => h.of_same

theorem send (mosi payload : List Byte) : s.Keeps (s.send mosi payload) := withPort fun h => h.of_same

theorem transact (mosi payload : List Byte) {f : State → State} (hf : ∀ t : State, t.Keeps (f t)) : s.Keeps (s.transact mosi payload f) := by
  unfold State.transact
  cases s.phase with
  | reset => exact refl s
  | init => exact (send s _ _).trans (setFaults _ _)
  | run => exact (send s _ _).trans (hf _)

theorem writeSlot (n : Fin 4) (off : Nat) (data : List Byte) : s.Keeps (s.writeSlot n off data) := by
  unfold State.writeSlot
  simp only
  split
  · next hst =>
    have hn : (s.port.slot n).st ≠ .queued := by rcases hst with h | h <;> rw [h] <;> decide
    have hstored : s.Keeps (if off < 32 ∧ data ≠ [] then
        s.setSlot n { s.port.slot n with st := .loaded, request := storeBytes (s.port.slot n).request off data } else s) :=
      choose (withPort fun h => h.setSlot hn (by simp)) (refl s)
    exact choose hstored (hstored.trans (setFaults _ _))
  · exact setFaults _ _

theorem submitSlot (n : Fin 4) : s.Keeps (s.submitSlot n) := by
  unfold State.submitSlot
  simp only
  split
  · next hst =>
    have hn : (s.port.slot n).st ≠ .queued := by rw [hst]; decide
    split
    · next o ho => exact withPort fun h => h.enqueue hn rfl ho
    · exact withPort fun h => h.setSlot hn (by simp)
  · exact setFaults _ _

theorem emptySlot (n : Fin 4) : s.Keeps (s.emptySlot n) := by
  unfold State.emptySlot
  simp only
  split
  · exact setFaults _ _
  · next hst => exact withPort fun h => h.setSlot (fun hq => hst (.inl hq)) (by simp [PortSlot.initial])

/-- A request of another owner than the circuit manager is taken, and refused or given to the owner. -/
theorem ownerTakes (o : Owner) (kind : Byte) (len : Nat) {f : Request → State → State}
    (hf : ∀ r p, s.port.takeRequest o kind = some (r, p) → ({ s with port := p } : State).Keeps (f r { s with port := p })) :
    s.Keeps (s.ownerTakes o kind len f) := by
  unfold State.ownerTakes
  split
  · split
    · exact refl s
    · next r p ht =>
      have htaken : s.Keeps { s with port := p } := withPort fun h => h.takeRequest ht
      exact choose (htaken.trans (hf r p ht)) (withPort fun h => (h.takeRequest ht).answer _ _ _ _)
  · exact refl s

theorem answerRequest (r : Request) (st : Status) (res : List Byte) : s.Keeps { s with port := s.port.answerRequest r st res } :=
  withPort fun h => h.answer _ _ _ _

theorem configure (r : Request) : s.Keeps (s.configure r) := by
  unfold State.configure
  split
  · exact answerRequest _ _ _ _
  · exact answerRequest _ _ _ _
  · refine choose (answerRequest _ _ _ _) (withPort fun h => ?_)
    exact Port.Routed.answer (p := { s.port with
      defaults := ⟨byteAt r.msg 5, byteAt r.msg 6, byteAt r.msg 7, byteAt r.msg 8, (byteAt r.msg 9).toNat⟩ }) h.of_same _ _ _ _

theorem softReset (r : Request) (p : Port) (ht : s.port.takeRequest .engine 0x3F = some (r, p)) :
    ({ s with port := p } : State).Keeps { s with port := p.softReset r } := by
  obtain ⟨hslot, _⟩ := slot_of_takeRequest ht
  exact ⟨rfl, rfl, fun _ => routed_softReset (by rw [hslot]; simp), id, id⟩

theorem takeCleared : s.Keeps s.takeCleared := by
  unfold State.takeCleared
  split
  · exact refl s
  · simp only
    split
    · exact ⟨rfl, rfl, fun h => h.record _, id, id⟩
    · exact same

/-! ### The attention unit, the generators, the lanes -/

theorem collect (r : Request) : s.Keeps (s.collect r) := choose (answerRequest _ _ _ _) ((answerRequest _ r .ok _).trans same)

theorem maskSet (r : Request) : s.Keeps (s.maskSet r) := by
  unfold State.maskSet
  split
  · exact answerRequest _ _ _ _
  · exact (answerRequest _ r .ok _).trans same

theorem takeRaise (b : RaiseBlock) : s.Keeps (s.takeRaise b) := by
  unfold State.takeRaise
  split <;> exact same

theorem attentionReset : s.Keeps s.attentionReset := by
  unfold State.attentionReset
  split
  · exact refl s
  · next id rest _ =>
    exact (withPort (p := { s.port with toAttention := rest, acks := s.port.acks ++ [(.attention, id)] }) fun h => h.of_same).trans same

theorem genSet (r : Request) : s.Keeps (s.genSet r) := by
  unfold State.genSet
  split
  · exact answerRequest _ _ _ _
  · exact (answerRequest _ r .ok _).trans same

theorem laneSet (r : Request) : s.Keeps (s.laneSet r) := by
  unfold State.laneSet
  simp only
  split
  · exact choose ((answerRequest _ r .ok _).trans same) (answerRequest _ _ _ _)
  · exact answerRequest _ _ _ _

theorem laneQuery (r : Request) : s.Keeps (s.laneQuery r) := by
  refine choose (answerRequest _ _ _ _) ?_
  split <;> exact answerRequest _ _ _ _

theorem judgeLane (l : Fin 16) : s.Keeps (s.judgeLane l) := by
  unfold State.judgeLane
  simp only
  split
  · exact refl s
  · exact choose same same

/-! ### The path verifier and the watcher unit -/

theorem takeNotice (u : Fin 4) (b : Bool) : s.Keeps (s.takeNotice u b) := by
  unfold State.takeNotice
  split <;> exact same

theorem judgeUnit (u : Fin 4) (k : Nat) : s.Keeps (s.judgeUnit u k) := by
  unfold State.judgeUnit
  simp only
  split <;> exact same

theorem tokenFrameEnd (u : Fin 4) : s.Keeps (s.tokenFrameEnd u) := by
  unfold State.tokenFrameEnd
  split
  · exact judgeUnit _ _ _
  · exact refl s

theorem verifyTimeout (u : Fin 4) : s.Keeps (s.verifyTimeout u) := by
  unfold State.verifyTimeout
  split
  · exact choose (judgeUnit _ _ _) (refl s)
  · exact refl s

theorem verifierLane (l : Fin 16) : s.Keeps (s.verifierLane l) := by
  unfold State.verifierLane
  split <;> exact same

theorem watcherLane (l : Fin 16) : s.Keeps (s.watcherLane l) := by
  unfold State.watcherLane
  split <;> exact same

theorem sampleWatcher (w : Nat) : s.Keeps (s.sampleWatcher w) := choose same (refl s)

theorem watchEvent (w : Nat) (e : IntervalEvent) : s.Keeps (s.watchEvent w e) := by
  cases e with
  | none => exact refl s
  | confirmation => exact choose same same
  | clearing => exact choose same same

theorem endInterval (w : Nat) : s.Keeps (s.endInterval w) := by
  refine choose (choose same ?_) (refl s)
  exact trans same (watchEvent { s with wat := (s.wat.nextInterval w).updRun w fun _ =>
    (((s.wat.nextInterval w).watcher w).run.judged (s.wat.watcher w).cfg (s.wat.intervalPresent w)).1 } w _)

theorem watchAnswer (r : Request) (st : Status) (res : List Byte) : s.Keeps (s.watchAnswer r st res) := answerRequest _ _ _ _

theorem watchSet (r : Request) : s.Keeps (s.watchSet r) := by
  unfold State.watchSet
  split
  · exact watchAnswer _ _ _ _
  · exact choose (watchAnswer _ _ _ _) (trans same (watchAnswer _ _ _ _))

theorem watchArm (r : Request) : s.Keeps (s.watchArm r) := by
  unfold State.watchArm
  split
  · exact watchAnswer _ _ _ _
  · exact choose (watchAnswer _ _ _ _) (trans same (watchAnswer _ _ _ _))

theorem watchDisarm (r : Request) : s.Keeps (s.watchDisarm r) := by
  unfold State.watchDisarm
  split
  · exact watchAnswer _ _ _ _
  · exact choose (watchAnswer _ _ _ _) (choose (watchAnswer _ _ _ _) (trans same (watchAnswer _ _ _ _)))

theorem watchQuery (r : Request) : s.Keeps (s.watchQuery r) := by
  unfold State.watchQuery
  split <;> exact watchAnswer _ _ _ _

theorem takeArm : s.Keeps s.takeArm := by
  unfold State.takeArm
  split
  · exact choose (choose same same) same
  · exact refl s

theorem takeDisarm : s.Keeps s.takeDisarm := by
  unfold State.takeDisarm
  split
  · exact choose same same
  · exact refl s

theorem takeReturn : s.Keeps s.takeReturn := by
  unfold State.takeReturn
  split
  · exact choose same same
  · exact refl s

theorem watcherReset : s.Keeps s.watcherReset := by
  unfold State.watcherReset
  split
  · exact refl s
  · next id rest _ =>
    exact (withPort (p := { s.port with toWatchers := rest, acks := s.port.acks ++ [(.watcherUnit, id)] }) fun h => h.of_same).trans same

/-! ### Claims (01 R17, 03 R69) -/

/-- A claim's effect reaches the port by answers alone, and no held claim. -/
theorem effect_keeps (d : Defaults) (c : Claim) :
    (s.port.Routed → (effect d c (Eff.start s)).port.Routed) ∧ (effect d c (Eff.start s)).mgr.held = s.mgr.held := by
  have closed : Eff.Closed fun e => (s.port.Routed → e.port.Routed) ∧ e.mgr.held = s.mgr.held :=
    { updRec := fun _ _ _ _ h => h, free := fun _ _ h => h, answer := fun _ _ _ _ _ h => ⟨fun hs => (h.1 hs).answer _ _ _ _, h.2⟩
      raise := fun _ _ h => h, addEntry := fun _ _ _ _ h => h, fan := fun _ _ _ h => h, wait := fun _ _ h => h, view := fun _ _ _ h => h
      unit := fun _ _ _ h => h, outcomes := fun _ _ h => h, run := fun _ _ _ h => h, orders := fun _ _ h => h, order := fun _ _ h => h }
  exact closed.effect d c _ ⟨id, rfl⟩

/-- A claim's changes with an offer that the switch takes. -/
theorem effect_commit (d : Defaults) (c : Claim) {offer : List Entry} (order : Option ClearCount) (hf : fits s.sw.list offer = true) :
    s.Keeps ((effect d c (Eff.start s)).commit offer order s) := by
  obtain ⟨hport, hheld⟩ := effect_keeps s d c
  refine ⟨rfl, rfl, hport, fun h => inRoom_placeOffer h.1 h.2 hf, fun h => ?_⟩
  show (effect d c (Eff.start s)).mgr.held.isSome = s.sw.kept.isSome
  rw [hheld]
  exact h

theorem takeClaim (c : Claim) : s.Keeps (s.takeClaim c) := by
  obtain ⟨e, rfl, hf, he⟩ | ⟨e, _, _, he⟩ := takeClaim_cases s c
  · rw [he]
    exact effect_commit s _ _ _ hf
  · rw [he]
    exact ⟨rfl, rfl, id, id, fun _ => rfl⟩

theorem managerRequest (kind : Byte) : s.Keeps (s.managerRequest kind) := by
  unfold State.managerRequest
  refine choose ?_ (refl s)
  split
  · next ht => exact (withPort fun h => h.takeRequest ht).trans (takeClaim _ _)
  · exact refl s

theorem claimReport : s.Keeps s.claimReport := by
  unfold State.claimReport
  split
  · exact trans same (takeClaim _ _)
  · exact refl s

theorem claimClearDownEnd : s.Keeps s.claimClearDownEnd := by
  unfold State.claimClearDownEnd
  split
  · exact trans same (takeClaim _ _)
  · exact refl s

theorem claimExpiry : s.Keeps s.claimExpiry := by
  unfold State.claimExpiry
  split
  · exact trans same (takeClaim _ _)
  · exact refl s

theorem claimOutcome (b : Bool) : s.Keeps (s.claimOutcome b) := by
  unfold State.claimOutcome
  split
  · exact choose (trans same (takeClaim _ _)) (refl s)
  · exact refl s

theorem claimAction (p : ActionClaim → Bool) : s.Keeps (s.claimAction p) := by
  unfold State.claimAction
  split
  · exact choose (trans same (takeClaim _ _)) (refl s)
  · exact refl s

theorem claimLane (l : Fin 16) : s.Keeps (s.claimLane l) := by
  unfold State.claimLane
  refine choose ?_ (refl s)
  split
  · exact trans same (takeClaim _ _)
  · exact refl s

/-- The held claim and its offer leave their places together. -/
theorem unheld : s.Keeps s.unheld := ⟨rfl, rfl, id, id, fun _ => rfl⟩

theorem takeHeld : s.Keeps s.takeHeld := by
  unfold State.takeHeld
  split
  · next hd kp _ _ =>
    split
    · next hok =>
      have hf : fits s.sw.list kp.offer = true := (Bool.and_eq_true_iff.1 hok).2
      have hcommit : s.Keeps (commitHeld hd kp s.unheld) := (unheld s).trans (effect_commit s.unheld _ _ _ hf)
      split
      · exact choose hcommit ((unheld s).trans same)
      · exact hcommit
    · exact refl s
  · exact refl s

theorem softResetClaim : s.Keeps s.softResetClaim := by
  unfold State.softResetClaim
  split
  · exact ⟨rfl, rfl, fun h => h.of_same, fun _ => ⟨Nat.zero_le _, List.nodup_nil⟩, fun _ => rfl⟩
  · exact refl s

theorem clearanceOrder : s.Keeps s.clearanceOrder := by
  unfold State.clearanceOrder
  split
  · exact refl s
  · next id rest _ =>
    have htaken : s.Keeps (State.takeHeld { s with port := { s.port with toSwitch := rest } }) :=
      (withPort fun h => h.of_same).trans (takeHeld _)
    exact htaken.trans ⟨rfl, rfl, fun h => h, fun _ => ⟨Nat.zero_le _, List.nodup_nil⟩, fun _ => rfl⟩

/-! ### Boundaries and the frame timing -/

theorem endFrame (rx : FrameIn) (bits : Nat) : s.Keeps (s.endFrame rx bits) := choose same same

theorem switchBoundary : s.Keeps { s with sw := s.sw.boundary } := by
  refine ⟨rfl, rfl, id, fun _ => ⟨Nat.zero_le _, List.nodup_nil⟩, fun h => h.trans ?_⟩
  have hkept : s.sw.clear.kept = s.sw.kept := by
    unfold Switch.clear
    split <;> rfl
  show _ = (s.sw.clear.kept.map _).isSome
  rw [Option.isSome_map, hkept]

theorem boundary (rx : FrameIn) (bits t : Nat) : s.Keeps (s.boundary rx bits t) :=
  (takeHeld s).trans ((endFrame _ rx bits).trans ((switchBoundary _).trans same))

theorem fsyncInLocked (t : Nat) : s.Keeps (if s.sw.locked then { s with sw := s.sw.fsyncLocked t } else s) := by
  refine choose ?_ (refl s)
  unfold Switch.fsyncLocked
  split
  · exact same
  · split <;> exact same

theorem fsyncMissed : s.Keeps s.fsyncMissed := choose (choose same same) (refl s)

theorem fsyncFreerun (t : Nat) (rx : FrameIn) : s.Keeps (s.fsyncFreerun t rx) := by
  have hlocked : s.Keeps s.enterLocked := same
  exact choose (refl s) (choose (choose hlocked (hlocked.trans (boundary _ _ _ _))) same)

theorem candidatePassed : s.Keeps s.candidatePassed := by
  unfold State.candidatePassed
  split <;> exact same

theorem runOut : s.Keeps { s with sw := s.sw.runOut } := by
  unfold Switch.runOut
  split <;> exact same

/-! ### The commands -/

/-- Every command but the events of the pins has a next state, and keeps what `State.Keeps` says. -/
theorem exec {c : Instr} (hc : isPinEvent c = false) : ∃ t, exec c s = .next t ∧ s.Keeps t := by
  cases c with
  | hardReset | rstNRelease | tinitEnd | oeNChange high => cases hc
  | readStatus mosi => exact ⟨_, rfl, choose (refl s) (send _ _ _)⟩
  | writeSlot n mosi =>
    refine ⟨_, rfl, transact _ _ _ fun t => ?_⟩
    cases mosi with
    | nil => exact refl t
    | cons off data => exact writeSlot _ _ _ _
  | readSlot n mosi =>
    refine ⟨_, rfl, transact _ _ _ fun t => ?_⟩
    cases mosi with
    | nil => exact refl t
    | cons off data => exact choose (refl t) (setFaults _ _)
  | submit n mosi => exact ⟨_, rfl, transact _ _ _ fun t => submitSlot t n⟩
  | clearSlot n mosi => exact ⟨_, rfl, transact _ _ _ fun t => emptySlot t n⟩
  | clearPortFaults mosi => exact ⟨_, rfl, transact _ _ _ fun t => setFaults t _⟩
  | unknownTransactionCode code mosi => exact ⟨_, rfl, choose (refl s) (transact _ _ _ fun t => setFaults t _)⟩
  | openCircuit | openPair | addLeg | dropLeg | moveSource | hold | resume | release | touch | query | findOut | findIn | accessEnd =>
    exact ⟨_, rfl, managerRequest _ _⟩
  | genSet => exact ⟨_, rfl, ownerTakes _ _ _ _ fun r _ _ => genSet _ r⟩
  | laneSet => exact ⟨_, rfl, ownerTakes _ _ _ _ fun r _ _ => laneSet _ r⟩
  | laneQuery => exact ⟨_, rfl, ownerTakes _ _ _ _ fun r _ _ => laneQuery _ r⟩
  | watchSet => exact ⟨_, rfl, ownerTakes _ _ _ _ fun r _ _ => watchSet _ r⟩
  | watchArm => exact ⟨_, rfl, ownerTakes _ _ _ _ fun r _ _ => watchArm _ r⟩
  | watchDisarm => exact ⟨_, rfl, ownerTakes _ _ _ _ fun r _ _ => watchDisarm _ r⟩
  | watchQuery => exact ⟨_, rfl, ownerTakes _ _ _ _ fun r _ _ => watchQuery _ r⟩
  | collect => exact ⟨_, rfl, ownerTakes _ _ _ _ fun r _ _ => collect _ r⟩
  | maskSet => exact ⟨_, rfl, ownerTakes _ _ _ _ fun r _ _ => maskSet _ r⟩
  | config => exact ⟨_, rfl, ownerTakes _ _ _ _ fun r _ _ => configure _ r⟩
  | ident => exact ⟨_, rfl, ownerTakes _ _ _ _ fun r _ _ => answerRequest _ r _ _⟩
  | softReset => exact ⟨_, rfl, ownerTakes _ _ _ _ (softReset s)⟩
  | heldClaimTaken => exact ⟨_, rfl, whenRunning _ (takeHeld s)⟩
  | fsyncInLocked t => exact ⟨_, rfl, whenRunning _ (fsyncInLocked s t)⟩
  | fsyncMissed => exact ⟨_, rfl, whenRunning _ (fsyncMissed s)⟩
  | fsyncInFreerun t rx => exact ⟨_, rfl, whenRunning _ (fsyncFreerun s t rx)⟩
  | candidatePositionPassed => exact ⟨_, rfl, whenRunning _ (candidatePassed s)⟩
  | frameBoundary rx => exact ⟨_, rfl, whenRunning _ (boundary s _ _ _)⟩
  | clearDownRunOut => exact ⟨_, rfl, whenRunning _ (runOut s)⟩
  | clearanceOrder => exact ⟨_, rfl, whenRunning _ (clearanceOrder s)⟩
  | boundaryReport => exact ⟨_, rfl, claimReport s⟩
  | tokenNotice u b => exact ⟨_, rfl, whenRunning _ (takeNotice s u b)⟩
  | clearDownEnd => exact ⟨_, rfl, claimClearDownEnd s⟩
  | laneFrameJudgement l => exact ⟨_, rfl, whenRunning _ (judgeLane s l)⟩
  | laneChangeClaim l => exact ⟨_, rfl, claimLane s l⟩
  | watcherLaneChangeReport l => exact ⟨_, rfl, whenRunning _ (watcherLane s l)⟩
  | verifierLaneChangeReport l => exact ⟨_, rfl, whenRunning _ (verifierLane s l)⟩
  | leaseEvent => exact ⟨_, rfl, whenRunning _ same⟩
  | expiryClaim => exact ⟨_, rfl, claimExpiry s⟩
  | tokenFrameEnd u => exact ⟨_, rfl, whenRunning _ (tokenFrameEnd s u)⟩
  | verifyTimeout u => exact ⟨_, rfl, whenRunning _ (verifyTimeout s u)⟩
  | detectedOutcome | verifyFailureOutcome => exact ⟨_, rfl, claimOutcome s _⟩
  | watcherSample w => exact ⟨_, rfl, whenRunning _ (sampleWatcher s _)⟩
  | intervalEnd w => exact ⟨_, rfl, whenRunning _ (endInterval s _)⟩
  | releaseLinkedClaim | holdLinkedClaim | suppressionClaim | accessClaim | endOfAccessClaim => exact ⟨_, rfl, claimAction s _⟩
  | armingOrder => exact ⟨_, rfl, whenRunning _ (takeArm s)⟩
  | disarmingOrder => exact ⟨_, rfl, whenRunning _ (takeDisarm s)⟩
  | returnOrder => exact ⟨_, rfl, whenRunning _ (takeReturn s)⟩
  | softResetClaim => exact ⟨_, rfl, softResetClaim s⟩
  | watcherSoftResetOrder => exact ⟨_, rfl, whenRunning _ (watcherReset s)⟩
  | attentionSoftResetOrder => exact ⟨_, rfl, whenRunning _ (attentionReset s)⟩
  | softResetAcknowledgement b => exact ⟨_, rfl, whenRunning _ (withPort fun h => h.takeAck b)⟩
  | clearanceDoneReport => exact ⟨_, rfl, whenRunning _ (takeCleared s)⟩
  | attentionRaise b => exact ⟨_, rfl, whenRunning _ (takeRaise s b)⟩

end State.Keeps

end Sys2Proof.Machine

/-! SUPPORT. The part before it runs (10 R203), the events of its pins, and the port status (10.8); and what every step keeps: the routing queues, the
list, and the hard-reset values until the end of tINIT. -/

namespace Sys2Proof.Machine

set_option Elab.async false

/-! ### Before the run no block acts (10 R203) -/

section Stopped
variable {s : State} (h : s.phase ≠ .run)
include h

theorem whenRunning_stopped (f : State → State) : s.whenRunning f = s := if_neg h

theorem managerFree_stopped : s.managerFree = false := by simp [State.managerFree, State.running, h]

theorem ownerTakes_stopped (o : Owner) (kind : Byte) (len : Nat) (f : Request → State → State) : s.ownerTakes o kind len f = s := by
  simp [State.ownerTakes, State.running, h]

/-- Every command but a port transaction or an event of the pins finds nothing to do (R203). -/
theorem exec_stopped {c : Instr} (ht : transactionOf c = none) (hp : isPinEvent c = false) : exec c s = .next s := by
  have stays {t : State} (e : t = s) : Host.Outcome.next t = (Host.Outcome.next s : Result) := congrArg _ e
  have hm := managerFree_stopped h
  cases c with
  | readStatus | writeSlot | readSlot | submit | clearSlot | clearPortFaults => cases ht
  | hardReset | rstNRelease | tinitEnd | oeNChange => cases hp
  | unknownTransactionCode code mosi =>
    refine stays (if_pos ?_)
    simpa [transactionOf] using ht
  | openCircuit | openPair | addLeg | dropLeg | moveSource | hold | resume | release | touch | query | findOut | findIn | accessEnd =>
    exact stays (managerRequest_busy hm _)
  | genSet | laneSet | laneQuery | watchSet | watchArm | watchDisarm | watchQuery | collect | maskSet | config | ident | softReset =>
    exact stays (ownerTakes_stopped h _ _ _ _)
  | boundaryReport => exact stays (claimReport_busy hm)
  | clearDownEnd => exact stays (claimClearDownEnd_busy hm)
  | expiryClaim => exact stays (claimExpiry_busy hm)
  | laneChangeClaim l => exact stays (claimLane_busy hm l)
  | detectedOutcome | verifyFailureOutcome => exact stays (claimOutcome_busy hm _)
  | releaseLinkedClaim | holdLinkedClaim | suppressionClaim | accessClaim | endOfAccessClaim => exact stays (claimAction_busy hm _)
  | softResetClaim => exact stays (softResetClaim_busy hm)
  | heldClaimTaken | fsyncInLocked | fsyncMissed | fsyncInFreerun | candidatePositionPassed | frameBoundary | clearDownRunOut | clearanceOrder |
    tokenNotice | laneFrameJudgement | watcherLaneChangeReport | verifierLaneChangeReport | leaseEvent | tokenFrameEnd | verifyTimeout |
    watcherSample | intervalEnd | armingOrder | disarmingOrder | returnOrder | watcherSoftResetOrder | attentionSoftResetOrder |
    softResetAcknowledgement | clearanceDoneReport | attentionRaise => exact stays (whenRunning_stopped h _)

end Stopped

/-! ### Transactions (10 R185, R203) -/

/-- A transaction that gives no bytes of its own sends 00h after the status byte (log 33). -/
theorem send_nil (s : State) (mosi : List Byte) :
    s.send mosi [] = { s with port := { s.port with miso := status0 s :: List.replicate mosi.length 0 } } := by
  simp [State.send]

theorem transact_reset {s : State} (h : s.phase = .reset) (mosi payload : List Byte) (f : State → State) : s.transact mosi payload f = s := by
  simp only [State.transact, h]

theorem transact_init {s : State} (h : s.phase = .init) (mosi payload : List Byte) (f : State → State) :
    s.transact mosi payload f = (s.send mosi []).badTransaction := by
  simp only [State.transact, h]

theorem transact_run {s : State} (h : s.phase = .run) (mosi payload : List Byte) (f : State → State) :
    s.transact mosi payload f = f (s.send mosi payload) := by
  simp only [State.transact, h]

theorem transactionOf_unknown (code : Byte) (mosi : List Byte) :
    transactionOf (.unknownTransactionCode code mosi) = if knownCode code then none else some mosi := rfl

/-- A transaction is READ_STATUS, or one that is ignored while RST_N is low and sets BAD_TRANSACTION during tINIT. -/
theorem exec_transaction {c : Instr} {mosi : List Byte} (ht : transactionOf c = some mosi) (s : State) :
    c = .readStatus mosi ∨ ∃ payload f, exec c s = .next (s.transact mosi payload f) := by
  cases c with
  | readStatus m => cases ht; exact .inl rfl
  | writeSlot n m | readSlot n m | submit n m | clearSlot n m | clearPortFaults m => cases ht; exact .inr ⟨_, _, rfl⟩
  | unknownTransactionCode code m =>
    rw [transactionOf_unknown] at ht
    split at ht
    · cases ht
    · next hk =>
      cases ht
      exact .inr ⟨[], State.badTransaction, congrArg Host.Outcome.next (if_neg hk)⟩
  | _ => cases ht

/-- While RST_N is low the port ignores every transaction (R203). -/
theorem exec_transaction_reset {c : Instr} {mosi : List Byte} {s : State} (ht : transactionOf c = some mosi) (h : s.phase = .reset) :
    exec c s = .next s := by
  rcases exec_transaction ht s with rfl | ⟨payload, f, he⟩
  · exact congrArg Host.Outcome.next (if_pos h)
  · rw [he, transact_reset h]

/-- During tINIT every transaction but READ_STATUS sets BAD_TRANSACTION (R203). -/
theorem exec_transaction_init {c : Instr} {mosi : List Byte} {s : State} (ht : transactionOf c = some mosi) (hc : ∀ m, c ≠ .readStatus m)
    (h : s.phase = .init) : exec c s = .next { s with port := { s.port with
      miso := status0 s :: List.replicate mosi.length 0
      faults := { s.port.faults with badTransaction := true } } } := by
  rcases exec_transaction ht s with rfl | ⟨payload, f, he⟩
  · exact absurd rfl (hc mosi)
  · rw [he, transact_init h, send_nil]
    rfl

theorem phase_init {s : State} (h : s.phase ≠ .reset) (h' : s.phase ≠ .run) : s.phase = .init := by
  cases hp : s.phase with
  | reset => exact absurd hp h
  | init => rfl
  | run => exact absurd hp h'

theorem exec_readStatus {s : State} (h : s.phase ≠ .reset) (mosi : List Byte) : exec (.readStatus mosi) s = .next (s.send mosi s.statusReply) :=
  congrArg Host.Outcome.next (if_neg h)

/-- Before the run a transaction writes nothing but the port fault flags and the bytes sent. -/
theorem exec_transaction_stopped {c : Instr} {mosi : List Byte} {s : State} (ht : transactionOf c = some mosi) (h : s.phase ≠ .run) :
    ∃ faults miso, exec c s = .next { s with port := { s.port with faults := faults, miso := miso } } := by
  by_cases hp : s.phase = .reset
  · exact ⟨s.port.faults, s.port.miso, exec_transaction_reset ht hp⟩
  · by_cases hc : ∃ m, c = .readStatus m
    · obtain ⟨m, rfl⟩ := hc
      exact ⟨s.port.faults, _, exec_readStatus hp m⟩
    · exact ⟨_, _, exec_transaction_init ht (fun m hm => hc ⟨m, hm⟩) (phase_init hp h)⟩

/-! ### The events of the pins (10 R203, R205) -/

theorem exec_rstNRelease {s : State} (h : s.phase = .reset) : exec .rstNRelease s = .next { s with phase := .init } :=
  congrArg Host.Outcome.next (if_pos h)

theorem exec_tinitEnd {s : State} (h : s.phase = .init) :
    exec .tinitEnd s = .next { s with phase := .run, lease := { s.lease with nextAt := 24576000 } } :=
  congrArg Host.Outcome.next (if_pos h)

theorem exec_rstNRelease_other {s : State} (h : s.phase ≠ .reset) : exec .rstNRelease s = .next s := congrArg Host.Outcome.next (if_neg h)

theorem exec_tinitEnd_other {s : State} (h : s.phase ≠ .init) : exec .tinitEnd s = .next s := congrArg Host.Outcome.next (if_neg h)

/-- An event of the pins is one of four: every block at its hard-reset values, or a change of phase, of the lease clock or of the pin alone. -/
theorem exec_pinEvent {c : Instr} (hc : isPinEvent c = true) (s : State) :
    (∃ b, exec c s = .next { State.reset with pending := s.pending, oeHigh := b }) ∨
      ∃ p l b, exec c s = .next { s with phase := p, lease := l, oeHigh := b } := by
  cases c with
  | hardReset => exact .inl ⟨s.oeHigh, rfl⟩
  | rstNRelease =>
    by_cases h : s.phase = .reset
    · exact .inr ⟨.init, s.lease, s.oeHigh, exec_rstNRelease h⟩
    · exact .inr ⟨s.phase, s.lease, s.oeHigh, exec_rstNRelease_other h⟩
  | tinitEnd =>
    by_cases h : s.phase = .init
    · exact .inr ⟨.run, _, s.oeHigh, exec_tinitEnd h⟩
    · exact .inr ⟨s.phase, s.lease, s.oeHigh, exec_tinitEnd_other h⟩
  | oeNChange high => exact .inr ⟨s.phase, s.lease, high, rfl⟩
  | _ => cases hc

/-! ### What every step keeps -/

theorem routed_reset : State.reset.port.Routed := .of_nil rfl fun n h => by cases h

theorem listInRoom_reset : State.reset.listInRoom := ⟨Nat.zero_le _, List.nodup_nil⟩

/-- Every command keeps the routing queues and the list, those of the pins too. -/
theorem exec_keepsMessages (c : Instr) (s : State) : ∃ t, exec c s = .next t ∧ t.pending = s.pending ∧ (s.port.Routed → t.port.Routed) ∧
    (s.listInRoom → t.listInRoom) ∧ (s.heldHasOffer → t.heldHasOffer) := by
  cases hc : isPinEvent c with
  | false =>
    obtain ⟨t, ht, hk⟩ := State.Keeps.exec s hc
    exact ⟨t, ht, hk.pending, hk.routed, hk.list, hk.held⟩
  | true =>
    rcases exec_pinEvent hc s with ⟨b, he⟩ | ⟨p, l, b, he⟩
    · exact ⟨_, he, rfl, fun _ => routed_reset, fun _ => listInRoom_reset, fun _ => rfl⟩
    · exact ⟨_, he, rfl, id, id, id⟩

/-- The next state of a step is that of the command at the front, the queue's rest left, or the state itself. -/
theorem step_cases {s t : State} (h : step s = .next t) : t = s ∨ ∃ c rest, exec c { s with pending := rest } = .next t := by
  cases hp : s.pending with
  | nil => rw [step_nil hp] at h; cases h; exact .inl rfl
  | cons c rest => rw [step_cons hp] at h; exact .inr ⟨c, rest, h⟩

theorem step_keepsMessages {s t : State} (h : step s = .next t) : (s.port.Routed → t.port.Routed) ∧ (s.listInRoom → t.listInRoom) ∧
    (s.heldHasOffer → t.heldHasOffer) := by
  obtain rfl | ⟨c, rest, he⟩ := step_cases h
  · exact ⟨id, id, id⟩
  · obtain ⟨t', ht, _, hr, hl, hh⟩ := exec_keepsMessages c { s with pending := rest }
    obtain rfl : t' = t := Host.Outcome.next.inj (ht.symm.trans he)
    exact ⟨hr, hl, hh⟩

/-- Settles O2: every command answers, the events of the pins and the others. -/
theorem everyCommandAnswersNext : Obligations.EveryCommandAnswersNext := fun c s =>
  let ⟨t, ht, hp, _⟩ := exec_keepsMessages c s
  ⟨t, ht, hp⟩

/-- Settles O57: each command keeps the queues, the list and the held claim by the operations it is made of. -/
theorem stepsKeepTheQueuesAndTheList : Obligations.StepsKeepTheQueuesAndTheList := by
  refine ⟨fun s t hr h => ?_, fun s t ⟨hl, hh⟩ h => ?_⟩ <;> obtain ⟨kr, kl, kh⟩ := step_keepsMessages h
  · exact (routed_iff t).2 (kr ((routed_iff s).1 hr))
  · exact ⟨kl hl, kh hh⟩

/-! ### Quiet until the end of tINIT (10 R203) -/

/-- The part at its hard-reset values but for the queue of commands, the phase, the pin, the port faults and the bytes sent. -/
def State.quiet (q : List Instr) (p : Phase) (b : Bool) (f : PortFaults) (m : List Byte) : State :=
  { State.reset with pending := q, phase := p, oeHigh := b, port := { Port.initial with faults := f, miso := m } }

/-- A quiet part stays quiet, or runs at the end of tINIT. -/
theorem exec_quiet (c : Instr) (q : List Instr) {p : Phase} (b : Bool) (f : PortFaults) (m : List Byte) (hp : p ≠ .run) :
    ∃ t, exec c (State.quiet q p b f m) = .next t ∧ t.quietUntilRun := by
  have quiet (q p b f m) : (State.quiet q p b f m).quietUntilRun := fun _ => rfl
  cases hc : isPinEvent c with
  | false =>
    cases ht : transactionOf c with
    | none => exact ⟨_, exec_stopped hp ht hc, quiet _ _ _ _ _⟩
    | some mosi =>
      obtain ⟨faults, miso, he⟩ := exec_transaction_stopped (s := State.quiet q p b f m) ht hp
      exact ⟨_, he, quiet q p b faults miso⟩
  | true =>
    cases c with
    | hardReset => exact ⟨_, rfl, quiet q .reset b _ _⟩
    | rstNRelease =>
      cases p with
      | run => exact absurd rfl hp
      | reset => exact ⟨_, rfl, quiet q .init b f m⟩
      | init => exact ⟨_, rfl, quiet q .init b f m⟩
    | tinitEnd =>
      cases p with
      | run => exact absurd rfl hp
      | reset => exact ⟨_, rfl, quiet q .reset b f m⟩
      | init => exact ⟨_, rfl, fun h => absurd rfl h⟩
    | oeNChange high => exact ⟨_, rfl, quiet q p high f m⟩
    | _ => cases hc

/-- A running part runs on, or is reset. -/
theorem exec_running {c : Instr} {s : State} (h : s.phase = .run) : ∃ t, exec c s = .next t ∧ t.quietUntilRun := by
  have runs {t : State} (ht : t.phase = .run) : t.quietUntilRun := fun hn => absurd ht hn
  cases hc : isPinEvent c with
  | false =>
    obtain ⟨t, ht, hk⟩ := State.Keeps.exec s hc
    exact ⟨t, ht, runs (hk.phase.trans h)⟩
  | true =>
    cases c with
    | hardReset => exact ⟨_, rfl, fun _ => rfl⟩
    | rstNRelease => exact ⟨s, exec_rstNRelease_other (by rw [h]; decide), runs h⟩
    | tinitEnd => exact ⟨s, exec_tinitEnd_other (by rw [h]; decide), runs h⟩
    | oeNChange high => exact ⟨_, rfl, runs h⟩
    | _ => cases hc

/-- Settles O60: before the run only the pins and the port act, and a running part leaves the run by RST_N alone. -/
theorem stepsKeepThePartQuietUntilItRuns : Obligations.StepsKeepThePartQuietUntilItRuns := by
  intro s t hs h
  obtain rfl | ⟨c, rest, he⟩ := step_cases h
  · exact hs
  · suffices hnext : ∃ t', exec c { s with pending := rest } = .next t' ∧ t'.quietUntilRun by
      obtain ⟨t', ht, hq⟩ := hnext
      obtain rfl : t' = t := Host.Outcome.next.inj (ht.symm.trans he)
      exact hq
    by_cases hr : s.phase = .run
    · exact exec_running hr
    · rw [hs hr]
      exact exec_quiet c rest s.oeHigh s.port.faults s.port.miso hr

/-! ### RST_N, the end of tINIT and OE_N (10 R203, R205) -/

/-- During tINIT every slot shows EMPTY (R203). -/
theorem statusReply_stopped {s : State} (h : s.phase ≠ .run) : s.statusReply = [status0 s, 0, 0] := by
  have hr : s.running = false := decide_eq_false h
  rw [State.statusReply, hr]
  rfl

/-- OE_N high makes the outbound lanes high-impedance (R205). -/
theorem lout_high {s : State} (h : s.oeHigh = true) (k : Slot) : s.lout k = none := if_pos h

/-- Before the run the outbound lanes carry FFh. -/
theorem lout_stopped {s : State} (ho : s.oeHigh = false) (h : s.phase ≠ .run) (k : Slot) : s.lout k = some 0xFF := by
  rw [State.lout, ho, if_neg (by decide), if_neg fun hc => h hc.1]

/-! ### The port status (10 R186, 10.8) -/

/-- A byte made of eight bits, each in its place. -/
theorem getLsbD_bitNat (b7 b6 b5 b4 b3 b2 b1 b0 : Bool) :
    let b := BitVec.ofNat 8 (bitNat b7 7 + bitNat b6 6 + bitNat b5 5 + bitNat b4 4 + bitNat b3 3 + bitNat b2 2 + bitNat b1 1 + bitNat b0 0)
    b.getLsbD 7 = b7 ∧ b.getLsbD 6 = b6 ∧ b.getLsbD 5 = b5 ∧ b.getLsbD 4 = b4 ∧ b.getLsbD 3 = b3 ∧ b.getLsbD 2 = b2 ∧ b.getLsbD 1 = b1 ∧
      b.getLsbD 0 = b0 := by
  revert b7 b6 b5 b4 b3 b2 b1 b0
  decide

/-- The bits of byte 0 of the port status (10.8). -/
theorem getLsbD_status0 (s : State) :
    (status0 s).getLsbD 7 = decide (s.phase ≠ .run) ∧ (status0 s).getLsbD 6 = attnLow s ∧ (status0 s).getLsbD 5 = s.sw.locked ∧
      (status0 s).getLsbD 4 = s.port.soft.isSome ∧ (status0 s).getLsbD 3 = s.port.faults.writeRefused ∧
      (status0 s).getLsbD 2 = s.port.faults.submitRefused ∧ (status0 s).getLsbD 1 = s.port.faults.clearRefused ∧
      (status0 s).getLsbD 0 = s.port.faults.badTransaction := getLsbD_bitNat _ _ _ _ _ _ _ _

/-- Bytes 1 and 2 of the port status: the codes of two slot states (10.8). -/
theorem toNat_statusSlots (p : Port) (a b : Fin 4) :
    (statusSlots p a b).toNat = (p.slot a).st.toCode * 16 + (p.slot b).st.toCode := by
  have hcode (st : SlotState) : st.toCode ≤ 4 := by cases st <;> decide
  have ha := hcode (p.slot a).st
  have hb := hcode (p.slot b).st
  rw [statusSlots, BitVec.toNat_ofNat]
  omega

/-! ### The statements -/

/-- Settles O3: the events of the pins by their equations, and a part that does not run by `exec_transaction` and `exec_stopped`. -/
theorem pinEventsAndTheQuietBeforeTheRun : Obligations.PinEventsAndTheQuietBeforeTheRun := by
  refine ⟨fun s => ⟨rfl, exec_rstNRelease, exec_tinitEnd, fun _ => rfl, fun k h => lout_high h k, fun k ho h => lout_stopped ho h k⟩,
    fun c mosi s ht h => exec_transaction_reset ht h, fun mosi s h => ?_, fun c mosi s ht hc h => exec_transaction_init ht hc h,
    fun c s ht hp h => exec_stopped h ht hp⟩
  have hrun : s.phase ≠ .run := by rw [h]; decide
  obtain ⟨h7, _⟩ := getLsbD_status0 s
  exact ⟨statusReply_stopped hrun ▸ exec_readStatus (by rw [h]; decide) mosi, h7.trans (decide_eq_true hrun)⟩

/-- Settles O4: the bytes sent are the reply of a running part, and byte 0 is read bit by bit. -/
theorem readStatusSendsThePortStatus : Obligations.ReadStatusSendsThePortStatus := by
  intro mosi s h
  have hreply : s.statusReply = [status0 s, statusSlots s.port 0 1, statusSlots s.port 2 3] := by
    rw [State.statusReply, State.running, decide_eq_true h]
    rfl
  obtain ⟨h7, h6, h5, h4, h3, h2, h1, h0⟩ := getLsbD_status0 s
  refine ⟨?_, h7.trans (by simp [h]), h6, h5, h4, h3, h2, h1, h0, toNat_statusSlots s.port⟩
  rw [exec_readStatus (by rw [h]; decide), hreply]
  rfl

/-- Settles O55: the reset state is tidy and in range, with nothing in the queues and the list. -/
theorem invariantsHoldAtReset : Obligations.InvariantsHoldAtReset := by
  obtain ⟨htables, hlegal⟩ := (tidy_iff _).1 tidy_reset
  obtain ⟨_, htiming, hbanks, hareas⟩ := (inRange_iff _).1 inRange_reset
  exact ⟨htables, (routed_iff _).2 routed_reset, listInRoom_reset, htiming, hbanks, hareas, rfl, hlegal, fun _ => rfl⟩

end Sys2Proof.Machine

/-! SUPPORT. The transactions of the control port (10 R187-R190): what each does to its slot and to the port faults, and a response area byte by byte. -/

namespace Sys2Proof.Machine

set_option Elab.async false

/-! ### Areas (10.3) -/

/-- Bytes filled up with 00h and cut to a length. -/
theorem getD_take_padded (l : List Byte) (m : Nat) {n i : Nat} (hi : i < n) : ((l ++ List.replicate m 0).take n).getD i 0 = l.getD i 0 := by
  simp only [List.getD_eq_getElem?_getD, List.getElem?_take, hi, if_true, List.getElem?_append, List.getElem?_replicate]
  split
  · rfl
  · next h =>
    rw [List.getElem?_eq_none (Nat.le_of_not_lt h)]
    split <;> rfl

/-- A whole response, when the results fit: header, results, and 00h to the end (10 R195). -/
theorem responseOf_eq (m : List Byte) (st : Status) {res : List Byte} (h : res.length ≤ 28) :
    responseOf m st res = [byteAt m 0, st.toByte, byteAt m 2, byteAt m 3] ++ res ++ List.replicate (28 - res.length) 0 := by
  unfold responseOf area32
  rw [List.take_append, List.take_of_length_le (by simp; omega), List.take_replicate]
  congr 2
  simp
  omega

/-- What WRITE_SLOT stores, place by place (10 R187). -/
theorem getD_storeBytes {area : List Byte} {off : Nat} (data : List Byte) (ha : area.length = 32) (ho : off < 32) {i : Nat} (hi : i < 32) :
    (storeBytes area off data).getD i 0 = if off ≤ i ∧ i < off + data.length then data.getD (i - off) 0 else area.getD i 0 := by
  have htake : (area.take off).length = off := by rw [List.length_take, ha]; omega
  simp only [storeBytes, List.getD_eq_getElem?_getD, List.getElem?_take, hi, if_true, List.append_assoc]
  by_cases h1 : i < off
  · rw [List.getElem?_append_left (by omega), if_neg (by omega), List.getElem?_take_of_lt h1]
  · rw [List.getElem?_append_right (by omega), htake]
    by_cases h2 : i < off + data.length
    · rw [List.getElem?_append_left (by omega), if_pos ⟨by omega, h2⟩]
    · rw [List.getElem?_append_right (by omega), if_neg (by omega), List.getElem?_drop, show off + data.length + (i - off - data.length) = i by omega]

/-! ### A running part (10 R185) -/

section Running
variable {s : State} (h : s.phase = .run) (n : Fin 4) (mosi : List Byte)
include h

theorem exec_writeSlot_nil : exec (.writeSlot n []) s = .next (s.send [] []) := congrArg Host.Outcome.next (transact_run h _ _ _)

theorem exec_writeSlot (off : Byte) (data : List Byte) :
    exec (.writeSlot n (off :: data)) s = .next ((s.send (off :: data) []).writeSlot n off.toNat data) :=
  congrArg Host.Outcome.next (transact_run h _ _ _)

theorem exec_submit : exec (.submit n mosi) s = .next ((s.send mosi []).submitSlot n) := congrArg Host.Outcome.next (transact_run h _ _ _)

theorem exec_clearSlot : exec (.clearSlot n mosi) s = .next ((s.send mosi []).emptySlot n) := congrArg Host.Outcome.next (transact_run h _ _ _)

theorem exec_clearPortFaults : exec (.clearPortFaults mosi) s = .next ((s.send mosi []).setFaults fun _ => ⟨false, false, false, false⟩) :=
  congrArg Host.Outcome.next (transact_run h _ _ _)

end Running

/-! ### WRITE_SLOT (10 R187) -/

section WriteSlot
variable {s : State} {n : Fin 4} {off : Nat} {data : List Byte}

/-- A slot in another state than EMPTY and LOADED stores nothing. -/
theorem writeSlot_refused (he : (s.port.slot n).st ≠ .empty) (hl : (s.port.slot n).st ≠ .loaded) :
    s.writeSlot n off data = s.setFaults fun f => { f with writeRefused := true } := if_neg (not_or.2 ⟨he, hl⟩)

variable (hst : (s.port.slot n).st = .empty ∨ (s.port.slot n).st = .loaded)
include hst

/-- Without data there is nothing to store. -/
theorem writeSlot_nothing (ho : off < 32) : s.writeSlot n off [] = s := by
  have hfit : writeFits off ([] : List Byte).length = true := decide_eq_true ⟨ho, by simp; omega⟩
  simp only [State.writeSlot, if_pos hst, hfit, if_true, ne_eq, not_true_eq_false, and_false, if_false]

/-- An offset that names no place. -/
theorem writeSlot_outside (ho : 32 ≤ off) : s.writeSlot n off data = s.badTransaction := by
  have hfit : writeFits off data.length = false := decide_eq_false fun hc => by omega
  have hout : ¬(off < 32 ∧ data ≠ []) := fun hc => by omega
  simp only [State.writeSlot, if_pos hst, hfit, if_neg hout, Bool.false_eq_true, if_false]

/-- Data from a place on: the bytes that fit are stored, and those that do not set BAD_TRANSACTION. -/
theorem writeSlot_stores (ho : off < 32) (hd : data ≠ []) : s.writeSlot n off data =
    (s.setSlot n { s.port.slot n with st := .loaded, request := storeBytes (s.port.slot n).request off data }).setFaults fun f =>
      { f with badTransaction := f.badTransaction || decide (32 < off + data.length) } := by
  simp only [State.writeSlot, if_pos hst, if_pos (And.intro ho hd)]
  by_cases hfit : 32 < off + data.length
  · have hw : writeFits off data.length = false := decide_eq_false fun hc => by omega
    simp only [hw, hfit, Bool.false_eq_true, if_false, decide_true, Bool.or_true]
    rfl
  · have hw : writeFits off data.length = true := decide_eq_true ⟨ho, by omega⟩
    simp only [hw, hfit, if_true, decide_false, Bool.or_false]
    rfl

end WriteSlot

/-- Settles O5: the rows of the table, each by its equation of `State.writeSlot`. -/
theorem writeSlotStoresTheBytesThatFit : Obligations.WriteSlotStoresTheBytesThatFit := by
  refine ⟨fun n s h => exec_writeSlot_nil h n, fun n off data s h hlen => ?_⟩
  rw [exec_writeSlot h n off data]
  refine ⟨fun hst => ⟨?_, fun ho => ?_, fun hd ho => ?_⟩, fun he hl => ?_⟩
  · rintro rfl ho
    exact congrArg Host.Outcome.next (writeSlot_nothing hst ho)
  · exact congrArg Host.Outcome.next (writeSlot_outside hst ho)
  · exact ⟨storeBytes (s.port.slot n).request off.toNat data, length_storeBytes data hlen ho, fun i hi => getD_storeBytes data hlen ho hi,
      congrArg Host.Outcome.next (writeSlot_stores hst ho hd)⟩
  · exact congrArg Host.Outcome.next (writeSlot_refused he hl)

/-! ### SUBMIT (10 R189, R193) -/

section SubmitSlot
variable {s : State} {n : Fin 4}

theorem submitSlot_routes {o : Owner} (hst : (s.port.slot n).st = .loaded) (ho : ownerOf (byteAt (s.port.slot n).request 0) = some o) :
    s.submitSlot n = { s with port := { s.port.setSlot n
      { s.port.slot n with st := .queued, response := List.replicate 32 0, sub := (s.port.slot n).sub + 1 } with
        queue := s.port.queue ++ [(o, n)] } } := by
  simp only [State.submitSlot, if_pos hst, ho]
  rfl

/-- A kind that names no request completes the slot (10 R193). -/
theorem submitSlot_unknown (hst : (s.port.slot n).st = .loaded) (ho : ownerOf (byteAt (s.port.slot n).request 0) = none) :
    s.submitSlot n = s.setSlot n { s.port.slot n with
      st := .done
      response := [byteAt (s.port.slot n).request 0, 0x01, byteAt (s.port.slot n).request 2, byteAt (s.port.slot n).request 3] ++ List.replicate 28 0
      sub := (s.port.slot n).sub + 1 } := by
  simp only [State.submitSlot, if_pos hst, ho, responseOf_eq (res := []) _ .badRequest (Nat.zero_le 28)]
  rfl

theorem submitSlot_refused (hst : (s.port.slot n).st ≠ .loaded) : s.submitSlot n = s.setFaults fun f => { f with submitRefused := true } :=
  if_neg hst

end SubmitSlot

/-- Settles O7: the three outcomes of `State.submitSlot`, each one write of the slot or of the faults. -/
theorem submitRoutesTheRequest : Obligations.SubmitRoutesTheRequest := by
  intro n mosi s h
  rw [exec_submit h, send_nil]
  refine ⟨fun hst o ho => ⟨_, congrArg _ (submitSlot_routes hst ho), rfl, (slot_setSlot_queue _ n n _ _).trans (if_pos rfl),
      fun m hm => (slot_setSlot_queue _ n m _ _).trans (if_neg hm), rfl⟩,
    fun hst ho => ⟨_, congrArg _ (submitSlot_unknown hst ho), rfl, slot_setSlot_same _ _ _, fun m hm => slot_setSlot_other s.port _ hm, rfl⟩,
    fun hst => congrArg _ (submitSlot_refused hst)⟩

/-! ### CLEAR_SLOT and CLEAR_PORT_FAULTS (10 R190) -/

section EmptySlot
variable {s : State} {n : Fin 4}

theorem emptySlot_clears (h : ¬((s.port.slot n).st = .queued ∨ (s.port.slot n).st = .working)) :
    s.emptySlot n = s.setSlot n ⟨.empty, List.replicate 32 0, List.replicate 32 0, (s.port.slot n).sub⟩ := if_neg h

theorem emptySlot_refused (h : (s.port.slot n).st = .queued ∨ (s.port.slot n).st = .working) :
    s.emptySlot n = s.setFaults fun f => { f with clearRefused := true } := if_pos h

end EmptySlot

/-- Settles O8: the two outcomes of `State.emptySlot`, and the faults cleared. -/
theorem clearsEmptyASlotOrTheFaults : Obligations.ClearsEmptyASlotOrTheFaults := by
  intro n mosi s h
  rw [exec_clearSlot h, exec_clearPortFaults h, send_nil]
  refine ⟨fun hst => ?_, fun hst => congrArg _ (emptySlot_refused hst), rfl⟩
  have hfree : ¬((s.port.slot n).st = .queued ∨ (s.port.slot n).st = .working) := by rcases hst with e | e | e <;> rw [e] <;> decide
  exact ⟨_, congrArg _ (emptySlot_clears hfree), rfl, slot_setSlot_same _ _ _, fun m hm => slot_setSlot_other s.port _ hm⟩

end Sys2Proof.Machine

/-! SUPPORT. READ_SLOT (10 R188), the code bytes, and the bits on MISO (10 R185): what the pin carries is what the transaction sends. -/

namespace Sys2Proof.Machine

set_option Elab.async false

/-! ### Code bytes (10 R185) -/

section Codes
variable {code : Byte} {n : Fin 4}

/-- A code byte is known by its number. -/
theorem code_eq {k : Nat} (h : code.toNat = k) : code = BitVec.ofNat 8 k := by rw [← h, BitVec.ofNat_toNat, BitVec.setWidth_eq]

theorem portCommand_writeSlot (h : code.toNat = 0x10 + n.val) (mosi : List Byte) : portCommand code mosi = .writeSlot n mosi := by
  rw [code_eq h]
  fin_cases n <;> rfl

theorem portCommand_submit (h : code.toNat = 0x20 + n.val) (mosi : List Byte) : portCommand code mosi = .submit n mosi := by
  rw [code_eq h]
  fin_cases n <;> rfl

theorem portCommand_readSlot (h : code.toNat = 0x30 + n.val) (mosi : List Byte) : portCommand code mosi = .readSlot n mosi := by
  rw [code_eq h]
  fin_cases n <;> rfl

theorem portCommand_clearSlot (h : code.toNat = 0x40 + n.val) (mosi : List Byte) : portCommand code mosi = .clearSlot n mosi := by
  rw [code_eq h]
  fin_cases n <;> rfl

/-- A code that stands for no transaction. -/
theorem portCommand_unknown (h5 : code ≠ 0x5A) (h6 : code ≠ 0x6C)
    (hslots : ∀ (n : Fin 4) (b : Nat), b ∈ [0x10, 0x20, 0x30, 0x40] → code.toNat ≠ b + n.val) (mosi : List Byte) :
    portCommand code mosi = .unknownTransactionCode code mosi := by
  unfold portCommand
  rw [if_neg h5, if_neg h6]
  split
  · next hlt =>
    have other (b : Nat) (hb : b ∈ [0x10, 0x20, 0x30, 0x40]) : code.toNat ≠ b + code.toNat % 16 := hslots ⟨_, hlt⟩ b hb
    split
    · exact absurd (by omega) (other 0x10 (by simp))
    · exact absurd (by omega) (other 0x20 (by simp))
    · exact absurd (by omega) (other 0x30 (by simp))
    · exact absurd (by omega) (other 0x40 (by simp))
    · rfl
  · rfl

theorem knownCode_unknown (h : ∀ mosi, portCommand code mosi = .unknownTransactionCode code mosi) : knownCode code = false := by
  unfold knownCode
  rw [h]

/-- What a code byte names. -/
theorem portCommand_cases (code : Byte) :
    (∀ mosi, portCommand code mosi = .readStatus mosi) ∨ (∀ mosi, portCommand code mosi = .clearPortFaults mosi) ∨
    (∃ n, ∀ mosi, portCommand code mosi = .writeSlot n mosi) ∨ (∃ n, ∀ mosi, portCommand code mosi = .submit n mosi) ∨
    (∃ n, ∀ mosi, portCommand code mosi = .readSlot n mosi) ∨ (∃ n, ∀ mosi, portCommand code mosi = .clearSlot n mosi) ∨
    ∀ mosi, portCommand code mosi = .unknownTransactionCode code mosi := by
  by_cases h5 : code = 0x5A
  · exact .inl fun mosi => h5 ▸ rfl
  by_cases h6 : code = 0x6C
  · exact .inr (.inl fun mosi => h6 ▸ rfl)
  refine .inr (.inr ?_)
  by_cases h1 : ∃ n : Fin 4, code.toNat = 0x10 + n.val
  · exact .inl (h1.imp fun n => portCommand_writeSlot)
  by_cases h2 : ∃ n : Fin 4, code.toNat = 0x20 + n.val
  · exact .inr (.inl (h2.imp fun n => portCommand_submit))
  by_cases h3 : ∃ n : Fin 4, code.toNat = 0x30 + n.val
  · exact .inr (.inr (.inl (h3.imp fun n => portCommand_readSlot)))
  by_cases h4 : ∃ n : Fin 4, code.toNat = 0x40 + n.val
  · exact .inr (.inr (.inr (.inl (h4.imp fun n => portCommand_clearSlot))))
  refine .inr (.inr (.inr (.inr (portCommand_unknown h5 h6 fun n b hb he => ?_))))
  simp only [List.mem_cons, List.not_mem_nil, or_false] at hb
  rcases hb with rfl | rfl | rfl | rfl
  · exact h1 ⟨n, he⟩
  · exact h2 ⟨n, he⟩
  · exact h3 ⟨n, he⟩
  · exact h4 ⟨n, he⟩

end Codes

/-! ### The bytes that a transaction sends (10 R185-R188) -/

/-- What the part sends after the code byte of a transaction, 00h following. -/
def State.replyTo (s : State) : Instr → List Byte
  | .readStatus _ => s.statusReply
  | .readSlot n mosi => if s.running then readBytes (s.port.slot n).response mosi else []
  | _ => []

theorem reply_cons (s : State) (code : Byte) (mosi : List Byte) : s.reply (code :: mosi) = s.replyTo (portCommand code mosi) := by
  simp only [State.reply, portTransaction]
  cases portCommand code mosi <;> rfl

/-- A byte is sent alike under the bytes received before it and under all of them (R185). -/
theorem getD_replyTo_take (s : State) (code : Byte) {mosi : List Byte} {k : Nat} (hk : k < mosi.length) :
    (s.replyTo (portCommand code (mosi.take k))).getD k 0 = (s.replyTo (portCommand code mosi)).getD k 0 := by
  have hread (area : List Byte) : (readBytes area (mosi.take k)).getD k 0 = (readBytes area mosi).getD k 0 := by
    cases mosi with
    | nil => exact absurd hk (Nat.not_lt_zero k)
    | cons off more =>
      cases k with
      | zero => rfl
      | succ k => rfl
  rcases portCommand_cases code with h | h | ⟨n, h⟩ | ⟨n, h⟩ | ⟨n, h⟩ | ⟨n, h⟩ | h <;> rw [h, h]
  case inr.inr.inr.inr.inl =>
    simp only [State.replyTo]
    split
    · exact hread _
    · rfl
  all_goals rfl

theorem writeSlot_miso (s : State) (n : Fin 4) (off : Nat) (data : List Byte) : (s.writeSlot n off data).port.miso = s.port.miso := by
  unfold State.writeSlot
  simp only
  split
  · split <;> split <;> rfl
  · rfl

theorem submitSlot_miso (s : State) (n : Fin 4) : (s.submitSlot n).port.miso = s.port.miso := by
  unfold State.submitSlot
  simp only
  split
  · split <;> rfl
  · rfl

theorem emptySlot_miso (s : State) (n : Fin 4) : (s.emptySlot n).port.miso = s.port.miso := by
  unfold State.emptySlot
  simp only
  split <;> rfl

/-- A transaction whose effect writes no byte sent sends its payload, and during tINIT none. -/
theorem transact_miso {s : State} (h : s.phase ≠ .reset) (mosi payload : List Byte) {f : State → State}
    (hf : ∀ t : State, (f t).port.miso = t.port.miso) :
    (s.transact mosi payload f).port.miso =
      status0 s :: ((if s.running then payload else []) ++ List.replicate mosi.length 0).take mosi.length := by
  by_cases hr : s.phase = .run
  · rw [transact_run hr, hf, State.running, decide_eq_true hr]
    rfl
  · rw [transact_init (phase_init h hr), State.running, decide_eq_false hr]
    rfl

/-- A transaction sends the status byte, its reply, and 00h (R185; log 33). -/
theorem exec_portCommand_sends {s : State} (h : s.phase ≠ .reset) (code : Byte) (mosi : List Byte) :
    ∃ t, exec (portCommand code mosi) s = .next t ∧
      t.port.miso = status0 s :: (s.replyTo (portCommand code mosi) ++ List.replicate mosi.length 0).take mosi.length := by
  have silent {c : Instr} {f : State → State} (he : exec c s = .next (s.transact mosi [] f)) (hf : ∀ t : State, (f t).port.miso = t.port.miso)
      (hc : s.replyTo c = []) : ∃ t, exec c s = .next t ∧ t.port.miso = status0 s :: (s.replyTo c ++ List.replicate mosi.length 0).take mosi.length := by
    refine ⟨_, he, (transact_miso h mosi [] hf).trans ?_⟩
    rw [hc, ite_self]
  rcases portCommand_cases code with hc | hc | ⟨n, hc⟩ | ⟨n, hc⟩ | ⟨n, hc⟩ | ⟨n, hc⟩ | hc
  · rw [hc]
    exact ⟨_, exec_readStatus h mosi, rfl⟩
  · rw [hc]
    exact silent rfl (fun _ => rfl) rfl
  · rw [hc]
    refine silent rfl (fun t => ?_) rfl
    cases mosi with
    | nil => rfl
    | cons off data => exact writeSlot_miso _ _ _ _
  · rw [hc]
    exact silent rfl (fun t => submitSlot_miso t n) rfl
  · rw [hc]
    refine ⟨_, rfl, transact_miso h mosi _ fun t => ?_⟩
    cases mosi with
    | nil => rfl
    | cons off data =>
      show (if off.toNat < 32 then t else t.badTransaction).port.miso = t.port.miso
      split <;> rfl
  · rw [hc]
    exact silent rfl (fun t => emptySlot_miso t n) rfl
  · have hk : ¬knownCode code = true := by rw [knownCode_unknown hc]; decide
    rw [hc]
    exact silent (congrArg Host.Outcome.next (if_neg hk)) (fun _ => rfl) rfl

/-! ### Bits (10 R185) -/

/-- The bits of bytes up to one of them: those of the bytes before, and the part of the byte in progress. -/
theorem take_flatMap_bitsOf : ∀ (l : List Byte) {i : Nat}, i < 8 * l.length →
    ∃ part : List Bool, (l.flatMap bitsOf).take i = (l.take (i / 8)).flatMap bitsOf ++ part ∧ part.length = i % 8
  | [], i, h => absurd h (by simp)
  | b :: l, i, h => by
    by_cases hi : i < 8
    · have h0 : i / 8 = 0 := by omega
      have hm : i % 8 = i := by omega
      refine ⟨(bitsOf b).take i, ?_, ?_⟩
      · rw [List.flatMap_cons, List.take_append_of_le_length (by rw [length_bitsOf]; omega), h0]
        rfl
      · rw [List.length_take, length_bitsOf]
        omega
    · obtain ⟨part, hpart, hlen⟩ := take_flatMap_bitsOf l (i := i - 8) (by rw [List.length_cons] at h; omega)
      have hd : i / 8 = (i - 8) / 8 + 1 := by omega
      refine ⟨part, ?_, by omega⟩
      rw [List.flatMap_cons, List.take_append, length_bitsOf, hpart, hd, List.take_succ_cons, List.flatMap_cons,
        List.take_of_length_le (by rw [length_bitsOf]; omega), List.append_assoc]

/-- Bit i of bytes, most significant first. -/
theorem getD_flatMap_bitsOf : ∀ (l : List Byte) {i : Nat}, i < 8 * l.length →
    (l.flatMap bitsOf).getD i false = (l.getD (i / 8) 0).getLsbD (7 - i % 8)
  | [], i, h => absurd h (by simp)
  | b :: l, i, h => by
    by_cases hi : i < 8
    · rw [List.flatMap_cons, List.getD_append _ _ _ _ (by rw [length_bitsOf]; exact hi), show i / 8 = 0 by omega, show i % 8 = i by omega,
        List.getD_cons_zero, bitsOf, List.getD_eq_getElem?_getD, List.getElem?_map, List.getElem?_range hi]
      rfl
    · rw [List.flatMap_cons, List.getD_append_right _ _ _ _ (by rw [length_bitsOf]; omega), length_bitsOf,
        getD_flatMap_bitsOf l (by rw [List.length_cons] at h; omega), show i / 8 = (i - 8) / 8 + 1 by omega, List.getD_cons_succ,
        show (i - 8) % 8 = i % 8 by omega]

/-- MISO carries, bit by bit, what the transaction sends (R185). -/
theorem misoPin_sends {s : State} (h : s.phase ≠ .reset) (code : Byte) (mosi : List Byte) {i : Nat} (hi : i < 8 * (mosi.length + 1)) :
    s.misoPin (some (((code :: mosi).flatMap bitsOf).take i)) =
      some (((status0 s :: (s.replyTo (portCommand code mosi) ++ List.replicate mosi.length 0).take mosi.length).flatMap bitsOf).getD i false) := by
  have hlen : (status0 s :: (s.replyTo (portCommand code mosi) ++ List.replicate mosi.length 0).take mosi.length).length = mosi.length + 1 := by simp
  obtain ⟨part, hpart, hp⟩ := take_flatMap_bitsOf (code :: mosi) hi
  rw [hpart, misoPin_bit h _ (by rw [hp]; exact Nat.mod_lt _ (by decide)), getD_flatMap_bitsOf _ (by rw [hlen]; exact hi), hp, List.length_take,
    List.length_cons, Nat.min_eq_left (by omega)]
  congr 2
  cases hd : i / 8 with
  | zero => rfl
  | succ k =>
    have hk : k < mosi.length := by omega
    rw [List.getD_cons_succ, List.getD_cons_succ, List.take_succ_cons, reply_cons, getD_replyTo_take s code hk, getD_take_padded _ _ hk]

/-! ### READ_SLOT (10 R188) -/

theorem exec_readSlot {s : State} (h : s.phase = .run) (n : Fin 4) (off : Byte) (more : List Byte) :
    exec (.readSlot n (off :: more)) s = .next { s with port := { s.port with
      miso := status0 s :: 0 :: ((s.port.slot n).response.drop off.toNat ++ List.replicate (more.length + 1) 0).take more.length
      faults := { s.port.faults with badTransaction := s.port.faults.badTransaction || decide (31 < off.toNat) } } } := by
  refine (congrArg Host.Outcome.next (transact_run h _ _ _)).trans ?_
  by_cases ho : off.toNat < 32
  · have hin : ¬31 < off.toNat := by omega
    simp only [ho, hin, if_true, decide_false, Bool.or_false]
    rfl
  · have hout : 31 < off.toNat := by omega
    simp only [ho, hout, if_false, decide_true, Bool.or_true]
    rfl

/-- A code that names no transaction (R185). -/
theorem exec_unknownCode {s : State} (h : s.phase = .run) {code : Byte} (hk : knownCode code = false) (mosi : List Byte) :
    exec (.unknownTransactionCode code mosi) s = .next ((s.send mosi []).badTransaction) := by
  have hn : ¬knownCode code = true := by rw [hk]; decide
  exact congrArg Host.Outcome.next ((if_neg hn).trans (transact_run h _ _ _))

/-- Settles O6: READ_SLOT and an unknown code as whole transactions, the code bytes one by one, and the bits by bytes and parts of bytes. -/
theorem readSlotSendsTheResponseArea : Obligations.ReadSlotSendsTheResponseArea := by
  refine ⟨fun n s h => congrArg Host.Outcome.next (transact_run h _ _ _), fun n off more s h _ => ⟨_, ?_, fun i hi => ?_, exec_readSlot h n off more⟩,
    fun code mosi s h hk => ?_, fun code mosi => ⟨?_, ?_, fun n => ⟨fun h => portCommand_writeSlot h mosi, fun h => portCommand_submit h mosi,
      fun h => portCommand_readSlot h mosi, fun h => portCommand_clearSlot h mosi⟩, fun h5 h6 hslots => ?_⟩, fun b => rfl,
    fun part hp => ⟨?_, fun code mosi => ?_⟩, fun s => ⟨rfl, fun h bits => misoPin_reset h _, fun h part hp => misoPin_bit h [] hp⟩,
    fun code mosi s h => ?_⟩
  · rw [List.length_take, List.length_append, List.length_replicate]
    omega
  · rw [getD_take_padded _ _ hi, List.getD_eq_getElem?_getD, List.getElem?_drop, ← List.getD_eq_getElem?_getD]
  · rw [exec_unknownCode h hk, send_nil]
    rfl
  · rintro rfl
    rfl
  · rintro rfl
    rfl
  · have hu := portCommand_unknown h5 h6 hslots
    exact ⟨hu mosi, knownCode_unknown hu⟩
  · rw [portSelection, bytesOfBits_short hp]
    rfl
  · rw [portSelection, bytesOfBits_flatMap _ hp]
    rfl
  · obtain ⟨t, ht, hmiso⟩ := exec_portCommand_sends h code mosi
    refine ⟨t, ht, by rw [hmiso]; simp, fun i hi => ?_⟩
    rw [hmiso]
    exact misoPin_sends h code mosi hi

end Sys2Proof.Machine

/-! SUPPORT. Requests taken and answered (10 R192-R195), and every request as the taking of its owner; the request engine's own CONFIG and IDENT
(10 R197, R198). -/

namespace Sys2Proof.Machine

set_option Elab.async false

/-! ### Requests taken in order, and answered once (10 R192-R195, R200) -/

/-- What an owner reads of a message, up to its parameter length (10 R194). -/
theorem byteAt_readable (m : List Byte) {i : Nat} (hi : i < 4 + paramLength m) : byteAt (readable m) i = if i < 32 then byteAt m i else 0 := by
  unfold byteAt readable
  split
  · next h =>
    rw [area32, getD_take_padded _ _ h, List.getD_eq_getElem?_getD, List.getElem?_take_of_lt hi, ← List.getD_eq_getElem?_getD]
  · next h => exact List.getD_eq_default _ _ (by rw [length_area32]; omega)

section TakeRequest
variable {p : Port} {o : Owner} {kind : Byte} {pre post : List (Owner × Fin 4)} {n : Fin 4} (hq : p.queue = pre ++ (o, n) :: post)
  (hpre : ∀ x ∈ pre, x.1 ≠ o)
include hq hpre

theorem takeFirst_queue : takeFirst (fun x => decide (x.1 = o)) p.queue = some ((o, n), pre ++ post) := by
  rw [hq]
  exact takeFirst_append (decide_eq_true rfl) fun x hx => decide_eq_false (hpre x hx)

/-- The first request of an owner in the queues is taken when it is of the kind named. -/
theorem takeRequest_first (hk : byteAt (p.slot n).request 0 = kind) : p.takeRequest o kind = some (⟨n, (p.slot n).sub, readable (p.slot n).request⟩,
    ({ p with queue := pre ++ post } : Port).setSlot n { p.slot n with st := .working }) := by
  simp only [Port.takeRequest, takeFirst_queue hq hpre, if_pos hk]

theorem takeRequest_otherKind (hk : byteAt (p.slot n).request 0 ≠ kind) : p.takeRequest o kind = none := by
  simp only [Port.takeRequest, takeFirst_queue hq hpre, if_neg hk]

end TakeRequest

/-- Settles O9: the head of the owner's queue is the first that the queues show, and an answer writes the slot of a submission that is WORKING. -/
theorem requestsAreTakenInOrderAndAnsweredOnce : Obligations.RequestsAreTakenInOrderAndAnsweredOnce := by
  refine ⟨fun p o kind pre post n hq hpre => ⟨fun hk => ?_, takeRequest_otherKind hq hpre⟩,
    fun p n sub st results => ⟨fun hw hs hlen => ?_, fun h => ?_⟩⟩
  · exact ⟨_, _, takeRequest_first hq hpre hk, rfl, rfl, fun i hi => byteAt_readable _ hi, rfl, slot_setSlot_same _ _ _,
      fun m hm => slot_setSlot_other { p with queue := pre ++ post } _ hm⟩
  · refine ⟨_, answer_working st results hw hs, rfl, ?_, fun m hm => slot_setSlot_other p _ hm⟩
    rw [slot_setSlot_same, responseOf_eq _ _ hlen]
  · exact answer_other st results fun ⟨hw, hs⟩ => h.elim (fun hn => hn hw) fun hn => hn hs

/-! ### Every request, by its owner (10.7) -/

/-- A request of the circuit manager runs as a claim, and one of another owner through the checks of its owner. -/
theorem exec_request {c : Instr} {o : Owner} {kind : Byte} {len : Nat} (hx : (c, o, kind, len) ∈ requestKinds) (s : State) :
    (o = .manager ∧ exec c s = .next (s.managerRequest kind)) ∨ (o ≠ .manager ∧ ∃ f, exec c s = .next (s.ownerTakes o kind len f)) := by
  rcases List.mem_append.1 hx with hx | hx <;> simp only [List.mem_cons, List.not_mem_nil, or_false, Prod.mk.injEq] at hx
  · left
    iterate 12
      rcases hx with ⟨rfl, rfl, rfl, _⟩ | hx
      · exact ⟨rfl, rfl⟩
    obtain ⟨rfl, rfl, rfl, _⟩ := hx
    exact ⟨rfl, rfl⟩
  · right
    iterate 11
      rcases hx with ⟨rfl, rfl, rfl, rfl⟩ | hx
      · exact ⟨by decide, _, rfl⟩
    obtain ⟨rfl, rfl, rfl, rfl⟩ := hx
    exact ⟨by decide, _, rfl⟩

/-- The first check of a request of the circuit manager is that of its message as a whole (03 R43). -/
theorem effRequest_checked {c : Instr} {kind : Byte} {len : Nat} (hx : (c, .manager, kind, len) ∈ requestKinds) {r : Request}
    (hk : byteAt r.msg 0 = kind) (d : Defaults) (e : Eff) : ∃ (α : Type) (x : Option α) (f : α → Eff), effRequest d r e = e.checked r len x f := by
  simp only [requestKinds, List.cons_append, List.nil_append, List.mem_cons, Prod.mk.injEq, reduceCtorEq, false_and, and_false, or_false, true_and,
    List.not_mem_nil] at hx
  rcases hx with ⟨_, rfl, rfl⟩ | ⟨_, rfl, rfl⟩ | ⟨_, rfl, rfl⟩ | ⟨_, rfl, rfl⟩ | ⟨_, rfl, rfl⟩ | ⟨_, rfl, rfl⟩ | ⟨_, rfl, rfl⟩ | ⟨_, rfl, rfl⟩ |
    ⟨_, rfl, rfl⟩ | ⟨_, rfl, rfl⟩ | ⟨_, rfl, rfl⟩ | ⟨_, rfl, rfl⟩ | ⟨_, rfl, rfl⟩
  · exact ⟨_, _, _, effRequest_open d r e hk⟩
  · exact ⟨_, _, _, effRequest_openPair d r e hk⟩
  · exact ⟨_, _, _, effRequest_addLeg d r e hk⟩
  · exact ⟨_, _, _, effRequest_dropLeg d r e hk⟩
  · exact ⟨_, _, _, effRequest_moveSource d r e hk⟩
  · exact ⟨_, _, _, effRequest_hold d r e hk⟩
  · exact ⟨_, _, _, effRequest_resume d r e hk⟩
  · exact ⟨_, _, _, effRequest_release d r e hk⟩
  · exact ⟨_, _, _, effRequest_touch d r e hk⟩
  · exact ⟨_, _, _, effRequest_query d r e hk⟩
  · exact ⟨_, _, _, effRequest_findOut d r e hk⟩
  · exact ⟨_, _, _, effRequest_findIn d r e hk⟩
  · exact ⟨_, _, _, effRequest_accessEnd d r e hk⟩

theorem messageOk_malformed {len : Nat} {m : List Byte} (h : byteAt m 1 ≠ BitVec.ofNat 8 len) : ¬messageOk len m = true := by
  simpa [messageOk] using h

/-- A message that is malformed as a whole is refused before anything else (03 R43, 10 R194). -/
theorem checked_malformed {α : Type} {e : Eff} {r : Request} {len : Nat} {x : Option α} {f : α → Eff} (h : byteAt r.msg 1 ≠ BitVec.ofNat 8 len) :
    e.checked r len x f = e.refuse r .badRequest none := if_neg (messageOk_malformed h)

/-- Settles O10: the check of the whole message comes first, at the circuit manager within the claim and at every other owner before its own checks. -/
theorem malformedMessageIsBadRequest : Obligations.MalformedMessageIsBadRequest := by
  rintro ⟨c, o, kind, len⟩ hx s r p ht hm
  rcases exec_request hx s with ⟨rfl, he⟩ | ⟨ho, f, he⟩
  · rw [he, managerRequest_refused (st := .badRequest) (k := none) ht, if_pos rfl]
    · rfl
    · intro e _ d
      obtain ⟨α, x, f, hc⟩ := effRequest_checked hx (kind_of_takeRequest ht.head) d e
      exact hc.trans (checked_malformed hm)
  · rw [he, ownerTakes_takes len f ht, if_neg (messageOk_malformed hm), if_neg ho]

/-! ### CONFIG (10 R197) -/

section Config
variable {s : State} {r : Request} {p : Port}

theorem exec_config (ht : s.Takes .engine 0x30 r p) (hlen : byteAt r.msg 1 = 6) : exec .config s = .next (({ s with port := p } : State).configure r) :=
  congrArg Host.Outcome.next (ownerTakes_whole State.configure ht hlen)

theorem configure_reads (h : byteAt r.msg 4 = 0) : s.configure r = { s with port := s.port.answerRequest r .ok s.port.defaults.bytes } := by
  rw [State.configure, h]
  rfl

/-- The five defaults that a message asks for (10.8). -/
def Request.defaults (r : Request) : Defaults := ⟨byteAt r.msg 5, byteAt r.msg 6, byteAt r.msg 7, byteAt r.msg 8, (byteAt r.msg 9).toNat⟩

theorem bytes_defaults (r : Request) : r.defaults.bytes = [byteAt r.msg 5, byteAt r.msg 6, byteAt r.msg 7, byteAt r.msg 8, byteAt r.msg 9] := by
  simp [Defaults.bytes, Request.defaults]

theorem configure_writes (h : byteAt r.msg 4 = 1) (hc : (byteAt r.msg 9).toNat ≤ 200) : s.configure r = { s with
    port := ({ s.port with defaults := r.defaults } : Port).answerRequest r .ok [byteAt r.msg 5, byteAt r.msg 6, byteAt r.msg 7, byteAt r.msg 8,
      byteAt r.msg 9] } := by
  rw [State.configure, h, ← bytes_defaults]
  exact if_neg (Nat.not_lt.2 hc)

theorem configure_clearDown (h : byteAt r.msg 4 = 1) (hc : 200 < (byteAt r.msg 9).toNat) :
    s.configure r = { s with port := s.port.answerRequest r .badField [] } := by
  rw [State.configure, h]
  exact if_pos hc

theorem configure_flag (h0 : byteAt r.msg 4 ≠ 0) (h1 : byteAt r.msg 4 ≠ 1) : s.configure r = { s with port := s.port.answerRequest r .badField [] } := by
  have hf : parseFlag (byteAt r.msg 4) = none := (if_neg h0).trans (if_neg h1)
  rw [State.configure, hf]

end Config

/-! ### IDENT (10 R198) -/

theorem identBytes_eq (locked : Bool) :
    identBytes locked = [0x24, 0x16, 0x01, if locked then 1 else 0, 16, 48, 0x02, 0x00, 0x01, 0xE0, 64, 6, 4, 96, 4] := rfl

/-- Settles O11: CONFIG by its write flag and its clear-down, IDENT by its bytes. -/
theorem configAndIdent : Obligations.ConfigAndIdent := by
  refine ⟨fun s r p ht hlen => ?_, fun s r p ht hlen => ?_⟩
  · rw [exec_config ht hlen]
    refine ⟨fun h => ?_, fun h hc => congrArg _ (configure_writes h hc), fun h hc => congrArg _ (configure_clearDown h hc),
      fun h0 h1 => congrArg _ (configure_flag h0 h1)⟩
    rw [configure_reads h, ← takeRequest_defaults ht.head]
    rfl
  · refine congrArg Host.Outcome.next ((ownerTakes_whole State.identify ht hlen).trans ?_)
    simp only [State.identify, identBytes_eq]

end Sys2Proof.Machine

/-! SUPPORT. SOFT_RESET (10 R199-R202): the other slots aborted, the four orders, and what completes it. -/

namespace Sys2Proof.Machine

set_option Elab.async false

/-! ### SOFT_RESET taken (10 R199) -/

/-- Step 1 of R199 writes slots only. -/
theorem foldl_abort_frame (l : List (Fin 4)) : ∀ p : Port, l.foldl Port.abort p = { p with slots := (l.foldl Port.abort p).slots } := by
  induction l with
  | nil => exact fun _ => rfl
  | cons n l ih =>
    intro p
    have hone : p.abort n = { p with slots := (p.abort n).slots } := by
      unfold Port.abort
      simp only
      split <;> rfl
    rw [List.foldl_cons, ih, hone]

/-- A SOFT_RESET past the check of its message: the slots, the queues, the soft reset in progress and its four orders (10 R199). -/
theorem softReset_frame (p : Port) (r : Request) : p.softReset r = { p with
    slots := (p.softReset r).slots
    queue := []
    soft := some ⟨p.softId + 1, r.slot, r.sub, [], []⟩
    softId := p.softId + 1
    toSwitch := p.toSwitch ++ [p.softId + 1]
    toManager := p.toManager ++ [p.softId + 1]
    toWatchers := p.toWatchers ++ [p.softId + 1]
    toAttention := p.toAttention ++ [p.softId + 1] } := by
  unfold Port.softReset
  rw [foldl_abort_frame]

theorem aborted_pending {x : PortSlot} (h : x.st = .queued ∨ x.st = .working) : x.aborted = { x with
    st := .done
    response := [byteAt x.request 0, 0x10, byteAt x.request 2, byteAt x.request 3] ++ List.replicate 28 0 } := by
  rw [PortSlot.aborted, if_pos h, responseOf_eq (res := []) _ _ (Nat.zero_le 28)]
  rfl

theorem aborted_other {x : PortSlot} (hq : x.st ≠ .queued) (hw : x.st ≠ .working) : x.aborted = x := if_neg (not_or.2 ⟨hq, hw⟩)

/-- Taking a request changes the slots and the queue alone. -/
theorem takeRequest_frame {p q : Port} {o : Owner} {kind : Byte} {r : Request} (ht : p.takeRequest o kind = some (r, q)) :
    q = { p with slots := q.slots, queue := q.queue } := by
  obtain ⟨pre, post, _, _, _, _, _, rfl⟩ := takeRequest_some ht
  rfl

theorem exec_softReset {s : State} {r : Request} {p : Port} (ht : s.Takes .engine 0x3F r p) (hlen : byteAt r.msg 1 = 0) :
    exec .softReset s = .next { s with port := p.softReset r } :=
  congrArg Host.Outcome.next (ownerTakes_whole (fun r s => { s with port := s.port.softReset r }) ht hlen)

/-- Settles O12: the frame of a SOFT_RESET and its slots one by one; and every request waits for the orders. -/
theorem softResetAbortsTheOtherSlotsAndGivesFourOrders : Obligations.SoftResetAbortsTheOtherSlotsAndGivesFourOrders := by
  refine ⟨fun s r p ht hlen => ?_, fun x hx s _ ho => ?_⟩
  · obtain ⟨hown, hothers⟩ := slot_of_takeRequest ht.head
    have hself : (p.softReset r).slot r.slot = p.slot r.slot := by rw [slot_softReset, if_pos rfl]
    refine ⟨_, exec_softReset ht hlen, ?_, ?_, hself, fun n hn => ?_⟩
    · have hp := takeRequest_frame ht.head
      refine congrArg (fun q => ({ s with port := q } : State)) ((softReset_frame p r).trans ?_)
      rw [hp]
    · exact (congrArg PortSlot.st (hself.trans hown))
    · have hslot : (p.softReset r).slot n = (s.port.slot n).aborted := by rw [slot_softReset, if_neg hn, hothers n hn]
      exact ⟨fun h => hslot.trans (aborted_pending h), fun hq hw => hslot.trans (aborted_other hq hw)⟩
  · obtain ⟨c, o, kind, len⟩ := x
    rcases exec_request hx s with ⟨_, he⟩ | ⟨_, f, he⟩ <;> rw [he]
    · rw [managerRequest_waits kind ho]
    · rw [ownerTakes_waits o kind len f ho]

/-! ### What completes it (10 R201, R202) -/

theorem complete_iff (x : SoftReset) : x.complete = true ↔ (∀ c : ResetBlock, c ∈ x.acks) ∧ .manager x.id ∈ x.cleared := by
  simp only [SoftReset.complete, Bool.and_eq_true, List.contains_iff_mem]
  refine and_congr_left' ⟨fun ⟨⟨hm, hw⟩, ha⟩ c => ?_, fun h => ⟨⟨h _, h _⟩, h _⟩⟩
  cases c with
  | manager => exact hm
  | watcherUnit => exact hw
  | attention => exact ha

theorem record_complete {p : Port} {x : SoftReset} (h : (∀ c : ResetBlock, c ∈ x.acks) ∧ .manager x.id ∈ x.cleared) :
    p.record x = ({ p with soft := none } : Port).answer x.slot x.sub .ok [] := if_pos ((complete_iff x).2 h)

theorem record_incomplete {p : Port} {x : SoftReset} (h : ¬((∀ c : ResetBlock, c ∈ x.acks) ∧ .manager x.id ∈ x.cleared)) :
    p.record x = { p with soft := some x } := if_neg (mt (complete_iff x).1 h)

section Acknowledgements
variable {p : Port} {b : ResetBlock} {pre post : List (ResetBlock × Nat)} {id : Nat} (hacks : p.acks = pre ++ (b, id) :: post)
  (hpre : ∀ a ∈ pre, a.1 ≠ b)
include hacks hpre

theorem takeFirst_acks : takeFirst (fun a => decide (a.1 = b)) p.acks = some ((b, id), pre ++ post) := by
  rw [hacks]
  exact takeFirst_append (decide_eq_true rfl) fun a ha => decide_eq_false (hpre a ha)

/-- An acknowledgement that names the soft reset in progress is recorded. -/
theorem takeAck_records {x : SoftReset} (hx : p.soft = some x) (hid : x.id = id) :
    p.takeAck b = ({ p with acks := pre ++ post } : Port).record { x with acks := x.acks ++ [b] } := by
  simp only [Port.takeAck, takeFirst_acks hacks hpre, hx, if_pos hid]

/-- One that names an earlier SOFT_RESET is disregarded (R202). -/
theorem takeAck_disregards (hid : ∀ x, p.soft = some x → x.id ≠ id) : p.takeAck b = { p with acks := pre ++ post } := by
  simp only [Port.takeAck, takeFirst_acks hacks hpre]
  split
  · next x hx => exact if_neg (hid x hx)
  · rfl

end Acknowledgements

theorem exec_softResetAcknowledgement {s : State} (h : s.phase = .run) (b : ResetBlock) :
    exec (.softResetAcknowledgement b) s = .next { s with port := s.port.takeAck b } := congrArg Host.Outcome.next (whenRunning_run h _)

theorem exec_clearanceDoneReport {s : State} (h : s.phase = .run) : exec .clearanceDoneReport s = .next s.takeCleared :=
  congrArg Host.Outcome.next (whenRunning_run h _)

section Cleared
variable {s : State} {names : List ClearanceName} {rest : List (List ClearanceName)} (hc : s.sw.cleared = names :: rest)
include hc

theorem takeCleared_records {x : SoftReset} (hx : s.port.soft = some x) :
    s.takeCleared = { s with sw := { s.sw with cleared := rest }, port := s.port.record { x with cleared := x.cleared ++ names } } := by
  simp only [State.takeCleared, hc, hx]

theorem takeCleared_none (hx : s.port.soft = none) : s.takeCleared = { s with sw := { s.sw with cleared := rest } } := by
  simp only [State.takeCleared, hc, hx]

end Cleared

/-- Settles O13: an acknowledgement or a report is recorded for the soft reset in progress, and the record completes when nothing is missing. -/
theorem softResetCompletesWhenAllHasBeenTaken : Obligations.SoftResetCompletesWhenAllHasBeenTaken := by
  refine ⟨fun s b pre post x h hacks hpre hx => ?_, fun s b pre post id h hacks hpre hid => ?_, fun s names rest x h hc hx => ?_,
    fun s names rest h hc hx => ?_⟩
  · rw [exec_softResetAcknowledgement h, takeAck_records hacks hpre hx rfl]
    have hall : (∀ c : ResetBlock, c ∈ x.acks ++ [b]) ↔ ∀ c : ResetBlock, c ∈ x.acks ∨ c = b := by simp only [List.mem_append, List.mem_singleton]
    refine ⟨fun hdone => ?_, fun hdone => ?_⟩
    · rw [record_complete (x := { x with acks := x.acks ++ [b] }) (hdone.imp_left hall.2)]
    · rw [record_incomplete (x := { x with acks := x.acks ++ [b] }) (mt (And.imp_left hall.1) hdone)]
  · rw [exec_softResetAcknowledgement h, takeAck_disregards hacks hpre hid]
  · rw [exec_clearanceDoneReport h, takeCleared_records hc hx]
    have hnames : .manager x.id ∈ x.cleared ++ names ↔ (.manager x.id ∈ x.cleared ∨ .manager x.id ∈ names) := List.mem_append
    refine ⟨fun hdone => ?_, fun hdone => ?_⟩
    · rw [record_complete (x := { x with cleared := x.cleared ++ names }) (hdone.imp_right hnames.2)]
    · rw [record_incomplete (x := { x with cleared := x.cleared ++ names }) (mt (And.imp_right hnames.1) hdone)]
  · rw [exec_clearanceDoneReport h, takeCleared_none hc hx]

end Sys2Proof.Machine

/-! SUPPORT. The canonical form of the tables (log 32), kept by every step with no other invariant to lean on: each command writes a table by the
operations of Machine/Tables.lean alone, and a claim of the circuit manager by the changes of `Eff.Closed`. -/

namespace Sys2Proof.Machine

set_option Elab.async false

/-- Every table of the part is canonical: `State.tablesCanonical`, block by block. -/
structure State.Canonical (s : State) : Prop where
  mgr : s.mgr.Canonical
  map : Tbl.wf Content.idle s.sw.map = true
  gens : Tbl.wf Generator.initial s.gens = true
  ver : s.ver.Canonical
  lanes : Tbl.wf Lane.initial s.sup.lanes = true
  wat : s.wat.Canonical
  flags : Tbl.wf 0 s.att.flags = true
  port : s.port.Canonical

theorem canonical_iff (s : State) : s.Canonical ↔ s.tablesCanonical = true := by
  simp only [State.tablesCanonical, Bool.and_eq_true]
  constructor
  · rintro ⟨hm, hmap, hg, hv, hl, hw, hf, hp⟩
    exact ⟨⟨⟨⟨⟨⟨⟨⟨⟨⟨⟨hm.recs, hm.fan⟩, hm.view⟩, hmap⟩, hg⟩, hv.units⟩, hv.view⟩, hl⟩, hw.table⟩, hw.view⟩, hf⟩, hp⟩
  · rintro ⟨⟨⟨⟨⟨⟨⟨⟨⟨⟨⟨hr, hfan⟩, hmv⟩, hmap⟩, hg⟩, hu⟩, hvv⟩, hl⟩, ht⟩, hwv⟩, hf⟩, hp⟩
    exact ⟨⟨hr, hfan, hmv⟩, hmap, hg, ⟨hu, hvv⟩, hl, ⟨ht, hwv⟩, hf, hp⟩

theorem canonical_reset : State.reset.Canonical := ⟨⟨rfl, rfl, rfl⟩, rfl, rfl, ⟨rfl, rfl⟩, rfl, ⟨rfl, rfl⟩, rfl, rfl⟩

/-! ### The slot map (02 R34-R36) -/

theorem wf_applied (l : List Entry) : ∀ m : Tbl Content, Tbl.wf Content.idle m = true →
    Tbl.wf Content.idle (l.foldl (fun m x => Tbl.set Content.idle m x.slot.key x.content) m) = true := by
  induction l with
  | nil => exact fun _ h => h
  | cons x l ih => exact fun m h => ih _ (Tbl.wf_set _ _ _ _ h)

/-- A boundary's clearance empties the map, and its list writes entry by entry. -/
theorem wf_boundaryMap {w : Switch} (h : Tbl.wf Content.idle w.map = true) : Tbl.wf Content.idle w.boundary.map = true := by
  refine wf_applied _ _ ?_
  unfold Switch.clear
  split
  · exact h
  · rfl

@[simp] theorem fsyncLocked_map (w : Switch) (t : Nat) : (w.fsyncLocked t).map = w.map := by
  unfold Switch.fsyncLocked
  split
  · rfl
  · split <;> rfl

@[simp] theorem runOut_map (w : Switch) : w.runOut.map = w.map := by
  unfold Switch.runOut
  split <;> rfl

namespace State.Canonical

theorem choose {c : Prop} [Decidable c] {s t : State} (hs : s.Canonical) (ht : t.Canonical) : (if c then s else t).Canonical := by
  split
  · exact hs
  · exact ht

variable {s : State} (h : s.Canonical)
include h

/-! ### Replacing one block -/

theorem withOutside (q : List Instr) (p : Phase) (l : LeaseClock) (b : Bool) :
    ({ s with pending := q, phase := p, lease := l, oeHigh := b } : State).Canonical := { h with }

theorem withPort {p : Port} (hp : p.Canonical) : ({ s with port := p } : State).Canonical := { h with port := hp }

theorem withVer {v : Verifier} (hv : v.Canonical) : ({ s with ver := v } : State).Canonical := { h with ver := hv }

theorem withWat {u : WatcherUnit} (hu : u.Canonical) : ({ s with wat := u } : State).Canonical := { h with wat := hu }

theorem withSwitch {w : Switch} (hw : w.map = s.sw.map := by rfl) : ({ s with sw := w } : State).Canonical := { h with map := hw ▸ h.map }

theorem withLanes {u : Supervisor} (hu : Tbl.wf Lane.initial u.lanes = true) : ({ s with sup := u } : State).Canonical := { h with lanes := hu }

theorem withGens {g : Tbl Generator} (hg : Tbl.wf Generator.initial g = true) : ({ s with gens := g } : State).Canonical := { h with gens := hg }

theorem hand (b : RaiseBlock) (r : Raise) : ({ s with att := s.att.hand b r } : State).Canonical :=
  { h with flags := (hand_flags s.att b r).symm ▸ h.flags }

/-- A claim held, or no longer held, and its offer with it (03 R69). -/
theorem withHeld (hd : Option Machine.Held) {w : Switch} (hw : w.map = s.sw.map := by rfl) :
    ({ s with mgr := { s.mgr with held := hd }, sw := w } : State).Canonical :=
  { h with mgr := ⟨h.mgr.recs, h.mgr.fan, h.mgr.view⟩, map := hw ▸ h.map }

theorem whenRunning {f : State → State} (hf : (f s).Canonical) : (s.whenRunning f).Canonical := choose hf h

/-! ### The control port and request engine -/

theorem setSlot (n : Fin 4) (v : PortSlot) : (s.setSlot n v).Canonical := h.withPort (h.port.setSlot n v)

theorem withQueue (q : List (Owner × Fin 4)) : ({ s with port := { s.port with queue := q } } : State).Canonical := { h with }

theorem setFaults (f : PortFaults → PortFaults) : (s.setFaults f).Canonical := { h with }

theorem send (mosi payload : List Byte) : (s.send mosi payload).Canonical := { h with }

theorem transact (mosi payload : List Byte) {f : State → State} (hf : ∀ t : State, t.Canonical → (f t).Canonical) :
    (s.transact mosi payload f).Canonical := by
  unfold State.transact
  cases s.phase with
  | reset => exact h
  | init => exact (h.send _ _).setFaults _
  | run => exact hf _ (h.send _ _)

theorem writeSlot (n : Fin 4) (off : Nat) (data : List Byte) : (s.writeSlot n off data).Canonical :=
  have hst := choose (c := off < 32 ∧ data ≠ []) (h.setSlot n _) h
  choose (choose hst (hst.setFaults _)) (h.setFaults _)

theorem submitSlot (n : Fin 4) : (s.submitSlot n).Canonical := by
  refine choose ?_ (h.setFaults _)
  simp only
  split
  · exact (h.setSlot n _).withQueue _
  · exact h.setSlot n _

theorem emptySlot (n : Fin 4) : (s.emptySlot n).Canonical := choose (h.setFaults _) (h.setSlot n _)

theorem answerRequest (r : Request) (st : Status) (res : List Byte) : ({ s with port := s.port.answerRequest r st res } : State).Canonical :=
  h.withPort (h.port.answer _ _ _ _)

theorem ownerTakes (o : Owner) (kind : Byte) (len : Nat) {f : Request → State → State} (hf : ∀ r (t : State), t.Canonical → (f r t).Canonical) :
    (s.ownerTakes o kind len f).Canonical := by
  refine choose ?_ h
  split
  · exact h
  · next ht =>
    have hp := h.port.takeRequest ht
    exact choose (hf _ _ (h.withPort hp)) (h.withPort (hp.answer _ _ _ _))

theorem configure (r : Request) : (s.configure r).Canonical := by
  unfold State.configure
  split
  · exact h.answerRequest _ _ _
  · exact h.answerRequest _ _ _
  · exact choose (h.answerRequest _ _ _) (h.withPort (Port.Canonical.answer (p := { s.port with
      defaults := ⟨byteAt r.msg 5, byteAt r.msg 6, byteAt r.msg 7, byteAt r.msg 8, (byteAt r.msg 9).toNat⟩ }) h.port _ _ _ _))

theorem takeCleared : s.takeCleared.Canonical := by
  unfold State.takeCleared
  split
  · exact h
  · simp only
    split
    · exact { h with port := h.port.record _ }
    · exact h.withSwitch

/-! ### The attention unit, the generators, the lanes -/

theorem collect (r : Request) : (s.collect r).Canonical :=
  choose (h.answerRequest _ _ _) { h.answerRequest r .ok _ with flags := wf_cleared _ _ h.flags }

theorem maskSet (r : Request) : (s.maskSet r).Canonical := by
  unfold State.maskSet
  split
  · exact h.answerRequest _ _ _
  · exact { h.answerRequest r .ok _ with }

theorem takeRaise (b : RaiseBlock) : (s.takeRaise b).Canonical := by
  unfold State.takeRaise
  split
  · exact { h with flags := wf_takeRaise _ _ h.flags }
  · exact h

theorem attentionReset : s.attentionReset.Canonical := by
  unfold State.attentionReset
  split
  · exact h
  · exact { h with flags := rfl }

theorem genSet (r : Request) : (s.genSet r).Canonical := by
  unfold State.genSet
  split
  · exact h.answerRequest _ _ _
  · exact { h.answerRequest r .ok _ with gens := Tbl.wf_set _ _ _ _ h.gens }

theorem laneSet (r : Request) : (s.laneSet r).Canonical := by
  unfold State.laneSet
  simp only
  split
  · exact choose { h.answerRequest r .ok _ with lanes := Tbl.wf_set _ _ _ _ h.lanes } (h.answerRequest _ _ _)
  · exact h.answerRequest _ _ _

theorem laneQuery (r : Request) : (s.laneQuery r).Canonical := by
  refine choose (h.answerRequest _ _ _) ?_
  split <;> exact h.answerRequest _ _ _

theorem judgeLane (l : Fin 16) : (s.judgeLane l).Canonical := by
  unfold State.judgeLane
  simp only
  split
  · exact h
  · have hl (x : Lane) := Tbl.wf_set Lane.initial s.sup.lanes l.val x h.lanes
    exact choose { h with lanes := hl _ } { h.hand .supervisor _ with lanes := hl _ }

/-! ### The path verifier -/

theorem takeNotice (u : Fin 4) (b : Bool) : (s.takeNotice u b).Canonical := by
  unfold State.takeNotice
  split
  · exact { h with ver := h.ver.takeNotice _ b }
  · exact h

theorem judgeUnit (u : Fin 4) (k : Nat) : (s.judgeUnit u k).Canonical := by
  unfold State.judgeUnit
  simp only
  split
  · exact h.withVer ((h.ver.setUnit u _).withOutcomes _)
  · exact h

theorem tokenFrameEnd (u : Fin 4) : (s.tokenFrameEnd u).Canonical := by
  unfold State.tokenFrameEnd
  split
  · exact h.judgeUnit _ _
  · exact h

theorem verifyTimeout (u : Fin 4) : (s.verifyTimeout u).Canonical := by
  unfold State.verifyTimeout
  split
  · exact choose (h.judgeUnit _ _) h
  · exact h

theorem verifierLane (l : Fin 16) : (s.verifierLane l).Canonical := by
  unfold State.verifierLane
  split
  · exact { h with ver := h.ver.takeLane _ }
  · exact h

/-! ### The watcher unit -/

theorem setWatcher (w : Nat) (x : Watcher) : ({ s with wat := s.wat.setWatcher w x } : State).Canonical :=
  h.withWat ⟨Tbl.wf_set _ _ _ _ h.wat.table, h.wat.view⟩

theorem updChain (w : Nat) (f : Nat → WatchRun → WatchRun) : ({ s with wat := s.wat.updChain w f } : State).Canonical :=
  h.withWat (h.wat.updChain _ _)

theorem updRun (w : Nat) (f : WatchRun → WatchRun) : ({ s with wat := s.wat.updRun w f } : State).Canonical := h.setWatcher _ _

theorem raiseWatch (w : Nat) (c : Cause) : (s.raiseWatch w c).Canonical := h.hand _ _

theorem handClaims (l : List ActionClaim) : (s.handClaims l).Canonical := h.withWat ⟨h.wat.table, h.wat.view⟩

theorem dropOrder : s.dropOrder.Canonical := h.withWat ⟨h.wat.table, h.wat.view⟩

theorem sampleWatcher (w : Nat) : (s.sampleWatcher w).Canonical := choose (h.setWatcher _ _) h

theorem watchEvent (w : Nat) (e : IntervalEvent) : (s.watchEvent w e).Canonical := by
  cases e with
  | none => exact h
  | confirmation =>
    have hcount := h.updRun w fun r => { r with confirmations := min 255 (r.confirmations + 1) }
    have hr := hcount.raiseWatch w .confirmed
    exact choose (hr.handClaims _) hr
  | clearing =>
    have hr := h.raiseWatch w .cleared
    exact choose (hr.handClaims _) hr

theorem endInterval (w : Nat) : (s.endInterval w).Canonical :=
  have hn : ({ s with wat := s.wat.nextInterval w } : State).Canonical := h.updChain w _
  choose (choose hn ((hn.updRun w _).watchEvent w _)) h

theorem watcherLane (l : Fin 16) : (s.watcherLane l).Canonical := by
  unfold State.watcherLane
  split
  · exact { h with wat := h.wat.takeLane _ }
  · exact h

theorem watchSet (r : Request) : (s.watchSet r).Canonical := by
  unfold State.watchSet
  split
  · exact h.answerRequest _ _ _
  · exact choose (h.answerRequest _ _ _) ((h.setWatcher _ _).answerRequest _ _ _)

theorem watchArm (r : Request) : (s.watchArm r).Canonical := by
  unfold State.watchArm
  split
  · exact h.answerRequest _ _ _
  · exact choose (h.answerRequest _ _ _) ((h.updChain _ _).answerRequest _ _ _)

theorem watchDisarm (r : Request) : (s.watchDisarm r).Canonical := by
  unfold State.watchDisarm
  split
  · exact h.answerRequest _ _ _
  · exact choose (h.answerRequest _ _ _) (choose (h.answerRequest _ _ _) ((h.updChain _ _).answerRequest _ _ _))

theorem watchQuery (r : Request) : (s.watchQuery r).Canonical := by
  unfold State.watchQuery
  split <;> exact h.answerRequest _ _ _

theorem takeArm : s.takeArm.Canonical := by
  unfold State.takeArm
  split
  · exact choose (choose (h.dropOrder.updChain _ _) (h.dropOrder.hand _ _)) h.dropOrder
  · exact h

theorem takeDisarm : s.takeDisarm.Canonical := by
  unfold State.takeDisarm
  split
  · exact choose (h.dropOrder.updChain _ _) h.dropOrder
  · exact h

theorem takeReturn : s.takeReturn.Canonical := by
  unfold State.takeReturn
  split
  · exact choose (h.dropOrder.updChain _ _) h.dropOrder
  · exact h

theorem watcherReset : s.watcherReset.Canonical := by
  unfold State.watcherReset
  split
  · exact h
  · exact { h with wat := h.wat.softReset }

/-! ### Claims (01 R17, 03 R69) -/

/-- A claim's changes are made: its effect keeps the tables by `Eff.canonical_closed`. -/
theorem effect_commit (d : Defaults) (c : Claim) (offer : List Entry) (order : Option ClearCount) :
    ((effect d c (Eff.start s)).commit offer order s).Canonical := by
  have hstart : (Eff.start s).Canonical := ⟨h.mgr.recs, h.mgr.fan, h.mgr.view, h.ver, h.wat, h.port⟩
  have he := Eff.canonical_closed.effect d c _ hstart
  exact { h.hand .manager _ with mgr := ⟨he.recs, he.fan, he.view⟩, ver := he.ver, wat := he.wat, port := he.port }

theorem takeClaim (c : Claim) : (s.takeClaim c).Canonical := choose (h.effect_commit _ _ _ _) (h.withHeld _)

theorem managerRequest (kind : Byte) : (s.managerRequest kind).Canonical := by
  refine choose ?_ h
  split
  · next ht => exact (h.withPort (h.port.takeRequest ht)).takeClaim _
  · exact h

theorem claimReport : s.claimReport.Canonical := by
  unfold State.claimReport
  split
  · exact h.withSwitch.takeClaim _
  · exact h

theorem claimClearDownEnd : s.claimClearDownEnd.Canonical := by
  unfold State.claimClearDownEnd
  split
  · exact h.withSwitch.takeClaim _
  · exact h

theorem claimExpiry : s.claimExpiry.Canonical := by
  unfold State.claimExpiry
  split
  · exact (h.withOutside s.pending s.phase _ s.oeHigh).takeClaim _
  · exact h

theorem claimOutcome (b : Bool) : (s.claimOutcome b).Canonical := by
  unfold State.claimOutcome
  split
  · exact choose ((h.withVer (h.ver.withOutcomes _)).takeClaim _) h
  · exact h

theorem claimAction (p : ActionClaim → Bool) : (s.claimAction p).Canonical := by
  unfold State.claimAction
  split
  · next rest _ _ => exact choose ((h.withWat (u := { s.wat with claims := rest }) ⟨h.wat.table, h.wat.view⟩).takeClaim _) h
  · exact h

theorem claimLane (l : Fin 16) : (s.claimLane l).Canonical := by
  refine choose ?_ h
  split
  · next rest _ => exact (h.withLanes (u := { s.sup with toManager := rest }) h.lanes).takeClaim _
  · exact h

theorem takeHeld : s.takeHeld.Canonical := by
  unfold State.takeHeld
  split
  · refine choose ?_ h
    have hfree := h.withHeld none (w := { s.sw with kept := none })
    split
    · exact choose (hfree.effect_commit _ _ _ _) (hfree.hand _ _)
    · exact hfree.effect_commit _ _ _ _
  · exact h

/-! ### The lease clock and the soft reset -/

theorem leaseEvent : s.leaseEvent.Canonical :=
  { h with mgr := ⟨Tbl.wf_mapAll (Rec.free 0) (fun _ r => r.leaseTick) _ h.mgr.recs, h.mgr.fan, h.mgr.view⟩ }

/-- The records are made anew, FREE at the next generation, and those at their reset values are left out (01 R22). -/
theorem softResetClaim : s.softResetClaim.Canonical := by
  unfold State.softResetClaim
  split
  · have hr : Tbl.wf (Rec.free 0) s.mgr.softReset.recs = true := by simp only [Manager.softReset, wf_freedRecords]
    have hf : Tbl.wf [] s.mgr.softReset.fan = true := by simp only [Manager.softReset, Tbl.wf]
    have hv : s.mgr.softReset.view = s.mgr.view := by simp only [Manager.softReset]
    exact { h with
      mgr := ⟨hr, hf, by rw [hv]; exact h.mgr.view⟩
      ver := h.ver.withUnits (Tbl.wf_mapAll VerifyUnit.idle (fun _ x => x.reset) _ h.ver.units) }
  · exact h

theorem clearanceOrder : s.clearanceOrder.Canonical := by
  unfold State.clearanceOrder
  split
  · exact h
  · next rest _ => exact (h.withPort (p := { s.port with toSwitch := rest }) h.port).takeHeld.withHeld none

/-! ### Boundaries and the frame timing -/

theorem endFrame (rx : FrameIn) (bits : Nat) : (s.endFrame rx bits).Canonical := by
  have hl (b : Bool) : Tbl.wf Lane.initial (s.sup.endFrame rx bits b).lanes = true := by
    simp only [Supervisor.endFrame, Tbl.wf_updAll _ _ _ _ h.lanes]
  have hv := h.ver.withUnits (Tbl.wf_mapAll VerifyUnit.idle (fun _ x => x.endFrame) _ h.ver.units)
  exact choose (((h.withLanes (hl true)).withVer hv).withWat h.wat.endFrame).withSwitch (h.withLanes (hl false))

theorem switchBoundary : ({ s with sw := s.sw.boundary } : State).Canonical := { h with map := wf_boundaryMap h.map }

theorem startFrame (t : Nat) : (s.startFrame t).Canonical := by
  have hv := h.ver.withUnits (Tbl.wf_updAll VerifyUnit.idle Config.units (fun u x => x.startFrame u) _ h.ver.units)
  unfold State.startFrame
  exact { h.withGens (Tbl.wf_updAll _ _ _ _ h.gens) with ver := hv, wat := h.wat.startFrame }

theorem boundary (rx : FrameIn) (bits t : Nat) : (s.boundary rx bits t).Canonical :=
  (h.takeHeld.endFrame rx bits).switchBoundary.startFrame t

theorem enterLocked : s.enterLocked.Canonical := { h.hand _ _ with }

theorem fsyncMissed : s.fsyncMissed.Canonical := choose (choose { h.hand _ _ with } h.withSwitch) h

theorem fsyncFreerun (t : Nat) (rx : FrameIn) : (s.fsyncFreerun t rx).Canonical :=
  choose h (choose (choose h.enterLocked (h.enterLocked.boundary _ _ _)) h.withSwitch)

theorem candidatePassed : s.candidatePassed.Canonical := by
  unfold State.candidatePassed
  split
  · exact h.withSwitch
  · exact h

/-! ### The commands -/

/-- Every command but the events of the pins has a next state, and its tables are canonical. -/
theorem exec_of_not_pinEvent {c : Instr} (hc : isPinEvent c = false) : ∃ t, Machine.exec c s = .next t ∧ t.Canonical := by
  cases c with
  | hardReset | rstNRelease | tinitEnd | oeNChange high => cases hc
  | readStatus mosi => exact ⟨_, rfl, choose h (h.send _ _)⟩
  | writeSlot n mosi =>
    refine ⟨_, rfl, h.transact _ _ fun t ht => ?_⟩
    cases mosi with
    | nil => exact ht
    | cons off data => exact ht.writeSlot _ _ _
  | readSlot n mosi =>
    refine ⟨_, rfl, h.transact _ _ fun t ht => ?_⟩
    cases mosi with
    | nil => exact ht
    | cons off data => exact choose ht (ht.setFaults _)
  | submit n mosi => exact ⟨_, rfl, h.transact _ _ fun _ ht => ht.submitSlot n⟩
  | clearSlot n mosi => exact ⟨_, rfl, h.transact _ _ fun _ ht => ht.emptySlot n⟩
  | clearPortFaults mosi => exact ⟨_, rfl, h.transact _ _ fun _ ht => ht.setFaults _⟩
  | unknownTransactionCode code mosi => exact ⟨_, rfl, choose h (h.transact _ _ fun _ ht => ht.setFaults _)⟩
  | openCircuit | openPair | addLeg | dropLeg | moveSource | hold | resume | release | touch | query | findOut | findIn | accessEnd =>
    exact ⟨_, rfl, h.managerRequest _⟩
  | genSet => exact ⟨_, rfl, h.ownerTakes _ _ _ fun r _ ht => ht.genSet r⟩
  | laneSet => exact ⟨_, rfl, h.ownerTakes _ _ _ fun r _ ht => ht.laneSet r⟩
  | laneQuery => exact ⟨_, rfl, h.ownerTakes _ _ _ fun r _ ht => ht.laneQuery r⟩
  | watchSet => exact ⟨_, rfl, h.ownerTakes _ _ _ fun r _ ht => ht.watchSet r⟩
  | watchArm => exact ⟨_, rfl, h.ownerTakes _ _ _ fun r _ ht => ht.watchArm r⟩
  | watchDisarm => exact ⟨_, rfl, h.ownerTakes _ _ _ fun r _ ht => ht.watchDisarm r⟩
  | watchQuery => exact ⟨_, rfl, h.ownerTakes _ _ _ fun r _ ht => ht.watchQuery r⟩
  | collect => exact ⟨_, rfl, h.ownerTakes _ _ _ fun r _ ht => ht.collect r⟩
  | maskSet => exact ⟨_, rfl, h.ownerTakes _ _ _ fun r _ ht => ht.maskSet r⟩
  | config => exact ⟨_, rfl, h.ownerTakes _ _ _ fun r _ ht => ht.configure r⟩
  | ident => exact ⟨_, rfl, h.ownerTakes _ _ _ fun r _ ht => ht.answerRequest r _ _⟩
  | softReset => exact ⟨_, rfl, h.ownerTakes _ _ _ fun r _ ht => ht.withPort (ht.port.softReset r)⟩
  | heldClaimTaken => exact ⟨_, rfl, h.whenRunning h.takeHeld⟩
  | fsyncInLocked t => exact ⟨_, rfl, h.whenRunning (choose (h.withSwitch (fsyncLocked_map _ _)) h)⟩
  | fsyncMissed => exact ⟨_, rfl, h.whenRunning h.fsyncMissed⟩
  | fsyncInFreerun t rx => exact ⟨_, rfl, h.whenRunning (h.fsyncFreerun t rx)⟩
  | candidatePositionPassed => exact ⟨_, rfl, h.whenRunning h.candidatePassed⟩
  | frameBoundary rx => exact ⟨_, rfl, h.whenRunning (h.boundary _ _ _)⟩
  | clearDownRunOut => exact ⟨_, rfl, h.whenRunning (h.withSwitch (runOut_map _))⟩
  | clearanceOrder => exact ⟨_, rfl, h.whenRunning h.clearanceOrder⟩
  | boundaryReport => exact ⟨_, rfl, h.claimReport⟩
  | tokenNotice u b => exact ⟨_, rfl, h.whenRunning (h.takeNotice u b)⟩
  | clearDownEnd => exact ⟨_, rfl, h.claimClearDownEnd⟩
  | laneFrameJudgement l => exact ⟨_, rfl, h.whenRunning (h.judgeLane l)⟩
  | laneChangeClaim l => exact ⟨_, rfl, h.claimLane l⟩
  | watcherLaneChangeReport l => exact ⟨_, rfl, h.whenRunning (h.watcherLane l)⟩
  | verifierLaneChangeReport l => exact ⟨_, rfl, h.whenRunning (h.verifierLane l)⟩
  | leaseEvent => exact ⟨_, rfl, h.whenRunning h.leaseEvent⟩
  | expiryClaim => exact ⟨_, rfl, h.claimExpiry⟩
  | tokenFrameEnd u => exact ⟨_, rfl, h.whenRunning (h.tokenFrameEnd u)⟩
  | verifyTimeout u => exact ⟨_, rfl, h.whenRunning (h.verifyTimeout u)⟩
  | detectedOutcome | verifyFailureOutcome => exact ⟨_, rfl, h.claimOutcome _⟩
  | watcherSample w => exact ⟨_, rfl, h.whenRunning (h.sampleWatcher _)⟩
  | intervalEnd w => exact ⟨_, rfl, h.whenRunning (h.endInterval _)⟩
  | releaseLinkedClaim | holdLinkedClaim | suppressionClaim | accessClaim | endOfAccessClaim => exact ⟨_, rfl, h.claimAction _⟩
  | armingOrder => exact ⟨_, rfl, h.whenRunning h.takeArm⟩
  | disarmingOrder => exact ⟨_, rfl, h.whenRunning h.takeDisarm⟩
  | returnOrder => exact ⟨_, rfl, h.whenRunning h.takeReturn⟩
  | softResetClaim => exact ⟨_, rfl, h.softResetClaim⟩
  | watcherSoftResetOrder => exact ⟨_, rfl, h.whenRunning h.watcherReset⟩
  | attentionSoftResetOrder => exact ⟨_, rfl, h.whenRunning h.attentionReset⟩
  | softResetAcknowledgement b => exact ⟨_, rfl, h.whenRunning (h.withPort (h.port.takeAck b))⟩
  | clearanceDoneReport => exact ⟨_, rfl, h.whenRunning h.takeCleared⟩
  | attentionRaise b => exact ⟨_, rfl, h.whenRunning (h.takeRaise b)⟩

/-- Every command has a next state, and its tables are canonical: RST_N brings the hard-reset values, and the other pins reach no table. -/
theorem exec (c : Instr) : ∃ t, Machine.exec c s = .next t ∧ t.Canonical := by
  cases hc : isPinEvent c with
  | false => exact h.exec_of_not_pinEvent hc
  | true =>
    rcases exec_pinEvent hc s with ⟨b, he⟩ | ⟨p, l, b, he⟩
    · exact ⟨_, he, canonical_reset.withOutside _ _ _ _⟩
    · exact ⟨_, he, h.withOutside _ _ _ _⟩

end State.Canonical

/-- Settles O56: the empty queue leaves the state, and the front command keeps every table by the writes it is made of. -/
theorem stepsKeepTablesCanonical : Obligations.StepsKeepTablesCanonical := by
  intro s t hs hstep
  have hs : s.Canonical := (canonical_iff s).2 hs
  refine (canonical_iff t).1 ?_
  obtain rfl | ⟨c, rest, he⟩ := step_cases hstep
  · exact hs
  · obtain ⟨t', ht, hcanonical⟩ := (hs.withOutside rest s.phase s.lease s.oeHigh).exec c
    obtain rfl : t' = t := Host.Outcome.next.inj (ht.symm.trans he)
    exact hcanonical

end Sys2Proof.Machine
